-- ==== Sys2Proof/Word.lean ====
section
/-! DEFINITION. The plain data types the block moves: a byte, the 32-bit words of the host request and
of the address and data-length registers, the 24-bit flash address of a transaction, and memory as a
list of cells (R9, R36, R50, R52, R121). -/

namespace Sys2Proof

/-- One byte: the unit in which the block moves data (R86). -/
abbrev Byte := BitVec 8

/-- A 32-bit word: an operand of the host request (R121), `CR.AR` (R50) or `CR.DL` (R52). -/
abbrev Word32 := BitVec 32

/-- A flash byte offset as a transaction carries it, "optional 24-bit value" (R36). -/
abbrev Addr24 := BitVec 24

/-- Sparse byte memory: cells by strictly rising address, in the canonical form of `Machine.Memory.wf`. -/
abbrev Memory := List Host.Cell

end Sys2Proof
end

