-- ==== Sys2Proof/Config.lean ====
section
/-! DEFINITION. The configuration record the model takes as an argument (R7, R8, R60), the illustrative
parameter set P0 (R15), and the free values: what the spec calls a `draw` (R10), as constants without a
body, so that nothing can be proved of the value they have. -/

namespace Sys2Proof

/-- OperatingMode: how many signal lines are active per phase (R33). `quad` is also called QPI. -/
inductive OperatingMode
  | single
  | dual
  | quad
  deriving DecidableEq, Repr

/-- The configuration record of R7. It is fixed before reset and never changes (R60); the model carries
it as a field of `State` that no step writes, so that every statement about every state holds for every
configuration. -/
structure Config where
  /-- `PAGE_CHUNK`: the page-program chunk size in bytes, also the page size. -/
  pageChunk   : Nat
  /-- `SECTOR_SIZE`: the erase-sector size in bytes. -/
  sectorSize  : Nat
  /-- `ADDR_BITS`: the total address-bit width of the flash. -/
  addrBits    : Nat
  /-- `OM_DEFAULT`: the chosen default operating mode. -/
  omDefault   : OperatingMode
  /-- `MAX_ATTEMPTS`: the bound of `waitUntilReady`. -/
  maxAttempts : Word32
  /-- `BUSY_BIT`: the position of the busy flag in the status byte. -/
  busyBit     : Fin 8
  /-- `OPC_RDSR`. -/
  opcRdsr     : Byte
  /-- `OPC_WREN`. -/
  opcWren     : Byte
  /-- `OPC_CE`. -/
  opcCe       : Byte
  /-- `OPC_SE`. -/
  opcSe       : Byte
  /-- `OPC_PP`. -/
  opcPp       : Byte
  /-- `OPC_READ`. -/
  opcRead     : Byte
  /-- `OPC_EQPI`. -/
  opcEqpi     : Byte
  /-- `DUMMY_MM`: dummy cycles of the memory-mapped read command. -/
  dummyMM     : BitVec 5
  /-- `MM_BASE`: the host address where the memory-mapped window begins. -/
  mmBase      : Nat
  /-- `TIMING_CFG`: an opaque value; no rule looks inside it. -/
  timingCfg   : Nat
  deriving DecidableEq, Repr

namespace Config

/-- The seven opcode bytes, in the order of R128. -/
def opcodes (c : Config) : List Byte :=
  [c.opcRdsr, c.opcWren, c.opcCe, c.opcSe, c.opcPp, c.opcRead, c.opcEqpi]

/-- The number of bytes of the flash array, `2^ADDR_BITS` (R80). -/
def flashSize (c : Config) : Nat := 2 ^ c.addrBits

/-- The constraints on the parameters (R8). `BUSY_BIT` and `DUMMY_MM` meet theirs by their types. -/
def wf (c : Config) : Bool :=
  decide (1 ≤ c.pageChunk) && decide (1 ≤ c.sectorSize)
    && decide (1 ≤ c.addrBits) && decide (c.addrBits ≤ 24)
    && decide (c.opcodes.Nodup)
    && decide (c.flashSize % c.sectorSize = 0) && decide (c.flashSize % c.pageChunk = 0)

/-- `ADSIZE_BYTES = ceil(ADDR_BITS / 8)` (R8). -/
def adsizeBytes (c : Config) : Nat := (c.addrBits + 7) / 8

/-- The illustrative parameter set P0 (R15). PRESUMED: it is general knowledge and not the source's; the
machine after reset carries it because a plain `State.reset` must carry some configuration (log entry 1).
DESIGN CHOICE: P0 lists no value for the opaque `TIMING_CFG` (D46 leaves it open); the 0 here is the model's
own (log entries 1 and 22). -/
def illustrative : Config where
  pageChunk   := 256
  sectorSize  := 4096
  addrBits    := 24
  omDefault   := .quad
  maxAttempts := 3
  busyBit     := 0
  opcRdsr     := 0x05
  opcWren     := 0x06
  opcCe       := 0xC7
  opcSe       := 0x20
  opcPp       := 0x02
  opcRead     := 0x03
  opcEqpi     := 0x38
  dummyMM     := 0
  mmBase      := 0x90000000
  timingCfg   := 0

/-- Free value: whether the peripheral enables at the n-th draw (R43, R109, U13). -/
opaque freeEnable : Nat → Bool

/-- Free value: whether CTRL takes the step a waiting sequencer needs at the n-th draw (R105, R106, U14). -/
opaque freeLift : Nat → Bool

/-- Free value: whether the chip has finished its internal operation at the n-th draw (R100, U14). -/
opaque freeDone : Nat → Bool

/-- Free value: the value `CR.BUSY` reads as in memory-mapped mode at the n-th draw (R54, U12). -/
opaque freeBusy : Nat → Bool

/-- Free value: the status bits other than `BUSY_BIT` at the n-th draw (R104, U15). -/
opaque freeStatus : Nat → BitVec 8

/-- Free value: the i-th byte of an unspecified answer made at the n-th draw (R83, R103, U6, U7). -/
opaque freeByte : Nat → Nat → BitVec 8

/-- Free value: a flag of the chip after an unspecified effect at the n-th draw (U6, U7, U9). -/
opaque freeFlag : Nat → Nat → Bool

/-- Free value: the array's cells after an unspecified effect at the n-th draw (U6, U7, U17). -/
opaque freeCells : Nat → List Host.Cell

/-- Free value: the cells, where the chip's destructive operation number `k` works, while it works (R271, R275, R281,
U17). -/
opaque freeWork : Nat → List Host.Cell

end Config

end Sys2Proof
end

