-- ==== Sys2Proof/Syntax.lean ====
section
/-! DEFINITION. The instructions: one constructor per row of spec/opcode_table.json, at the spec's three
levels (R14): four host operations (R121), seven flash commands (R128), four internal operations (R160,
R170, R221, R246); with the operand types they need: the commands, the functional modes, the transaction
of R36, and the wire frame of R98. -/

namespace Sys2Proof

/-- FunctionalMode, the value of the `FM` register (R31). -/
inductive FunctionalMode
  | uninitialized
  | indirectWrite
  | indirectRead
  | memoryMapped
  deriving DecidableEq, Repr

/-- The seven members of the Command table (R35). -/
inductive Command
  | readStatusRegister
  | writeEnable
  | chipErase
  | sectorErase
  | pageProgram
  | readData
  | enableQPI
  deriving DecidableEq, Repr

/-- `TR.data`: absent, or a reference to a byte sequence (R36): the one-byte latch `SEQ.status`, where the sequencer's
status reads are stored (R200); a one-byte buffer of the direct caller's own (R179); and the data buffer HOST lends for
a write, named by an index into it, which the block reads and never writes (R61). -/
inductive DataRef
  | absent
  | status
  | caller
  | buffer (off : Word32)
  deriving DecidableEq, Repr

/-- A Transaction (R36): what `apply` is given and the latch `TR` holds. -/
structure Transaction where
  command     : Command
  address     : Option Addr24
  dummyCycles : BitVec 5
  data        : DataRef
  dataLength  : Word32
  deriving DecidableEq, Repr

/-- The line counts a phase can have (R34): 1, 2 or 4. -/
inductive Lines
  | one
  | two
  | four
  deriving DecidableEq, Repr

/-- PhaseWidths (R34): the line count of the instruction, address and data phases. -/
structure PhaseWidths where
  instr : Lines
  addr  : Lines
  data  : Lines
  deriving DecidableEq, Repr

/-- The direction of a frame's data phase (R98). -/
inductive Direction
  | write
  | read
  deriving DecidableEq, Repr

/-- A wire frame: what CTRL delivers to FLASH for one indirect transaction (R98, R127). `len` is the number
of data bytes the frame asks for, so that a read frame says how many FLASH returns. -/
structure Frame where
  iw     : Lines
  opcode : Byte
  aw     : Option Lines
  abytes : Nat
  addr   : Option Nat
  dummy  : BitVec 5
  dw     : Option Lines
  dir    : Direction
  len    : Nat
  data   : List Byte
  deriving DecidableEq, Repr

/-- The instructions, one constructor per row of spec/opcode_table.json. -/
inductive Instr
  /-- `INIT`, `initialize()` (R265). -/
  | init
  /-- `MERASE`, `massErase()` (R270). -/
  | merase
  /-- `SERASE <addr>`, `eraseSector(address)` (R274). -/
  | serase (addr : Word32)
  /-- `WRITE <dest>, <bytes>`, `writeMemory(destination, data)` (R277): the bytes by reference, the first
  `len` of the buffer HOST lends (R61, R121). -/
  | write (dest len : Word32)
  /-- `RDSR`, ReadStatusRegister (R200). -/
  | rdsr
  /-- `WREN`, WriteEnable (R201). -/
  | wren
  /-- `CE`, ChipErase (R202). -/
  | ce
  /-- `SE`, SectorErase at a flash offset (R203). -/
  | se (a : Addr24)
  /-- `PP`, PageProgram of the first `n` bytes of the lent buffer at a flash offset (R204). -/
  | pp (a : Addr24) (n : Word32)
  /-- `READ`, ReadData, memory-mapped only (R205). -/
  | read
  /-- `EQPI`, EnableQPI (R206). -/
  | eqpi
  /-- `widthFor(mode)`, the Mode Table (R160). -/
  | widthFor (om : OperatingMode)
  /-- `apply(T, fm, om)`, the Transaction Builder (R170). -/
  | apply (t : Transaction) (fm : FunctionalMode) (om : OperatingMode)
  /-- `waitUntilReady(maxAttempts)`, the Busy-Wait Protocol (R220). -/
  | waitUntilReady (maxAttempts : Word32)
  /-- `enterMemoryMapped()`, the restoration step (R246). -/
  | enterMemoryMapped
  deriving DecidableEq, Repr

end Sys2Proof
end

