-- ==== Sys2Proof/WellFormed.lean ====
section
/-! DEFINITION. Which instructions are well formed: the part of the contract of `apply` that can be read
off the instruction and the configuration alone (R129, R182, R203, R204). The host operations take any
32-bit operands (their range is a matter of acceptance, R261), and so does `waitUntilReady` (R225). -/

namespace Sys2Proof

namespace Transaction

/-- "`TR.address`, when present, is below `2^ADDR_BITS`" (R182). -/
def addressInRange (c : Config) (t : Transaction) : Bool :=
  match t.address with
  | none   => true
  | some a => decide (a.toNat < c.flashSize)

/-- "`TR.data` is `none` exactly when `TR.dataLength = 0`" (R182). -/
def dataMatchesLength (t : Transaction) : Bool :=
  decide (t.data = .absent) == decide (t.dataLength = 0)

/-- The bytes of a PageProgram lie in one page (R88): `(a mod PAGE_CHUNK) + len <= PAGE_CHUNK` and
`1 <= len <= PAGE_CHUNK`. -/
def withinPage (c : Config) (a : Addr24) (n : Word32) : Bool :=
  decide (1 ≤ n.toNat) && decide (n.toNat ≤ c.pageChunk)
    && decide (a.toNat % c.pageChunk + n.toNat ≤ c.pageChunk)

/-- "The combination of command, address, data and `fm` is a row of `30_encoding.md` rule R129" (R182). A byte that is
read in goes to `SEQ.status` (R200) or to the caller's own buffer (R179), and never to the lent buffer, which the block
only reads (R61, log entry 18). The bytes of a PageProgram come from any of the three (R36, R178). -/
def rowOfTable (t : Transaction) (fm : FunctionalMode) : Bool :=
  match t.command, t.address, t.data, fm with
  | .readStatusRegister, none,   .status,   .indirectRead  => decide (t.dataLength = 1)
  | .readStatusRegister, none,   .caller,   .indirectRead  => decide (t.dataLength = 1)
  | .writeEnable,        none,   .absent,   .indirectWrite => true
  | .chipErase,          none,   .absent,   .indirectWrite => true
  | .sectorErase,        some _, .absent,   .indirectWrite => true
  | .pageProgram,        some _, .buffer _, .indirectWrite => true
  | .pageProgram,        some _, .status,   .indirectWrite => true
  | .pageProgram,        some _, .caller,   .indirectWrite => true
  | .readData,           none,   .absent,   .memoryMapped  => true
  | .enableQPI,          none,   .absent,   .indirectWrite => true
  | _, _, _, _ => false

/-- The width and the dummy cycles are those of the command's row in R129: `OM_DEFAULT`, but `Single` for EnableQPI
(R207); no dummy cycles, but `DUMMY_MM` for ReadData (R172). A call that produces a `CFG` outside the table is a
contract violation (R131 h). -/
def shapeOfTable (c : Config) (t : Transaction) (om : OperatingMode) : Bool :=
  match t.command with
  | .readData  => decide (t.dummyCycles = c.dummyMM) && decide (om = c.omDefault)
  | .enableQPI => decide (t.dummyCycles = 0) && decide (om = .single)
  | _          => decide (t.dummyCycles = 0) && decide (om = c.omDefault)

/-- A PageProgram lies within one page (R182). -/
def pageRespected (c : Config) (t : Transaction) : Bool :=
  match t.command, t.address with
  | .pageProgram, some a => withinPage c a t.dataLength
  | _, _                 => true

/-- The part of the contract of `apply` that needs no state (R131 h, R182). -/
def wf (c : Config) (t : Transaction) (fm : FunctionalMode) (om : OperatingMode) : Bool :=
  t.addressInRange c && t.dataMatchesLength && t.rowOfTable fm && t.shapeOfTable c om && t.pageRespected c

end Transaction

/-- An instruction is well formed for a configuration. -/
def Instr.wf (c : Config) : Instr → Bool
  | .init               => true
  | .merase             => true
  | .serase _           => true
  | .write _ _          => true
  | .rdsr               => true
  | .wren               => true
  | .ce                 => true
  | .se a               => decide (a.toNat < c.flashSize)
  | .pp a n             => decide (a.toNat < c.flashSize) && Transaction.withinPage c a n
  | .read               => true
  | .eqpi               => true
  | .widthFor _         => true
  | .apply t fm om      => t.wf c fm om
  | .waitUntilReady _   => true
  | .enterMemoryMapped  => true

end Sys2Proof
end

