-- ==== Sys2Proof/Decode.lean ====
section
/-! DEFINITION. The encodings of 30_encoding.md: the codes of the fields, the packed word `CFG` (format T,
R123), the shape of each command's transaction (R129), the decoding of the host request (format H, R121) and
of a transaction word (format T, by the match and mask of spec/opcode_table.json), the wire frame of a
configuration (format W, R127), and after them the encoder. -/

namespace Sys2Proof

/-! ## Codes -/

/-- `enc`: the width code of a line count (R46, R124). Code 0 is an absent phase. -/
def enc : Lines → BitVec 2
  | .one  => 1
  | .two  => 2
  | .four => 3

/-- `lines`: the line count of a width code, none when the phase is absent (R127). -/
def lines (code : BitVec 2) : Option Lines :=
  if code = 1 then some .one
  else if code = 2 then some .two
  else if code = 3 then some .four
  else none

/-- The number of signal lines. -/
def Lines.count : Lines → Nat
  | .one  => 1
  | .two  => 2
  | .four => 4

/-- `w` of R129: the width code of an operating mode, the last column of the table of R161. -/
def modeCode : OperatingMode → BitVec 2
  | .single => 1
  | .dual   => 2
  | .quad   => 3

/-- `code(fm)`: the functional-mode code of `CR.FMODE` (R45, R125, R170). `Uninitialized` has none: it is a
state of the block and no value of the register field (D8). -/
def fmodeCode : FunctionalMode → Option (BitVec 2)
  | .uninitialized => none
  | .indirectWrite => some 0
  | .indirectRead  => some 1
  | .memoryMapped  => some 3

/-- The state encoding of `FM` (R31). -/
def fmStateCode : FunctionalMode → BitVec 2
  | .uninitialized => 0
  | .indirectWrite => 1
  | .indirectRead  => 2
  | .memoryMapped  => 3

/-- The address-size code: `ADSIZE_BYTES - 1` (R49, R126). -/
def adsizeCode (c : Config) : BitVec 2 := BitVec.ofNat 2 (c.adsizeBytes - 1)

/-- The parameter that holds a command's opcode byte (R35, R128). -/
def Config.opcode (c : Config) : Command → Byte
  | .readStatusRegister => c.opcRdsr
  | .writeEnable        => c.opcWren
  | .chipErase          => c.opcCe
  | .sectorErase        => c.opcSe
  | .pageProgram        => c.opcPp
  | .readData           => c.opcRead
  | .enableQPI          => c.opcEqpi

/-! ## The packed word `CFG` -/

/-- The fields of `CFG` (R123). -/
structure CfgFields where
  instr  : BitVec 8
  imode  : BitVec 2
  admode : BitVec 2
  adsize : BitVec 2
  abmode : BitVec 2
  absize : BitVec 2
  dcyc   : BitVec 5
  dmode  : BitVec 2
  fmode  : BitVec 2
  deriving DecidableEq, Repr

/-- Format T: the fields in their places, the reserved bits 23 and 31:28 zero (R123, R131 c). -/
def packCfg (f : CfgFields) : BitVec 32 :=
  (0#4 ++ f.fmode ++ f.dmode ++ 0#1 ++ f.dcyc ++ f.absize ++ f.abmode ++ f.adsize ++ f.admode
    ++ f.imode ++ f.instr : BitVec (4 + 2 + 2 + 1 + 5 + 2 + 2 + 2 + 2 + 2 + 8))

/-- The fields read back from their places (R123). -/
def unpackCfg (w : BitVec 32) : CfgFields where
  instr  := w.extractLsb' 0 8
  imode  := w.extractLsb' 8 2
  admode := w.extractLsb' 10 2
  adsize := w.extractLsb' 12 2
  abmode := w.extractLsb' 14 2
  absize := w.extractLsb' 16 2
  dcyc   := w.extractLsb' 18 5
  dmode  := w.extractLsb' 24 2
  fmode  := w.extractLsb' 26 2

/-- The row of R129 for a command: the field values of its transaction under a configuration. -/
def tableCfg (c : Config) (cmd : Command) : CfgFields :=
  let w := modeCode c.omDefault
  let a := adsizeCode c
  let o := c.opcode cmd
  match cmd with
  | .readStatusRegister => { instr := o, imode := w, admode := 0, adsize := 0, abmode := 0, absize := 0, dcyc := 0, dmode := w, fmode := 1 }
  | .writeEnable        => { instr := o, imode := w, admode := 0, adsize := 0, abmode := 0, absize := 0, dcyc := 0, dmode := 0, fmode := 0 }
  | .chipErase          => { instr := o, imode := w, admode := 0, adsize := 0, abmode := 0, absize := 0, dcyc := 0, dmode := 0, fmode := 0 }
  | .sectorErase        => { instr := o, imode := w, admode := w, adsize := a, abmode := 0, absize := 0, dcyc := 0, dmode := 0, fmode := 0 }
  | .pageProgram        => { instr := o, imode := w, admode := w, adsize := a, abmode := 0, absize := 0, dcyc := 0, dmode := w, fmode := 0 }
  | .readData           => { instr := o, imode := w, admode := w, adsize := a, abmode := 0, absize := 0, dcyc := c.dummyMM, dmode := w, fmode := 3 }
  | .enableQPI          => { instr := o, imode := 1, admode := 0, adsize := 0, abmode := 0, absize := 0, dcyc := 0, dmode := 0, fmode := 0 }

/-! ## Bytes and words -/

/-- The four bytes of a 32-bit word, least significant first (DESIGN CHOICE, log entry 3). -/
def wordBytes (w : Word32) : List Byte :=
  [w.extractLsb' 0 8, w.extractLsb' 8 8, w.extractLsb' 16 8, w.extractLsb' 24 8]

/-- The 32-bit word of four bytes, least significant first. -/
def bytesWord (b0 b1 b2 b3 : Byte) : Word32 := (b3 ++ b2 ++ b1 ++ b0 : BitVec (8 + 8 + 8 + 8))

/-- The low `n` bytes of a number, least significant first. -/
def natBytes : Nat → Nat → List Byte
  | 0,     _ => []
  | n + 1, w => BitVec.ofNat 8 w :: natBytes n (w / 256)

/-! ## Decoding -/

/-- Why a word is refused by the decoder. -/
inductive DecodeError
  /-- Fewer bytes than the format has. -/
  | truncated
  /-- No row of the opcode table matches the word (R131 b, c, d, g, h). -/
  | noRow
  /-- An address operand that does not fit the 24 bits of `TR.address` (R36). -/
  | addressTooWide
  deriving DecidableEq, Repr

/-- A row of the opcode table in format T: its command, the bits it fixes, and their values without the
`INSTR` byte, which is a parameter (R128). -/
structure OpcodeRow where
  command : Command
  mask    : BitVec 32
  pattern : BitVec 32
  deriving DecidableEq, Repr

/-- The seven rows of spec/opcode_table.json in format T. -/
def opcodeRows : List OpcodeRow :=
  [ { command := .readStatusRegister, mask := 0xFCFFFCFF, pattern := 0x04000000 },
    { command := .writeEnable,        mask := 0xFFFFFCFF, pattern := 0x00000000 },
    { command := .chipErase,          mask := 0xFFFFFCFF, pattern := 0x00000000 },
    { command := .sectorErase,        mask := 0xFFFFC0FF, pattern := 0x00000000 },
    { command := .pageProgram,        mask := 0xFCFFC0FF, pattern := 0x00000000 },
    { command := .readData,           mask := 0xFC83C0FF, pattern := 0x0C000000 },
    { command := .enableQPI,          mask := 0xFFFFFFFF, pattern := 0x00000100 } ]

/-- A word belongs to a row when the fixed bits and the opcode parameter agree. -/
def OpcodeRow.holds (c : Config) (r : OpcodeRow) (w : BitVec 32) : Bool :=
  decide (w &&& r.mask = (r.pattern ||| (c.opcode r.command).setWidth 32))

/-- The command a format T word selects, none where no row matches. The width, address-size and dummy-cycle
bits a row leaves free are derived values that `apply` computes afresh, and no operands (log entry 4). -/
def commandOfCfg (c : Config) (w : BitVec 32) : Option Command :=
  (opcodeRows.find? (fun r => r.holds c w)).map OpcodeRow.command

/-- A 32-bit address operand as the 24-bit value a transaction holds (R36). -/
def addressOfWord (w : Word32) : Except DecodeError Addr24 :=
  if w.toNat < 2 ^ 24 then .ok (w.setWidth 24) else .error .addressTooWide

/-- Format H: `OP` in bits 1:0 of the first byte, then `ADDR`, then `LEN`; `DATA` is by reference (R121). The
instruction and the bytes after it. -/
def decodeRequest : List Byte → Except DecodeError (Instr × List Byte)
  | op :: a0 :: a1 :: a2 :: a3 :: l0 :: l1 :: l2 :: l3 :: rest =>
    let addr := bytesWord a0 a1 a2 a3
    let len := bytesWord l0 l1 l2 l3
    let code : BitVec 2 := op.extractLsb' 0 2
    if code = 0 then .ok (.init, rest)
    else if code = 1 then .ok (.merase, rest)
    else if code = 2 then .ok (.serase addr, rest)
    else .ok (.write addr len, rest)
  | _ => .error .truncated

/-- The fields `ADDR` and `LEN` of a host request, which acceptance latches whatever the operation makes of them (R121,
R260); none where the bytes are no request. -/
def requestFields : List Byte → Option (Word32 × Word32)
  | _ :: a0 :: a1 :: a2 :: a3 :: l0 :: l1 :: l2 :: l3 :: _ => some (bytesWord a0 a1 a2 a3, bytesWord l0 l1 l2 l3)
  | _ => none

/-- The operand words of a command after its `CFG` word: `AR` for SE; `DL` and `AR` for PP; none for the
others (R129). -/
def decodeOperands (cmd : Command) (bs : List Byte) : Except DecodeError (Instr × List Byte) :=
  match cmd with
  | .readStatusRegister => .ok (.rdsr, bs)
  | .writeEnable        => .ok (.wren, bs)
  | .chipErase          => .ok (.ce, bs)
  | .readData           => .ok (.read, bs)
  | .enableQPI          => .ok (.eqpi, bs)
  | .sectorErase        =>
    match bs with
    | a0 :: a1 :: a2 :: a3 :: rest => (addressOfWord (bytesWord a0 a1 a2 a3)).map (fun a => (Instr.se a, rest))
    | _ => .error .truncated
  | .pageProgram        =>
    match bs with
    | l0 :: l1 :: l2 :: l3 :: a0 :: a1 :: a2 :: a3 :: rest =>
      (addressOfWord (bytesWord a0 a1 a2 a3)).map (fun a => (Instr.pp a (bytesWord l0 l1 l2 l3), rest))
    | _ => .error .truncated

/-- Format T: a `CFG` word and its operand words. The instruction and the bytes after it. -/
def decodeTransaction (c : Config) : List Byte → Except DecodeError (Instr × List Byte)
  | b0 :: b1 :: b2 :: b3 :: rest =>
    match commandOfCfg c (bytesWord b0 b1 b2 b3) with
    | none     => .error .noRow
    | some cmd => decodeOperands cmd rest
  | _ => .error .truncated

/-- Format W: the wire frame of `(CFG, DL, AR)` (R98, R127), none where `CFG` is no indirect transaction. The
data of a frame comes from the FIFO and is empty here. -/
def decodeFrame (cfg : CfgFields) (dl ar : Word32) : Option Frame :=
  match lines cfg.imode with
  | none    => none
  | some iw =>
    let abytes := cfg.adsize.toNat + 1
    let aw := lines cfg.admode
    let dw := lines cfg.dmode
    let frame (dir : Direction) : Frame :=
      { iw := iw, opcode := cfg.instr, aw := aw, abytes := abytes,
        addr := aw.map (fun _ => ar.toNat % 2 ^ (8 * abytes)),
        dummy := cfg.dcyc, dw := dw, dir := dir,
        len := match dw with | none => 0 | some _ => dl.toNat,
        data := [] }
    if cfg.fmode = 0 then some (frame .write)
    else if cfg.fmode = 1 then some (frame .read)
    else none

/-- The bytes of a frame's address phase in the order they cross the wire, most significant first. PRESUMED
(R87, D41): CTRL decides the order and the block cannot observe it. -/
def Frame.addressBytes (f : Frame) : List Byte :=
  match f.addr with
  | none   => []
  | some a => (natBytes f.abytes a).reverse

/-- The instruction the decoder reads from a row's word, numbered as spec/opcode_table.json numbers it: rows
of one byte are format H, rows of 32 bits format T under P0, whose opcodes the table's words use. -/
def decodeTableWord (nbits w : Nat) : Option Instr :=
  if nbits = 8 then
    match decodeRequest (natBytes 9 w) with
    | .ok (i, _) => some i
    | .error _   => none
  else if nbits = 32 then
    match decodeTransaction Config.illustrative (natBytes 12 w) with
    | .ok (i, _) => some i
    | .error _   => none
  else none

/-! ## Encoding -/

/-- The format T bytes of a command: its row of R129 packed. -/
def encodeCfg (c : Config) (cmd : Command) : List Byte := wordBytes (packCfg (tableCfg c cmd))

/-- The bytes of an encoded host request (R121). -/
def encodeRequest (op : Byte) (addr len : Word32) : List Byte := op :: (wordBytes addr ++ wordBytes len)

/-- The bytes of an instruction: format H for the host operations, the fields an operation ignores 0 (R121), format T
with its operand words for the flash commands, and nothing for the internal operations, which have no encoding (R160, R170, R220, R246). -/
def encode (c : Config) : Instr → List Byte
  | .init               => encodeRequest 0 0 0
  | .merase             => encodeRequest 1 0 0
  | .serase addr        => encodeRequest 2 addr 0
  | .write dest len     => encodeRequest 3 dest len
  | .rdsr               => encodeCfg c .readStatusRegister
  | .wren               => encodeCfg c .writeEnable
  | .ce                 => encodeCfg c .chipErase
  | .se a               => encodeCfg c .sectorErase ++ wordBytes (a.setWidth 32)
  | .pp a n             => encodeCfg c .pageProgram ++ (wordBytes n ++ wordBytes (a.setWidth 32))
  | .read               => encodeCfg c .readData
  | .eqpi               => encodeCfg c .enableQPI
  | .widthFor _         => []
  | .apply _ _ _        => []
  | .waitUntilReady _   => []
  | .enterMemoryMapped  => []

end Sys2Proof
end

