-- ==== Sys2Proof/Machine/State.lean ====
section
/-! DEFINITION. The state of the four agents of R11 as plain data: SEQ (the block: `FM`, `TR`, `SEQ`), CTRL
(the register fields `CR`, the FIFO and what is in flight), FLASH (the reference chip of R99 to R104) and
HOST (its port, its program, the buffer it lends, what it was answered), the environment's open choices, the
log of what an observer sees (R12), and the configuration (R60); the faults and the refusals; reset (R59). -/

namespace Sys2Proof.Machine

/-! ## SEQ: the sequencer position -/

/-- The four result codes (R41, R122). -/
inductive Result
  | ok
  | fatalError
  | timeout
  | alignmentError
  deriving DecidableEq, Repr

/-- The three failures (R300). -/
inductive Failure
  | fatalError
  | timeout
  | alignmentError
  deriving DecidableEq, Repr

/-- `SEQ.state` (R39). -/
inductive SeqState
  | idle
  | running
  deriving DecidableEq, Repr

/-- `SEQ.op`, the operation in flight (R39). -/
inductive Op
  | init
  | merase
  | serase
  | write
  deriving DecidableEq, Repr

/-- `SEQ.step`, the labels of the listings (R265, R270, R274, R277). -/
inductive Label
  | i0 | i1 | i2 | i3 | i4 | i5
  | m0 | m1 | m2
  | s0 | s1 | s2 | s3
  | w0 | w1 | w2 | w3 | w4 | w5 | w6
  | restore | ret
  deriving DecidableEq, Repr

/-- Where the `apply` in progress stands in its steps 6 and 7 (R170, R185): streaming byte `i` out, streaming
byte `i` in, waiting on `CR.BUSY`, or not in progress. The model's own field: it holds the waits of R361. -/
inductive ApplyPhase
  | idle
  | push (i : Nat)
  | pop (i : Nat)
  | await
  deriving DecidableEq, Repr

/-- The sequencer position (R39, R40, R41). The last three fields are the model's own: the variable `r` of the
listings (R307), the place inside `apply`, and the operand of the `waitUntilReady` in progress. -/
structure Seq where
  state    : SeqState
  op       : Op
  step     : Label
  addr     : Word32
  len      : Word32
  off      : Word32
  chunk    : Word32
  attempts : Word32
  status   : Byte
  result   : Result
  r        : Result
  phase    : ApplyPhase
  waiting  : Option Word32
  deriving DecidableEq, Repr

/-! ## CTRL: the register interface and the controller -/

/-- The fields of the register interface (R43 to R54, R183). The FIFO behind `CR.DR` is `Ctrl.fifo`. -/
structure CR where
  en     : Bool
  addrw  : BitVec 5
  timing : Nat
  fmode  : BitVec 2
  imode  : BitVec 2
  admode : BitVec 2
  dmode  : BitVec 2
  abmode : BitVec 2
  absize : BitVec 2
  instr  : BitVec 8
  adsize : BitVec 2
  ar     : BitVec 32
  dcyc   : BitVec 5
  dl     : BitVec 32
  busy   : Bool
  deriving DecidableEq, Repr

/-- One set of a plain field of the register interface (R42, R89). -/
inductive CrWrite
  | addrw (v : BitVec 5)
  | timing (v : Nat)
  | dl (v : BitVec 32)
  | dcyc (v : BitVec 5)
  | admode (v : BitVec 2)
  | adsize (v : BitVec 2)
  | abmode (v : BitVec 2)
  | absize (v : BitVec 2)
  | dmode (v : BitVec 2)
  | imode (v : BitVec 2)
  | instr (v : BitVec 8)
  | fmode (v : BitVec 2)
  | ar (v : BitVec 32)
  deriving DecidableEq, Repr

/-- The transaction CTRL carries (R98, R105): the frame decoded at `Launch()`, and whether it has reached
FLASH. -/
structure Inflight where
  frame     : Frame
  delivered : Bool
  deriving DecidableEq, Repr

/-- CTRL's hidden state (R57): the FIFO's bytes, oldest first; the transaction in flight; the configuration
adopted as the read command of mapped reads (R108); the prefetched bytes (R96, R107), which no rule reads. -/
structure Ctrl where
  fifo     : List Byte
  inflight : Option Inflight
  readCmd  : Option CfgFields
  prefetch : Memory
  deriving DecidableEq, Repr

/-! ## FLASH: the reference chip -/

/-- `FRAMING` (R57, R103). -/
inductive Framing
  | single
  | quad
  deriving DecidableEq, Repr

/-- The destructive operation the chip works on while `WIP = 1` (R100 to R102); `unknown` after an
unspecified effect. -/
inductive Pending
  | nothing
  | chipErase
  | sectorErase (a : Nat)
  | program (a : Nat) (d : List Byte)
  | unknown
  deriving DecidableEq, Repr

/-- The chip (R57): latch, busy flag, framing and array. The model's own: the operation it works on, the array as that
operation found it, and the count of the operations it has begun. While the chip works, the bytes of `array` the
operation works on are free values (R271, R275, R281, U17); when it is done they are the operation's effect on
`found` (log entry 8). -/
structure Flash where
  wel     : Bool
  wip     : Bool
  framing : Framing
  array   : Memory
  pending : Pending
  found   : Memory
  work    : Nat
  deriving DecidableEq, Repr

/-! ## HOST and the environment -/

/-- What HOST, or the world around the block, can do (R11, R133, R313, R342). -/
inductive HostAction
  /-- An encoded host request (format H). -/
  | request (bytes : List Byte)
  /-- An encoded transaction handed to the Transaction Builder directly (format T; R182 "a direct call"). -/
  | transaction (bytes : List Byte)
  /-- An operation in the source's written form, a call (R133). -/
  | call (i : Instr)
  /-- HOST lends a data buffer that lies at an address of its own (R61, R357). -/
  | lend (addr : Nat) (data : List Byte)
  /-- `MemRead(addr, n)`, a read through the mapped window (R83). -/
  | mappedRead (addr n : Nat)
  /-- A write through the mapped window (R85). -/
  | mappedWrite (addr : Nat) (v : Byte)
  /-- A reset of the block, which leaves the chip as it is (R342, R343). -/
  | resetBlock
  /-- A power cycle of the chip, which leaves the block as it is (R342). -/
  | powerCycleChip
  deriving DecidableEq, Repr

/-- HOST (R11, R57, R61, R121): the action at the block's port now, whatever the block is doing (another execution
context, an interrupt handler, the reset line: R343, R353, R354); the actions it takes whenever the block is
idle; the fields `ADDR` and `LEN` of the request it presented last (R121, R260); the lent buffer and the host address
it lies at (R61, R357); the last response; the bytes of the last mapped read. -/
structure HostAgent where
  port     : Option HostAction
  program  : List HostAction
  reqAddr  : Word32
  reqLen   : Word32
  buffer   : List Byte
  bufferAt : Nat
  response : Option Result
  readData : List Byte
  deriving DecidableEq, Repr

/-- The environment's open choices. The model's own: `slice` is the number of lines of a listing SEQ takes at
a stretch beyond the first, before another agent gets a turn (R12, D45); with 0 a step is one line; the lists are the answers the environment gives next, in order;
once a list is empty the answer is a free value, drawn at `n`, which counts the draws. -/
structure Env where
  slice  : Nat
  n      : Nat
  enable : List Bool
  lift   : List Bool
  done   : List Bool
  status : List Byte
  deriving DecidableEq, Repr

/-- What an observer outside the block sees (R12, R184, R319): the accesses of the register interface, the
wire frames, the value of `FM`, the responses. -/
inductive Event
  | set (w : CrWrite)
  | setEn
  | getEn (v : Bool)
  | mode (fm : FunctionalMode)
  | launch
  | push (b : Byte)
  | pop (b : Byte)
  | frame (f : Frame)
  | getBusy (v : Bool)
  | response (r : Result)
  deriving DecidableEq, Repr

/-- The state of the machine. `widths` is the model's own: where a direct call of `widthFor` delivers its
result (R160), and `caller` is the one-byte buffer a direct caller of `apply` has of its own (R36, R179). `log` holds the events, newest first. -/
structure State where
  cfg    : Config
  fm     : FunctionalMode
  tr     : Transaction
  seq    : Seq
  cr     : CR
  ctrl   : Ctrl
  flash  : Flash
  host   : HostAgent
  env    : Env
  widths : PhaseWidths
  caller : Byte
  log    : List Event
  deriving DecidableEq, Repr

/-! ## Where a step stops -/

/-- The faults: all of HOST, none of the block (R84, U4). -/
inductive Fault
  /-- A mapped read while `FM` is not `MemoryMapped` or while the sequencer runs (R84, R353); the block's own read of a
  lent buffer that lies in the window is one (R357). Safe: the spec calls the fetch undefined and gives it no value. -/
  | mappedReadOutsideMode
  /-- A mapped read beyond the window (R82, R83): an address that is not the block's. Safe. -/
  | mappedReadOutsideWindow
  deriving DecidableEq, Repr

/-- The refusals: requests the spec gives no behaviour (R13). All are safe: nothing is provable of what
follows. -/
inductive Refusal
  /-- An instruction that has no meaning in this model; raised by no arm of `exec` now. -/
  | notModelled (mnemonic : String)
  /-- The configuration breaks a constraint of R8. -/
  | badConfiguration
  /-- A request or a direct call while the sequencer or a direct call runs (R260 a, R354). -/
  | sequencerRunning
  /-- A host operation whose mode precondition does not hold (R260 b, R260 c, R360). -/
  | wrongMode
  /-- An address outside the device (R261). -/
  | outOfRange
  /-- A `WRITE` whose lent buffer is shorter than `LEN` (R61, R121). -/
  | dataMissing
  /-- A direct call of `apply`, or of an operation that calls it, outside the contract of `apply`, which the spec gives no
  meaning (R131 h, R182, U3). -/
  | contractViolation
  /-- A HOST write through the mapped window (R85, U5). -/
  | windowWrite
  /-- Bytes at the port that are no instruction (R131). -/
  | undecodable (e : DecodeError)
  deriving DecidableEq, Repr

/-! ## Reset -/

/-- `SEQ` at reset: `Idle` (R59); the other fields are unspecified there and take the values of log entry 2. -/
def Seq.reset : Seq where
  state    := .idle
  op       := .init
  step     := .i0
  addr     := 0
  len      := 0
  off      := 0
  chunk    := 0
  attempts := 0
  status   := 0
  result   := .ok
  r        := .ok
  phase    := .idle
  waiting  := none

/-- `CR` at reset: `EN = 0`, `BUSY = 0` (R59); the other fields are unspecified there (log entry 2). -/
def CR.reset : CR where
  en     := false
  addrw  := 0
  timing := 0
  fmode  := 0
  imode  := 0
  admode := 0
  dmode  := 0
  abmode := 0
  absize := 0
  instr  := 0
  adsize := 0
  ar     := 0
  dcyc   := 0
  dl     := 0
  busy   := false

/-- CTRL at reset: FIFO empty (R59), nothing in flight, no mapped service. -/
def Ctrl.reset : Ctrl where
  fifo     := []
  inflight := none
  readCmd  := none
  prefetch := []

/-- FLASH after power-up: single-line framing (R59, R103), latch and busy flag clear (G4). The array is
"whatever the chip holds" (R59): no cell is listed (log entry 5). -/
def Flash.powerUp : Flash where
  wel     := false
  wip     := false
  framing := .single
  array   := []
  pending := .nothing
  found   := []
  work    := 0

/-- The machine right after reset (R59, R340, R342). The transaction latch is unspecified there (log entry 2).
The block is `Uninitialized` and idle, the chip as after power-up, HOST with nothing to do (R341); a step is
one line (R12). -/
def State.reset : State where
  cfg    := Config.illustrative
  fm     := .uninitialized
  tr     := { command := .readStatusRegister, address := none, dummyCycles := 0, data := .absent, dataLength := 0 }
  seq    := Seq.reset
  cr     := CR.reset
  ctrl   := Ctrl.reset
  flash  := Flash.powerUp
  host   := { port := none, program := [], reqAddr := 0, reqLen := 0, buffer := [], bufferAt := 0
              response := none, readData := [] }
  env    := { slice := 0, n := 0, enable := [], lift := [], done := [], status := [] }
  widths := { instr := .one, addr := .one, data := .one }
  caller := 0
  log    := []

end Sys2Proof.Machine
end

