-- ==== Sys2Proof/Machine/Memory.lean ====
section
/-! DEFINITION. The flash array as sparse memory: reading one byte, writing one byte, erasing a range,
programming a page (R80, R81, R101, R102), and the canonical form every one of them keeps. -/

namespace Sys2Proof

/-- What an unlisted offset reads as: the erased byte `0xFF` (R101). DESIGN CHOICE for an array nothing has
written since power-up (log entry 5). -/
def Memory.erased : Byte := 0xFF

/-- The byte at an offset. -/
def Memory.read : Memory → Nat → Byte
  | [],             _ => Memory.erased
  | (k, v) :: rest, a => if k = a then v else Memory.read rest a

/-- The `n` bytes at ascending offsets from `a` (R83, R86). -/
def Memory.readMany (m : Memory) (a n : Nat) : List Byte := (List.range n).map (fun i => Memory.read m (a + i))

/-- A cell in front of a list, unless it holds what an unlisted offset reads as. -/
def Memory.keep (a : Nat) (v : Byte) (m : Memory) : Memory := if v = Memory.erased then m else (a, v) :: m

/-- The array with one byte stored, in canonical form. -/
def Memory.write : Memory → Nat → Byte → Memory
  | [],             a, v => Memory.keep a v []
  | (k, w) :: rest, a, v =>
    if a < k then Memory.keep a v ((k, w) :: rest)
    else if a = k then Memory.keep a v rest
    else (k, w) :: Memory.write rest a v

/-- Every byte of `lo .. lo + n - 1` erased, no other byte changed (R101). -/
def Memory.eraseRange (m : Memory) (lo n : Nat) : Memory :=
  List.filter (fun c => !(decide (lo ≤ c.1) && decide (c.1 < lo + n))) m

/-- The offset of byte `i` of a page program at `a`: it wraps in the page of `a` (R102). -/
def pageOffset (pageChunk a i : Nat) : Nat := (a - a % pageChunk) + (a + i) % pageChunk

/-- The bytes from index `i` on, each stored as the old array's byte AND the data byte, later bytes
overwriting earlier ones at the same offset (R102). -/
def Memory.programFrom (old : Memory) (pageChunk a : Nat) : Nat → List Byte → Memory → Memory
  | _, [],      m => m
  | i, d :: ds, m =>
    let o := pageOffset pageChunk a i
    Memory.programFrom old pageChunk a (i + 1) ds (Memory.write m o (Memory.read old o &&& d))

/-- The effect of a PageProgram (R102). -/
def Memory.program (m : Memory) (pageChunk a : Nat) (d : List Byte) : Memory :=
  Memory.programFrom m pageChunk a 0 d m

/-- A memory in canonical form from any cells, those outside the device dropped. -/
def Memory.ofCells (size : Nat) : List Host.Cell → Memory
  | []           => []
  | (a, v) :: cs => if a < size then Memory.write (Memory.ofCells size cs) a v else Memory.ofCells size cs

/-- The array while an operation works on the touched offsets: there it holds what the cells say, and the erased byte
where they say nothing; elsewhere it is as it was (R101, R102, U17). -/
def Memory.disturbed (touched : Nat → Bool) (m : Memory) : List Host.Cell → Memory
  | []           => List.filter (fun c => !touched c.1) m
  | (a, v) :: cs =>
    if touched a then Memory.write (Memory.disturbed touched m cs) a v else Memory.disturbed touched m cs

/-- The canonical form: addresses strictly rising, and no cell that holds the erased byte. -/
def Memory.wf : Memory → Bool
  | []             => true
  | (a, v) :: rest =>
    decide (v ≠ Memory.erased)
      && (match rest with | [] => true | (b, _) :: _ => decide (a < b)) && Memory.wf rest

/-- Every cell lies inside a device of `size` bytes (R80). -/
def Memory.inside (size : Nat) (m : Memory) : Bool := List.all m (fun c => decide (c.1 < size))

end Sys2Proof
end

