-- ==== Sys2Proof/Machine/Operands.lean ====
section
/-! DEFINITION. The operand forms: the Mode Table (R161), how each operand of a transaction is formed (R130),
the transactions of the seven commands (R134, R200 to R206), the bytes a transaction refers to, and the chunk
rule of `writeMemory` (R279). -/

namespace Sys2Proof.Machine

/-- `widthFor`, the Mode Table (R161): the same line count on every phase. -/
def widthFor : OperatingMode → PhaseWidths
  | .single => { instr := .one,  addr := .one,  data := .one }
  | .dual   => { instr := .two,  addr := .two,  data := .two }
  | .quad   => { instr := .four, addr := .four, data := .four }

/-- The code of a result (R41, R122). -/
def Result.code : Result → BitVec 2
  | .ok             => 0
  | .fatalError     => 1
  | .timeout        => 2
  | .alignmentError => 3

/-- The result a failure is returned as (R300). -/
def Failure.result : Failure → Result
  | .fatalError     => .fatalError
  | .timeout        => .timeout
  | .alignmentError => .alignmentError

/-- `TR.address` of a request's address operand: its low 24 bits (R130 a). -/
def flashAddress (a : Word32) : Addr24 := a.setWidth 24

/-- `TR.address` of a chunk: `(SEQ.addr + SEQ.off)[23:0]` (R130 b). -/
def chunkAddress (addr off : Word32) : Addr24 := (addr + off).setWidth 24

/-- The length of the chunk that starts at `a` with `m` bytes still to write (R279). -/
def chunkLength (pageChunk a m : Nat) : Nat := min m (pageChunk - a % pageChunk)

end Sys2Proof.Machine

namespace Sys2Proof

/-- A transaction of a command without address and data, `send(c)` (R134). -/
def Transaction.send (cmd : Command) : Transaction where
  command     := cmd
  address     := none
  dummyCycles := 0
  data        := .absent
  dataLength  := 0

/-- The status read, `{ReadStatusRegister, none, 0, ref SEQ.status, 1}` (R134, R200). -/
def Transaction.readStatus : Transaction where
  command     := .readStatusRegister
  address     := none
  dummyCycles := 0
  data        := .status
  dataLength  := 1

/-- The sector erase at an address, `{SectorErase, a, 0, none, 0}` (R203). -/
def Transaction.sectorErase (a : Addr24) : Transaction where
  command     := .sectorErase
  address     := some a
  dummyCycles := 0
  data        := .absent
  dataLength  := 0

/-- The page program of `n` bytes of the lent buffer from index `off`, `{PageProgram, a, 0, ref d, n}`
(R204). -/
def Transaction.pageProgram (a : Addr24) (off n : Word32) : Transaction where
  command     := .pageProgram
  address     := some a
  dummyCycles := 0
  data        := .buffer off
  dataLength  := n

/-- The memory-mapped read configuration, `{ReadData, none, DUMMY_MM, none, 0}` (R205, R246). -/
def Transaction.readData (c : Config) : Transaction where
  command     := .readData
  address     := none
  dummyCycles := c.dummyMM
  data        := .absent
  dataLength  := 0

/-- Whether byte `i` of the lent buffer lies in the memory-mapped window (R58 b, R82, R357). -/
def Machine.HostAgent.inWindow (h : Machine.HostAgent) (c : Config) (i : Nat) : Bool :=
  decide (c.mmBase ≤ h.bufferAt + i) && decide (h.bufferAt + i < c.mmBase + c.flashSize)

/-- Whether byte `i` of the byte sequence a transaction refers to lies in the memory-mapped window (R357). -/
def DataRef.inWindow (d : DataRef) (c : Config) (h : Machine.HostAgent) (i : Nat) : Bool :=
  match d with
  | .absent     => false
  | .status     => false
  | .caller     => false
  | .buffer off => h.inWindow c (off.toNat + i)

/-- Byte `i` of the byte sequence a transaction refers to (R36, R61); none where it lies in the window, which is not to be
read then (R357). -/
def DataRef.byte (d : DataRef) (s : Machine.State) (i : Nat) : Option Byte :=
  match d with
  | .absent     => none
  | .status     => if i = 0 then some s.seq.status else none
  | .caller     => if i = 0 then some s.caller else none
  | .buffer off => if s.host.inWindow s.cfg (off.toNat + i) then none else s.host.buffer[off.toNat + i]?

/-- A reference is to at least `n` bytes (R182). -/
def DataRef.covers (d : DataRef) (buffer : List Byte) (n : Nat) : Bool :=
  match d with
  | .absent     => true
  | .status     => decide (n ≤ 1)
  | .caller     => decide (n ≤ 1)
  | .buffer off => decide (off.toNat + n ≤ buffer.length)

end Sys2Proof
end

