-- ==== Sys2Proof/Machine/Ops.lean ====
section
/-! DEFINITION. The shared operations on the state: the log, the environment's draws, the sets and gets of the
register interface, the FIFO, the moves of `SEQ.step`, the failure entry `raise` and the return (R260, R307),
and the two resets (R340, R342). -/

namespace Sys2Proof.Machine

/-! ## The log and the draws -/

/-- One more event in the log (R12). -/
def State.emit (e : Event) (s : State) : State := { s with log := e :: s.log }

/-- The next answer of a list, or the free value drawn at `n` when the list is empty; the answer, the rest of
the list, and the count of draws. -/
def drawFrom {α : Type} (answers : List α) (free : Nat → α) (n : Nat) : α × List α × Nat :=
  match answers with
  | a :: rest => (a, rest, n)
  | []        => (free n, [], n + 1)

/-- Whether the peripheral enables (R43, R109, U13). -/
def State.drawEnable (s : State) : Bool × State :=
  let d := drawFrom s.env.enable Config.freeEnable s.env.n
  (d.1, { s with env := { s.env with enable := d.2.1, n := d.2.2 } })

/-- Whether CTRL takes the step the waiting sequencer needs (R105, R106, R185, U14). -/
def State.drawLift (s : State) : Bool × State :=
  let d := drawFrom s.env.lift Config.freeLift s.env.n
  (d.1, { s with env := { s.env with lift := d.2.1, n := d.2.2 } })

/-- Whether the chip has finished what it was doing (R100, U14). -/
def State.drawDone (s : State) : Bool × State :=
  let d := drawFrom s.env.done Config.freeDone s.env.n
  (d.1, { s with env := { s.env with done := d.2.1, n := d.2.2 } })

/-- The status byte before its busy bit is set (R104, U15). -/
def State.drawStatus (s : State) : Byte × State :=
  let d := drawFrom s.env.status Config.freeStatus s.env.n
  (d.1, { s with env := { s.env with status := d.2.1, n := d.2.2 } })

/-- `k` bytes the spec gives no value (R83, R103, U6, U7). -/
def State.drawBytes (k : Nat) (s : State) : List Byte × State :=
  ((List.range k).map (Config.freeByte s.env.n), { s with env := { s.env with n := s.env.n + 1 } })

/-! ## The register interface -/

/-- A set of one plain field: it stores (R89). -/
def CR.write (cr : CR) : CrWrite → CR
  | .addrw v  => { cr with addrw := v }
  | .timing v => { cr with timing := v }
  | .dl v     => { cr with dl := v }
  | .dcyc v   => { cr with dcyc := v }
  | .admode v => { cr with admode := v }
  | .adsize v => { cr with adsize := v }
  | .abmode v => { cr with abmode := v }
  | .absize v => { cr with absize := v }
  | .dmode v  => { cr with dmode := v }
  | .imode v  => { cr with imode := v }
  | .instr v  => { cr with instr := v }
  | .fmode v  => { cr with fmode := v }
  | .ar v     => { cr with ar := v }

/-- The sets of a list, in order, each seen by the observer (R92). -/
def State.setAll (s : State) : List CrWrite → State
  | []      => s
  | w :: ws => State.setAll { s with cr := s.cr.write w, log := .set w :: s.log } ws

/-- The packed view `CFG` of the fields (R55). -/
def CR.cfg (cr : CR) : CfgFields where
  instr  := cr.instr
  imode  := cr.imode
  admode := cr.admode
  adsize := cr.adsize
  abmode := cr.abmode
  absize := cr.absize
  dcyc   := cr.dcyc
  dmode  := cr.dmode
  fmode  := cr.fmode

/-- `CR.EN <- 1`: the set either enables the peripheral or fails, by a draw (R43, R109). -/
def State.setEnable (s : State) : State :=
  let d := s.drawEnable
  { d.2 with cr := { d.2.cr with en := d.1 }, log := .setEn :: d.2.log }

/-! ## The sequencer position -/

/-- `SEQ.step <- l`. -/
def State.goto (l : Label) (s : State) : State := { s with seq := { s.seq with step := l } }

/-- The place inside `apply`. -/
def State.setPhase (p : ApplyPhase) (s : State) : State := { s with seq := { s.seq with phase := p } }

/-- The sequencer waits: inside an `apply`, or inside a `waitUntilReady` (R185, R361). -/
def State.held (s : State) : Bool := decide (s.seq.phase ≠ .idle) || s.seq.waiting.isSome

/-- The block is occupied: an operation runs, or a direct call has not returned. -/
def State.busy (s : State) : Bool := decide (s.seq.state = .running) || s.held

/-! ## Ending an operation -/

/-- The end of an operation with a result: `SEQ.result`, `SEQ.state <- Idle`, the response to HOST (R260,
R307). -/
def State.respond (r : Result) (s : State) : State :=
  { s with
    seq  := { s.seq with state := .idle, result := r },
    host := { s.host with response := some r },
    log  := .response r :: s.log }

/-- `raise E`, the failure entry (R307): `AlignmentError` and `FatalError` end the operation at once;
`Timeout` is kept in `r` and control goes to `RESTORE`. -/
def State.raise (e : Failure) (s : State) : State :=
  match e with
  | .fatalError     => s.respond e.result
  | .alignmentError => s.respond e.result
  | .timeout        => { s with seq := { s.seq with r := e.result, step := .restore } }

/-- `RET: return r` (R270, R274, R277, R307). -/
def State.returnResult (s : State) : State := s.respond s.seq.r

/-! ## Unspecified effects on the chip, and the resets -/

/-- The chip after an effect the spec leaves open: every part of it is a free value, the array in canonical
form (U6, U7, U9). -/
def State.chipUnknown (s : State) : State :=
  { s with
    flash := { wel     := Config.freeFlag s.env.n 0
               wip     := Config.freeFlag s.env.n 1
               framing := if Config.freeFlag s.env.n 2 then .quad else .single
               array   := Memory.ofCells s.cfg.flashSize (Config.freeCells s.env.n)
               pending := .unknown
               found   := []
               work    := s.flash.work },
    env := { s.env with n := s.env.n + 1 } }

/-- The array after an operation whose effect the spec leaves open: a free value (U17). -/
def State.arrayUnknown (s : State) : State :=
  { s with
    flash := { s.flash with array := Memory.ofCells s.cfg.flashSize (Config.freeCells s.env.n) },
    env   := { s.env with n := s.env.n + 1 } }

/-- A frame CTRL has begun and not delivered. -/
def Ctrl.cutShort (c : Ctrl) : Bool :=
  match c.inflight with
  | none   => false
  | some f => !f.delivered

/-- Reset of the block (R59, R340, R342, R343): its own state as after reset, the chip and HOST as they are,
but that HOST's call is gone with the operation. A frame cut short on the wire leaves the chip unknown (U9,
log entry 12). -/
def State.resetBlock (s : State) : State :=
  let s1 := if s.ctrl.cutShort then s.chipUnknown else s
  { s1 with
    fm   := .uninitialized
    tr   := State.reset.tr
    seq  := Seq.reset
    cr   := CR.reset
    ctrl := Ctrl.reset
    host := { s1.host with response := none } }

/-- Power cycle of the chip (R57, R103, R342): framing, latch and busy flag as after power-up; an operation it
was doing is cut short and leaves the array unknown (U17, log entry 12). -/
def State.powerCycleChip (s : State) : State :=
  let s1 := if s.flash.wip then s.arrayUnknown else s
  { s1 with flash := { Flash.powerUp with array := s1.flash.array, work := s1.flash.work } }

end Sys2Proof.Machine
end

