-- ==== Sys2Proof/Machine/Flags.lean ====
section
/-! DEFINITION. The flags of R56: the controller's busy bit and when a get of it has a value (R54, R355), the
chip's busy flag in the status byte (R104, R222), and the enable bit as it reads back (R43). -/

namespace Sys2Proof.Machine

/-- The status byte the chip answers: bit `BUSY_BIT` is `WIP`, the other bits are as drawn (R104). -/
def statusByte (busyBit : Fin 8) (wip : Bool) (other : Byte) : Byte :=
  if wip then other ||| BitVec.twoPow 8 busyBit.val else other &&& ~~~(BitVec.twoPow 8 busyBit.val)

/-- "The chip is busy when bit `BUSY_BIT` of the status byte is 1" (R222); the other bits are not inspected. -/
def statusBusy (busyBit : Fin 8) (status : Byte) : Bool := status.getLsbD busyBit.val

/-- A get of `CR.BUSY`: the bit, but a draw while `CR.FMODE` encodes `MemoryMapped` (R54, R355, U12). -/
def State.getBusy (s : State) : Bool × State :=
  if s.cr.fmode = 3 then
    let v := Config.freeBusy s.env.n
    (v, { s with env := { s.env with n := s.env.n + 1 }, log := .getBusy v :: s.log })
  else (s.cr.busy, s.emit (.getBusy s.cr.busy))

end Sys2Proof.Machine
end

