-- ==== Sys2Proof/Machine/Chip.lean ====
section
/-! DEFINITION. FLASH, the reference chip of R99 to R104: what it does with a frame that reaches it, and when
its internal operation ends. Where the spec leaves an effect open the chip's state and its answer are free
values (U6, U7). -/

namespace Sys2Proof

/-- The member of the Command table an opcode byte selects (R35, R128). -/
def Config.commandOfOpcode (c : Config) (b : Byte) : Option Command :=
  [Command.readStatusRegister, .writeEnable, .chipErase, .sectorErase, .pageProgram, .readData, .enableQPI].find?
    (fun cmd => decide (c.opcode cmd = b))

end Sys2Proof

namespace Sys2Proof.Machine

/-- Whether the chip understands the line counts of a frame's phases in its framing (R103). -/
def Framing.understands (fr : Framing) (iw : Lines) (aw dw : Option Lines) : Bool :=
  match fr with
  | .single => decide (iw = .one)
  | .quad   => decide (iw = .four) && (decide (aw = none) || decide (aw = some .four))
                 && (decide (dw = none) || decide (dw = some .four))

/-- The offsets an operation works on (R101, R102). -/
def Pending.touches (c : Config) (p : Pending) (o : Nat) : Bool :=
  decide (o < c.flashSize) &&
    match p with
    | .nothing       => false
    | .chipErase     => true
    | .sectorErase a => decide (a - a % c.sectorSize ≤ o) && decide (o < a - a % c.sectorSize + c.sectorSize)
    | .program a d   => (List.range d.length).any (fun i => decide (pageOffset c.pageChunk a i = o))
    | .unknown       => false

/-- The chip begins an operation: it is busy, and where it works the array holds free values until it is done (R100,
R271, R275, R281, U17). -/
def Flash.startWork (c : Config) (p : Pending) (fl : Flash) : Flash :=
  { fl with
    wip     := true
    pending := p
    found   := fl.array
    array   := Memory.disturbed (p.touches c) fl.array (Config.freeWork fl.work)
    work    := fl.work + 1 }

/-- The array a finished operation leaves, from the array it found (R101, R102). The effect of an unknown operation
is open: `chipComplete` draws it. -/
def Pending.result (c : Config) (p : Pending) (m : Memory) : Memory :=
  match p with
  | .nothing       => m
  | .chipErase     => []
  | .sectorErase a => Memory.eraseRange m (a - a % c.sectorSize) c.sectorSize
  | .program a d   => Memory.program m c.pageChunk a d
  | .unknown       => m

/-- The array the chip holds when it is done: the operation's effect on the array it found; where there is no such
operation, or its effect is open, the array as it stands (R101, R102). -/
def Flash.outcome (c : Config) (fl : Flash) : Memory :=
  match fl.pending with
  | .nothing => fl.array
  | .unknown => fl.array
  | p        => p.result c fl.found

/-- The destructive operation completes: its effect on the array, and the latch and the busy flag clear (R99
to R102). -/
def State.chipComplete (s : State) : State :=
  let s1 := if s.flash.pending = .unknown then s.arrayUnknown else s
  { s1 with
    flash := { s1.flash with
               wel     := false
               wip     := false
               array   := s1.flash.outcome s.cfg
               pending := .nothing
               found   := [] } }

/-- A busy chip may have finished by the time it is next looked at: "at a time of its own choosing", possibly
never (R100). The chip's clock is sampled where it can be observed (log entry 8). -/
def State.chipSettle (s : State) : State :=
  if s.flash.wip then
    let d := s.drawDone
    if d.1 then d.2.chipComplete else d.2
  else s

/-- A destructive frame: accepted with the latch set, ignored without (R99, R100). -/
def State.chipStart (p : Pending) (s : State) : State :=
  if s.flash.wel then { s with flash := s.flash.startWork s.cfg p } else s

/-- An unspecified effect: the chip and its answer to a read frame are free values (R103, U6, U7). -/
def State.chipUnspecified (f : Frame) (s : State) : List Byte × State :=
  let s1 := s.chipUnknown
  match f.dir with
  | .write => ([], s1)
  | .read  => s1.drawBytes f.len

/-- The chip's answer to a ReadStatusRegister frame; no state of FLASH changes (R104). -/
def State.chipStatus (f : Frame) (s : State) : List Byte × State :=
  let d := s.drawStatus
  (List.replicate f.len (statusByte s.cfg.busyBit s.flash.wip d.1), d.2)

/-- The chip acts on a frame it understands while it is not busy, or on a status read (R99 to R104). -/
def State.chipExecute (f : Frame) (s : State) : List Byte × State :=
  match s.cfg.commandOfOpcode f.opcode, f.dir with
  | some .readStatusRegister, .read  => s.chipStatus f
  | some .writeEnable,        .write => ([], { s with flash := { s.flash with wel := true } })
  | some .chipErase,          .write => ([], s.chipStart .chipErase)
  | some .sectorErase,        .write =>
    match f.addr with
    | some a => if a < s.cfg.flashSize then ([], s.chipStart (.sectorErase a)) else s.chipUnspecified f
    | none   => s.chipUnspecified f
  | some .pageProgram,        .write =>
    match f.addr with
    | some a => if a < s.cfg.flashSize then ([], s.chipStart (.program a f.data)) else s.chipUnspecified f
    | none   => s.chipUnspecified f
  | some .enableQPI,          .write =>
    match s.flash.framing with
    | .single => ([], { s with flash := { s.flash with framing := .quad } })
    | .quad   => s.chipUnspecified f
  | _, _ => s.chipUnspecified f

/-- Whether a frame is a status read, the one a busy chip answers (R100). -/
def State.isStatusRead (f : Frame) (s : State) : Bool :=
  decide (f.opcode = s.cfg.opcRdsr) && decide (f.dir = .read)

/-- A frame reaches the chip: the bytes it answers, and the state after (R99 to R104). -/
def State.chipReceive (f : Frame) (s : State) : List Byte × State :=
  let s1 := s.chipSettle
  if !(s1.flash.framing.understands f.iw f.aw f.dw) then s1.chipUnspecified f
  else if s1.flash.wip && !(s1.isStatusRead f) then s1.chipUnspecified f
  else s1.chipExecute f

end Sys2Proof.Machine
end

