-- ==== Sys2Proof/Machine/Controller.lean ====
section
/-! DEFINITION. CTRL, as far as the block relies on it (R105 to R108): the launch of a configured transaction,
the steps CTRL takes while SEQ waits in steps 6 and 7 of `apply`, and the wait itself (R178 to R181, R185). -/

namespace Sys2Proof.Machine

/-- `Launch()` in an indirect mode: CTRL raises `CR.BUSY` and takes the frame the registers describe (R98, R105,
R177). -/
def State.launchIndirect (s : State) : State :=
  { s with
    cr   := { s.cr with busy := true }
    ctrl := { s.ctrl with
              inflight := (decodeFrame s.cr.cfg s.cr.dl s.cr.ar).map (fun f => { frame := f, delivered := false }) }
    log  := .launch :: s.log }

/-- `Launch()` in memory-mapped mode: CTRL adopts the configuration as its read command and sends nothing
(R108, R177). -/
def State.launchMapped (s : State) : State :=
  { s with
    ctrl := { s.ctrl with readCmd := some s.cr.cfg }
    log  := .launch :: s.log }

/-- CTRL delivers the frame in flight to the chip: a write frame carries the FIFO's bytes in the order they
were pushed, a read frame's answer enters the FIFO (R98, R105, R106). -/
def State.deliver (s : State) : State :=
  match s.ctrl.inflight with
  | none    => s
  | some fl =>
    match fl.frame.dir with
    | .write =>
      let f := { fl.frame with data := s.ctrl.fifo.take fl.frame.len }
      let r := s.chipReceive f
      { r.2 with
        ctrl := { r.2.ctrl with fifo := s.ctrl.fifo.drop fl.frame.len, inflight := some { frame := f, delivered := true } }
        log  := .frame f :: r.2.log }
    | .read =>
      let r := s.chipReceive fl.frame
      let f := { fl.frame with data := r.1 }
      { r.2 with
        ctrl := { r.2.ctrl with fifo := s.ctrl.fifo ++ r.1, inflight := some { frame := f, delivered := true } }
        log  := .frame f :: r.2.log }

/-- CTRL clears `CR.BUSY`: the transaction has completed (R105). -/
def State.clearBusy (s : State) : State :=
  { s with cr := { s.cr with busy := false }, ctrl := { s.ctrl with inflight := none } }

/-- Whether the transaction in flight has still to reach the chip. -/
def State.undelivered (s : State) : Bool := s.ctrl.cutShort

/-- The next step of CTRL for a transaction whose bytes are all there: the frame's way to the chip, and then
the end of the transaction (R105). -/
def State.controllerStep (s : State) : State := if s.undelivered then s.deliver else s.clearBusy

/-- The phase after `i` bytes have been streamed out (R178). -/
def State.pushPhase (i : Nat) (s : State) : ApplyPhase :=
  if i < s.tr.dataLength.toNat then .push i else .await

/-- The phase after `i` bytes have been streamed in (R179). -/
def State.popPhase (i : Nat) (s : State) : ApplyPhase :=
  if i < s.tr.dataLength.toNat then .pop i else .await

/-- `FifoPush(TR.data[i])`, once CTRL has room (R106, R178). -/
def State.fifoPush (i : Nat) (b : Byte) (s : State) : State :=
  { s with
    ctrl := { s.ctrl with fifo := s.ctrl.fifo ++ [b] }
    seq  := { s.seq with phase := s.pushPhase (i + 1) }
    log  := .push b :: s.log }

/-- `TR.data[i] <- FifoPop()` of a byte that is there (R106, R179): it is stored in the caller's own buffer where `TR.data`
refers to it, and else in the latch `SEQ.status`. -/
def State.fifoPop (i : Nat) (b : Byte) (rest : List Byte) (s : State) : State :=
  { s with
    ctrl   := { s.ctrl with fifo := rest }
    seq    := { s.seq with status := if s.tr.data = .caller then s.seq.status else b, phase := s.popPhase (i + 1) }
    caller := if s.tr.data = .caller then b else s.caller
    log    := .pop b :: s.log }

/-- One step of the wait in steps 6 and 7: whether the sequencer may go on, and the state after. A wait is
lifted only by a step of CTRL, which the environment takes or does not take (R185, R361). Step 7 is repeated
gets of `CR.BUSY`, and the one that reads 0 ends it (R181). -/
def State.waitOnce (s : State) : Bool × State :=
  match s.seq.phase with
  | .idle   => (false, s)
  | .push i =>
    match s.tr.data.byte s i with
    | none   => (false, s)
    | some b =>
      let d := s.drawLift
      if d.1 then (true, d.2.fifoPush i b) else (false, d.2)
  | .pop i  =>
    match s.ctrl.fifo with
    | b :: rest => (true, s.fifoPop i b rest)
    | []        =>
      let d := s.drawLift
      if d.1 && d.2.undelivered then (true, d.2.deliver) else (false, d.2)
  | .await  =>
    let d := s.drawLift
    let g := (if d.1 then d.2.controllerStep else d.2).getBusy
    if g.1 then (d.1, g.2) else (true, g.2.setPhase .idle)

/-- The next thing the sequencer does is to read a byte of a lent buffer that lies in the memory-mapped window: a mapped
read in an indirect mode (R84, R357). -/
def State.readsWindow (s : State) : Bool :=
  match s.seq.phase with
  | .push i => s.tr.data.inWindow s.cfg s.host i
  | _       => false

/-- What a step that has come to `s` answers: `s`, or the fault of R84 where the block has come to read through the
window (R357). -/
def State.outcome (s : State) : Host.Outcome State Fault Refusal :=
  if s.readsWindow then .fault .mappedReadOutsideMode else .next s

/-- The wait, up to `k` steps of it: on until `apply` returns or a wait is not lifted. -/
def State.waitMany : Nat → State → State
  | 0,     s => s
  | k + 1, s =>
    match s.seq.phase with
    | .idle => s
    | _     =>
      let r := s.waitOnce
      if r.1 then State.waitMany k r.2 else r.2

/-- Steps 6 and 7 of `apply`, as far as the environment lets them go: a byte takes one step, a frame's way to
the chip one, the end of the transaction one (R185). -/
def State.finishApply (s : State) : State := s.waitMany (s.tr.dataLength.toNat + 4)

end Sys2Proof.Machine
end

