-- ==== Sys2Proof/Machine/Builder.lean ====
section
/-! DEFINITION. The Transaction Builder (R170 to R186): the register writes of `apply` in order, the commit of
the functional mode, the launch, and steps 6 and 7. -/

namespace Sys2Proof.Machine

/-- The configuration writes of steps 1 to 4, in order (R170 to R176). -/
def applyConfig (c : Config) (t : Transaction) (fm : FunctionalMode) (om : OperatingMode) : List CrWrite :=
  let w := widthFor om
  let addressed := t.address.isSome || decide (fm = .memoryMapped)
  let dataPhase := decide (0 < t.dataLength.toNat) || decide (fm = .memoryMapped)
  [ .dl t.dataLength,
    .dcyc t.dummyCycles,
    .admode (if addressed then enc w.addr else 0),
    .adsize (if addressed then adsizeCode c else 0),
    .abmode 0,
    .absize 0,
    .dmode (if dataPhase then enc w.data else 0),
    .imode (enc w.instr),
    .instr (c.opcode t.command) ]

/-- What CTRL drops when `CR.FMODE` is set to an indirect code: mapped service and the prefetched bytes (R96,
R107). -/
def Ctrl.leaveMapped (c : Ctrl) : Ctrl := { c with readCmd := none, prefetch := [] }

/-- `CR.FMODE <- code(fm); FM <- fm`, in one step (R32, R177). -/
def State.commitMode (fm : FunctionalMode) (s : State) : State :=
  match fmodeCode fm with
  | none   => s
  | some k =>
    let s1 := s.setAll [.fmode k]
    { s1 with
      fm   := fm
      ctrl := if fm = .memoryMapped then s1.ctrl else s1.ctrl.leaveMapped
      log  := .mode fm :: s1.log }

/-- `CR.AR <- zext_32(TR.address)`, only when an address was supplied (R50, R177). -/
def State.writeAddress (s : State) : State :=
  match s.tr.address with
  | none   => s
  | some a => s.setAll [.ar (a.setWidth 32)]

/-- Steps 1 to 5 up to the launch: `TR <- T`, the configuration, the mode, the address (R170). DESIGN CHOICE: nothing writes
`TR` after this but the next call, so that it keeps the transaction once `apply` has returned, where R36 leaves its value
open (log entry 28). -/
def State.configure (t : Transaction) (fm : FunctionalMode) (om : OperatingMode) (s : State) : State :=
  ((({ s with tr := t } : State).setAll (applyConfig s.cfg t fm om)).commitMode fm).writeAddress

/-- `Launch()` and where `apply` stands after it: steps 6 and 7 of an indirect transaction lie ahead; a
memory-mapped call returns at once, with no access of `DR` and no get of `BUSY` (R177 to R181). -/
def State.launch (fm : FunctionalMode) (s : State) : State :=
  match fm with
  | .uninitialized => s
  | .indirectWrite => let s1 := s.launchIndirect; s1.setPhase (s1.pushPhase 0)
  | .indirectRead  => let s1 := s.launchIndirect; s1.setPhase (s1.popPhase 0)
  | .memoryMapped  => s.launchMapped

/-- `apply(T, fm, om)` (R170), as far as the environment lets it go: it returns, or it waits (R185). -/
def State.apply (t : Transaction) (fm : FunctionalMode) (om : OperatingMode) (s : State) : State :=
  ((s.configure t fm om).launch fm).finishApply

/-- The restoration step, `enterMemoryMapped()` (R246): it neither fails nor waits. -/
def State.enterMapped (s : State) : State :=
  s.apply (Transaction.readData s.cfg) .memoryMapped s.cfg.omDefault

/-- The part of the contract of `apply` that needs the state: the peripheral reads as enabled, and the
reference covers the data (R182). -/
def State.mayApply (t : Transaction) (fm : FunctionalMode) (om : OperatingMode) (s : State) : Bool :=
  t.wf s.cfg fm om && s.cr.en && t.data.covers s.host.buffer t.dataLength.toNat

/-- A direct call of an internal operation: it needs a configuration that meets R8 and a block that is not
occupied (R8, R182, R260 a). -/
def State.direct (s : State) (go : State → Host.Outcome State Fault Refusal) : Host.Outcome State Fault Refusal :=
  if !s.cfg.wf then .refused .badConfiguration
  else if s.busy then .refused .sequencerRunning
  else go s

/-- What a direct call of `apply` that has come to `s` answers: a call that sends no lent buffer reads none, and any other
is a fault where it has come to read one through the window (R84, R357). -/
def State.callOutcome (t : Transaction) (s : State) : Host.Outcome State Fault Refusal :=
  match t.data with
  | .absent   => .next s
  | .status   => .next s
  | .caller   => .next s
  | .buffer _ => s.outcome

/-- A direct call of `apply`: inside its contract it runs, outside it has no meaning (R182, U3). -/
def State.directApply (t : Transaction) (fm : FunctionalMode) (om : OperatingMode) (s : State) :
    Host.Outcome State Fault Refusal :=
  s.direct (fun s => if s.mayApply t fm om then (s.apply t fm om).callOutcome t else .refused .contractViolation)

end Sys2Proof.Machine
end

