-- ==== Sys2Proof/Machine/FlashCommands.lean ====
section
/-! DEFINITION. The meanings of the seven flash commands (R200 to R207): each is one transaction handed to the
Transaction Builder, as the command's rule writes it. The Operation Sequencer issues the same transactions;
here a command is called on its own (R182). -/

namespace Sys2Proof.Machine

/-- `RDSR`, ReadStatusRegister (R200). -/
def execRdsr (s : State) : Host.Outcome State Fault Refusal :=
  s.directApply Transaction.readStatus .indirectRead s.cfg.omDefault

/-- `WREN`, WriteEnable (R201). -/
def execWren (s : State) : Host.Outcome State Fault Refusal :=
  s.directApply (Transaction.send .writeEnable) .indirectWrite s.cfg.omDefault

/-- `CE`, ChipErase (R202). -/
def execCe (s : State) : Host.Outcome State Fault Refusal :=
  s.directApply (Transaction.send .chipErase) .indirectWrite s.cfg.omDefault

/-- `SE`, SectorErase (R203). -/
def execSe (a : Addr24) (s : State) : Host.Outcome State Fault Refusal :=
  s.directApply (Transaction.sectorErase a) .indirectWrite s.cfg.omDefault

/-- `PP`, PageProgram (R204), of the first `n` bytes of the lent buffer. -/
def execPp (a : Addr24) (n : Word32) (s : State) : Host.Outcome State Fault Refusal :=
  s.directApply (Transaction.pageProgram a 0 n) .indirectWrite s.cfg.omDefault

/-- `READ`, ReadData, in memory-mapped mode only (R205). -/
def execRead (s : State) : Host.Outcome State Fault Refusal :=
  s.directApply (Transaction.readData s.cfg) .memoryMapped s.cfg.omDefault

/-- `EQPI`, EnableQPI, always at single width (R206). -/
def execEqpi (s : State) : Host.Outcome State Fault Refusal :=
  s.directApply (Transaction.send .enableQPI) .indirectWrite .single

end Sys2Proof.Machine
end

