-- ==== Sys2Proof/Machine/BusyWait.lean ====
section
/-! DEFINITION. The Busy-Wait Protocol `waitUntilReady` (R220 to R228), as far as the environment lets each of
its status reads go, and its resumption where a status read had to wait (R225 e). -/

namespace Sys2Proof.Machine

/-- `waitUntilReady` returns: its result in `r`, nothing left to wait for (R221, R307). -/
def State.endWait (r : Result) (s : State) : State := { s with seq := { s.seq with r := r, waiting := none } }

/-- After a status read: `SEQ.attempts <- SEQ.attempts + 1`, and `Ok` when the busy bit is 0 (R221, R222). -/
def State.countPoll (s : State) : State :=
  let s1 : State := { s with seq := { s.seq with attempts := s.seq.attempts + 1 } }
  if statusBusy s1.cfg.busyBit s1.seq.status then s1 else s1.endWait .ok

/-- One status read (R200, R221). -/
def State.readStatus (s : State) : State := s.apply Transaction.readStatus .indirectRead s.cfg.omDefault

/-- The loop of R221, up to `k` rounds of it: on until it returns or a status read has to wait. -/
def State.waitLoop : Nat → State → State
  | 0,     s => s
  | k + 1, s =>
    match s.seq.waiting with
    | none     => s
    | some max =>
      if s.seq.attempts < max then
        let s1 := s.readStatus
        if s1.seq.phase = .idle then State.waitLoop k s1.countPoll else s1
      else s.endWait .timeout

/-- `waitUntilReady(maxAttempts)` (R221): `SEQ.attempts <- 0`, then the loop. The loop makes at most
`maxAttempts` reads, and its last round answers `Timeout` (R225 c). -/
def State.waitUntilReady (max : Word32) (s : State) : State :=
  State.waitLoop (max.toNat + 1) { s with seq := { s.seq with attempts := 0, waiting := some max } }

/-- A waiting call goes on (R185, R225 e): the `apply` in progress, and then the loop it is part of. -/
def State.resumeCall (s : State) : State :=
  let s1 := s.finishApply
  match s.seq.waiting with
  | none     => s1
  | some max =>
    if s1.seq.phase ≠ .idle then s1
    else if s.seq.phase = .idle then s1.waitLoop (max.toNat + 1)
    else s1.countPoll.waitLoop (max.toNat + 1)

end Sys2Proof.Machine
end

