-- ==== Sys2Proof/Machine/Sequencer.lean ====
section
/-! DEFINITION. The Operation Sequencer (R260 to R283): acceptance, the lines of the four listings, the moves of
`SEQ.step` (R282), and the run of the lines until the operation returns, waits, or gives another agent its
turn. -/

namespace Sys2Proof.Machine

/-! ## Acceptance -/

/-- The first label of an operation (R260). -/
def Op.first : Op → Label
  | .init   => .i0
  | .merase => .m0
  | .serase => .s0
  | .write  => .w0

/-- The mode precondition (R260): `INIT` needs `Uninitialized`, the others `MemoryMapped`. -/
def Op.modeAllowed (op : Op) (fm : FunctionalMode) : Bool :=
  match op with
  | .init => decide (fm = .uninitialized)
  | _     => decide (fm = .memoryMapped)

/-- The address range (R261): `SERASE` below the device's size, but a misaligned address is accepted and gets
its `AlignmentError`; `WRITE` with `ADDR + LEN` at most the size, as integers. -/
def Op.inRange (op : Op) (c : Config) (addr len : Word32) : Bool :=
  match op with
  | .serase => decide (addr.toNat % c.sectorSize ≠ 0) || decide (addr.toNat < c.flashSize)
  | .write  => decide (addr.toNat + len.toNat ≤ c.flashSize)
  | _       => true

/-- `WRITE` comes with `LEN` bytes (R61, R121). -/
def Op.dataPresent (op : Op) (buffer : List Byte) (len : Word32) : Bool :=
  match op with
  | .write => decide (len.toNat ≤ buffer.length)
  | _      => true

/-- An accepted request: `SEQ` running at the first label with the operands latched, HOST waiting for its
response (R260). -/
def State.accept (op : Op) (addr len : Word32) (s : State) : State :=
  { s with
    seq  := { s.seq with state := .running, op := op, step := op.first, addr := addr, len := len }
    host := { s.host with response := none } }

/-! ## The lines -/

/-- The label after a label in its listing (R282). -/
def Label.next : Label → Label
  | .i0 => .i1 | .i1 => .i2 | .i2 => .i3 | .i3 => .i4 | .i4 => .i5 | .i5 => .i5
  | .m0 => .m1 | .m1 => .m2 | .m2 => .restore
  | .s0 => .s1 | .s1 => .s2 | .s2 => .s3 | .s3 => .restore
  | .w0 => .w1 | .w1 => .w2 | .w2 => .w3 | .w3 => .w4 | .w4 => .w5 | .w5 => .w6 | .w6 => .w1
  | .restore => .ret | .ret => .ret

/-- `SEQ.step` moves to the next label of the listing. -/
def State.nextLabel (s : State) : State := s.goto s.seq.step.next

/-- Step I0: the device configuration (R44, R266). -/
def State.configureDevice (s : State) : State :=
  s.setAll [.addrw (BitVec.ofNat 5 s.cfg.addrBits), .timing s.cfg.timingCfg]

/-- The length of the chunk at `SEQ.off` (R277 W2, R279). -/
def State.nextChunk (s : State) : Word32 :=
  BitVec.ofNat 32
    (chunkLength s.cfg.pageChunk (s.seq.addr.toNat + s.seq.off.toNat) (s.seq.len.toNat - s.seq.off.toNat))

/-- What a line does before `SEQ.step` moves on: its calls of `apply` and `waitUntilReady` and its assignments
(R265, R270, R274, R277). The tests of I2, S0, W1 and W5 and the return stand in `finishLine`. -/
def State.startLine (s : State) : State :=
  match s.seq.step with
  | .i0 => s.configureDevice
  | .i1 => s.setEnable
  | .i2 => s.emit (.getEn s.cr.en)
  | .i3 =>
    match s.cfg.omDefault with
    | .quad   => s.apply (Transaction.send .enableQPI) .indirectWrite .single
    | .single => s
    | .dual   => s
  | .i4 => s.enterMapped
  | .i5 => { s with seq := { s.seq with r := .ok } }
  | .m0 | .s1 | .w3 => s.apply (Transaction.send .writeEnable) .indirectWrite s.cfg.omDefault
  | .m1 => s.apply (Transaction.send .chipErase) .indirectWrite s.cfg.omDefault
  | .m2 | .s3 | .w5 => s.waitUntilReady s.cfg.maxAttempts
  | .s0 => s
  | .s2 => s.apply (Transaction.sectorErase (flashAddress s.seq.addr)) .indirectWrite s.cfg.omDefault
  | .w0 => { s with seq := { s.seq with off := 0, r := .ok } }
  | .w1 => s
  | .w2 => { s with seq := { s.seq with chunk := s.nextChunk } }
  | .w4 =>
    s.apply (Transaction.pageProgram (chunkAddress s.seq.addr s.seq.off) s.seq.off s.seq.chunk) .indirectWrite
      s.cfg.omDefault
  | .w6 => { s with seq := { s.seq with off := s.seq.off + s.seq.chunk } }
  | .restore => s.enterMapped
  | .ret => s

/-- Where a line leads once its calls have returned (R282): the next label, but for the branches of I2, S0, W1
and W5, the skip of I3, and the returns. -/
def State.finishLine (s : State) : State :=
  match s.seq.step with
  | .i2  =>
    if s.cr.en then (if s.cfg.omDefault = .quad then s.nextLabel else s.goto .i4) else s.raise .fatalError
  | .i5  => s.returnResult
  | .s0  => if s.seq.addr.toNat % s.cfg.sectorSize ≠ 0 then s.raise .alignmentError else s.nextLabel
  | .m2 | .s3 | .w5 => if s.seq.r = .timeout then s.raise .timeout else s.nextLabel
  | .w1  => if s.seq.off = s.seq.len then s.goto .restore else s.nextLabel
  | .ret => s.returnResult
  | _    => s.nextLabel

/-- One line of the running operation (R12): its calls, and, unless one of them waits, its move. -/
def State.line (s : State) : State :=
  let s1 := s.startLine
  if s1.held then s1 else s1.finishLine

/-- Up to `k` lines of the running operation: on until it returns or waits. -/
def State.run : Nat → State → State
  | 0,     s => s
  | k + 1, s =>
    if s.seq.state = .running && !s.held then State.run k s.line else s

/-- A host request (R260, R261): refused in the cases of R8, R260 a to c and R261, with all state unchanged
(R13); else accepted, and run for as many lines as SEQ takes before another agent's turn (R12, D45); a fault of HOST
where the block comes to read a buffer through the window (R357). -/
def State.request (op : Op) (addr len : Word32) (s : State) : Host.Outcome State Fault Refusal :=
  if !s.cfg.wf then .refused .badConfiguration
  else if s.busy then .refused .sequencerRunning
  else if !op.modeAllowed s.fm then .refused .wrongMode
  else if !op.inRange s.cfg addr len then .refused .outOfRange
  else if !op.dataPresent s.host.buffer len then .refused .dataMissing
  else (State.run s.env.slice (s.accept op addr len)).outcome

/-- The occupied block goes on: a waiting call first, then the lines of the running operation (R185, R282).
It takes at least one line (R12). -/
def State.resume (s : State) : State :=
  if s.held then
    let s1 := s.resumeCall
    if s1.held then s1
    else if s1.seq.state = .running then State.run s1.env.slice s1.finishLine
    else s1
  else State.run (s.env.slice + 1) s

end Sys2Proof.Machine
end

