-- ==== Sys2Proof/Machine/HostOps.lean ====
section
/-! DEFINITION. The meanings of the four host operations (R265, R270, R274, R277): each is its request to the
Operation Sequencer, with the operands format H gives it (R121). An operand the operation ignores is none of its
instruction's, and is latched from the request's field all the same (R121, R260). -/

namespace Sys2Proof.Machine

/-- `INIT`, `initialize()` (R265). -/
def execInit (s : State) : Host.Outcome State Fault Refusal := s.request .init s.host.reqAddr s.host.reqLen

/-- `MERASE`, `massErase()` (R270). -/
def execMerase (s : State) : Host.Outcome State Fault Refusal := s.request .merase s.host.reqAddr s.host.reqLen

/-- `SERASE`, `eraseSector(address)` (R274). -/
def execSerase (addr : Word32) (s : State) : Host.Outcome State Fault Refusal := s.request .serase addr s.host.reqLen

/-- `WRITE`, `writeMemory(destination, data)` (R277). -/
def execWrite (dest len : Word32) (s : State) : Host.Outcome State Fault Refusal := s.request .write dest len

end Sys2Proof.Machine
end

