-- ==== Sys2Proof/Machine/Internal.lean ====
section
/-! DEFINITION. The meanings of the four internal operations, called on their own: `widthFor` (R160), `apply`
(R170), `waitUntilReady` (R220) and `enterMemoryMapped` (R246). -/

namespace Sys2Proof.Machine

/-- `widthFor(mode)` (R160, R161): it reads and writes no state of the spec's; the result is delivered to the
caller in `widths`, the model's own field. It is total and needs no configuration. -/
def execWidthFor (om : OperatingMode) (s : State) : Host.Outcome State Fault Refusal :=
  .next { s with widths := widthFor om }

/-- `apply(T, fm, om)` (R170). -/
def execApply (t : Transaction) (fm : FunctionalMode) (om : OperatingMode) (s : State) :
    Host.Outcome State Fault Refusal :=
  s.directApply t fm om

/-- `waitUntilReady(maxAttempts)` (R220, R221); its result is in `r`. A bound of 0 makes no transaction (R225 a)
and so needs no enabled peripheral; with another, its status reads are outside the contract of `apply` where `CR.EN` reads
0, and so of no meaning (R182, U3). -/
def execWaitUntilReady (max : Word32) (s : State) : Host.Outcome State Fault Refusal :=
  s.direct (fun s =>
    if s.cr.en || decide (max = 0) then .next (s.waitUntilReady max) else .refused .contractViolation)

/-- `enterMemoryMapped()` (R246), a call of `apply`: outside its contract where `CR.EN` reads 0, and so of no meaning
(R182, U3). -/
def execEnterMemoryMapped (s : State) : Host.Outcome State Fault Refusal :=
  s.direct (fun s => if s.cr.en then .next s.enterMapped else .refused .contractViolation)

end Sys2Proof.Machine
end

