-- ==== Sys2Proof/Machine/Dispatch.lean ====
section
/-! DEFINITION. The dispatch: one arm per constructor of Instr, one direct call of its meaning. -/

namespace Sys2Proof.Machine

def exec (i : Instr) (s : State) : Host.Outcome State Fault Refusal :=
  match i with
  | .init => Sys2Proof.Machine.execInit s
  | .merase => Sys2Proof.Machine.execMerase s
  | .serase addr => Sys2Proof.Machine.execSerase addr s
  | .write dest len => Sys2Proof.Machine.execWrite dest len s
  | .rdsr => Sys2Proof.Machine.execRdsr s
  | .wren => Sys2Proof.Machine.execWren s
  | .ce => Sys2Proof.Machine.execCe s
  | .se a => Sys2Proof.Machine.execSe a s
  | .pp a n => Sys2Proof.Machine.execPp a n s
  | .read => Sys2Proof.Machine.execRead s
  | .eqpi => Sys2Proof.Machine.execEqpi s
  | .widthFor om => Sys2Proof.Machine.execWidthFor om s
  | .apply t fm om => Sys2Proof.Machine.execApply t fm om s
  | .waitUntilReady max => Sys2Proof.Machine.execWaitUntilReady max s
  | .enterMemoryMapped => Sys2Proof.Machine.execEnterMemoryMapped s

end Sys2Proof.Machine
end

