-- ==== Sys2Proof/Machine/Window.lean ====
section
/-! DEFINITION. HOST's side of the block (R11, R82 to R85, R133): mapped reads and writes, lending the buffer,
and the one operation that performs whatever stands at the port. -/

namespace Sys2Proof.Machine

/-- The read command as the chip sees its widths (R108): it understands the mapped reads of CTRL (R103). -/
def State.mappedUnderstood (s : State) : Bool :=
  match s.ctrl.readCmd with
  | none   => false
  | some r =>
    match lines r.imode with
    | none    => false
    | some iw => s.flash.framing.understands iw (lines r.admode) (lines r.dmode)

/-- The bytes of a mapped read reach HOST, and the prefetch path holds them (R57, R83). -/
def State.deliverMapped (o : Nat) (d : List Byte) (s : State) : State :=
  { s with
    host := { s.host with readData := d }
    ctrl := { s.ctrl with prefetch := (List.range d.length).zipWith (fun i v => (o + i, v)) d } }

/-- `MemRead(addr, n)` (R82, R83, R84): a fault of HOST outside memory-mapped mode, while the block is occupied,
or beyond the window; else the array's bytes at ascending offsets, and free values while the chip is busy or
does not understand the frames CTRL sends (U6, U7). -/
def State.mappedRead (addr n : Nat) (s : State) : Host.Outcome State Fault Refusal :=
  if s.fm ≠ .memoryMapped || s.busy then .fault .mappedReadOutsideMode
  else if addr < s.cfg.mmBase || s.cfg.mmBase + s.cfg.flashSize < addr + n then .fault .mappedReadOutsideWindow
  else
    let o := addr - s.cfg.mmBase
    let s1 := s.chipSettle
    if s1.flash.wip || !s1.mappedUnderstood then
      let r := s1.chipUnknown.drawBytes n
      .next (r.2.deliverMapped o r.1)
    else .next (s1.deliverMapped o (Memory.readMany s1.flash.array o n))

/-- HOST lends a buffer (R61). While the block is occupied HOST is blocked and must not change it. -/
def State.lend (addr : Nat) (data : List Byte) (s : State) : Host.Outcome State Fault Refusal :=
  if s.busy then .refused .sequencerRunning else .next { s with host := { s.host with buffer := data, bufferAt := addr } }

/-- HOST's part of a step that needs no instruction: the port is emptied first. -/
def State.takePort (s : State) : State := { s with host := { s.host with port := none } }

/-- HOST presents a request: its fields stand at the port, where acceptance latches them (R121, R260). -/
def State.present (a : HostAction) (s : State) : State :=
  match a with
  | .request bs =>
    match requestFields bs with
    | some f => { s with host := { s.host with reqAddr := f.1, reqLen := f.2 } }
    | none   => s
  | _ => s

/-- HOST takes the first action of its program. -/
def State.takeProgram (rest : List HostAction) (s : State) : State :=
  { s with host := { s.host with program := rest } }

end Sys2Proof.Machine
end

