-- ==== Sys2Proof/Machine/Fetch.lean ====
section
/-! DEFINITION. How an instruction reaches the machine: the decoding of what stands at the port, and the bytes
a table word is stored as. -/

namespace Sys2Proof.Machine

/-- The instruction an action carries, decoded from its bytes or given as a call; none for an action that is
no instruction. -/
def HostAction.instr (c : Config) : HostAction → Option (Except DecodeError Instr)
  | .request bs     => some ((decodeRequest bs).map Prod.fst)
  | .transaction bs => some ((decodeTransaction c bs).map Prod.fst)
  | .call i         => some (.ok i)
  | _               => none

/-- An action that is no instruction (R61, R83, R85, R340, R342). -/
def State.hostAct (a : HostAction) (s : State) : Host.Outcome State Fault Refusal :=
  match a with
  | .lend ad data     => s.lend ad data
  | .mappedRead ad n  => s.mappedRead ad n
  | .mappedWrite _ _  => .refused .windowWrite
  | .resetBlock       => .next s.resetBlock
  | .powerCycleChip   => .next s.powerCycleChip
  | .request _        => .next s
  | .transaction _    => .next s
  | .call _           => .next s

/-- The action a table word stands for: rows of one byte are host requests (format H), rows of 32 bits are
transactions (format T); the operand bytes above `nbits` are zero. -/
def tableAction (nbits w : Nat) : HostAction :=
  if nbits = 8 then .request (natBytes 9 w) else .transaction (natBytes 12 w)

/-- Storing a table word where the next step fetches: at the port. A transaction needs an enabled peripheral
before any builder call has a meaning (R182), so for a transaction the word brings `CR.EN = 1` with it. -/
def State.placeWord (s : State) (nbits w : Nat) : State :=
  { s with
    host := { s.host with port := some (tableAction nbits w) }
    cr   := { s.cr with en := s.cr.en || decide (nbits ≠ 8) } }

end Sys2Proof.Machine
end

