-- ==== Sys2Proof/Machine/Step.lean ====
section
/-! DEFINITION. One step of the machine: what stands at the port, else the occupied block goes on, else HOST's
next action, else nothing (R11, R341). -/

namespace Sys2Proof.Machine

/-- An action is performed: an instruction is decoded and run by `exec`, a request's fields at the port (R260);
anything else is HOST's. -/
def perform (a : HostAction) (s : State) : Host.Outcome State Fault Refusal :=
  match a.instr s.cfg with
  | none            => s.hostAct a
  | some (.ok i)    => exec i (s.present a)
  | some (.error e) => .refused (.undecodable e)

/-- One step; a configuration that breaks R8 is refused. The three outcomes are those of R13: a next state (a wait the
environment does not lift is a next state too), a fault of HOST, a refusal. -/
def step (s : State) : Host.Outcome State Fault Refusal :=
  if !s.cfg.wf then .refused .badConfiguration
  else
    match s.host.port with
    | some a => perform a s.takePort
    | none   =>
      if s.busy then s.resume.outcome
      else
        match s.host.program with
        | []        => .next s
        | a :: rest => perform a (s.takeProgram rest)

/-- `s` with a table word stored where the next step fetches its instruction. -/
def State.withFetchWord (s : State) (nbits w : Nat) : State := s.placeWord nbits w

end Sys2Proof.Machine
end

