-- ==== Sys2Proof/Safety.lean ====
section
/-! DEFINITION. What the claims speak of: the invariants of the spec over the state (R32, R243, R244), the
consistency of CTRL with the `apply` in progress, the frames an observer has seen (R12), and an environment
that lets a stretch of the machine's waits through. -/

namespace Sys2Proof.Machine

/-- R32: whenever `FM` is not `Uninitialized`, it is the mode `CR.FMODE` encodes. -/
def State.modeAgrees (s : State) : Prop := s.fm = .uninitialized ∨ fmodeCode s.fm = some s.cr.fmode

/-- R244: whenever the sequencer is idle, `FM` is `Uninitialized` or `MemoryMapped`. -/
def State.idleMode (s : State) : Prop :=
  s.seq.state = .idle → s.fm = .uninitialized ∨ s.fm = .memoryMapped

/-- The bytes of the transaction in flight that are in the FIFO, by where the `apply` stands (R98, R105, R106):
before the frame has reached the chip a write has pushed `i` bytes; after it a read has popped `i` bytes. -/
def State.transferAgrees (s : State) : Prop :=
  match s.seq.phase, s.ctrl.inflight with
  | .idle,   none    => s.ctrl.fifo = [] ∧ s.cr.busy = false
  | .push i, some fl => fl.frame.dir = .write ∧ fl.delivered = false ∧ fl.frame.len = s.tr.dataLength.toNat
                          ∧ s.ctrl.fifo.length = i ∧ i < fl.frame.len ∧ s.cr.busy = true
  | .pop i,  some fl => fl.frame.dir = .read ∧ fl.frame.len = s.tr.dataLength.toNat ∧ i < fl.frame.len
                          ∧ s.ctrl.fifo.length + i = (if fl.delivered then fl.frame.len else 0)
                          ∧ s.cr.busy = true
  | .await,  some fl => s.cr.busy = true
                          ∧ if fl.delivered then s.ctrl.fifo = []
                            else s.ctrl.fifo.length = fl.frame.len ∧ (fl.frame.dir = .read → fl.frame.len = 0)
  | _, _ => False

/-- A waiting `apply` is an indirect one (R180, R181, R185). -/
def State.waitMode (s : State) : Prop := s.seq.phase ≠ .idle → s.fm = .indirectWrite ∨ s.fm = .indirectRead

/-- The array, and the array as the chip's work found it, are in canonical form and inside the device (R80). -/
def State.arrayWf (s : State) : Prop :=
  (Memory.wf s.flash.array = true ∧ Memory.inside s.cfg.flashSize s.flash.array = true)
    ∧ Memory.wf s.flash.found = true ∧ Memory.inside s.cfg.flashSize s.flash.found = true

/-- The operation the chip works on lies inside the device (R101, R102). -/
def State.pendingInside (s : State) : Prop :=
  match s.flash.pending with
  | .sectorErase a => a < s.cfg.flashSize
  | .program a _   => a < s.cfg.flashSize
  | _              => True

/-- Where a running operation stands while it has to leave `FM` as its listing says (R242, R243, R247, R248): the
lines before the first transaction and the lines that return; which lines wait, and for what (R185, R225). -/
def State.lineMode (s : State) : Prop :=
  s.seq.state = .running →
    match s.seq.step with
    | .i0 | .i1 | .i2 => s.fm = .uninitialized ∧ s.held = false
    | .i5 | .s0 | .ret => s.fm = .memoryMapped ∧ s.held = false
    | .i4 | .restore | .w0 | .w1 | .w2 | .w6 => s.held = false
    | .i3 => s.seq.waiting = none
    | .m0 | .m1 | .s1 | .s2 | .w3 | .w4 => s.seq.waiting = none
    | .m2 | .s3 | .w5 => s.held = true → s.seq.waiting.isSome = true

/-- The result a running operation carries in `r` on the lines that lead to its return is `Ok` or `Timeout`, the
only results that pass through `RESTORE` (R307). -/
def State.lineResult (s : State) : Prop :=
  s.seq.state = .running →
    match s.seq.step with
    | .w1 | .w2 | .w3 | .w4 | .w5 | .w6 | .restore | .ret => s.seq.r = .ok ∨ s.seq.r = .timeout
    | _ => True

/-- What a response says of the mode (R243, R247, R248, R308): none while an operation runs; once it has returned,
`FM` is `MemoryMapped`, but after `FatalError`, where it is `Uninitialized`. -/
def State.returnMode (s : State) : Prop :=
  match s.host.response with
  | none             => True
  | some .fatalError => s.seq.state = .idle ∧ s.fm = .uninitialized
  | some _           => s.seq.state = .idle ∧ s.fm = .memoryMapped

/-- The action is a direct call of the builder or of an internal operation, which is no host operation (R182). -/
def HostAction.isDirect (c : Config) (a : HostAction) : Bool :=
  match a.instr c with
  | some (.ok .init)         => false
  | some (.ok .merase)       => false
  | some (.ok (.serase _))   => false
  | some (.ok (.write _ _))  => false
  | some (.ok (.widthFor _)) => false
  | some (.ok _)             => true
  | _                        => false

/-- HOST makes no direct call: it uses the four host operations only, as the source's interface has it. -/
def State.hostOnly (s : State) : Prop :=
  (∀ a, s.host.port = some a → a.isDirect s.cfg = false) ∧ ∀ a ∈ s.host.program, a.isDirect s.cfg = false

/-- The invariant of every machine, whatever is called. -/
def State.coherent (s : State) : Prop :=
  s.modeAgrees ∧ s.waitMode ∧ s.transferAgrees ∧ s.arrayWf ∧ s.pendingInside

/-- The invariant of a machine used through its four host operations. -/
def State.disciplined (s : State) : Prop :=
  s.coherent ∧ s.idleMode ∧ s.lineMode ∧ s.lineResult ∧ s.returnMode ∧ s.hostOnly
    ∧ (s.seq.state = .idle → s.held = false)

/-- The wire frame of an event. -/
def Event.frameSent : Event → Option Frame
  | .frame f => some f
  | _        => none

/-- The wire frames an observer has seen, newest first (R12). -/
def State.frames (s : State) : List Frame := s.log.filterMap Event.frameSent

/-! ## What one transaction leaves -/

/-- The register fields after steps 1 to 5 (R170). -/
def CR.configured (cr : CR) (c : Config) (t : Transaction) (fm : FunctionalMode) (om : OperatingMode) (k : BitVec 2) :
    CR :=
  { cr with
    dl     := t.dataLength
    dcyc   := t.dummyCycles
    admode := if t.address.isSome || decide (fm = .memoryMapped) then modeCode om else 0
    adsize := if t.address.isSome || decide (fm = .memoryMapped) then adsizeCode c else 0
    abmode := 0
    absize := 0
    dmode  := if decide (0 < t.dataLength.toNat) || decide (fm = .memoryMapped) then modeCode om else 0
    imode  := modeCode om
    instr  := c.opcode t.command
    fmode  := k
    ar     := match t.address with | none => cr.ar | some a => a.setWidth 32 }

/-- The events of steps 1 to 5, newest first (R170, R177). -/
def configuredLog (c : Config) (t : Transaction) (fm : FunctionalMode) (om : OperatingMode) (k : BitVec 2) :
    List Event :=
  (match t.address with | none => [] | some a => [Event.set (.ar (a.setWidth 32))])
    ++ .mode fm :: .set (.fmode k) :: ((applyConfig c t fm om).map Event.set).reverse

/-- The frame CTRL takes at the launch of an indirect transaction (R98, R127). -/
def launchedFrame (c : Config) (t : Transaction) (om : OperatingMode) (dir : Direction) : Frame where
  iw     := (widthFor om).instr
  opcode := c.opcode t.command
  aw     := t.address.map (fun _ => (widthFor om).addr)
  abytes := if t.address.isSome then (adsizeCode c).toNat + 1 else 1
  addr   := t.address.map (fun a => a.toNat % 2 ^ (8 * ((adsizeCode c).toNat + 1)))
  dummy  := t.dummyCycles
  dw     := if 0 < t.dataLength.toNat then some (widthFor om).data else none
  dir    := dir
  len    := t.dataLength.toNat
  data   := []

/-- CTRL takes each of the next `k` steps that a wait asks of it (R105, R106, R185). -/
def State.lets (s : State) (k : Nat) : Prop := s.env.lift.take k = List.replicate k true

/-- The first `n` bytes of the lent buffer lie outside the memory-mapped window (R357). -/
def State.clearOfWindow (s : State) (n : Nat) : Prop := ∀ i, i < n → s.host.inWindow s.cfg i = false

/-- The state after an indirect-write transaction has completed on the wire: `d` streamed out, one frame, `CR.BUSY`
read until it was 0, the chip left as `fl` (R178, R181, R184); `TR` keeps the transaction (log entry 28). -/
def State.written (s : State) (t : Transaction) (om : OperatingMode) (d : List Byte) (fl : Flash) : State :=
  { s with
    tr    := t
    fm    := .indirectWrite
    cr    := { s.cr.configured s.cfg t .indirectWrite om 0 with busy := false }
    ctrl  := { fifo := [], inflight := none, readCmd := none, prefetch := [] }
    flash := fl
    env   := { s.env with lift := s.env.lift.drop (d.length + 2) }
    log   := .getBusy false :: .getBusy true :: .frame { launchedFrame s.cfg t om .write with data := d }
               :: ((d.map Event.push).reverse ++ .launch :: (configuredLog s.cfg t .indirectWrite om 0 ++ s.log)) }

/-- The state after an indirect read of one byte has completed on the wire with the answer `b`, stored where `TR.data`
refers to, the caller's own buffer or `SEQ.status`, the chip left as `fl` and the environment as `e` (R179, R181, R184);
`TR` keeps the transaction (log entry 28). -/
def State.received (s : State) (t : Transaction) (om : OperatingMode) (b : Byte) (fl : Flash) (e : Env) : State :=
  { s with
    tr     := t
    fm     := .indirectRead
    cr     := { s.cr.configured s.cfg t .indirectRead om 1 with busy := false }
    seq    := { s.seq with status := if t.data = .caller then s.seq.status else b }
    ctrl   := { fifo := [], inflight := none, readCmd := none, prefetch := [] }
    flash  := fl
    env    := { e with lift := s.env.lift.drop 2 }
    caller := if t.data = .caller then b else s.caller
    log    := .getBusy false :: .pop b :: .frame { launchedFrame s.cfg t om .read with data := [b] }
               :: .launch :: (configuredLog s.cfg t .indirectRead om 1 ++ s.log) }

/-- The frame of a status read the chip answered with `b` (R200). -/
def statusFrame (c : Config) (b : Byte) : Frame :=
  { launchedFrame c Transaction.readStatus c.omDefault .read with data := [b] }

/-- The state after a status read has completed on the wire with the answer `b`, the chip left as `fl` and the
environment as `e` (R179, R181, R200). -/
def State.statusRead (s : State) (b : Byte) (fl : Flash) (e : Env) : State :=
  s.received Transaction.readStatus s.cfg.omDefault b fl e

/-- The state after a call of `apply` in memory-mapped mode (R180, R181, R184); `TR` keeps the transaction (log entry 28). -/
def State.mappedWith (s : State) (t : Transaction) (om : OperatingMode) : State :=
  { s with
    tr   := t
    fm   := .memoryMapped
    cr   := s.cr.configured s.cfg t .memoryMapped om 3
    ctrl := { s.ctrl with readCmd := some (s.cr.configured s.cfg t .memoryMapped om 3).cfg }
    log  := .launch :: (configuredLog s.cfg t .memoryMapped om 3 ++ s.log) }

/-- The state after the restoration step (R205, R246); `TR` keeps the transaction (log entry 28). -/
def State.mapped (s : State) : State :=
  { s with
    tr   := Transaction.readData s.cfg
    fm   := .memoryMapped
    cr   := s.cr.configured s.cfg (Transaction.readData s.cfg) .memoryMapped s.cfg.omDefault 3
    ctrl := { s.ctrl with
              readCmd := some (s.cr.configured s.cfg (Transaction.readData s.cfg) .memoryMapped s.cfg.omDefault 3).cfg }
    log  := .launch :: (configuredLog s.cfg (Transaction.readData s.cfg) .memoryMapped s.cfg.omDefault 3 ++ s.log) }

/-- The chip as the end of the operation it works on leaves it, its effect on the array included (R99 to R102). -/
def Flash.finished (c : Config) (fl : Flash) : Flash :=
  if fl.wip then
    { wel := false, wip := false, framing := fl.framing, array := fl.outcome c, pending := .nothing, found := []
      work := fl.work }
  else fl

/-- The chip after a destructive frame: at work when the latch is set, unchanged when it is not (R99, R100). -/
def Flash.started (c : Config) (p : Pending) (fl : Flash) : Flash := if fl.wel then fl.startWork c p else fl

/-- The chip is seen ready at the status read number `j + 1` from now, counting from 1 (R100, R223). -/
def State.readyAfter (s : State) (j : Nat) : Prop :=
  (s.flash.wip = false ∧ j = 0)
    ∨ (s.flash.wip = true ∧ s.flash.pending ≠ .unknown
        ∧ s.env.done.take (j + 1) = List.replicate j false ++ [true])

/-- The chip is still busy at each of the next `k` status reads (R100, R224). -/
def State.busyThrough (s : State) (k : Nat) : Prop :=
  s.flash.wip = true ∧ s.env.done.take k = List.replicate k false

/-- Nothing of a transaction is under way: no `apply` waits, no frame, no byte in the FIFO (R93). -/
def State.calm (s : State) : Prop := s.seq.phase = .idle ∧ s.ctrl.inflight = none ∧ s.ctrl.fifo = []

/-- The environment lets the next `k` waits through, the chip is done at each of the next `k` times it is looked
at, and SEQ takes `k` lines at a stretch (R12, R100, R105). -/
def State.smooth (s : State) (k : Nat) : Prop :=
  s.lets k ∧ s.env.done.take k = List.replicate k true ∧ k ≤ s.env.slice

/-- The chip and the block agree on the framing of the default operating mode (R103, R164). -/
def State.framed (s : State) : Prop :=
  (s.flash.framing = .single ∧ s.cfg.omDefault = .single) ∨ (s.flash.framing = .quad ∧ s.cfg.omDefault = .quad)

/-- The chip can be talked to in the default operating mode: it is not busy and understands its frames (R100,
R103). -/
def State.chipReady (s : State) : Prop := s.flash.wip = false ∧ s.framed

/-! ## A running operation and its range -/

/-- The labels of `initialize` (R265). -/
def Label.ofInit : Label → Bool
  | .i0 | .i1 | .i2 | .i3 | .i4 | .i5 => true
  | _ => false

/-- The lines of `initialize` up to the one that sends EnableQPI (R265, R268). -/
def Label.beforeMapped : Label → Bool
  | .i0 | .i1 | .i2 | .i3 => true
  | _ => false

/-- The lines that send WriteEnable (R262). -/
def Label.enables : Label → Bool
  | .m0 | .s1 | .w3 => true
  | _ => false

/-- The lines that send a destructive command (R262). -/
def Label.destroys : Label → Bool
  | .m1 | .s2 | .w4 => true
  | _ => false

/-- The lines that poll (R262). -/
def Label.polls : Label → Bool
  | .m2 | .s3 | .w5 => true
  | _ => false

/-- The lines that find a chip that is not at work: all but the polls and what follows the last of them (R100, R262). -/
def Label.findsReady : Label → Bool
  | .m2 | .s3 | .w5 | .restore | .ret | .i4 | .i5 => false
  | _ => true

/-- The labels of an operation's listing (R265, R270, R274, R277). -/
def Op.owns (op : Op) (l : Label) : Bool :=
  match op, l with
  | .init,   l => l.ofInit
  | _,       .restore => true
  | _,       .ret => true
  | .merase, .m0 => true
  | .merase, .m1 => true
  | .merase, .m2 => true
  | .serase, .s0 => true
  | .serase, .s1 => true
  | .serase, .s2 => true
  | .serase, .s3 => true
  | .write,  .w0 => true
  | .write,  .w1 => true
  | .write,  .w2 => true
  | .write,  .w3 => true
  | .write,  .w4 => true
  | .write,  .w5 => true
  | .write,  .w6 => true
  | _, _ => false

/-- The frame of the call a line makes (R265, R270, R274, R277). -/
def State.lineFrame (s : State) : Option Frame :=
  match s.seq.step with
  | .i3              =>
    if s.cfg.omDefault = .quad then some (launchedFrame s.cfg (Transaction.send .enableQPI) .single .write) else none
  | .m0 | .s1 | .w3  => some (launchedFrame s.cfg (Transaction.send .writeEnable) s.cfg.omDefault .write)
  | .m1              => some (launchedFrame s.cfg (Transaction.send .chipErase) s.cfg.omDefault .write)
  | .s2              =>
    some (launchedFrame s.cfg (Transaction.sectorErase (flashAddress s.seq.addr)) s.cfg.omDefault .write)
  | .w4              =>
    some (launchedFrame s.cfg (Transaction.pageProgram (chunkAddress s.seq.addr s.seq.off) s.seq.off s.seq.chunk)
      s.cfg.omDefault .write)
  | .m2 | .s3 | .w5  => some (launchedFrame s.cfg Transaction.readStatus s.cfg.omDefault .read)
  | _                => none

/-- The offsets the operation in flight has no business with: for `INIT` all of them, for `MERASE` none, for `SERASE`
those outside the sector that starts at `SEQ.addr`, for `WRITE` those outside the `SEQ.len` bytes from `SEQ.addr` on
(R271, R275, R281). -/
def State.outsideRange (s : State) (a : Nat) : Prop :=
  match s.seq.op with
  | .init   => True
  | .merase => False
  | .serase => a < s.seq.addr.toNat ∨ s.seq.addr.toNat + s.cfg.sectorSize ≤ a
  | .write  => a < s.seq.addr.toNat ∨ s.seq.addr.toNat + s.seq.len.toNat ≤ a

/-- What the lines have established of the operands (R261, R273, R277, R279). -/
def State.operandsFit (s : State) : Prop :=
  match s.seq.op with
  | .serase =>
    match s.seq.step with
    | .s0       => s.seq.addr.toNat % s.cfg.sectorSize = 0 → s.seq.addr.toNat < s.cfg.flashSize
    | .s1 | .s2 => s.seq.addr.toNat % s.cfg.sectorSize = 0 ∧ s.seq.addr.toNat < s.cfg.flashSize
    | _         => True
  | .write  =>
    match s.seq.step with
    | .w0       => s.seq.addr.toNat + s.seq.len.toNat ≤ s.cfg.flashSize
    | .w1       => s.seq.addr.toNat + s.seq.len.toNat ≤ s.cfg.flashSize ∧ s.seq.off.toNat ≤ s.seq.len.toNat
    | .w2       => s.seq.addr.toNat + s.seq.len.toNat ≤ s.cfg.flashSize ∧ s.seq.off.toNat < s.seq.len.toNat
    | .w3 | .w4 => s.seq.addr.toNat + s.seq.len.toNat ≤ s.cfg.flashSize ∧ s.seq.off.toNat < s.seq.len.toNat
                     ∧ s.seq.chunk = s.nextChunk
    | .w5 | .w6 => s.seq.addr.toNat + s.seq.len.toNat ≤ s.cfg.flashSize
                     ∧ s.seq.off.toNat + s.seq.chunk.toNat ≤ s.seq.len.toNat
    | _         => True
  | _ => True

/-- A chip's work leaves the offsets in `R` alone: it is known, it is at no offset there, and its end changes no byte
there (R101, R102). -/
def Pending.spares (c : Config) (R : Nat → Prop) (p : Pending) : Prop :=
  (p ≠ .nothing ∧ p ≠ .unknown) ∧ (∀ a, R a → p.touches c a = false)
    ∧ ∀ m a, R a → Memory.read (p.result c m) a = Memory.read m a

/-- The frame of the call under way has reached the chip. -/
def State.delivered (s : State) : Bool :=
  match s.ctrl.inflight with
  | some x => x.delivered
  | none   => false

/-- A running operation that is in its range: its position is one of its listing and its operands fit it; a call that
waits is its line's, with its line's frame under way; the chip understands the block, is not at work where the line
finds it ready, and otherwise works inside the range only; a poll's byte goes to `SEQ.status`, and the one it is about to
look at is the chip's. -/
structure State.InRange (s : State) : Prop where
  conf     : s.cfg.wf = true
  coherent : s.coherent
  running  : s.seq.state = .running
  label    : s.seq.op.owns s.seq.step = true
  operands : s.operandsFit
  call     : s.held = true → s.seq.phase ≠ .idle ∧ s.seq.waiting.isSome = s.seq.step.polls
  frame    : ∀ x, s.ctrl.inflight = some x → ∃ f, s.lineFrame = some f ∧ x.frame.len = f.len
               ∧ (x.delivered = false → x.frame = f)
  framed   : s.seq.op ≠ .init → s.framed
  single   : s.seq.step.beforeMapped = true → s.cfg.omDefault = .quad → s.delivered = false → s.flash.framing = .single
  ready    : s.seq.step.findsReady = true → (s.seq.step.destroys = true → s.delivered = false) → s.flash.wip = false
  work     : s.flash.wip = true → s.flash.pending.spares s.cfg s.outsideRange
               ∧ ∀ a, s.outsideRange a → Memory.read s.flash.found a = Memory.read s.flash.array a
  dest     : s.seq.waiting.isSome = true → s.tr.data = .status
  answer   : s.seq.waiting.isSome = true → s.delivered = true →
               statusBusy s.cfg.busyBit (s.ctrl.fifo.headD s.seq.status) = s.flash.wip

/-! ## The chunks of a write -/

/-- The chunks `(flash address, length)` of a write of `m` bytes at `a`, in order, at most `k` of them (R277,
R279). -/
def chunksUpTo (pageChunk : Nat) : Nat → Nat → Nat → List (Nat × Nat)
  | 0,     _, _ => []
  | k + 1, a, m =>
    if m = 0 then []
    else (a, chunkLength pageChunk a m)
      :: chunksUpTo pageChunk k (a + chunkLength pageChunk a m) (m - chunkLength pageChunk a m)

/-- The chunks of a write of `m` bytes at `a`: each has at least one byte, so that `m` of them suffice (R279). -/
def chunks (pageChunk a m : Nat) : List (Nat × Nat) := chunksUpTo pageChunk m a m

/-- The bytes of a chunk, from the buffer whose first byte goes to `dest` (R277). -/
def chunkData (buffer : List Byte) (dest : Nat) (ch : Nat × Nat) : List Byte := (buffer.drop (ch.1 - dest)).take ch.2

/-- The frames of the WriteEnable and the PageProgram of one chunk with the data `d`, newest first (R262, R277). -/
def chunkCommands (c : Config) (d : List Byte) (ch : Nat × Nat) : List Frame :=
  [ { launchedFrame c (Transaction.pageProgram (BitVec.ofNat 24 ch.1) 0 (BitVec.ofNat 32 ch.2)) c.omDefault .write with
      data := d },
    launchedFrame c (Transaction.send .writeEnable) c.omDefault .write ]

/-- The frames of one chunk whose first poll the chip answers with `b`, newest first (R262, R277). -/
def chunkFrames (c : Config) (d : List Byte) (ch : Nat × Nat) (b : Byte) : List Frame :=
  statusFrame c b :: chunkCommands c d ch

/-- The frames of a write, newest first, from its chunks and the status bytes of its polls in order (R277). -/
def writeFrames (c : Config) (buffer : List Byte) (dest : Nat) : List (Nat × Nat) → List Byte → List Frame
  | ch :: chs, b :: bs => writeFrames c buffer dest chs bs ++ chunkFrames c (chunkData buffer dest ch) ch b
  | _,         _       => []

/-- The frames of a write with a chip of any kind, newest first, from its chunks and the status bytes of each chunk's
poll, the newest first (R262, R277, R281). -/
def attemptFrames (c : Config) (buffer : List Byte) (dest : Nat) : List (Nat × Nat) → List (List Byte) → List Frame
  | ch :: chs, bs :: rest =>
    attemptFrames c buffer dest chs rest ++ (bs.map (statusFrame c) ++ chunkCommands c (chunkData buffer dest ch) ch)
  | _,         _          => []

/-! ## Calls and returns -/

/-- HOST's next call can be taken: a configuration that meets R8, a block that is not occupied, and nothing of a
transaction under way (R8, R93, R260). -/
def State.receptive (s : State) : Prop := s.cfg.wf = true ∧ s.busy = false ∧ s.calm

/-- The action HOST takes at the next step: what stands at its port, else, on a block that is not occupied, the first
of its program (R11). -/
def State.takes (s : State) (a : HostAction) : Prop :=
  s.host.port = some a ∨ (s.host.port = none ∧ s.busy = false ∧ s.host.program.head? = some a)

/-- `n` steps on: where they lead, or where one of them stops (R12). -/
def State.goesOn : Nat → State → Host.Outcome State Fault Refusal
  | 0,     s => .next s
  | n + 1, s =>
    match step s with
    | .next t    => State.goesOn n t
    | .fault e   => .fault e
    | .refused r => .refused r

/-- An event other than a get of `CR.BUSY` that reads 1 (R181). -/
def Event.settled : Event → Bool
  | .getBusy true => false
  | _             => true

/-- The second list is the first with some answers `false` put in before an answer. -/
inductive Delayed : List Bool → List Bool → Prop
  | refl (l : List Bool) : Delayed l l
  | late {b : Bool} {l l' : List Bool} : Delayed (b :: l) l' → Delayed (b :: l) (false :: l')
  | step {b : Bool} {l l' : List Bool} : Delayed l l' → Delayed (b :: l) (b :: l')

/-- `t` is `s` at another pace: SEQ takes another number of lines at a stretch, CTRL takes some of its steps later, and
more or fewer gets of `CR.BUSY` have read 1; everything else is the same (R12, R105, R181, R185). -/
structure State.Paced (s t : State) : Prop where
  same : t = { s with env := { s.env with slice := t.env.slice, lift := t.env.lift }, log := t.log }
  lift : Delayed s.env.lift t.env.lift
  log  : t.log.filter Event.settled = s.log.filter Event.settled

/-- What every return of an operation leaves that passed through the restoration step (R243, R246, R307): the
response, an idle sequencer, memory-mapped mode with the read command in the registers, and everything else of the
block and of HOST as before. -/
structure State.Returned (s t : State) (r : Result) : Prop where
  cfg      : t.cfg = s.cfg
  mode     : t.fm = .memoryMapped
  state    : t.seq.state = .idle
  result   : t.seq.result = r
  host     : t.host = { s.host with response := some r }
  regs     : t.cr.cfg = tableCfg s.cfg .readData
  en       : t.cr.en = s.cr.en
  addrw    : t.cr.addrw = s.cr.addrw
  timing   : t.cr.timing = s.cr.timing
  calm     : t.calm
  readCmd  : t.ctrl.readCmd = some (tableCfg s.cfg .readData)
  held     : t.held = false
  widths   : t.widths = s.widths
  slice    : t.env.slice = s.env.slice
  enable   : t.env.enable = s.env.enable
  log      : t.log.head? = some (.response r)

end Sys2Proof.Machine
end

