-- ==== Sys2Proof/Certificates/Slice0/Obligations.lean ====
section
/-! DEFINITION. The statements about the machine, for the provers. Each says in its docstring which rules of spec/ it
speaks of. -/

open Sys2Proof Sys2Proof.Machine

/-! ## Encodings -/

/-- R121, R260: a host request is decoded from its encoding, every `OP`, `ADDR` and `LEN`; the fields that acceptance
latches are its `ADDR` and `LEN`, whatever the operation makes of them. The byte layout of the words is the model's
choice (log entry 3). -/
def Obligations.HostRequestRoundTrip : Prop :=
  ∀ (c : Config) (op : Byte) (addr len : Word32) (rest : List Byte),
    decodeRequest (encodeRequest op addr len ++ rest)
        = .ok ((match op.extractLsb' 0 2 with
            | 0 => .init
            | 1 => .merase
            | 2 => .serase addr
            | _ => .write addr len), rest)
      ∧ requestFields (encodeRequest op addr len ++ rest) = some (addr, len)
      ∧ decodeRequest (encode c .init ++ rest) = .ok (.init, rest)
      ∧ decodeRequest (encode c .merase ++ rest) = .ok (.merase, rest)
      ∧ decodeRequest (encode c (.serase addr) ++ rest) = .ok (.serase addr, rest)
      ∧ decodeRequest (encode c (.write addr len) ++ rest) = .ok (.write addr len, rest)

/-- R123, R128, R129: a transaction is decoded from its encoding, for every configuration that meets R8, every
address a transaction can hold and every length. The byte layout of the words is the model's choice (log entry 3). -/
def Obligations.TransactionRoundTrip : Prop :=
  ∀ (c : Config) (a : Addr24) (n : Word32) (rest : List Byte), c.wf = true →
    decodeTransaction c (encode c .rdsr ++ rest) = .ok (.rdsr, rest)
      ∧ decodeTransaction c (encode c .wren ++ rest) = .ok (.wren, rest)
      ∧ decodeTransaction c (encode c .ce ++ rest) = .ok (.ce, rest)
      ∧ decodeTransaction c (encode c (.se a) ++ rest) = .ok (.se a, rest)
      ∧ decodeTransaction c (encode c (.pp a n) ++ rest) = .ok (.pp a n, rest)
      ∧ decodeTransaction c (encode c .read ++ rest) = .ok (.read, rest)
      ∧ decodeTransaction c (encode c .eqpi ++ rest) = .ok (.eqpi, rest)

/-- R128, R129: no word belongs to two rows of the opcode table. -/
def Obligations.OpcodeRowsDisjoint : Prop :=
  ∀ (c : Config) (w : BitVec 32) (r1 r2 : OpcodeRow), c.wf = true → r1 ∈ opcodeRows → r2 ∈ opcodeRows →
    r1.holds c w = true → r2.holds c w = true → r1 = r2

/-- R131 b, c, d: a word with a reserved bit set, with `FMODE` code 2, or with an alternate-bytes field that is not 0
selects no command. -/
def Obligations.ReservedWordsRefused : Prop :=
  ∀ (c : Config) (w : BitVec 32),
    (w.getLsbD 23 = true ∨ w.extractLsb' 28 4 ≠ 0 ∨ w.extractLsb' 26 2 = 2 ∨ w.extractLsb' 14 4 ≠ 0) →
    commandOfCfg c w = none

/-- R123: the packed word holds each field in its place, and its reserved bits are 0. -/
def Obligations.PackedWordHoldsFields : Prop :=
  ∀ f : CfgFields, unpackCfg (packCfg f) = f ∧ (packCfg f).getLsbD 23 = false ∧ (packCfg f).extractLsb' 28 4 = 0

/-- R123, R129, with the parameter set P0 (R15): words written out from the table decode to the instructions they
stand for, and the table's row packs to them. The bytes of a word and the order of an instruction's words, which the last
five clauses read, are the model's choice (log entry 3). -/
def Obligations.WordsOfTheTable : Prop :=
  packCfg (tableCfg Config.illustrative .readStatusRegister) = 0x07000305
    ∧ packCfg (tableCfg Config.illustrative .writeEnable) = 0x00000306
    ∧ packCfg (tableCfg Config.illustrative .chipErase) = 0x000003C7
    ∧ packCfg (tableCfg Config.illustrative .sectorErase) = 0x00002F20
    ∧ packCfg (tableCfg Config.illustrative .pageProgram) = 0x03002F02
    ∧ packCfg (tableCfg Config.illustrative .readData) = 0x0F002F03
    ∧ packCfg (tableCfg Config.illustrative .enableQPI) = 0x00000138
    ∧ decodeTransaction Config.illustrative [0x05, 0x03, 0x00, 0x07] = .ok (.rdsr, [])
    ∧ decodeTransaction Config.illustrative [0x20, 0x2F, 0x00, 0x00, 0x00, 0x10, 0x00, 0x00] = .ok (.se 0x001000, [])
    ∧ decodeTransaction Config.illustrative [0x02, 0x2F, 0x00, 0x03, 0x10, 0, 0, 0, 0xF0, 0, 0, 0] = .ok (.pp 0xF0 16, [])
    ∧ decodeRequest [2, 0x00, 0x10, 0x00, 0x00, 0, 0, 0, 0] = .ok (.serase 0x1000, [])
    ∧ decodeRequest [3, 0xF0, 0, 0, 0, 0x30, 0, 0, 0] = .ok (.write 0xF0 0x30, [])

/-! ## The Mode Table and the Transaction Builder -/

/-- R160, R161, R162: `widthFor` delivers the same line count for the three phases, 1, 2 or 4 by the mode, no two modes
alike, and changes nothing else. -/
def Obligations.WidthForTable : Prop :=
  ∀ (om : OperatingMode) (s : State),
    (∃ w : PhaseWidths, exec (.widthFor om) s = .next { s with widths := w }
      ∧ w.instr.count = (match om with | .single => 1 | .dual => 2 | .quad => 4)
      ∧ w.addr = w.instr ∧ w.data = w.instr ∧ enc w.instr = modeCode om)
    ∧ ∀ om2 : OperatingMode, widthFor om = widthFor om2 → om = om2

/-- R176: whatever the transaction, the mode and the width, a call of `apply` leaves the instruction phase enabled at
the width and the opcode loaded. -/
def Obligations.ApplyProgramsInstruction : Prop :=
  ∀ (t : Transaction) (fm : FunctionalMode) (om : OperatingMode) (s u : State),
    exec (.apply t fm om) s = .next u →
    u.cr.imode = enc (widthFor om).instr ∧ u.cr.instr = s.cfg.opcode t.command ∧ u.cr.imode ≠ 0

/-- R170 to R177, R46 to R52: what a call of `apply` leaves in every configuration field of the register interface it
writes, in `TR` and in `FM`, whether it has returned or waits; the enable and the device configuration are untouched
(R183). `CR.BUSY` is CTRL's and no part of this. That `TR` still holds the transaction once the call has returned is the
model's choice (log entry 28): R36 leaves its value between transactions open. -/
def Obligations.ApplyProgramsRegisters : Prop :=
  ∀ (t : Transaction) (fm : FunctionalMode) (om : OperatingMode) (s u : State),
    exec (.apply t fm om) s = .next u →
    u.tr = t ∧ u.fm = fm
      ∧ u.cr.dl = t.dataLength
      ∧ u.cr.dcyc = t.dummyCycles
      ∧ (if t.address ≠ none ∨ fm = .memoryMapped
         then u.cr.admode = enc (widthFor om).addr ∧ u.cr.adsize = BitVec.ofNat 2 (s.cfg.adsizeBytes - 1)
         else u.cr.admode = 0 ∧ u.cr.adsize = 0)
      ∧ u.cr.abmode = 0 ∧ u.cr.absize = 0
      ∧ (if t.dataLength ≠ 0 ∨ fm = .memoryMapped then u.cr.dmode = enc (widthFor om).data else u.cr.dmode = 0)
      ∧ u.cr.imode = enc (widthFor om).instr ∧ u.cr.instr = s.cfg.opcode t.command
      ∧ (match fm with
         | .uninitialized => False
         | .indirectWrite => u.cr.fmode = 0
         | .indirectRead  => u.cr.fmode = 1
         | .memoryMapped  => u.cr.fmode = 3)
      ∧ (match t.address with
         | none   => u.cr.ar = s.cr.ar
         | some a => u.cr.ar = a.setWidth 32)
      ∧ u.cr.en = s.cr.en ∧ u.cr.addrw = s.cr.addrw ∧ u.cr.timing = s.cr.timing

/-- R129, R200 to R206: every flash command leaves its row of the table in the register fields, its length in `CR.DL`
and, for the two with an address, the address in `CR.AR`. -/
def Obligations.CommandsProgramTheirRow : Prop :=
  ∀ (s t : State) (a : Addr24) (n : Word32),
    (exec .rdsr s = .next t → t.cr.cfg = tableCfg s.cfg .readStatusRegister ∧ t.cr.dl = 1 ∧ t.cr.ar = s.cr.ar)
      ∧ (exec .wren s = .next t → t.cr.cfg = tableCfg s.cfg .writeEnable ∧ t.cr.dl = 0 ∧ t.cr.ar = s.cr.ar)
      ∧ (exec .ce s = .next t → t.cr.cfg = tableCfg s.cfg .chipErase ∧ t.cr.dl = 0 ∧ t.cr.ar = s.cr.ar)
      ∧ (exec (.se a) s = .next t →
          t.cr.cfg = tableCfg s.cfg .sectorErase ∧ t.cr.dl = 0 ∧ t.cr.ar = a.setWidth 32)
      ∧ (exec (.pp a n) s = .next t →
          t.cr.cfg = tableCfg s.cfg .pageProgram ∧ t.cr.dl = n ∧ t.cr.ar = a.setWidth 32)
      ∧ (exec .read s = .next t → t.cr.cfg = tableCfg s.cfg .readData ∧ t.cr.dl = 0 ∧ t.cr.ar = s.cr.ar)
      ∧ (exec .eqpi s = .next t → t.cr.cfg = tableCfg s.cfg .enableQPI ∧ t.cr.dl = 0 ∧ t.cr.ar = s.cr.ar)

/-- R131 h, R182, R8: where a direct call of `apply` runs, and how it is refused otherwise; a buffer of which a byte the
call would send lies in the memory-mapped window is the case of `WindowReadsFault`. That a direct call on an occupied
block is refused as `sequencerRunning`, as R260 a has it for requests, is the model's choice (log entry 13). What `TR.data`
may refer to is the model's choice too (log entry 18, part of `rowOfTable`): the bytes of a PageProgram stand in the lent
buffer, in `SEQ.status` or in the caller's own byte, a status read goes to one of the last two, each of which is one byte
long, and a status read into the lent buffer, which the block never writes (R61), is refused. -/
def Obligations.ApplyContract : Prop :=
  ∀ (t : Transaction) (fm : FunctionalMode) (om : OperatingMode) (s : State),
    (s.cfg.wf = false → exec (.apply t fm om) s = .refused .badConfiguration)
      ∧ (s.cfg.wf = true → s.busy = true → exec (.apply t fm om) s = .refused .sequencerRunning)
      ∧ (s.cfg.wf = true → s.busy = false →
          (s.cr.en = false ∨ fm = .uninitialized
            ∨ (∃ a, t.address = some a ∧ 2 ^ s.cfg.addrBits ≤ a.toNat)
            ∨ ¬ (t.data = .absent ↔ t.dataLength = 0)
            ∨ (fm = .memoryMapped ∧ t.dataLength ≠ 0)
            ∨ t.rowOfTable fm = false
            ∨ t.dummyCycles ≠ (if t.command = .readData then s.cfg.dummyMM else 0)
            ∨ om ≠ (if t.command = .enableQPI then .single else s.cfg.omDefault)
            ∨ (∃ a, t.command = .pageProgram ∧ t.address = some a
                ∧ s.cfg.pageChunk < a.toNat % s.cfg.pageChunk + t.dataLength.toNat)
            ∨ (∃ off, t.data = .buffer off ∧ s.host.buffer.length < off.toNat + t.dataLength.toNat)
            ∨ ((t.data = .status ∨ t.data = .caller) ∧ 1 < t.dataLength.toNat)) →
          exec (.apply t fm om) s = .refused .contractViolation)
      ∧ (s.cfg.wf = true → s.busy = false → s.cr.en = true → t.wf s.cfg fm om = true →
          t.data.covers s.host.buffer t.dataLength.toNat = true →
          (∀ j, j < t.dataLength.toNat → t.data.inWindow s.cfg s.host j = false) →
          ∃ u, exec (.apply t fm om) s = .next u)

/-- R178, R179, R181, R184, R186: a call of `apply` in an indirect mode, with a chip of any kind: once CTRL has taken the
steps its waits ask for it returns, a write with the bytes streamed out in index order, a read with its byte where
`TR.data` refers to, and one frame on the wire. The number of gets of `CR.BUSY` in the log, two and one, is the model's
choice (log entry 7), and so are what `TR.data` may refer to, the lent buffer, `SEQ.status` or the caller's own byte (log
entry 18), and that `TR` still holds the transaction (log entry 28). -/
def Obligations.IndirectCallsComplete : Prop :=
  ∀ (s : State) (t : Transaction) (om : OperatingMode) (d : List Byte), s.receptive → s.cr.en = true →
    (t.wf s.cfg .indirectWrite om = true → d.length = t.dataLength.toNat →
      (∀ (j : Nat) (h : j < d.length), t.data.byte s j = some d[j]) → s.lets (d.length + 2) →
      ∃ (fl : Flash) (e : Env), e.slice = s.env.slice ∧ e.enable = s.env.enable
        ∧ e.lift = s.env.lift.drop (d.length + 2)
        ∧ exec (.apply t .indirectWrite om) s = .next { s.written t om d fl with env := e })
      ∧ (t.wf s.cfg .indirectRead om = true → s.lets 2 →
        ∃ (b : Byte) (fl : Flash) (e : Env), e.slice = s.env.slice ∧ e.enable = s.env.enable
          ∧ exec (.apply t .indirectRead om) s = .next (s.received t om b fl e))

/-- R246, with R180, R181, R205: in memory-mapped mode `apply`, `READ` and `enterMemoryMapped` return at once, without
a frame, an access of the FIFO or a get of `CR.BUSY`, whatever `FM` was, and CTRL has the read command; with the
parameter set P0 the restoration step leaves `CFG = 0x0F002F03`. That `TR` still holds the transaction once the call has
returned is the model's choice (log entry 28). -/
def Obligations.MappedCallsComplete : Prop :=
  ∀ (s : State) (t : Transaction) (om : OperatingMode),
    s.cfg.wf = true → s.busy = false → s.cr.en = true →
    exec .read s = .next (s.mappedWith (Transaction.readData s.cfg) s.cfg.omDefault)
      ∧ exec .enterMemoryMapped s = .next (s.mappedWith (Transaction.readData s.cfg) s.cfg.omDefault)
      ∧ (s.cfg = Config.illustrative →
          packCfg (s.mappedWith (Transaction.readData s.cfg) s.cfg.omDefault).cr.cfg = 0x0F002F03)
      ∧ (t.wf s.cfg .memoryMapped om = true → exec (.apply t .memoryMapped om) s = .next (s.mappedWith t om))

/-! ## The flash commands -/

/-- R99, R201: `WREN` returns with one frame sent and the chip's latch set. The two gets of `CR.BUSY` in the log are
the model's choice (log entry 7), and so is that `TR` still holds the transaction (log entry 28). -/
def Obligations.WriteEnableCompletes : Prop :=
  ∀ s : State, s.receptive → s.cr.en = true → s.chipReady → s.lets 2 →
    exec .wren s = .next (s.written (Transaction.send .writeEnable) s.cfg.omDefault [] { s.flash with wel := true })

/-- R99, R100, R202, R203: `CE` and `SE` return with one frame sent; a chip whose latch is set is at work on the whole
array, or on the sector, from the array it found, and the bytes outside the sector are as they were; another chip has
ignored the command. That a direct `SE` of an address that is no multiple of `SECTOR_SIZE` runs, and sends that address,
is the model's reading (log entry 24, DEDUCED). The two gets of `CR.BUSY` in the log are the model's choice (log entry 7),
and so is that `TR` still holds the transaction (log entry 28). -/
def Obligations.EraseCommandsComplete : Prop :=
  ∀ (s : State) (a : Addr24), s.receptive → s.cr.en = true → s.chipReady → s.lets 2 →
    (∃ fl : Flash, exec .ce s = .next (s.written (Transaction.send .chipErase) s.cfg.omDefault [] fl)
        ∧ (s.flash.wel = false → fl = s.flash)
        ∧ (s.flash.wel = true → fl.wip = true ∧ fl.wel = true ∧ fl.framing = s.flash.framing
            ∧ fl.pending = .chipErase ∧ fl.found = s.flash.array))
      ∧ (a.toNat < 2 ^ s.cfg.addrBits →
        ∃ fl : Flash, exec (.se a) s = .next (s.written (Transaction.sectorErase a) s.cfg.omDefault [] fl)
          ∧ (s.flash.wel = false → fl = s.flash)
          ∧ (s.flash.wel = true → fl.wip = true ∧ fl.wel = true ∧ fl.framing = s.flash.framing
              ∧ fl.pending = .sectorErase a.toNat ∧ fl.found = s.flash.array
              ∧ ∀ b, b / s.cfg.sectorSize ≠ a.toNat / s.cfg.sectorSize →
                  Memory.read fl.array b = Memory.read s.flash.array b))

/-- R99, R100, R178, R204: `PP` returns with one frame that carries the buffer's bytes in order; a chip whose latch is
set is at work on them, from the array it found, and the bytes outside them are as they were; another has ignored them.
The two gets of `CR.BUSY` in the log are the model's choice (log entry 7), and so are that a direct `PP` sends the first
bytes of the lent buffer (log entry 13) and that `TR` still holds the transaction (log entry 28). -/
def Obligations.PageProgramCompletes : Prop :=
  ∀ (s : State) (a : Addr24) (n : Word32), s.receptive → s.cr.en = true → s.chipReady → s.lets (n.toNat + 2) →
    a.toNat < 2 ^ s.cfg.addrBits → 1 ≤ n.toNat → n.toNat ≤ s.cfg.pageChunk →
    a.toNat % s.cfg.pageChunk + n.toNat ≤ s.cfg.pageChunk → n.toNat ≤ s.host.buffer.length →
    s.clearOfWindow n.toNat →
    ∃ fl : Flash,
      exec (.pp a n) s
          = .next (s.written (Transaction.pageProgram a 0 n) s.cfg.omDefault (s.host.buffer.take n.toNat) fl)
        ∧ (s.flash.wel = false → fl = s.flash)
        ∧ (s.flash.wel = true → fl.wip = true ∧ fl.wel = true ∧ fl.framing = s.flash.framing
            ∧ fl.pending = .program a.toNat (s.host.buffer.take n.toNat) ∧ fl.found = s.flash.array
            ∧ ∀ b, b < a.toNat ∨ a.toNat + n.toNat ≤ b → Memory.read fl.array b = Memory.read s.flash.array b)

/-- R103, R206: `EQPI` returns with one frame sent at single width, whatever the default operating mode, and a chip in
single-line framing is in four-line framing. The two gets of `CR.BUSY` in the log are the model's choice (log entry 7), and
so is that `TR` still holds the transaction (log entry 28). -/
def Obligations.EnableQPICompletes : Prop :=
  ∀ s : State, s.receptive → s.cr.en = true → s.flash.wip = false → s.flash.framing = .single → s.lets 2 →
    exec .eqpi s = .next (s.written (Transaction.send .enableQPI) .single [] { s.flash with framing := .quad })
      ∧ (launchedFrame s.cfg (Transaction.send .enableQPI) .single .write).iw = .one

/-- R100, R104, R200: `RDSR` returns with one byte in `SEQ.status`, with a chip of any kind; where the chip understands
the frame its busy bit says whether it is still at work. The one get of `CR.BUSY` in the log is the model's choice (log
entry 7), and so is that `TR` still holds the transaction (log entry 28). -/
def Obligations.ReadStatusCompletes : Prop :=
  ∀ s : State, s.receptive → s.cr.en = true → s.lets 2 →
    ∃ (b : Byte) (fl : Flash) (e : Env), e.slice = s.env.slice ∧ e.enable = s.env.enable
      ∧ exec .rdsr s = .next (s.received Transaction.readStatus s.cfg.omDefault b fl e)
      ∧ (s.framed → s.readyAfter 0 → b.getLsbD s.cfg.busyBit.val = false ∧ fl = s.flash.finished s.cfg)
      ∧ (s.framed → s.busyThrough 1 → b.getLsbD s.cfg.busyBit.val = true ∧ fl = s.flash)

/-- R183, R42: what a flash command or an internal operation leaves alone, whatever the chip does and whether or not it
has returned: the configuration, HOST, the enable and the device configuration, the direct caller's own byte but for an
indirect read of `apply`, and the sequencer position but for the place inside the call and the latches of the poll. The
caller's own byte is a field of the model's (log entry 18). -/
def Obligations.BuilderCallsFrame : Prop :=
  ∀ (i : Instr) (s t : State),
    (match i with
     | .init => False | .merase => False | .serase _ => False | .write _ _ => False | .widthFor _ => False
     | _ => True) →
    exec i s = .next t →
    t.cfg = s.cfg ∧ t.host = s.host ∧ t.widths = s.widths
      ∧ t.cr.en = s.cr.en ∧ t.cr.addrw = s.cr.addrw ∧ t.cr.timing = s.cr.timing
      ∧ t.env.slice = s.env.slice ∧ t.env.enable = s.env.enable
      ∧ (match i with
         | .apply _ .indirectRead _ => True
         | _                        => t.caller = s.caller)
      ∧ (match i with
         | .waitUntilReady _ => t.seq = { s.seq with status := t.seq.status, attempts := t.seq.attempts, r := t.seq.r,
                                                     phase := t.seq.phase, waiting := t.seq.waiting }
         | .rdsr             => t.seq = { s.seq with status := t.seq.status, phase := t.seq.phase }
         | .apply _ .indirectRead _ => t.seq = { s.seq with status := t.seq.status, phase := t.seq.phase }
         | _                 => t.seq = { s.seq with phase := t.seq.phase })

/-- R99 to R104: what a flash command sent to a chip that is ready and understands it changes of the array, whether or not
the call has returned: with the latch clear nothing, and with the latch set nothing outside the sector of `SE`, nothing
outside the bytes of `PP`, and for the other commands nothing; for `EQPI` the chip is in single-line framing. -/
def Obligations.CommandsLeaveArray : Prop :=
  ∀ (i : Instr) (s t : State) (a : Nat), s.cfg.wf = true → s.calm → s.flash.wip = false →
    (match i with
     | .rdsr => s.framed
     | .wren => s.framed
     | .ce => s.framed
     | .se _ => s.framed
     | .pp _ _ => s.framed
     | .eqpi => s.flash.framing = .single
     | .read => True
     | .enterMemoryMapped => True
     | _ => False) →
    exec i s = .next t →
    (match i with
     | .ce     => s.flash.wel = false
     | .se x   => s.flash.wel = false ∨ a / s.cfg.sectorSize ≠ x.toNat / s.cfg.sectorSize
     | .pp x n => s.flash.wel = false ∨ a < x.toNat ∨ x.toNat + n.toNat ≤ a
     | _       => True) →
    Memory.read t.flash.array a = Memory.read s.flash.array a

/-! ## The Busy-Wait Protocol -/

/-- R221, R223: a chip that is seen ready at the status read number `j + 1`, within the bound, ends the poll with `Ok`
after exactly that many status reads. -/
def Obligations.WaitUntilReadyOk : Prop :=
  ∀ (s : State) (max : Word32) (j : Nat), s.receptive → s.cr.en = true → s.framed → s.lets (2 * (j + 1)) →
    j + 1 ≤ max.toNat → s.readyAfter j →
    ∃ t, exec (.waitUntilReady max) s = .next t
      ∧ t.seq = { s.seq with attempts := BitVec.ofNat 32 (j + 1), status := t.seq.status, r := .ok }
      ∧ t.seq.status.getLsbD s.cfg.busyBit.val = false
      ∧ t.fm = .indirectRead ∧ t.flash = s.flash.finished s.cfg ∧ t.host = s.host ∧ t.cfg = s.cfg ∧ t.calm
      ∧ t.cr = { s.cr.configured s.cfg Transaction.readStatus .indirectRead s.cfg.omDefault 1 with busy := false }
      ∧ ∃ bs : List Byte, bs.length = j + 1 ∧ t.frames = bs.map (statusFrame s.cfg) ++ s.frames
          ∧ bs.head? = some t.seq.status ∧ ∀ b ∈ bs.tail, b.getLsbD s.cfg.busyBit.val = true

/-- R221, R224, R225 a: a chip still busy at each of `maxAttempts` status reads ends the poll with `Timeout` after
exactly that many; with a bound of 0 nothing is sent and the mode is unchanged. -/
def Obligations.WaitUntilReadyTimeout : Prop :=
  ∀ (s : State) (max : Word32), s.receptive →
    (max = 0 → exec (.waitUntilReady max) s = .next { s with seq := { s.seq with attempts := 0, r := .timeout } })
      ∧ (0 < max.toNat → s.cr.en = true → s.framed → s.lets (2 * max.toNat) → s.busyThrough max.toNat →
          ∃ t, exec (.waitUntilReady max) s = .next t
            ∧ t.seq = { s.seq with attempts := max, status := t.seq.status, r := .timeout }
            ∧ t.fm = .indirectRead ∧ t.flash = s.flash ∧ t.host = s.host ∧ t.cfg = s.cfg ∧ t.calm
            ∧ t.cr = { s.cr.configured s.cfg Transaction.readStatus .indirectRead s.cfg.omDefault 1 with busy := false }
            ∧ ∃ bs : List Byte, bs.length = max.toNat ∧ t.frames = bs.map (statusFrame s.cfg) ++ s.frames
                ∧ ∀ b ∈ bs, b.getLsbD s.cfg.busyBit.val = true)

/-- R105, R106, R185, R361: a wait inside `apply` is passed only by a step of CTRL: while CTRL takes none, a step of the
machine changes nothing but the draws, and the log by one more get of `CR.BUSY` where the call is at step 7. That it is
one get for each such step is the model's choice (log entry 7): R181 leaves their number open. Where the next byte to send
lies in the memory-mapped window the step is a fault (R84, R357). -/
def Obligations.WaitsHoldUntilControllerSteps : Prop :=
  ∀ (s : State) (rest : List Bool), s.cfg.wf = true → s.coherent → s.seq.phase ≠ .idle → s.host.port = none →
    (s.readsWindow = true → step s = .fault .mappedReadOutsideMode)
      ∧ (s.readsWindow = false → s.env.lift = false :: rest →
          (∀ i, s.seq.phase = .push i → s.tr.data.byte s i ≠ none) →
          (∀ i, s.seq.phase = .pop i → s.ctrl.fifo = []) →
          step s = .next { s with
            env := { s.env with lift := rest }
            log := if s.seq.phase = .await then .getBusy true :: s.log else s.log })

/-! ## The Operation Sequencer -/

/-- R260, R261, R121: a request whose preconditions hold is accepted: the sequencer runs, stands at the first label with
`ADDR` and `LEN` latched as the request has them, and HOST waits. An operation given as a call (R133) has no field for what
it ignores, `ADDR` and `LEN` of `INIT` and `MERASE` and `LEN` of `SERASE`; that it latches there what HOST presented last,
`reqAddr` and `reqLen`, is the model's choice (log entry 27): R260 does not say it of a call. It is said for an environment
that gives SEQ no further line at once; how many lines SEQ takes at a stretch is the model's choice (log entry 8). -/
def Obligations.RequestsAccepted : Prop :=
  ∀ (s : State) (addr len : Word32), s.cfg.wf = true → s.busy = false → s.env.slice = 0 →
    (s.fm = .uninitialized →
      exec .init s = .next { s with
        seq := { s.seq with state := .running, op := .init, step := .i0, addr := s.host.reqAddr, len := s.host.reqLen }
        host := { s.host with response := none } })
      ∧ (s.fm = .memoryMapped →
        exec .merase s = .next { s with
          seq := { s.seq with state := .running, op := .merase, step := .m0, addr := s.host.reqAddr, len := s.host.reqLen }
          host := { s.host with response := none } })
      ∧ (s.fm = .memoryMapped → (addr.toNat % s.cfg.sectorSize ≠ 0 ∨ addr.toNat < 2 ^ s.cfg.addrBits) →
        exec (.serase addr) s = .next { s with
          seq := { s.seq with state := .running, op := .serase, step := .s0, addr := addr, len := s.host.reqLen }
          host := { s.host with response := none } })
      ∧ (s.fm = .memoryMapped → addr.toNat + len.toNat ≤ 2 ^ s.cfg.addrBits → len.toNat ≤ s.host.buffer.length →
        exec (.write addr len) s = .next { s with
          seq := { s.seq with state := .running, op := .write, step := .w0, addr := addr, len := len }
          host := { s.host with response := none } })

/-- R8, R260 a, b, c, R261, R354, R360: the requests that are refused, each by name. That a `WRITE` whose lent buffer
is shorter than its `LEN` is refused as `dataMissing` is the model's reading of R13, R61 and R121 (log entry 20). -/
def Obligations.RequestsRefused : Prop :=
  ∀ (s : State) (addr len : Word32),
    (s.cfg.wf = false →
      exec .init s = .refused .badConfiguration ∧ exec .merase s = .refused .badConfiguration
        ∧ exec (.serase addr) s = .refused .badConfiguration ∧ exec (.write addr len) s = .refused .badConfiguration)
      ∧ (s.cfg.wf = true → s.busy = true →
        exec .init s = .refused .sequencerRunning ∧ exec .merase s = .refused .sequencerRunning
          ∧ exec (.serase addr) s = .refused .sequencerRunning ∧ exec (.write addr len) s = .refused .sequencerRunning)
      ∧ (s.cfg.wf = true → s.busy = false → s.fm ≠ .uninitialized → exec .init s = .refused .wrongMode)
      ∧ (s.cfg.wf = true → s.busy = false → s.fm ≠ .memoryMapped →
        exec .merase s = .refused .wrongMode ∧ exec (.serase addr) s = .refused .wrongMode
          ∧ exec (.write addr len) s = .refused .wrongMode)
      ∧ (s.cfg.wf = true → s.busy = false → s.fm = .memoryMapped →
        (addr.toNat % s.cfg.sectorSize = 0 → 2 ^ s.cfg.addrBits ≤ addr.toNat →
          exec (.serase addr) s = .refused .outOfRange)
        ∧ (2 ^ s.cfg.addrBits < addr.toNat + len.toNat → exec (.write addr len) s = .refused .outOfRange)
        ∧ (addr.toNat + len.toNat ≤ 2 ^ s.cfg.addrBits → s.host.buffer.length < len.toNat →
          exec (.write addr len) s = .refused .dataMissing))

/-- R265 to R269, R282: `INIT` with a peripheral that enables ends with `Ok` in memory-mapped mode, with a chip of any
kind; EnableQPI is sent, once and at single width, exactly when the default operating mode is `Quad`; a chip that is ready
and in single-line framing is then in four-line framing, and with another mode the chip is as it was. -/
def Obligations.InitCompletes : Prop :=
  ∀ (s : State) (es : List Bool), s.receptive → s.fm = .uninitialized → 6 ≤ s.env.slice → s.env.enable = true :: es →
    (s.cfg.omDefault = .quad → s.lets 2) →
    ∃ t, exec .init s = .next t
      ∧ t.host = { s.host with response := some .ok } ∧ t.seq.state = .idle ∧ t.seq.result = .ok
      ∧ t.fm = .memoryMapped ∧ t.cfg = s.cfg ∧ t.widths = s.widths ∧ t.held = false
      ∧ t.cr.en = true ∧ t.cr.addrw = BitVec.ofNat 5 s.cfg.addrBits ∧ t.cr.timing = s.cfg.timingCfg
      ∧ t.cr.cfg = tableCfg s.cfg .readData ∧ t.ctrl.readCmd = some (tableCfg s.cfg .readData) ∧ t.calm
      ∧ (s.cfg.omDefault ≠ .quad → t.flash = s.flash)
      ∧ (s.cfg.omDefault = .quad → s.flash.wip = false → s.flash.framing = .single →
          t.flash = { s.flash with framing := .quad })
      ∧ t.frames = (if s.cfg.omDefault = .quad
          then [launchedFrame s.cfg (Transaction.send .enableQPI) .single .write] else []) ++ s.frames
      ∧ t.env.enable = es

/-- R267, R301, R308: `INIT` with a peripheral that does not enable ends with `FatalError`: the device configuration is
written, `CR.EN` reads 0, no frame has been sent, and the mode, the chip and every other register are as before. That `TR`,
which R36 leaves open between transactions, is among them is the model's choice (log entry 28). -/
def Obligations.InitFatalError : Prop :=
  ∀ (s : State) (es : List Bool), s.receptive → s.fm = .uninitialized → 3 ≤ s.env.slice → s.env.enable = false :: es →
    ∃ t, exec .init s = .next t
      ∧ t.host = { s.host with response := some .fatalError } ∧ t.seq.state = .idle ∧ t.seq.result = .fatalError
      ∧ t.fm = .uninitialized ∧ t.cfg = s.cfg ∧ t.widths = s.widths
      ∧ t.cr = { s.cr with en := false, addrw := BitVec.ofNat 5 s.cfg.addrBits, timing := s.cfg.timingCfg }
      ∧ t.ctrl = s.ctrl ∧ t.flash = s.flash ∧ t.tr = s.tr ∧ t.frames = s.frames ∧ t.env = { s.env with enable := es }

/-- R262, R270, R271: `MERASE` with a chip seen ready at poll `j + 1` ends with `Ok` in memory-mapped mode, every byte
of the array erased, one WriteEnable, one ChipErase and `j + 1` status reads on the wire. -/
def Obligations.MassEraseCompletes : Prop :=
  ∀ (s : State) (j : Nat), s.receptive → s.fm = .memoryMapped → s.chipReady → 5 ≤ s.env.slice →
    s.lets (4 + 2 * (j + 1)) → j + 1 ≤ s.cfg.maxAttempts.toNat →
    s.env.done.take (j + 1) = List.replicate j false ++ [true] →
    ∃ t, exec .merase s = .next t ∧ s.Returned t .ok
      ∧ t.flash.wel = false ∧ t.flash.wip = false ∧ t.flash.framing = s.flash.framing
      ∧ (∀ a, Memory.read t.flash.array a = 0xFF)
      ∧ ∃ bs : List Byte, bs.length = j + 1 ∧ (∀ b ∈ bs.tail, b.getLsbD s.cfg.busyBit.val = true)
          ∧ (∀ b ∈ bs.head?, b.getLsbD s.cfg.busyBit.val = false)
          ∧ t.frames = bs.map (statusFrame s.cfg)
              ++ launchedFrame s.cfg (Transaction.send .chipErase) s.cfg.omDefault .write
              :: launchedFrame s.cfg (Transaction.send .writeEnable) s.cfg.omDefault .write :: s.frames

/-- R250, R270, R274, R275, R302, R307: `MERASE`, and `SERASE` of an aligned address inside the device, with a chip that
stays busy through the bound end with `Timeout` in memory-mapped mode; the chip, as it was last looked at (log entry 8),
is at work; the bytes outside the sector are as they were, and of those it works on nothing is said. -/
def Obligations.EraseTimesOut : Prop :=
  ∀ (s : State) (addr : Word32), s.receptive → s.fm = .memoryMapped → s.chipReady → 6 ≤ s.env.slice →
    s.lets (4 + 2 * s.cfg.maxAttempts.toNat) →
    s.env.done.take s.cfg.maxAttempts.toNat = List.replicate s.cfg.maxAttempts.toNat false →
    (∃ t, exec .merase s = .next t ∧ s.Returned t .timeout
      ∧ t.flash.wip = true ∧ t.flash.pending = .chipErase
      ∧ ∃ bs : List Byte, bs.length = s.cfg.maxAttempts.toNat ∧ (∀ b ∈ bs, b.getLsbD s.cfg.busyBit.val = true)
          ∧ t.frames = bs.map (statusFrame s.cfg)
              ++ launchedFrame s.cfg (Transaction.send .chipErase) s.cfg.omDefault .write
              :: launchedFrame s.cfg (Transaction.send .writeEnable) s.cfg.omDefault .write :: s.frames)
      ∧ (addr.toNat % s.cfg.sectorSize = 0 → addr.toNat < 2 ^ s.cfg.addrBits →
        ∃ t, exec (.serase addr) s = .next t ∧ s.Returned t .timeout
          ∧ t.flash.wip = true ∧ t.flash.pending = .sectorErase addr.toNat
          ∧ (∀ a, a < addr.toNat ∨ addr.toNat + s.cfg.sectorSize ≤ a →
              Memory.read t.flash.array a = Memory.read s.flash.array a)
          ∧ ∃ bs : List Byte, bs.length = s.cfg.maxAttempts.toNat ∧ (∀ b ∈ bs, b.getLsbD s.cfg.busyBit.val = true)
              ∧ t.frames = bs.map (statusFrame s.cfg)
                  ++ launchedFrame s.cfg (Transaction.sectorErase (BitVec.ofNat 24 addr.toNat)) s.cfg.omDefault .write
                  :: launchedFrame s.cfg (Transaction.send .writeEnable) s.cfg.omDefault .write :: s.frames)

/-- R274, R275: `SERASE` of an aligned address inside the device, with a chip seen ready at poll `j + 1`, ends with `Ok`
in memory-mapped mode: the bytes of the sector are erased and no other byte has changed. -/
def Obligations.EraseSectorCompletes : Prop :=
  ∀ (s : State) (addr : Word32) (j : Nat), s.receptive → s.fm = .memoryMapped → s.chipReady → 6 ≤ s.env.slice →
    addr.toNat % s.cfg.sectorSize = 0 → addr.toNat < 2 ^ s.cfg.addrBits →
    s.lets (4 + 2 * (j + 1)) → j + 1 ≤ s.cfg.maxAttempts.toNat →
    s.env.done.take (j + 1) = List.replicate j false ++ [true] →
    ∃ t, exec (.serase addr) s = .next t ∧ s.Returned t .ok
      ∧ t.flash.wel = false ∧ t.flash.wip = false ∧ t.flash.framing = s.flash.framing
      ∧ (∀ a, Memory.read t.flash.array a
          = if addr.toNat ≤ a ∧ a < addr.toNat + s.cfg.sectorSize then 0xFF else Memory.read s.flash.array a)
      ∧ ∃ bs : List Byte, bs.length = j + 1 ∧ (∀ b ∈ bs.tail, b.getLsbD s.cfg.busyBit.val = true)
          ∧ (∀ b ∈ bs.head?, b.getLsbD s.cfg.busyBit.val = false)
          ∧ t.frames = bs.map (statusFrame s.cfg)
              ++ launchedFrame s.cfg (Transaction.sectorErase (BitVec.ofNat 24 addr.toNat)) s.cfg.omDefault .write
              :: launchedFrame s.cfg (Transaction.send .writeEnable) s.cfg.omDefault .write :: s.frames

/-- R247, R273, R308: `SERASE` of a misaligned address, inside the device or not, ends at once with `AlignmentError` and
touches neither `FM` nor `CR`, nor anything outside the sequencer and the response. That `SEQ.len`, which the operation
ignores, holds `reqLen` also where the operation was given as a call (R133), which has no `LEN`, is the model's choice (log
entry 27), and so is that `TR` and, once it has returned, `SEQ.op` keep their values (log entry 28). -/
def Obligations.EraseSectorMisaligned : Prop :=
  ∀ (s : State) (addr : Word32), s.cfg.wf = true → s.busy = false → s.fm = .memoryMapped → 1 ≤ s.env.slice →
    addr.toNat % s.cfg.sectorSize ≠ 0 →
    exec (.serase addr) s = .next { s with
      seq := { s.seq with state := .idle, op := .serase, step := .s0, addr := addr, len := s.host.reqLen
                          result := .alignmentError }
      host := { s.host with response := some .alignmentError }
      log := .response .alignmentError :: s.log }

/-- R277, R279, R281, R262, R350: `WRITE` of bytes outside the window with a chip ready at the first poll of every chunk
ends with `Ok` in memory-mapped mode: each byte of the range is its old value AND the data byte, no other byte has changed,
and the wire has seen WriteEnable, PageProgram and one status read for each chunk of the chunking rule, in order. -/
def Obligations.WriteMemoryCompletes : Prop :=
  ∀ (s : State) (dest len : Word32), s.receptive → s.fm = .memoryMapped → s.chipReady →
    Memory.wf s.flash.array = true → dest.toNat + len.toNat ≤ 2 ^ s.cfg.addrBits → len.toNat ≤ s.host.buffer.length →
    s.clearOfWindow len.toNat → (len ≠ 0 → 1 ≤ s.cfg.maxAttempts.toNat) → s.smooth (7 * len.toNat + 4) →
    ∃ t, exec (.write dest len) s = .next t ∧ s.Returned t .ok
      ∧ t.flash.wip = false ∧ t.flash.framing = s.flash.framing ∧ Memory.wf t.flash.array = true
      ∧ (∀ (i : Nat) (h : i < s.host.buffer.length), i < len.toNat →
          Memory.read t.flash.array (dest.toNat + i) = Memory.read s.flash.array (dest.toNat + i) &&& s.host.buffer[i])
      ∧ (∀ a, a < dest.toNat ∨ dest.toNat + len.toNat ≤ a →
          Memory.read t.flash.array a = Memory.read s.flash.array a)
      ∧ ∃ bs : List Byte, bs.length = (chunks s.cfg.pageChunk dest.toNat len.toNat).length
          ∧ t.frames = writeFrames s.cfg s.host.buffer dest.toNat (chunks s.cfg.pageChunk dest.toNat len.toNat) bs
              ++ s.frames

/-- R224, R281, R302, R307: `WRITE` of bytes outside the window where the chunk number `j`, from 0, is the first that
times out ends with `Timeout` in memory-mapped mode: the chunks before it are programmed, the chip, as it was last looked
at (log entry 8), is at work on it, every byte outside the chunks attempted is untouched, no later chunk has been
attempted, and of the bytes of the failing chunk nothing is said. -/
def Obligations.WriteMemoryTimeout : Prop :=
  ∀ (s : State) (dest len : Word32) (j : Nat) (ch : Nat × Nat), s.receptive → s.fm = .memoryMapped → s.chipReady →
    Memory.wf s.flash.array = true → dest.toNat + len.toNat ≤ 2 ^ s.cfg.addrBits → len.toNat ≤ s.host.buffer.length →
    s.clearOfWindow len.toNat →
    (chunks s.cfg.pageChunk dest.toNat len.toNat)[j]? = some ch → (0 < j → 1 ≤ s.cfg.maxAttempts.toNat) →
    s.lets (7 * len.toNat + 2 * s.cfg.maxAttempts.toNat) →
    s.env.done.take (j + s.cfg.maxAttempts.toNat)
      = List.replicate j true ++ List.replicate s.cfg.maxAttempts.toNat false →
    6 * j + 8 ≤ s.env.slice →
    ∃ t, exec (.write dest len) s = .next t ∧ s.Returned t .timeout
      ∧ t.flash.wip = true ∧ t.flash.pending = .program ch.1 (chunkData s.host.buffer dest.toNat ch)
      ∧ (∀ (i : Nat) (h : i < s.host.buffer.length), dest.toNat + i < ch.1 →
          Memory.read t.flash.array (dest.toNat + i) = Memory.read s.flash.array (dest.toNat + i) &&& s.host.buffer[i])
      ∧ (∀ a, a < dest.toNat ∨ ch.1 + ch.2 ≤ a → Memory.read t.flash.array a = Memory.read s.flash.array a)
      ∧ ∃ bs ps : List Byte, bs.length = j ∧ ps.length = s.cfg.maxAttempts.toNat
          ∧ (∀ b ∈ ps, b.getLsbD s.cfg.busyBit.val = true)
          ∧ t.frames = ps.map (statusFrame s.cfg) ++ chunkCommands s.cfg (chunkData s.host.buffer dest.toNat ch) ch
              ++ writeFrames s.cfg s.host.buffer dest.toNat ((chunks s.cfg.pageChunk dest.toNat len.toNat).take j) bs
              ++ s.frames

/-- R183, R260, R61: what a host operation leaves alone, in any environment and however far it gets: the operands stay as
the request has them, the configuration, HOST but for the response, and, but for `INIT`, the enable and the device
configuration; and the direct caller's own byte, a field of the model's (log entry 18). An operation given as a call (R133)
has no field for the operands it ignores, `ADDR` and `LEN` of `INIT` and `MERASE` and `LEN` of `SERASE`; that they are then
what HOST presented last, `reqAddr` and `reqLen`, is the model's choice (log entry 27): R260 does not say it of a call. So is
that `SEQ.op` keeps the operation once it has returned (log entry 28). -/
def Obligations.HostOperationsFrame : Prop :=
  ∀ (i : Instr) (s t : State), exec i s = .next t →
    (match i with
     | .init      => t.seq.op = .init ∧ t.seq.addr = s.host.reqAddr ∧ t.seq.len = s.host.reqLen
     | .merase    => t.seq.op = .merase ∧ t.seq.addr = s.host.reqAddr ∧ t.seq.len = s.host.reqLen
                       ∧ t.cr.en = s.cr.en ∧ t.cr.addrw = s.cr.addrw ∧ t.cr.timing = s.cr.timing
     | .serase a  => t.seq.op = .serase ∧ t.seq.addr = a ∧ t.seq.len = s.host.reqLen
                       ∧ t.cr.en = s.cr.en ∧ t.cr.addrw = s.cr.addrw ∧ t.cr.timing = s.cr.timing
     | .write a n => t.seq.op = .write ∧ t.seq.addr = a ∧ t.seq.len = n
                       ∧ t.cr.en = s.cr.en ∧ t.cr.addrw = s.cr.addrw ∧ t.cr.timing = s.cr.timing
     | _          => True)
      ∧ t.cfg = s.cfg ∧ t.host = { s.host with response := t.host.response } ∧ t.env.slice = s.env.slice
      ∧ (match i with
         | .init => t.caller = s.caller
         | .merase => t.caller = s.caller
         | .serase _ => t.caller = s.caller
         | .write _ _ => t.caller = s.caller
         | _ => True)

/-- R271, R275, R281, R100: a host operation that finds the chip ready and in the block's framing changes, however far it
gets before another agent's turn, no byte outside what it was asked to erase or write, `INIT` none at all; if it is still
running it is in its range, so that `MaintenanceStaysInItsRange` says the same of every step that follows. -/
def Obligations.MaintenanceStartsInItsRange : Prop :=
  ∀ (i : Instr) (s t : State), s.coherent → s.receptive → s.flash.wip = false →
    (match i with
     | .init      => s.cfg.omDefault = .quad → s.flash.framing = .single
     | .merase    => s.framed
     | .serase _  => s.framed
     | .write _ _ => s.framed
     | _          => False) →
    exec i s = .next t →
    (t.seq.state = .running → t.InRange)
      ∧ ∀ a, (match i with
          | .init        => True
          | .serase addr => a < addr.toNat ∨ addr.toNat + s.cfg.sectorSize ≤ a
          | .write d n   => a < d.toNat ∨ d.toNat + n.toNat ≤ a
          | _            => False) →
        Memory.read t.flash.array a = Memory.read s.flash.array a

/-- R271, R275, R281, R282, R100: every step keeps a running operation in its range. Whatever line it stands at, wherever
its call waits, and whatever CTRL and the chip do, the step changes no byte outside the range of `SEQ.addr` and `SEQ.len`,
and an operation that still runs is in that same range. That `SEQ.op` keeps the operation once it has returned is the
model's choice (log entry 28). -/
def Obligations.MaintenanceStaysInItsRange : Prop :=
  ∀ s t : State, s.InRange → s.host.port = none → step s = .next t →
    (t.seq.state = .running → t.InRange)
      ∧ (∀ a, s.outsideRange a → Memory.read t.flash.array a = Memory.read s.flash.array a)
      ∧ t.seq.op = s.seq.op ∧ t.seq.addr = s.seq.addr ∧ t.seq.len = s.seq.len ∧ t.cfg = s.cfg

/-- R221, R164, R262, R304 d, R307: the poll and the maintenance operations with a chip of any kind, one in another framing
and a default operating mode of `Dual` among them, where CTRL takes the steps their waits ask for: what the chip answers
decides between `Ok` and `Timeout`, and nothing else that the block does. The poll ends at the first answer with the busy
bit clear, or when the bound is used up; a maintenance operation returns through the restoration step, with the registers,
the mode and the response of its result and its frames, in the default operating mode, on the wire. -/
def Obligations.AnyChipReturns : Prop :=
  ∀ (s : State) (addr len : Word32), s.receptive →
    (∀ max : Word32, s.cr.en = true → s.lets (2 * max.toNat) →
      ∃ (t : State) (bs : List Byte), exec (.waitUntilReady max) s = .next t
        ∧ t.seq = { s.seq with attempts := BitVec.ofNat 32 bs.length, status := t.seq.status, r := t.seq.r }
        ∧ t.frames = bs.map (statusFrame s.cfg) ++ s.frames ∧ t.host = s.host ∧ t.cfg = s.cfg ∧ t.calm
        ∧ (∀ b ∈ bs.tail, b.getLsbD s.cfg.busyBit.val = true)
        ∧ ((t.seq.r = .ok ∧ bs.length ≤ max.toNat ∧ bs.head? = some t.seq.status
              ∧ t.seq.status.getLsbD s.cfg.busyBit.val = false)
            ∨ (t.seq.r = .timeout ∧ bs.length = max.toNat ∧ ∀ b ∈ bs, b.getLsbD s.cfg.busyBit.val = true)))
      ∧ (s.fm = .memoryMapped → 6 ≤ s.env.slice → s.lets (4 + 2 * s.cfg.maxAttempts.toNat) →
        (∃ (t : State) (r : Result) (bs : List Byte), exec .merase s = .next t ∧ s.Returned t r
          ∧ t.frames = bs.map (statusFrame s.cfg)
              ++ launchedFrame s.cfg (Transaction.send .chipErase) s.cfg.omDefault .write
              :: launchedFrame s.cfg (Transaction.send .writeEnable) s.cfg.omDefault .write :: s.frames
          ∧ (∀ b ∈ bs.tail, b.getLsbD s.cfg.busyBit.val = true)
          ∧ ((r = .ok ∧ ∃ b, bs.head? = some b ∧ b.getLsbD s.cfg.busyBit.val = false)
              ∨ (r = .timeout ∧ bs.length = s.cfg.maxAttempts.toNat
                  ∧ ∀ b ∈ bs, b.getLsbD s.cfg.busyBit.val = true)))
        ∧ (addr.toNat % s.cfg.sectorSize = 0 → addr.toNat < 2 ^ s.cfg.addrBits →
          ∃ (t : State) (r : Result) (bs : List Byte), exec (.serase addr) s = .next t ∧ s.Returned t r
            ∧ t.frames = bs.map (statusFrame s.cfg)
                ++ launchedFrame s.cfg (Transaction.sectorErase (BitVec.ofNat 24 addr.toNat)) s.cfg.omDefault .write
                :: launchedFrame s.cfg (Transaction.send .writeEnable) s.cfg.omDefault .write :: s.frames
            ∧ (∀ b ∈ bs.tail, b.getLsbD s.cfg.busyBit.val = true)
            ∧ ((r = .ok ∧ ∃ b, bs.head? = some b ∧ b.getLsbD s.cfg.busyBit.val = false)
                ∨ (r = .timeout ∧ bs.length = s.cfg.maxAttempts.toNat
                    ∧ ∀ b ∈ bs, b.getLsbD s.cfg.busyBit.val = true))))
      ∧ (s.fm = .memoryMapped → 6 * len.toNat + 4 ≤ s.env.slice →
        s.lets ((5 + 2 * s.cfg.maxAttempts.toNat) * len.toNat) → addr.toNat + len.toNat ≤ 2 ^ s.cfg.addrBits →
        len.toNat ≤ s.host.buffer.length → s.clearOfWindow len.toNat →
        ∃ (t : State) (r : Result) (ps : List (List Byte)), exec (.write addr len) s = .next t ∧ s.Returned t r
          ∧ t.frames = attemptFrames s.cfg s.host.buffer addr.toNat (chunks s.cfg.pageChunk addr.toNat len.toNat) ps
              ++ s.frames
          ∧ ps.length ≤ (chunks s.cfg.pageChunk addr.toNat len.toNat).length
          ∧ ((r = .ok ∧ ps.length = (chunks s.cfg.pageChunk addr.toNat len.toNat).length
                ∧ ∀ bs ∈ ps, ∃ b, bs.head? = some b ∧ b.getLsbD s.cfg.busyBit.val = false)
              ∨ (r = .timeout ∧ ∃ bs, ps.getLast? = some bs ∧ bs.length = s.cfg.maxAttempts.toNat
                  ∧ ∀ b ∈ bs, b.getLsbD s.cfg.busyBit.val = true)))

/-- R12, R105, R181, R185, R225 e, R361: the pace changes nothing but when things happen. An instruction that comes to its
end in one step at one pace comes to the same end at every other: with any number of lines at a stretch, one line a step
among them, and with CTRL taking its steps later, however long its waits last before they are lifted; and so does what
occupies a block, wherever it stands, that comes to its end in one step. The ends differ in the pace itself and in the
number of gets of `CR.BUSY` that have read 1. With the completion statements of the operations this says where they end
line by line, and after waits. -/
def Obligations.PaceDoesNotMatter : Prop :=
  ∀ s s' t : State, s.cfg.wf = true → s.coherent → s.host.port = none → s.Paced s' → t.busy = false →
    (∀ i : Instr, exec i s = .next t →
        ∃ (u : State) (n : Nat) (t' : State), exec i s' = .next u ∧ u.goesOn n = .next t' ∧ t.Paced t')
      ∧ (s.busy = true → step s = .next t → ∃ (n : Nat) (t' : State), s'.goesOn n = .next t' ∧ t.Paced t')

/-- R282: the moves of `SEQ.step`, for a block that takes one line at a step: a line whose call waits keeps its label, and
a line whose calls have returned moves on as the rule has it: the next label, but for the branches of I2, S0, W1, W5 and
the poll of each erase, the skip of I3, and the returns. That `SEQ.op` keeps the operation once it has returned is the
model's choice (log entry 28). -/
def Obligations.SequencerMoves : Prop :=
  ∀ s t : State, s.cfg.wf = true → s.lineMode → s.seq.state = .running → s.host.port = none → s.env.slice = 0 →
    step s = .next t →
    (t.held = true ∧ t.seq = { s.seq with phase := t.seq.phase, waiting := t.seq.waiting, status := t.seq.status
                                          attempts := t.seq.attempts, r := t.seq.r })
      ∨ (t.held = false
          ∧ (t.seq.state = .idle → t.host.response = some t.seq.result)
          ∧ t.seq.op = s.seq.op ∧ t.seq.addr = s.seq.addr ∧ t.seq.len = s.seq.len
          ∧ (s.seq.step ≠ .w0 → s.seq.step ≠ .w6 → t.seq.off = s.seq.off)
          ∧ (s.seq.step ≠ .w2 → t.seq.chunk = s.seq.chunk)
          ∧ (match s.seq.step with
             | .i0      => t.seq.state = .running ∧ t.seq.step = .i1
             | .i1      => t.seq.state = .running ∧ t.seq.step = .i2
             | .i2      => if s.cr.en then t.seq.state = .running
                             ∧ t.seq.step = (if s.cfg.omDefault = .quad then .i3 else .i4)
                           else t.seq.state = .idle ∧ t.seq.result = .fatalError
             | .i3      => t.seq.state = .running ∧ t.seq.step = .i4
             | .i4      => t.seq.state = .running ∧ t.seq.step = .i5
             | .i5      => t.seq.state = .idle ∧ t.seq.result = .ok
             | .m0      => t.seq.state = .running ∧ t.seq.step = .m1
             | .m1      => t.seq.state = .running ∧ t.seq.step = .m2
             | .m2      => t.seq.state = .running ∧ t.seq.step = .restore
             | .s0      => if s.seq.addr.toNat % s.cfg.sectorSize = 0 then t.seq.state = .running ∧ t.seq.step = .s1
                           else t.seq.state = .idle ∧ t.seq.result = .alignmentError
             | .s1      => t.seq.state = .running ∧ t.seq.step = .s2
             | .s2      => t.seq.state = .running ∧ t.seq.step = .s3
             | .s3      => t.seq.state = .running ∧ t.seq.step = .restore
             | .w0      => t.seq.state = .running ∧ t.seq.step = .w1 ∧ t.seq.off = 0
             | .w1      => t.seq.state = .running ∧ t.seq.step = (if s.seq.off = s.seq.len then .restore else .w2)
             | .w2      => t.seq.state = .running ∧ t.seq.step = .w3
                             ∧ t.seq.chunk = BitVec.ofNat 32 (min (s.seq.len.toNat - s.seq.off.toNat)
                                 (s.cfg.pageChunk - (s.seq.addr.toNat + s.seq.off.toNat) % s.cfg.pageChunk))
             | .w3      => t.seq.state = .running ∧ t.seq.step = .w4
             | .w4      => t.seq.state = .running ∧ t.seq.step = .w5
             | .w5      => t.seq.state = .running ∧ t.seq.step = (if t.seq.r = .timeout then .restore else .w6)
             | .w6      => t.seq.state = .running ∧ t.seq.step = .w1 ∧ t.seq.off = s.seq.off + s.seq.chunk
             | .restore => t.seq.state = .running ∧ t.seq.step = .ret
             | .ret     => t.seq.state = .idle ∧ t.seq.result = s.seq.r))

/-- R279, R280, R88, R350: the chunks of a write: each has 1 to `PAGE_CHUNK` bytes and ends in the page it starts in, they
follow one another from the destination and add up to the length, and their number is the rule's; a buffer of two and a
half pages takes three chunks from a page-aligned destination on, and four from one in the last half of a page. -/
def Obligations.ChunkingRule : Prop :=
  (∀ (p a n : Nat), 1 ≤ p →
    (∀ ch ∈ chunks p a n, 1 ≤ ch.2 ∧ ch.2 ≤ p ∧ ch.1 % p + ch.2 ≤ p ∧ a ≤ ch.1 ∧ ch.1 + ch.2 ≤ a + n)
      ∧ (∀ l1 x y l2, chunks p a n = l1 ++ x :: y :: l2 → y.1 = x.1 + x.2 ∧ y.1 % p = 0)
      ∧ ((chunks p a n).map Prod.snd).sum = n
      ∧ ((chunks p a n).head?.map Prod.fst = if n = 0 then none else some a)
      ∧ (chunks p a n).length = (if n = 0 then 0 else (a % p + n + p - 1) / p))
  ∧ ∀ (h a : Nat), 1 ≤ h →
    (a % (2 * h) ≤ h → (chunks (2 * h) a (5 * h)).length = 3)
      ∧ (h < a % (2 * h) → (chunks (2 * h) a (5 * h)).length = 4)

/-! ## HOST, the window and the step -/

/-- R11, R133: when the bytes or the call at HOST's port stand for a well-formed instruction, a step runs it, the port
emptied first and the fields of a request presented (R121, R260); and so does a step of an idle block with the first action
of HOST's program. What stands at the port is taken before the program and before the lines of a running operation (the
model's choice, log entry 9). -/
def Obligations.StepRunsDecodedInstruction : Prop :=
  ∀ (s : State) (a : HostAction) (i : Instr), s.cfg.wf = true → a.instr s.cfg = some (.ok i) → i.wf s.cfg = true →
    (s.host.port = some a → step s = exec i (({ s with host := { s.host with port := none } } : State).present a))
      ∧ (∀ rest, s.host.port = none → s.busy = false → s.host.program = a :: rest →
          step s = exec i (({ s with host := { s.host with program := rest } } : State).present a))
      ∧ ∀ (u : State) (op : Byte) (addr len : Word32), a = .request (encodeRequest op addr len) →
          u.present a = { u with host := { u.host with reqAddr := addr, reqLen := len } }

/-- R11, R185, R282, R341: with nothing at the port an occupied block goes on, its waiting call first and then its lines
(`SequencerMoves` says where each leads), and a block that is not occupied, with nothing in HOST's program, does
nothing. -/
def Obligations.IdleBlockWaits : Prop :=
  ∀ s : State, s.cfg.wf = true → s.host.port = none →
    (s.busy = true → step s = s.resume.outcome)
      ∧ (s.busy = true → s.resume.readsWindow = false →
          ∃ t, step s = .next t ∧ t = s.resume ∧ t.host.buffer = s.host.buffer ∧ t.host.program = s.host.program)
      ∧ (s.busy = false → s.host.program = [] → step s = .next s)

/-- R82, R83, R108: a mapped read in memory-mapped mode, with an idle block and a chip that is ready and understands the
read command, gives HOST the array's bytes at ascending offsets, the last byte of the window included, and changes no
state of the block and no byte of the chip. That the log holds no frame for it, though CTRL sends ReadData frames in a
number R83 leaves open, is the model's choice, and that a read which leaves the window is a fault of its own, and not the
block's to serve, is its reading (log entry 17 for both). That `TR`, which R36 leaves open between transactions, keeps its
value is the model's choice (log entry 28). -/
def Obligations.MappedReadReturnsArray : Prop :=
  ∀ (s : State) (addr n : Nat), s.cfg.wf = true → s.busy = false → s.fm = .memoryMapped →
    s.host.port = some (.mappedRead addr n) →
    (s.flash.wip = false → s.mappedUnderstood = true → s.cfg.mmBase ≤ addr →
        addr + n ≤ s.cfg.mmBase + 2 ^ s.cfg.addrBits →
        ∃ t, step s = .next t
          ∧ t.host.readData = (List.range n).map (fun i => Memory.read s.flash.array (addr - s.cfg.mmBase + i))
          ∧ t.fm = s.fm ∧ t.tr = s.tr ∧ t.seq = s.seq ∧ t.cr = s.cr ∧ t.flash = s.flash ∧ t.frames = s.frames
          ∧ t.ctrl = { s.ctrl with prefetch := t.ctrl.prefetch }
          ∧ t.host = { s.host with port := none, readData := t.host.readData })
      ∧ (addr < s.cfg.mmBase ∨ s.cfg.mmBase + 2 ^ s.cfg.addrBits < addr + n →
          step s = .fault .mappedReadOutsideWindow)

/-- R84, R357: reads through the window that are faults. A mapped read of HOST is one outside memory-mapped mode and while
the sequencer runs; that it is one while a direct call has not returned is the model's reading (log entry 17). The block's
own read of a lent buffer that lies in the window is one: `apply` and `PP` come to it in step 6, and `WRITE` in the chunk
that holds the byte, the chunks before it written with a chip that is ready at each poll. -/
def Obligations.WindowReadsFault : Prop :=
  ∀ (s : State),
    (∀ addr n : Nat, s.cfg.wf = true → s.takes (.mappedRead addr n) →
      s.fm ≠ .memoryMapped ∨ s.seq.state = .running ∨ s.held = true → step s = .fault .mappedReadOutsideMode)
      ∧ (∀ (t : Transaction) (om : OperatingMode) (j : Nat), s.receptive → s.cr.en = true →
          t.wf s.cfg .indirectWrite om = true → t.data.covers s.host.buffer t.dataLength.toNat = true →
          s.lets t.dataLength.toNat → j < t.dataLength.toNat → t.data.inWindow s.cfg s.host j = true →
          exec (.apply t .indirectWrite om) s = .fault .mappedReadOutsideMode)
      ∧ (∀ (a : Addr24) (n : Word32) (j : Nat), s.receptive → s.cr.en = true → (Instr.pp a n).wf s.cfg = true →
          n.toNat ≤ s.host.buffer.length → s.lets n.toNat → j < n.toNat → s.host.inWindow s.cfg j = true →
          exec (.pp a n) s = .fault .mappedReadOutsideMode)
      ∧ (∀ (dest len : Word32) (j : Nat), s.receptive → s.fm = .memoryMapped → s.chipReady →
          dest.toNat + len.toNat ≤ 2 ^ s.cfg.addrBits → len.toNat ≤ s.host.buffer.length →
          1 ≤ s.cfg.maxAttempts.toNat → s.smooth (7 * len.toNat + 4) → j < len.toNat →
          s.host.inWindow s.cfg j = true → exec (.write dest len) s = .fault .mappedReadOutsideMode)

/-- R85: a HOST write through the window is refused, in every mode and whatever the block does. -/
def Obligations.MappedWriteRefused : Prop :=
  ∀ (s : State) (addr : Nat) (v : Byte), s.cfg.wf = true → s.takes (.mappedWrite addr v) →
    step s = .refused .windowWrite

/-- R61: the block never changes the buffer HOST lends nor its place: after a step they are what they were, unless HOST has
lent another to a block that is not occupied. -/
def Obligations.BufferIsOnlyBorrowed : Prop :=
  ∀ s t : State, step s = .next t →
    (t.host.buffer = s.host.buffer ∧ t.host.bufferAt = s.host.bufferAt)
      ∨ (s.busy = false ∧ s.takes (.lend t.host.bufferAt t.host.buffer))

/-! ## The array and the chip -/

/-- R80: what a byte of the array reads as after one byte has been stored, and that the canonical form is kept. -/
def Obligations.ArrayWriteThenRead : Prop :=
  ∀ (m : Memory) (a b : Nat) (v : Byte), Memory.wf m = true →
    Memory.read (Memory.write m a v) b = (if b = a then v else Memory.read m b)
      ∧ Memory.wf (Memory.write m a v) = true

/-- R81, R101: what a finished erase leaves at every offset: the sector containing the address, or the whole array, is
erased, every other byte is what the operation found there, and the chip is ready with its latch clear. -/
def Obligations.EraseEffect : Prop :=
  ∀ (s : State) (a b : Nat), 1 ≤ s.cfg.sectorSize →
    (s.flash.pending = .sectorErase a →
      Memory.read s.chipComplete.flash.array b
        = (if b / s.cfg.sectorSize = a / s.cfg.sectorSize then 0xFF else Memory.read s.flash.found b))
      ∧ (s.flash.pending = .chipErase → Memory.read s.chipComplete.flash.array b = 0xFF)
      ∧ s.chipComplete.flash.wip = false ∧ s.chipComplete.flash.wel = false

/-- R102: what a finished page program leaves: every byte whose last source index `i` falls on it is its old value AND
`d[i]`, the offsets wrapping inside the page, and no other byte has changed. -/
def Obligations.ProgramEffect : Prop :=
  ∀ (m : Memory) (p a : Nat) (d : List Byte), 1 ≤ p → Memory.wf m = true →
    (∀ (i : Nat) (h : i < d.length),
        (∀ j, i < j → j < d.length → (a + j) % p ≠ (a + i) % p) →
        Memory.read (Memory.program m p a d) (a - a % p + (a + i) % p)
          = Memory.read m (a - a % p + (a + i) % p) &&& d[i])
      ∧ (∀ b, (∀ i, i < d.length → a - a % p + (a + i) % p ≠ b) →
          Memory.read (Memory.program m p a d) b = Memory.read m b)
      ∧ Memory.wf (Memory.program m p a d) = true

/-- R99, R100, R101, R102: the write-enable latch. A ready chip that understands the frame sets the latch on WriteEnable;
with the latch clear it ignores the three destructive commands; with the latch set it becomes busy on them, its work being
the command's on the array as it stands; a byte the work does not touch stays as it is while the chip works; and when the
work is done latch and busy flag are clear. -/
def Obligations.WriteEnableLatch : Prop :=
  ∀ (s : State) (f : Frame), s.cfg.wf = true → s.flash.wip = false →
    s.flash.framing.understands f.iw f.aw f.dw = true → f.dir = .write →
    (f.opcode = s.cfg.opcWren → s.chipReceive f = ([], { s with flash := { s.flash with wel := true } }))
      ∧ ∀ p : Pending, ((f.opcode = s.cfg.opcCe ∧ p = .chipErase)
            ∨ (∃ a, f.addr = some a ∧ a < s.cfg.flashSize
                ∧ ((f.opcode = s.cfg.opcSe ∧ p = .sectorErase a) ∨ (f.opcode = s.cfg.opcPp ∧ p = .program a f.data)))) →
          (s.flash.wel = false → s.chipReceive f = ([], s))
            ∧ (s.flash.wel = true → (s.chipReceive f).2.flash.wip = true
                ∧ (s.chipReceive f).2.flash.pending = p
                ∧ (s.chipReceive f).2.flash.found = s.flash.array
                ∧ (∀ b, p.touches s.cfg b = false →
                    Memory.read (s.chipReceive f).2.flash.array b = Memory.read s.flash.array b)
                ∧ (s.chipReceive f).2.chipComplete.flash.array = p.result s.cfg s.flash.array
                ∧ (s.chipReceive f).2.chipComplete.flash.wel = false
                ∧ (s.chipReceive f).2.chipComplete.flash.wip = false)

/-- R104: a status read of one byte that the chip understands is answered with the chip's busy flag in bit `BUSY_BIT`
and the bits of a draw elsewhere, and changes nothing of the chip. The busy flag is the one the chip has when it is
looked at (log entry 8). -/
def Obligations.StatusByteOfTheChip : Prop :=
  ∀ (s : State) (f : Frame) (o : Byte) (os : List Byte), s.cfg.wf = true →
    s.flash.framing.understands f.iw f.aw f.dw = true → f.opcode = s.cfg.opcRdsr → f.dir = .read → f.len = 1 →
    s.env.status = o :: os →
    ∃ b, (s.chipReceive f).1 = [b]
      ∧ b.getLsbD s.cfg.busyBit.val = s.chipSettle.flash.wip
      ∧ (∀ k, k ≠ s.cfg.busyBit.val → b.getLsbD k = o.getLsbD k)
      ∧ (s.chipReceive f).2.flash = s.chipSettle.flash

/-- R103, R132: which frames the chip understands in each framing, and the one command that changes the framing. -/
def Obligations.FramingOfTheChip : Prop :=
  ∀ (s : State) (f : Frame), s.cfg.wf = true → s.flash.wip = false →
    (∀ aw dw, Framing.understands .single f.iw aw dw = true ↔ f.iw = .one)
      ∧ (∀ aw dw, Framing.understands .quad f.iw aw dw = true
          ↔ f.iw = .four ∧ (aw = none ∨ aw = some .four) ∧ (dw = none ∨ dw = some .four))
      ∧ (f.opcode = s.cfg.opcEqpi → f.dir = .write → f.iw = .one → s.flash.framing = .single →
          s.chipReceive f = ([], { s with flash := { s.flash with framing := .quad } }))

/-! ## Reset and the invariants -/

/-- R59, R340: what reset leaves in the state the spec gives a reset value: `FM`, `SEQ.state`, `CR.EN`, `CR.BUSY`, the
FIFO and the chip's framing. The values of the state the spec calls unspecified are the model's (log entry 2) and not
part of this statement. -/
def Obligations.ResetValues : Prop :=
  State.reset.fm = .uninitialized ∧ State.reset.seq.state = .idle ∧ State.reset.cr.en = false
    ∧ State.reset.cr.busy = false ∧ State.reset.ctrl.fifo = [] ∧ State.reset.flash.framing = .single

/-- R340, R342, R343: a reset of the block, at any moment, leaves it `Uninitialized` and idle, with the enable and the
busy bit clear and the FIFO empty; a chip that has no frame under way is left as it is. That HOST is left without a
response and with its buffer, and the log as it is, is the model's reading (log entry 26, DEDUCED), and that CTRL is left with nothing in flight and no read command is the
model's choice (log entry 2); both the spec leaves unspecified. -/
def Obligations.BlockReset : Prop :=
  ∀ s : State, s.cfg.wf = true → s.host.port = some .resetBlock →
    ∃ t, step s = .next t
      ∧ t.fm = .uninitialized ∧ t.seq.state = .idle ∧ t.held = false ∧ t.cr.en = false ∧ t.cr.busy = false
      ∧ t.ctrl.fifo = [] ∧ t.ctrl.inflight = none ∧ t.ctrl.readCmd = none ∧ t.host.response = none
      ∧ t.host.buffer = s.host.buffer ∧ t.cfg = s.cfg ∧ t.frames = s.frames
      ∧ ((∀ fl, s.ctrl.inflight = some fl → fl.delivered = true) → t.flash = s.flash)

/-- R59, R103, R320, R342: a power cycle of the chip leaves it in single-line framing with latch and busy flag clear and
the block as it is; a chip that was not busy keeps its array. That latch and busy flag are clear after it is general
knowledge, G4 of R59, and that the chip then works on nothing is presumed with it (log entry 15, PRESUMED). That the power
cycle is an action of HOST's port which leaves the block, HOST and the array of a chip that is not at work as they are is
the model's reading (log entry 26, DEDUCED). That `TR` keeps its value also between transactions, where R36 leaves it open,
is the model's choice (log entry 28). -/
def Obligations.ChipPowerCycle : Prop :=
  ∀ s : State, s.cfg.wf = true → s.host.port = some .powerCycleChip →
    ∃ t, step s = .next t
      ∧ t.flash.framing = .single ∧ t.flash.wel = false ∧ t.flash.wip = false ∧ t.flash.pending = .nothing
      ∧ (s.flash.wip = false → t.flash.array = s.flash.array)
      ∧ t.fm = s.fm ∧ t.seq = s.seq ∧ t.cr = s.cr ∧ t.ctrl = s.ctrl ∧ t.tr = s.tr ∧ t.cfg = s.cfg
      ∧ t.host = { s.host with port := none }

/-- R60: the configuration never changes. -/
def Obligations.ConfigurationNeverChanges : Prop :=
  ∀ s t : State, step s = .next t → t.cfg = s.cfg

/-- R242: a step from a configured mode leads back to `Uninitialized` only where HOST's action is a reset of the
block. -/
def Obligations.OnlyResetUnconfigures : Prop :=
  ∀ s t : State, step s = .next t → t.fm = .uninitialized →
    s.fm = .uninitialized ∨ s.takes .resetBlock

/-- Both invariants hold right after reset (R32, R59, R80, R93, R244). -/
def Obligations.ResetMeetsTheInvariants : Prop := State.reset.coherent ∧ State.reset.disciplined

/-- R32, R80, R93, R98, R105: every step keeps the invariant: `FM` agrees with `CR.FMODE`, only an indirect call waits,
the bytes of the transaction under way are where `apply` stands, at most one frame is in flight, and the array is in
its canonical form inside the device, with the chip's work inside it too. -/
def Obligations.EveryStepKeepsCoherence : Prop :=
  ∀ s t : State, s.coherent → step s = .next t → t.coherent

/-- R243, R244, R245, R247, R248, R308: on a machine used through its four host operations every step keeps the mode
discipline: whenever the sequencer is idle `FM` is `Uninitialized` or `MemoryMapped`, and whenever an operation has
returned it is `MemoryMapped`, but `Uninitialized` after `FatalError`. -/
def Obligations.EveryStepKeepsDiscipline : Prop :=
  ∀ s t : State, s.disciplined → step s = .next t → t.disciplined
end

