-- ==== Sys2Proof/Laws/Memory.lean ====
section
/-! SUPPORT. The laws of the flash array: read after write, erase and program (R101, R102), and that every
memory operation keeps the canonical form and the device's bound. -/

namespace Sys2Proof

/-- Every listed address is above a bound. -/
def Memory.above (b : Nat) (m : Memory) : Prop := ∀ c ∈ m, b < c.1

theorem Memory.wf_cons {a : Nat} {v : Byte} {m : Memory} :
    Memory.wf ((a, v) :: m) = true ↔ v ≠ Memory.erased ∧ Memory.above a m ∧ Memory.wf m = true := by
  induction m generalizing a v with
  | nil => simp [Memory.wf, Memory.above]
  | cons c rest ih =>
    obtain ⟨b, w⟩ := c
    have hb := @ih b w
    constructor
    · intro h
      rw [Memory.wf] at h
      simp only [Bool.and_eq_true, decide_eq_true_eq] at h
      obtain ⟨⟨hv, hab⟩, hrest⟩ := h
      refine ⟨hv, ?_, hrest⟩
      intro c hc
      rcases List.mem_cons.mp hc with rfl | hc
      · exact hab
      · exact lt_trans hab ((hb.mp hrest).2.1 c hc)
    · rintro ⟨hv, hab, hrest⟩
      rw [Memory.wf]
      simp only [Bool.and_eq_true, decide_eq_true_eq]
      exact ⟨⟨hv, hab (b, w) (by simp)⟩, hrest⟩

@[simp] theorem Memory.wf_nil : Memory.wf [] = true := rfl

theorem Memory.above_mono {a b : Nat} {m : Memory} (h : Memory.above b m) (hab : a ≤ b) : Memory.above a m :=
  fun c hc => lt_of_le_of_lt hab (h c hc)

theorem Memory.read_above {a : Nat} {m : Memory} (h : Memory.above a m) : Memory.read m a = Memory.erased := by
  induction m with
  | nil => rfl
  | cons c rest ih =>
    obtain ⟨k, v⟩ := c
    have hk : a < k := h (k, v) (by simp)
    simp only [Memory.read, if_neg (by omega : ¬ k = a)]
    exact ih (fun c hc => h c (List.mem_cons_of_mem _ hc))

theorem Memory.above_keep {b a : Nat} {v : Byte} {m : Memory} (ha : b < a) (h : Memory.above b m) :
    Memory.above b (Memory.keep a v m) := by
  unfold Memory.keep
  split
  · exact h
  · intro c hc
    rcases List.mem_cons.mp hc with rfl | hc
    · exact ha
    · exact h c hc

theorem Memory.above_write {b a : Nat} {v : Byte} {m : Memory} (ha : b < a) (h : Memory.above b m) :
    Memory.above b (Memory.write m a v) := by
  induction m with
  | nil => exact Memory.above_keep ha (fun c hc => absurd hc (by simp))
  | cons c rest ih =>
    obtain ⟨k, w⟩ := c
    have hrest : Memory.above b rest := fun c hc => h c (List.mem_cons_of_mem _ hc)
    simp only [Memory.write]
    split
    · exact Memory.above_keep ha h
    · split
      · exact Memory.above_keep ha hrest
      · intro c hc
        rcases List.mem_cons.mp hc with rfl | hc
        · exact h _ (by simp)
        · exact ih hrest c hc

theorem Memory.wf_keep {a : Nat} {v : Byte} {m : Memory} (h : Memory.wf m = true) (ha : Memory.above a m) :
    Memory.wf (Memory.keep a v m) = true := by
  unfold Memory.keep
  split
  · exact h
  · exact Memory.wf_cons.mpr ⟨by assumption, ha, h⟩

/-- A write keeps the canonical form. -/
theorem Memory.wf_write {a : Nat} {v : Byte} {m : Memory} (h : Memory.wf m = true) :
    Memory.wf (Memory.write m a v) = true := by
  induction m with
  | nil => exact Memory.wf_keep rfl (fun c hc => absurd hc (by simp))
  | cons c rest ih =>
    obtain ⟨k, w⟩ := c
    obtain ⟨hw, hab, hrest⟩ := Memory.wf_cons.mp h
    simp only [Memory.write]
    split
    next hak =>
      refine Memory.wf_keep h ?_
      intro c hc
      rcases List.mem_cons.mp hc with rfl | hc
      · exact hak
      · exact lt_trans hak (hab c hc)
    next hak =>
      split
      next heq => subst heq; exact Memory.wf_keep hrest hab
      next hne => exact Memory.wf_cons.mpr ⟨hw, Memory.above_write (by omega) hab, ih hrest⟩

theorem Memory.read_keep_same {a : Nat} {v : Byte} {m : Memory} (h : Memory.above a m) :
    Memory.read (Memory.keep a v m) a = v := by
  unfold Memory.keep
  split
  next hv => rw [Memory.read_above h, hv]
  next => simp [Memory.read]

theorem Memory.read_keep_other {a b : Nat} {v : Byte} {m : Memory} (hb : b ≠ a) :
    Memory.read (Memory.keep a v m) b = Memory.read m b := by
  unfold Memory.keep
  split
  · rfl
  · simp [Memory.read, hb.symm]

/-- A read after a write to the same offset gives the value written. -/
theorem Memory.read_write_same {a : Nat} {v : Byte} {m : Memory} (h : Memory.wf m = true) :
    Memory.read (Memory.write m a v) a = v := by
  induction m with
  | nil => exact Memory.read_keep_same (fun c hc => absurd hc (by simp))
  | cons c rest ih =>
    obtain ⟨k, w⟩ := c
    obtain ⟨hw, hab, hrest⟩ := Memory.wf_cons.mp h
    simp only [Memory.write]
    split
    next hak =>
      refine Memory.read_keep_same ?_
      intro c hc
      rcases List.mem_cons.mp hc with rfl | hc
      · exact hak
      · exact lt_trans hak (hab c hc)
    next hak =>
      split
      next heq => subst heq; exact Memory.read_keep_same hab
      next hne => simp only [Memory.read, if_neg (Ne.symm hne)]; exact ih hrest

/-- A write leaves every other offset alone. -/
theorem Memory.read_write_other {a b : Nat} {v : Byte} {m : Memory} (hb : b ≠ a) :
    Memory.read (Memory.write m a v) b = Memory.read m b := by
  induction m with
  | nil => exact Memory.read_keep_other hb
  | cons c rest ih =>
    obtain ⟨k, w⟩ := c
    simp only [Memory.write]
    split
    · exact Memory.read_keep_other hb
    · split
      next heq => subst heq; rw [Memory.read_keep_other hb]; simp [Memory.read, hb.symm]
      next hne => simp only [Memory.read]; rw [ih]

theorem Memory.inside_cons {size a : Nat} {v : Byte} {m : Memory} :
    Memory.inside size ((a, v) :: m) = true ↔ a < size ∧ Memory.inside size m = true := by
  simp [Memory.inside]

theorem Memory.inside_keep {size a : Nat} {v : Byte} {m : Memory} (ha : a < size)
    (h : Memory.inside size m = true) : Memory.inside size (Memory.keep a v m) = true := by
  unfold Memory.keep
  split
  · exact h
  · exact Memory.inside_cons.mpr ⟨ha, h⟩

/-- A write inside the device keeps the array inside it. -/
theorem Memory.inside_write {size a : Nat} {v : Byte} {m : Memory} (ha : a < size)
    (h : Memory.inside size m = true) : Memory.inside size (Memory.write m a v) = true := by
  induction m with
  | nil => exact Memory.inside_keep ha rfl
  | cons c rest ih =>
    obtain ⟨k, w⟩ := c
    obtain ⟨hk, hrest⟩ := Memory.inside_cons.mp h
    simp only [Memory.write]
    split
    · exact Memory.inside_keep ha h
    · split
      · exact Memory.inside_keep ha hrest
      · exact Memory.inside_cons.mpr ⟨hk, ih hrest⟩

theorem Memory.above_filter {b : Nat} {m : Memory} (p : Host.Cell → Bool) (h : Memory.above b m) :
    Memory.above b (m.filter p) := fun c hc => h c (List.mem_filter.mp hc).1

theorem Memory.wf_filter {m : Memory} (p : Host.Cell → Bool) (h : Memory.wf m = true) :
    Memory.wf (m.filter p) = true := by
  induction m with
  | nil => rfl
  | cons c rest ih =>
    obtain ⟨k, w⟩ := c
    obtain ⟨hw, hab, hrest⟩ := Memory.wf_cons.mp h
    rw [List.filter_cons]
    split
    · exact Memory.wf_cons.mpr ⟨hw, Memory.above_filter p hab, ih hrest⟩
    · exact ih hrest

/-- An erase keeps the canonical form. -/
theorem Memory.wf_eraseRange {m : Memory} {lo n : Nat} (h : Memory.wf m = true) :
    Memory.wf (Memory.eraseRange m lo n) = true := Memory.wf_filter _ h

theorem Memory.inside_eraseRange {size lo n : Nat} {m : Memory} (h : Memory.inside size m = true) :
    Memory.inside size (Memory.eraseRange m lo n) = true := by
  simp only [Memory.inside, List.all_eq_true] at h ⊢
  intro c hc
  exact h c (List.mem_filter.mp hc).1

/-- An erase leaves the erased byte at every offset of the range and every other offset alone (R101). -/
theorem Memory.read_eraseRange {m : Memory} {lo n a : Nat} :
    Memory.read (Memory.eraseRange m lo n) a
      = if lo ≤ a ∧ a < lo + n then Memory.erased else Memory.read m a := by
  induction m with
  | nil => simp [Memory.eraseRange, Memory.read]
  | cons c rest ih =>
    obtain ⟨k, w⟩ := c
    by_cases hk : lo ≤ k ∧ k < lo + n
    · have : Memory.eraseRange ((k, w) :: rest) lo n = Memory.eraseRange rest lo n := by
        simp [Memory.eraseRange, hk.1, hk.2]
      rw [this, ih]
      by_cases ha : lo ≤ a ∧ a < lo + n
      · simp [ha]
      · have : ¬ k = a := fun h => ha (h ▸ hk)
        simp [ha, Memory.read, this]
    · have : Memory.eraseRange ((k, w) :: rest) lo n = (k, w) :: Memory.eraseRange rest lo n := by
        have : lo ≤ k → lo + n ≤ k := fun h => Nat.le_of_not_lt (fun h2 => hk ⟨h, h2⟩)
        simpa [Memory.eraseRange, List.filter_cons] using this
      rw [this]
      by_cases hka : k = a
      · subst hka; simp [Memory.read, hk]
      · simp only [Memory.read, if_neg hka]; exact ih

theorem Memory.wf_programFrom {old m : Memory} {p a i : Nat} {d : List Byte} (h : Memory.wf m = true) :
    Memory.wf (Memory.programFrom old p a i d m) = true := by
  induction d generalizing i m with
  | nil => exact h
  | cons x xs ih => exact ih (Memory.wf_write h)

/-- A page program keeps the canonical form. -/
theorem Memory.wf_program {m : Memory} {p a : Nat} {d : List Byte} (h : Memory.wf m = true) :
    Memory.wf (Memory.program m p a d) = true := Memory.wf_programFrom h

/-- Every offset a page program reaches lies in the page of its address, and so inside the device. -/
theorem pageOffset_lt {p a i size : Nat} (hp : 1 ≤ p) (ha : a < size) (hsize : size % p = 0) :
    pageOffset p a i < size := by
  unfold pageOffset
  have h1 : (a + i) % p < p := Nat.mod_lt _ hp
  obtain ⟨k, rfl⟩ := Nat.dvd_of_mod_eq_zero hsize
  have h2 : a / p < k := Nat.div_lt_of_lt_mul ha
  have h3 : a - a % p = p * (a / p) := by have := Nat.div_add_mod a p; omega
  rw [h3]
  calc p * (a / p) + (a + i) % p < p * (a / p) + p := by omega
    _ = p * (a / p + 1) := by ring
    _ ≤ p * k := Nat.mul_le_mul_left p h2

theorem Memory.inside_programFrom {size p a i : Nat} {old m : Memory} {d : List Byte} (hp : 1 ≤ p) (ha : a < size)
    (hsize : size % p = 0) (h : Memory.inside size m = true) :
    Memory.inside size (Memory.programFrom old p a i d m) = true := by
  induction d generalizing i m with
  | nil => exact h
  | cons x xs ih => exact ih (Memory.inside_write (pageOffset_lt hp ha hsize) h)

/-- A page program inside the device keeps the array inside it. -/
theorem Memory.inside_program {size p a : Nat} {m : Memory} {d : List Byte} (hp : 1 ≤ p) (ha : a < size)
    (hsize : size % p = 0) (h : Memory.inside size m = true) :
    Memory.inside size (Memory.program m p a d) = true := Memory.inside_programFrom hp ha hsize h

theorem Memory.wf_ofCells {size : Nat} {cs : List Host.Cell} : Memory.wf (Memory.ofCells size cs) = true := by
  induction cs with
  | nil => rfl
  | cons c rest ih =>
    obtain ⟨a, v⟩ := c
    simp only [Memory.ofCells]
    split
    · exact Memory.wf_write ih
    · exact ih

theorem Memory.inside_ofCells {size : Nat} {cs : List Host.Cell} :
    Memory.inside size (Memory.ofCells size cs) = true := by
  induction cs with
  | nil => rfl
  | cons c rest ih =>
    obtain ⟨a, v⟩ := c
    simp only [Memory.ofCells]
    split
    next h => exact Memory.inside_write h ih
    next => exact ih

theorem Memory.inside_filter {size : Nat} {m : Memory} (p : Host.Cell → Bool) (h : Memory.inside size m = true) :
    Memory.inside size (List.filter p m) = true := by
  simp only [Memory.inside, List.all_eq_true] at h ⊢
  exact fun c hc => h c (List.mem_filter.mp hc).1

/-- A filter by offset leaves the bytes at the offsets it keeps. -/
theorem Memory.read_filter {m : Memory} {b : Nat} (keep : Nat → Bool) (h : keep b = true) :
    Memory.read (List.filter (fun c => keep c.1) m) b = Memory.read m b := by
  induction m with
  | nil => rfl
  | cons c rest ih =>
    obtain ⟨k, v⟩ := c
    simp only [List.filter_cons]
    split
    · simp only [Memory.read, ih]
    next hk =>
      rw [ih]
      simp only [Memory.read]
      rw [if_neg (fun e => hk (by rw [e]; exact h))]

/-! ### An array an operation works on -/

theorem Memory.wf_disturbed {touched : Nat → Bool} {m : Memory} {cs : List Host.Cell} (h : Memory.wf m = true) :
    Memory.wf (Memory.disturbed touched m cs) = true := by
  induction cs with
  | nil => exact Memory.wf_filter _ h
  | cons c rest ih =>
    obtain ⟨a, v⟩ := c
    simp only [Memory.disturbed]
    split
    · exact Memory.wf_write ih
    · exact ih

theorem Memory.inside_disturbed {size : Nat} {touched : Nat → Bool} {m : Memory} {cs : List Host.Cell}
    (ht : ∀ a, touched a = true → a < size) (h : Memory.inside size m = true) :
    Memory.inside size (Memory.disturbed touched m cs) = true := by
  induction cs with
  | nil => exact Memory.inside_filter _ h
  | cons c rest ih =>
    obtain ⟨a, v⟩ := c
    simp only [Memory.disturbed]
    split
    next ha => exact Memory.inside_write (ht a ha) ih
    · exact ih

/-- Where the operation does not work the array is as it was (R101, R102). -/
theorem Memory.read_disturbed_other {touched : Nat → Bool} {m : Memory} {cs : List Host.Cell} {b : Nat}
    (h : touched b = false) : Memory.read (Memory.disturbed touched m cs) b = Memory.read m b := by
  induction cs with
  | nil => exact Memory.read_filter (fun a => !touched a) (by simp [h])
  | cons c rest ih =>
    obtain ⟨a, v⟩ := c
    simp only [Memory.disturbed]
    split
    next ha => rw [Memory.read_write_other (fun e => by rw [e, ha] at h; cases h)]; exact ih
    · exact ih

/-- A page program leaves an offset alone that none of its bytes reaches (R102). -/
theorem Memory.read_programFrom_other {old m : Memory} {p a i b : Nat} {d : List Byte}
    (h : ∀ j, i ≤ j → j < i + d.length → pageOffset p a j ≠ b) :
    Memory.read (Memory.programFrom old p a i d m) b = Memory.read m b := by
  induction d generalizing i m with
  | nil => rfl
  | cons x xs ih =>
    simp only [Memory.programFrom]
    rw [ih (fun j h1 h2 => h j (by omega) (by simp only [List.length_cons]; omega)),
      Memory.read_write_other (h i le_rfl (by simp)).symm]

/-- A byte of a page program that no later byte overwrites becomes its old value AND the data byte (R102). -/
theorem Memory.read_programFrom_at {old m : Memory} {p a i k : Nat} {d : List Byte} (hm : Memory.wf m = true)
    (hk : k < d.length) (hlast : ∀ j, k < j → j < d.length → pageOffset p a (i + j) ≠ pageOffset p a (i + k)) :
    Memory.read (Memory.programFrom old p a i d m) (pageOffset p a (i + k))
      = Memory.read old (pageOffset p a (i + k)) &&& d[k] := by
  induction d generalizing i k m with
  | nil => simp at hk
  | cons x xs ih =>
    simp only [Memory.programFrom]
    cases k with
    | zero =>
      rw [Memory.read_programFrom_other, Nat.add_zero, Memory.read_write_same hm]
      · simp
      · intro j h1 h2
        have := hlast (j - i) (by omega) (by simp only [List.length_cons]; omega)
        rwa [Nat.add_sub_cancel' (by omega)] at this
    | succ k =>
      have := @ih (Memory.write m (pageOffset p a i) (Memory.read old (pageOffset p a i) &&& x)) (i + 1) k
        (Memory.wf_write hm) (by simpa using hk)
        (fun j h1 h2 => by
          have := hlast (j + 1) (by omega) (by simpa using h2)
          rwa [show i + (j + 1) = i + 1 + j by omega, show i + (k + 1) = i + 1 + k by omega] at this)
      rw [show i + (k + 1) = i + 1 + k by omega]
      simpa using this

end Sys2Proof
end

