-- ==== Sys2Proof/Laws/State.lean ====
section
/-! SUPPORT. One lemma per field per update: what each operation on the state does to each of its fields, so
that no later proof unfolds a record update. -/

namespace Sys2Proof.Machine

/-! ### `emit` -/

@[simp] theorem State.emit_cfg (e : Event) (s : State) : (s.emit e).cfg = s.cfg := rfl
@[simp] theorem State.emit_fm (e : Event) (s : State) : (s.emit e).fm = s.fm := rfl
@[simp] theorem State.emit_tr (e : Event) (s : State) : (s.emit e).tr = s.tr := rfl
@[simp] theorem State.emit_seq (e : Event) (s : State) : (s.emit e).seq = s.seq := rfl
@[simp] theorem State.emit_cr (e : Event) (s : State) : (s.emit e).cr = s.cr := rfl
@[simp] theorem State.emit_ctrl (e : Event) (s : State) : (s.emit e).ctrl = s.ctrl := rfl
@[simp] theorem State.emit_flash (e : Event) (s : State) : (s.emit e).flash = s.flash := rfl
@[simp] theorem State.emit_host (e : Event) (s : State) : (s.emit e).host = s.host := rfl
@[simp] theorem State.emit_env (e : Event) (s : State) : (s.emit e).env = s.env := rfl
@[simp] theorem State.emit_widths (e : Event) (s : State) : (s.emit e).widths = s.widths := rfl
@[simp] theorem State.emit_caller (e : Event) (s : State) : (s.emit e).caller = s.caller := rfl
@[simp] theorem State.emit_log (e : Event) (s : State) : (s.emit e).log = e :: s.log := rfl

/-! ### `goto` -/

@[simp] theorem State.goto_cfg (l : Label) (s : State) : (s.goto l).cfg = s.cfg := rfl
@[simp] theorem State.goto_fm (l : Label) (s : State) : (s.goto l).fm = s.fm := rfl
@[simp] theorem State.goto_tr (l : Label) (s : State) : (s.goto l).tr = s.tr := rfl
@[simp] theorem State.goto_seq (l : Label) (s : State) : (s.goto l).seq = { s.seq with step := l } := rfl
@[simp] theorem State.goto_cr (l : Label) (s : State) : (s.goto l).cr = s.cr := rfl
@[simp] theorem State.goto_ctrl (l : Label) (s : State) : (s.goto l).ctrl = s.ctrl := rfl
@[simp] theorem State.goto_flash (l : Label) (s : State) : (s.goto l).flash = s.flash := rfl
@[simp] theorem State.goto_host (l : Label) (s : State) : (s.goto l).host = s.host := rfl
@[simp] theorem State.goto_env (l : Label) (s : State) : (s.goto l).env = s.env := rfl
@[simp] theorem State.goto_widths (l : Label) (s : State) : (s.goto l).widths = s.widths := rfl
@[simp] theorem State.goto_caller (l : Label) (s : State) : (s.goto l).caller = s.caller := rfl
@[simp] theorem State.goto_log (l : Label) (s : State) : (s.goto l).log = s.log := rfl

/-! ### `nextLabel` -/

@[simp] theorem State.nextLabel_cfg (s : State) : (s.nextLabel).cfg = s.cfg := rfl
@[simp] theorem State.nextLabel_fm (s : State) : (s.nextLabel).fm = s.fm := rfl
@[simp] theorem State.nextLabel_tr (s : State) : (s.nextLabel).tr = s.tr := rfl
@[simp] theorem State.nextLabel_seq (s : State) : (s.nextLabel).seq = { s.seq with step := s.seq.step.next } := rfl
@[simp] theorem State.nextLabel_cr (s : State) : (s.nextLabel).cr = s.cr := rfl
@[simp] theorem State.nextLabel_ctrl (s : State) : (s.nextLabel).ctrl = s.ctrl := rfl
@[simp] theorem State.nextLabel_flash (s : State) : (s.nextLabel).flash = s.flash := rfl
@[simp] theorem State.nextLabel_host (s : State) : (s.nextLabel).host = s.host := rfl
@[simp] theorem State.nextLabel_env (s : State) : (s.nextLabel).env = s.env := rfl
@[simp] theorem State.nextLabel_widths (s : State) : (s.nextLabel).widths = s.widths := rfl
@[simp] theorem State.nextLabel_caller (s : State) : (s.nextLabel).caller = s.caller := rfl
@[simp] theorem State.nextLabel_log (s : State) : (s.nextLabel).log = s.log := rfl

/-! ### `setPhase` -/

@[simp] theorem State.setPhase_cfg (p : ApplyPhase) (s : State) : (s.setPhase p).cfg = s.cfg := rfl
@[simp] theorem State.setPhase_fm (p : ApplyPhase) (s : State) : (s.setPhase p).fm = s.fm := rfl
@[simp] theorem State.setPhase_tr (p : ApplyPhase) (s : State) : (s.setPhase p).tr = s.tr := rfl
@[simp] theorem State.setPhase_seq (p : ApplyPhase) (s : State) : (s.setPhase p).seq = { s.seq with phase := p } := rfl
@[simp] theorem State.setPhase_cr (p : ApplyPhase) (s : State) : (s.setPhase p).cr = s.cr := rfl
@[simp] theorem State.setPhase_ctrl (p : ApplyPhase) (s : State) : (s.setPhase p).ctrl = s.ctrl := rfl
@[simp] theorem State.setPhase_flash (p : ApplyPhase) (s : State) : (s.setPhase p).flash = s.flash := rfl
@[simp] theorem State.setPhase_host (p : ApplyPhase) (s : State) : (s.setPhase p).host = s.host := rfl
@[simp] theorem State.setPhase_env (p : ApplyPhase) (s : State) : (s.setPhase p).env = s.env := rfl
@[simp] theorem State.setPhase_widths (p : ApplyPhase) (s : State) : (s.setPhase p).widths = s.widths := rfl
@[simp] theorem State.setPhase_caller (p : ApplyPhase) (s : State) : (s.setPhase p).caller = s.caller := rfl
@[simp] theorem State.setPhase_log (p : ApplyPhase) (s : State) : (s.setPhase p).log = s.log := rfl

/-! ### `respond` -/

@[simp] theorem State.respond_cfg (r : Result) (s : State) : (s.respond r).cfg = s.cfg := rfl
@[simp] theorem State.respond_fm (r : Result) (s : State) : (s.respond r).fm = s.fm := rfl
@[simp] theorem State.respond_tr (r : Result) (s : State) : (s.respond r).tr = s.tr := rfl
@[simp] theorem State.respond_seq (r : Result) (s : State) : (s.respond r).seq = { s.seq with state := .idle, result := r } := rfl
@[simp] theorem State.respond_cr (r : Result) (s : State) : (s.respond r).cr = s.cr := rfl
@[simp] theorem State.respond_ctrl (r : Result) (s : State) : (s.respond r).ctrl = s.ctrl := rfl
@[simp] theorem State.respond_flash (r : Result) (s : State) : (s.respond r).flash = s.flash := rfl
@[simp] theorem State.respond_host (r : Result) (s : State) : (s.respond r).host = { s.host with response := some r } := rfl
@[simp] theorem State.respond_env (r : Result) (s : State) : (s.respond r).env = s.env := rfl
@[simp] theorem State.respond_widths (r : Result) (s : State) : (s.respond r).widths = s.widths := rfl
@[simp] theorem State.respond_caller (r : Result) (s : State) : (s.respond r).caller = s.caller := rfl
@[simp] theorem State.respond_log (r : Result) (s : State) : (s.respond r).log = .response r :: s.log := rfl

/-! ### `returnResult` -/

@[simp] theorem State.returnResult_cfg (s : State) : (s.returnResult).cfg = s.cfg := rfl
@[simp] theorem State.returnResult_fm (s : State) : (s.returnResult).fm = s.fm := rfl
@[simp] theorem State.returnResult_tr (s : State) : (s.returnResult).tr = s.tr := rfl
@[simp] theorem State.returnResult_seq (s : State) : (s.returnResult).seq = { s.seq with state := .idle, result := s.seq.r } := rfl
@[simp] theorem State.returnResult_cr (s : State) : (s.returnResult).cr = s.cr := rfl
@[simp] theorem State.returnResult_ctrl (s : State) : (s.returnResult).ctrl = s.ctrl := rfl
@[simp] theorem State.returnResult_flash (s : State) : (s.returnResult).flash = s.flash := rfl
@[simp] theorem State.returnResult_host (s : State) : (s.returnResult).host = { s.host with response := some s.seq.r } := rfl
@[simp] theorem State.returnResult_env (s : State) : (s.returnResult).env = s.env := rfl
@[simp] theorem State.returnResult_widths (s : State) : (s.returnResult).widths = s.widths := rfl
@[simp] theorem State.returnResult_caller (s : State) : (s.returnResult).caller = s.caller := rfl
@[simp] theorem State.returnResult_log (s : State) : (s.returnResult).log = .response s.seq.r :: s.log := rfl

/-! ### `chipUnknown` -/

@[simp] theorem State.chipUnknown_cfg (s : State) : (s.chipUnknown).cfg = s.cfg := rfl
@[simp] theorem State.chipUnknown_fm (s : State) : (s.chipUnknown).fm = s.fm := rfl
@[simp] theorem State.chipUnknown_tr (s : State) : (s.chipUnknown).tr = s.tr := rfl
@[simp] theorem State.chipUnknown_seq (s : State) : (s.chipUnknown).seq = s.seq := rfl
@[simp] theorem State.chipUnknown_cr (s : State) : (s.chipUnknown).cr = s.cr := rfl
@[simp] theorem State.chipUnknown_ctrl (s : State) : (s.chipUnknown).ctrl = s.ctrl := rfl
@[simp] theorem State.chipUnknown_host (s : State) : (s.chipUnknown).host = s.host := rfl
@[simp] theorem State.chipUnknown_env (s : State) : (s.chipUnknown).env = { s.env with n := s.env.n + 1 } := rfl
@[simp] theorem State.chipUnknown_widths (s : State) : (s.chipUnknown).widths = s.widths := rfl
@[simp] theorem State.chipUnknown_caller (s : State) : (s.chipUnknown).caller = s.caller := rfl
@[simp] theorem State.chipUnknown_log (s : State) : (s.chipUnknown).log = s.log := rfl

/-! ### `arrayUnknown` -/

@[simp] theorem State.arrayUnknown_cfg (s : State) : (s.arrayUnknown).cfg = s.cfg := rfl
@[simp] theorem State.arrayUnknown_fm (s : State) : (s.arrayUnknown).fm = s.fm := rfl
@[simp] theorem State.arrayUnknown_tr (s : State) : (s.arrayUnknown).tr = s.tr := rfl
@[simp] theorem State.arrayUnknown_seq (s : State) : (s.arrayUnknown).seq = s.seq := rfl
@[simp] theorem State.arrayUnknown_cr (s : State) : (s.arrayUnknown).cr = s.cr := rfl
@[simp] theorem State.arrayUnknown_ctrl (s : State) : (s.arrayUnknown).ctrl = s.ctrl := rfl
@[simp] theorem State.arrayUnknown_host (s : State) : (s.arrayUnknown).host = s.host := rfl
@[simp] theorem State.arrayUnknown_env (s : State) : (s.arrayUnknown).env = { s.env with n := s.env.n + 1 } := rfl
@[simp] theorem State.arrayUnknown_widths (s : State) : (s.arrayUnknown).widths = s.widths := rfl
@[simp] theorem State.arrayUnknown_caller (s : State) : (s.arrayUnknown).caller = s.caller := rfl
@[simp] theorem State.arrayUnknown_log (s : State) : (s.arrayUnknown).log = s.log := rfl

/-! ### `launchIndirect` -/

@[simp] theorem State.launchIndirect_cfg (s : State) : (s.launchIndirect).cfg = s.cfg := rfl
@[simp] theorem State.launchIndirect_fm (s : State) : (s.launchIndirect).fm = s.fm := rfl
@[simp] theorem State.launchIndirect_tr (s : State) : (s.launchIndirect).tr = s.tr := rfl
@[simp] theorem State.launchIndirect_seq (s : State) : (s.launchIndirect).seq = s.seq := rfl
@[simp] theorem State.launchIndirect_cr (s : State) : (s.launchIndirect).cr = { s.cr with busy := true } := rfl
@[simp] theorem State.launchIndirect_flash (s : State) : (s.launchIndirect).flash = s.flash := rfl
@[simp] theorem State.launchIndirect_host (s : State) : (s.launchIndirect).host = s.host := rfl
@[simp] theorem State.launchIndirect_env (s : State) : (s.launchIndirect).env = s.env := rfl
@[simp] theorem State.launchIndirect_widths (s : State) : (s.launchIndirect).widths = s.widths := rfl
@[simp] theorem State.launchIndirect_caller (s : State) : (s.launchIndirect).caller = s.caller := rfl
@[simp] theorem State.launchIndirect_log (s : State) : (s.launchIndirect).log = .launch :: s.log := rfl

/-! ### `launchMapped` -/

@[simp] theorem State.launchMapped_cfg (s : State) : (s.launchMapped).cfg = s.cfg := rfl
@[simp] theorem State.launchMapped_fm (s : State) : (s.launchMapped).fm = s.fm := rfl
@[simp] theorem State.launchMapped_tr (s : State) : (s.launchMapped).tr = s.tr := rfl
@[simp] theorem State.launchMapped_seq (s : State) : (s.launchMapped).seq = s.seq := rfl
@[simp] theorem State.launchMapped_cr (s : State) : (s.launchMapped).cr = s.cr := rfl
@[simp] theorem State.launchMapped_ctrl (s : State) : (s.launchMapped).ctrl = { s.ctrl with readCmd := some s.cr.cfg } := rfl
@[simp] theorem State.launchMapped_flash (s : State) : (s.launchMapped).flash = s.flash := rfl
@[simp] theorem State.launchMapped_host (s : State) : (s.launchMapped).host = s.host := rfl
@[simp] theorem State.launchMapped_env (s : State) : (s.launchMapped).env = s.env := rfl
@[simp] theorem State.launchMapped_widths (s : State) : (s.launchMapped).widths = s.widths := rfl
@[simp] theorem State.launchMapped_caller (s : State) : (s.launchMapped).caller = s.caller := rfl
@[simp] theorem State.launchMapped_log (s : State) : (s.launchMapped).log = .launch :: s.log := rfl

/-! ### `clearBusy` -/

@[simp] theorem State.clearBusy_cfg (s : State) : (s.clearBusy).cfg = s.cfg := rfl
@[simp] theorem State.clearBusy_fm (s : State) : (s.clearBusy).fm = s.fm := rfl
@[simp] theorem State.clearBusy_tr (s : State) : (s.clearBusy).tr = s.tr := rfl
@[simp] theorem State.clearBusy_seq (s : State) : (s.clearBusy).seq = s.seq := rfl
@[simp] theorem State.clearBusy_cr (s : State) : (s.clearBusy).cr = { s.cr with busy := false } := rfl
@[simp] theorem State.clearBusy_ctrl (s : State) : (s.clearBusy).ctrl = { s.ctrl with inflight := none } := rfl
@[simp] theorem State.clearBusy_flash (s : State) : (s.clearBusy).flash = s.flash := rfl
@[simp] theorem State.clearBusy_host (s : State) : (s.clearBusy).host = s.host := rfl
@[simp] theorem State.clearBusy_env (s : State) : (s.clearBusy).env = s.env := rfl
@[simp] theorem State.clearBusy_widths (s : State) : (s.clearBusy).widths = s.widths := rfl
@[simp] theorem State.clearBusy_caller (s : State) : (s.clearBusy).caller = s.caller := rfl
@[simp] theorem State.clearBusy_log (s : State) : (s.clearBusy).log = s.log := rfl

/-! ### `fifoPush` -/

@[simp] theorem State.fifoPush_cfg (i : Nat) (b : Byte) (s : State) : (s.fifoPush i b).cfg = s.cfg := rfl
@[simp] theorem State.fifoPush_fm (i : Nat) (b : Byte) (s : State) : (s.fifoPush i b).fm = s.fm := rfl
@[simp] theorem State.fifoPush_tr (i : Nat) (b : Byte) (s : State) : (s.fifoPush i b).tr = s.tr := rfl
@[simp] theorem State.fifoPush_seq (i : Nat) (b : Byte) (s : State) : (s.fifoPush i b).seq = { s.seq with phase := s.pushPhase (i + 1) } := rfl
@[simp] theorem State.fifoPush_cr (i : Nat) (b : Byte) (s : State) : (s.fifoPush i b).cr = s.cr := rfl
@[simp] theorem State.fifoPush_ctrl (i : Nat) (b : Byte) (s : State) : (s.fifoPush i b).ctrl = { s.ctrl with fifo := s.ctrl.fifo ++ [b] } := rfl
@[simp] theorem State.fifoPush_flash (i : Nat) (b : Byte) (s : State) : (s.fifoPush i b).flash = s.flash := rfl
@[simp] theorem State.fifoPush_host (i : Nat) (b : Byte) (s : State) : (s.fifoPush i b).host = s.host := rfl
@[simp] theorem State.fifoPush_env (i : Nat) (b : Byte) (s : State) : (s.fifoPush i b).env = s.env := rfl
@[simp] theorem State.fifoPush_widths (i : Nat) (b : Byte) (s : State) : (s.fifoPush i b).widths = s.widths := rfl
@[simp] theorem State.fifoPush_caller (i : Nat) (b : Byte) (s : State) : (s.fifoPush i b).caller = s.caller := rfl
@[simp] theorem State.fifoPush_log (i : Nat) (b : Byte) (s : State) : (s.fifoPush i b).log = .push b :: s.log := rfl

/-! ### `fifoPop` -/

@[simp] theorem State.fifoPop_cfg (i : Nat) (b : Byte) (rest : List Byte) (s : State) : (s.fifoPop i b rest).cfg = s.cfg := rfl
@[simp] theorem State.fifoPop_fm (i : Nat) (b : Byte) (rest : List Byte) (s : State) : (s.fifoPop i b rest).fm = s.fm := rfl
@[simp] theorem State.fifoPop_tr (i : Nat) (b : Byte) (rest : List Byte) (s : State) : (s.fifoPop i b rest).tr = s.tr := rfl
@[simp] theorem State.fifoPop_seq (i : Nat) (b : Byte) (rest : List Byte) (s : State) : (s.fifoPop i b rest).seq = { s.seq with status := if s.tr.data = .caller then s.seq.status else b, phase := s.popPhase (i + 1) } := rfl
@[simp] theorem State.fifoPop_cr (i : Nat) (b : Byte) (rest : List Byte) (s : State) : (s.fifoPop i b rest).cr = s.cr := rfl
@[simp] theorem State.fifoPop_ctrl (i : Nat) (b : Byte) (rest : List Byte) (s : State) : (s.fifoPop i b rest).ctrl = { s.ctrl with fifo := rest } := rfl
@[simp] theorem State.fifoPop_flash (i : Nat) (b : Byte) (rest : List Byte) (s : State) : (s.fifoPop i b rest).flash = s.flash := rfl
@[simp] theorem State.fifoPop_host (i : Nat) (b : Byte) (rest : List Byte) (s : State) : (s.fifoPop i b rest).host = s.host := rfl
@[simp] theorem State.fifoPop_env (i : Nat) (b : Byte) (rest : List Byte) (s : State) : (s.fifoPop i b rest).env = s.env := rfl
@[simp] theorem State.fifoPop_widths (i : Nat) (b : Byte) (rest : List Byte) (s : State) : (s.fifoPop i b rest).widths = s.widths := rfl
@[simp] theorem State.fifoPop_caller (i : Nat) (b : Byte) (rest : List Byte) (s : State) : (s.fifoPop i b rest).caller = (if s.tr.data = .caller then b else s.caller) := rfl
@[simp] theorem State.fifoPop_log (i : Nat) (b : Byte) (rest : List Byte) (s : State) : (s.fifoPop i b rest).log = .pop b :: s.log := rfl

/-! ### `endWait` -/

@[simp] theorem State.endWait_cfg (r : Result) (s : State) : (s.endWait r).cfg = s.cfg := rfl
@[simp] theorem State.endWait_fm (r : Result) (s : State) : (s.endWait r).fm = s.fm := rfl
@[simp] theorem State.endWait_tr (r : Result) (s : State) : (s.endWait r).tr = s.tr := rfl
@[simp] theorem State.endWait_seq (r : Result) (s : State) : (s.endWait r).seq = { s.seq with r := r, waiting := none } := rfl
@[simp] theorem State.endWait_cr (r : Result) (s : State) : (s.endWait r).cr = s.cr := rfl
@[simp] theorem State.endWait_ctrl (r : Result) (s : State) : (s.endWait r).ctrl = s.ctrl := rfl
@[simp] theorem State.endWait_flash (r : Result) (s : State) : (s.endWait r).flash = s.flash := rfl
@[simp] theorem State.endWait_host (r : Result) (s : State) : (s.endWait r).host = s.host := rfl
@[simp] theorem State.endWait_env (r : Result) (s : State) : (s.endWait r).env = s.env := rfl
@[simp] theorem State.endWait_widths (r : Result) (s : State) : (s.endWait r).widths = s.widths := rfl
@[simp] theorem State.endWait_caller (r : Result) (s : State) : (s.endWait r).caller = s.caller := rfl
@[simp] theorem State.endWait_log (r : Result) (s : State) : (s.endWait r).log = s.log := rfl

/-! ### `accept` -/

@[simp] theorem State.accept_cfg (op : Op) (addr len : Word32) (s : State) : (s.accept op addr len).cfg = s.cfg := rfl
@[simp] theorem State.accept_fm (op : Op) (addr len : Word32) (s : State) : (s.accept op addr len).fm = s.fm := rfl
@[simp] theorem State.accept_tr (op : Op) (addr len : Word32) (s : State) : (s.accept op addr len).tr = s.tr := rfl
@[simp] theorem State.accept_seq (op : Op) (addr len : Word32) (s : State) : (s.accept op addr len).seq = { s.seq with state := .running, op := op, step := op.first, addr := addr, len := len } := rfl
@[simp] theorem State.accept_cr (op : Op) (addr len : Word32) (s : State) : (s.accept op addr len).cr = s.cr := rfl
@[simp] theorem State.accept_ctrl (op : Op) (addr len : Word32) (s : State) : (s.accept op addr len).ctrl = s.ctrl := rfl
@[simp] theorem State.accept_flash (op : Op) (addr len : Word32) (s : State) : (s.accept op addr len).flash = s.flash := rfl
@[simp] theorem State.accept_host (op : Op) (addr len : Word32) (s : State) : (s.accept op addr len).host = { s.host with response := none } := rfl
@[simp] theorem State.accept_env (op : Op) (addr len : Word32) (s : State) : (s.accept op addr len).env = s.env := rfl
@[simp] theorem State.accept_widths (op : Op) (addr len : Word32) (s : State) : (s.accept op addr len).widths = s.widths := rfl
@[simp] theorem State.accept_caller (op : Op) (addr len : Word32) (s : State) : (s.accept op addr len).caller = s.caller := rfl
@[simp] theorem State.accept_log (op : Op) (addr len : Word32) (s : State) : (s.accept op addr len).log = s.log := rfl

/-! ### `deliverMapped` -/

@[simp] theorem State.deliverMapped_cfg (o : Nat) (d : List Byte) (s : State) : (s.deliverMapped o d).cfg = s.cfg := rfl
@[simp] theorem State.deliverMapped_fm (o : Nat) (d : List Byte) (s : State) : (s.deliverMapped o d).fm = s.fm := rfl
@[simp] theorem State.deliverMapped_tr (o : Nat) (d : List Byte) (s : State) : (s.deliverMapped o d).tr = s.tr := rfl
@[simp] theorem State.deliverMapped_seq (o : Nat) (d : List Byte) (s : State) : (s.deliverMapped o d).seq = s.seq := rfl
@[simp] theorem State.deliverMapped_cr (o : Nat) (d : List Byte) (s : State) : (s.deliverMapped o d).cr = s.cr := rfl
@[simp] theorem State.deliverMapped_flash (o : Nat) (d : List Byte) (s : State) : (s.deliverMapped o d).flash = s.flash := rfl
@[simp] theorem State.deliverMapped_host (o : Nat) (d : List Byte) (s : State) : (s.deliverMapped o d).host = { s.host with readData := d } := rfl
@[simp] theorem State.deliverMapped_env (o : Nat) (d : List Byte) (s : State) : (s.deliverMapped o d).env = s.env := rfl
@[simp] theorem State.deliverMapped_widths (o : Nat) (d : List Byte) (s : State) : (s.deliverMapped o d).widths = s.widths := rfl
@[simp] theorem State.deliverMapped_caller (o : Nat) (d : List Byte) (s : State) : (s.deliverMapped o d).caller = s.caller := rfl
@[simp] theorem State.deliverMapped_log (o : Nat) (d : List Byte) (s : State) : (s.deliverMapped o d).log = s.log := rfl

/-! ### `takePort` -/

@[simp] theorem State.takePort_cfg (s : State) : (s.takePort).cfg = s.cfg := rfl
@[simp] theorem State.takePort_fm (s : State) : (s.takePort).fm = s.fm := rfl
@[simp] theorem State.takePort_tr (s : State) : (s.takePort).tr = s.tr := rfl
@[simp] theorem State.takePort_seq (s : State) : (s.takePort).seq = s.seq := rfl
@[simp] theorem State.takePort_cr (s : State) : (s.takePort).cr = s.cr := rfl
@[simp] theorem State.takePort_ctrl (s : State) : (s.takePort).ctrl = s.ctrl := rfl
@[simp] theorem State.takePort_flash (s : State) : (s.takePort).flash = s.flash := rfl
@[simp] theorem State.takePort_host (s : State) : (s.takePort).host = { s.host with port := none } := rfl
@[simp] theorem State.takePort_env (s : State) : (s.takePort).env = s.env := rfl
@[simp] theorem State.takePort_widths (s : State) : (s.takePort).widths = s.widths := rfl
@[simp] theorem State.takePort_caller (s : State) : (s.takePort).caller = s.caller := rfl
@[simp] theorem State.takePort_log (s : State) : (s.takePort).log = s.log := rfl

/-! ### `takeProgram` -/

@[simp] theorem State.takeProgram_cfg (rest : List HostAction) (s : State) : (s.takeProgram rest).cfg = s.cfg := rfl
@[simp] theorem State.takeProgram_fm (rest : List HostAction) (s : State) : (s.takeProgram rest).fm = s.fm := rfl
@[simp] theorem State.takeProgram_tr (rest : List HostAction) (s : State) : (s.takeProgram rest).tr = s.tr := rfl
@[simp] theorem State.takeProgram_seq (rest : List HostAction) (s : State) : (s.takeProgram rest).seq = s.seq := rfl
@[simp] theorem State.takeProgram_cr (rest : List HostAction) (s : State) : (s.takeProgram rest).cr = s.cr := rfl
@[simp] theorem State.takeProgram_ctrl (rest : List HostAction) (s : State) : (s.takeProgram rest).ctrl = s.ctrl := rfl
@[simp] theorem State.takeProgram_flash (rest : List HostAction) (s : State) : (s.takeProgram rest).flash = s.flash := rfl
@[simp] theorem State.takeProgram_host (rest : List HostAction) (s : State) : (s.takeProgram rest).host = { s.host with program := rest } := rfl
@[simp] theorem State.takeProgram_env (rest : List HostAction) (s : State) : (s.takeProgram rest).env = s.env := rfl
@[simp] theorem State.takeProgram_widths (rest : List HostAction) (s : State) : (s.takeProgram rest).widths = s.widths := rfl
@[simp] theorem State.takeProgram_caller (rest : List HostAction) (s : State) : (s.takeProgram rest).caller = s.caller := rfl
@[simp] theorem State.takeProgram_log (rest : List HostAction) (s : State) : (s.takeProgram rest).log = s.log := rfl

/-! ### `drawEnable` -/

@[simp] theorem State.drawEnable_cfg (s : State) : (s.drawEnable.2).cfg = s.cfg := rfl
@[simp] theorem State.drawEnable_fm (s : State) : (s.drawEnable.2).fm = s.fm := rfl
@[simp] theorem State.drawEnable_tr (s : State) : (s.drawEnable.2).tr = s.tr := rfl
@[simp] theorem State.drawEnable_seq (s : State) : (s.drawEnable.2).seq = s.seq := rfl
@[simp] theorem State.drawEnable_cr (s : State) : (s.drawEnable.2).cr = s.cr := rfl
@[simp] theorem State.drawEnable_ctrl (s : State) : (s.drawEnable.2).ctrl = s.ctrl := rfl
@[simp] theorem State.drawEnable_flash (s : State) : (s.drawEnable.2).flash = s.flash := rfl
@[simp] theorem State.drawEnable_host (s : State) : (s.drawEnable.2).host = s.host := rfl
@[simp] theorem State.drawEnable_widths (s : State) : (s.drawEnable.2).widths = s.widths := rfl
@[simp] theorem State.drawEnable_caller (s : State) : (s.drawEnable.2).caller = s.caller := rfl
@[simp] theorem State.drawEnable_log (s : State) : (s.drawEnable.2).log = s.log := rfl

/-! ### `drawLift` -/

@[simp] theorem State.drawLift_cfg (s : State) : (s.drawLift.2).cfg = s.cfg := rfl
@[simp] theorem State.drawLift_fm (s : State) : (s.drawLift.2).fm = s.fm := rfl
@[simp] theorem State.drawLift_tr (s : State) : (s.drawLift.2).tr = s.tr := rfl
@[simp] theorem State.drawLift_seq (s : State) : (s.drawLift.2).seq = s.seq := rfl
@[simp] theorem State.drawLift_cr (s : State) : (s.drawLift.2).cr = s.cr := rfl
@[simp] theorem State.drawLift_ctrl (s : State) : (s.drawLift.2).ctrl = s.ctrl := rfl
@[simp] theorem State.drawLift_flash (s : State) : (s.drawLift.2).flash = s.flash := rfl
@[simp] theorem State.drawLift_host (s : State) : (s.drawLift.2).host = s.host := rfl
@[simp] theorem State.drawLift_widths (s : State) : (s.drawLift.2).widths = s.widths := rfl
@[simp] theorem State.drawLift_caller (s : State) : (s.drawLift.2).caller = s.caller := rfl
@[simp] theorem State.drawLift_log (s : State) : (s.drawLift.2).log = s.log := rfl

/-! ### `drawDone` -/

@[simp] theorem State.drawDone_cfg (s : State) : (s.drawDone.2).cfg = s.cfg := rfl
@[simp] theorem State.drawDone_fm (s : State) : (s.drawDone.2).fm = s.fm := rfl
@[simp] theorem State.drawDone_tr (s : State) : (s.drawDone.2).tr = s.tr := rfl
@[simp] theorem State.drawDone_seq (s : State) : (s.drawDone.2).seq = s.seq := rfl
@[simp] theorem State.drawDone_cr (s : State) : (s.drawDone.2).cr = s.cr := rfl
@[simp] theorem State.drawDone_ctrl (s : State) : (s.drawDone.2).ctrl = s.ctrl := rfl
@[simp] theorem State.drawDone_flash (s : State) : (s.drawDone.2).flash = s.flash := rfl
@[simp] theorem State.drawDone_host (s : State) : (s.drawDone.2).host = s.host := rfl
@[simp] theorem State.drawDone_widths (s : State) : (s.drawDone.2).widths = s.widths := rfl
@[simp] theorem State.drawDone_caller (s : State) : (s.drawDone.2).caller = s.caller := rfl
@[simp] theorem State.drawDone_log (s : State) : (s.drawDone.2).log = s.log := rfl

/-! ### `drawStatus` -/

@[simp] theorem State.drawStatus_cfg (s : State) : (s.drawStatus.2).cfg = s.cfg := rfl
@[simp] theorem State.drawStatus_fm (s : State) : (s.drawStatus.2).fm = s.fm := rfl
@[simp] theorem State.drawStatus_tr (s : State) : (s.drawStatus.2).tr = s.tr := rfl
@[simp] theorem State.drawStatus_seq (s : State) : (s.drawStatus.2).seq = s.seq := rfl
@[simp] theorem State.drawStatus_cr (s : State) : (s.drawStatus.2).cr = s.cr := rfl
@[simp] theorem State.drawStatus_ctrl (s : State) : (s.drawStatus.2).ctrl = s.ctrl := rfl
@[simp] theorem State.drawStatus_flash (s : State) : (s.drawStatus.2).flash = s.flash := rfl
@[simp] theorem State.drawStatus_host (s : State) : (s.drawStatus.2).host = s.host := rfl
@[simp] theorem State.drawStatus_widths (s : State) : (s.drawStatus.2).widths = s.widths := rfl
@[simp] theorem State.drawStatus_caller (s : State) : (s.drawStatus.2).caller = s.caller := rfl
@[simp] theorem State.drawStatus_log (s : State) : (s.drawStatus.2).log = s.log := rfl

/-! ### `drawBytes` -/

@[simp] theorem State.drawBytes_cfg (k : Nat) (s : State) : (s.drawBytes k).2.cfg = s.cfg := rfl
@[simp] theorem State.drawBytes_fm (k : Nat) (s : State) : (s.drawBytes k).2.fm = s.fm := rfl
@[simp] theorem State.drawBytes_tr (k : Nat) (s : State) : (s.drawBytes k).2.tr = s.tr := rfl
@[simp] theorem State.drawBytes_seq (k : Nat) (s : State) : (s.drawBytes k).2.seq = s.seq := rfl
@[simp] theorem State.drawBytes_cr (k : Nat) (s : State) : (s.drawBytes k).2.cr = s.cr := rfl
@[simp] theorem State.drawBytes_ctrl (k : Nat) (s : State) : (s.drawBytes k).2.ctrl = s.ctrl := rfl
@[simp] theorem State.drawBytes_flash (k : Nat) (s : State) : (s.drawBytes k).2.flash = s.flash := rfl
@[simp] theorem State.drawBytes_host (k : Nat) (s : State) : (s.drawBytes k).2.host = s.host := rfl
@[simp] theorem State.drawBytes_env (k : Nat) (s : State) : (s.drawBytes k).2.env = { s.env with n := s.env.n + 1 } := rfl
@[simp] theorem State.drawBytes_widths (k : Nat) (s : State) : (s.drawBytes k).2.widths = s.widths := rfl
@[simp] theorem State.drawBytes_caller (k : Nat) (s : State) : (s.drawBytes k).2.caller = s.caller := rfl
@[simp] theorem State.drawBytes_log (k : Nat) (s : State) : (s.drawBytes k).2.log = s.log := rfl
@[simp] theorem State.drawBytes_length (k : Nat) (s : State) : (s.drawBytes k).1.length = k := by
  simp [State.drawBytes]

/-! ### The bytes a transaction refers to -/

/-- What `DataRef.byte` looks at. -/
theorem DataRef.byte_congr {d : DataRef} {s t : State} {i : Nat} (hc : t.cfg = s.cfg) (hh : t.host = s.host)
    (hs : t.seq.status = s.seq.status) (ho : t.caller = s.caller) : d.byte t i = d.byte s i := by
  unfold DataRef.byte
  rw [hc, hh, hs, ho]

end Sys2Proof.Machine
end

