-- ==== Sys2Proof/Laws/Chip.lean ====
section
/-! SUPPORT. What the chip can do to the state, said once per operation: it changes FLASH and the environment's
draws and nothing else, keeps the array in its form, and answers a read frame with the bytes it asks for. -/

namespace Sys2Proof.Machine

open Sys2Proof

/-- `t` differs from `s` in FLASH and in the draws that FLASH takes, and in nothing else. -/
structure ChipOnly (s t : State) : Prop where
  same   : t = { s with flash := t.flash, env := t.env }
  lift   : t.env.lift = s.env.lift
  slice  : t.env.slice = s.env.slice
  enable : t.env.enable = s.env.enable

namespace ChipOnly

theorem refl (s : State) : ChipOnly s s := ⟨rfl, rfl, rfl, rfl⟩

theorem trans {s t u : State} (h1 : ChipOnly s t) (h2 : ChipOnly t u) : ChipOnly s u :=
  ⟨by rw [h2.same]; rw [h1.same], h2.lift.trans h1.lift, h2.slice.trans h1.slice, h2.enable.trans h1.enable⟩

variable {s t : State}

theorem cfg (h : ChipOnly s t) : t.cfg = s.cfg := by rw [h.same]
theorem fm (h : ChipOnly s t) : t.fm = s.fm := by rw [h.same]
theorem tr (h : ChipOnly s t) : t.tr = s.tr := by rw [h.same]
theorem seq (h : ChipOnly s t) : t.seq = s.seq := by rw [h.same]
theorem cr (h : ChipOnly s t) : t.cr = s.cr := by rw [h.same]
theorem ctrl (h : ChipOnly s t) : t.ctrl = s.ctrl := by rw [h.same]
theorem host (h : ChipOnly s t) : t.host = s.host := by rw [h.same]
theorem widths (h : ChipOnly s t) : t.widths = s.widths := by rw [h.same]
theorem log (h : ChipOnly s t) : t.log = s.log := by rw [h.same]

end ChipOnly

/-- The array and the operation in progress are as the invariant has them. -/
def State.flashWf (s : State) : Prop := s.arrayWf ∧ s.pendingInside

theorem Config.wf_pageChunk {c : Config} (h : c.wf = true) : 1 ≤ c.pageChunk := by
  simp only [Config.wf, Bool.and_eq_true, decide_eq_true_eq] at h; exact h.1.1.1.1.1.1

theorem Config.wf_sectorSize {c : Config} (h : c.wf = true) : 1 ≤ c.sectorSize := by
  simp only [Config.wf, Bool.and_eq_true, decide_eq_true_eq] at h; exact h.1.1.1.1.1.2

theorem Config.wf_addrBits {c : Config} (h : c.wf = true) : 1 ≤ c.addrBits ∧ c.addrBits ≤ 24 := by
  simp only [Config.wf, Bool.and_eq_true, decide_eq_true_eq] at h; exact ⟨h.1.1.1.1.2, h.1.1.1.2⟩

theorem Config.wf_opcodes {c : Config} (h : c.wf = true) : c.opcodes.Nodup := by
  simp only [Config.wf, Bool.and_eq_true, decide_eq_true_eq] at h; exact h.1.1.2

theorem Config.wf_sectors {c : Config} (h : c.wf = true) : c.flashSize % c.sectorSize = 0 := by
  simp only [Config.wf, Bool.and_eq_true, decide_eq_true_eq] at h; exact h.1.2

theorem Config.wf_pages {c : Config} (h : c.wf = true) : c.flashSize % c.pageChunk = 0 := by
  simp only [Config.wf, Bool.and_eq_true, decide_eq_true_eq] at h; exact h.2

/-! ### `chipUnknown`, `arrayUnknown`, `drawBytes`, `drawStatus` -/

theorem State.chipUnknown_only (s : State) : ChipOnly s s.chipUnknown := ⟨rfl, rfl, rfl, rfl⟩

theorem State.chipUnknown_flashWf (s : State) : s.chipUnknown.flashWf :=
  ⟨⟨⟨Memory.wf_ofCells, Memory.inside_ofCells⟩, rfl, rfl⟩, trivial⟩

theorem State.arrayUnknown_only (s : State) : ChipOnly s s.arrayUnknown := ⟨rfl, rfl, rfl, rfl⟩

theorem State.drawBytes_only (k : Nat) (s : State) : ChipOnly s (s.drawBytes k).2 := ⟨rfl, rfl, rfl, rfl⟩

theorem State.drawDone_only (s : State) : ChipOnly s s.drawDone.2 := ⟨rfl, rfl, rfl, rfl⟩

theorem State.drawStatus_only (s : State) : ChipOnly s s.drawStatus.2 := ⟨rfl, rfl, rfl, rfl⟩

/-! ### `chipComplete`, `chipSettle` -/

theorem State.chipComplete_only (s : State) : ChipOnly s s.chipComplete := by
  unfold State.chipComplete
  dsimp only
  split <;> exact ⟨rfl, rfl, rfl, rfl⟩

/-- A completed operation clears the latch and the busy flag (R99, R100). -/
theorem State.chipComplete_clear (s : State) : s.chipComplete.flash.wel = false ∧ s.chipComplete.flash.wip = false :=
  ⟨rfl, rfl⟩

/-- A known operation leaves its result, and draws nothing (R101, R102). -/
theorem State.chipComplete_known {s : State} (h : s.flash.pending ≠ .unknown) :
    s.chipComplete = { s with flash := { wel := false, wip := false, framing := s.flash.framing,
                                         array := s.flash.outcome s.cfg, pending := .nothing, found := [],
                                         work := s.flash.work } } := by
  simp [State.chipComplete, h]

theorem State.chipComplete_flashWf {s : State} (hc : s.cfg.wf = true) (h : s.flashWf) : s.chipComplete.flashWf := by
  obtain ⟨⟨⟨hwf, hin⟩, hfwf, hfin⟩, hp⟩ := h
  by_cases hu : s.flash.pending = .unknown
  · unfold State.chipComplete
    rw [if_pos hu]
    have e : s.arrayUnknown.flash.outcome s.cfg = Memory.ofCells s.cfg.flashSize (Config.freeCells s.env.n) := by
      simp [Flash.outcome, State.arrayUnknown, hu]
    refine ⟨⟨⟨?_, ?_⟩, rfl, rfl⟩, trivial⟩
    · show Memory.wf (s.arrayUnknown.flash.outcome s.cfg) = true
      rw [e]; exact Memory.wf_ofCells
    · show Memory.inside s.cfg.flashSize (s.arrayUnknown.flash.outcome s.cfg) = true
      rw [e]; exact Memory.inside_ofCells
  · rw [State.chipComplete_known hu]
    unfold State.pendingInside at hp
    refine ⟨⟨?_, rfl, rfl⟩, trivial⟩
    show Memory.wf (s.flash.outcome s.cfg) = true ∧ Memory.inside s.cfg.flashSize (s.flash.outcome s.cfg) = true
    unfold Flash.outcome
    cases hpend : s.flash.pending with
    | nothing => exact ⟨hwf, hin⟩
    | chipErase => exact ⟨rfl, rfl⟩
    | sectorErase a => exact ⟨Memory.wf_eraseRange hfwf, Memory.inside_eraseRange hfin⟩
    | program a d =>
      rw [hpend] at hp
      exact ⟨Memory.wf_program hfwf,
        Memory.inside_program (Config.wf_pageChunk hc) hp (Config.wf_pages hc) hfin⟩
    | unknown => exact absurd hpend hu

theorem State.chipSettle_only (s : State) : ChipOnly s s.chipSettle := by
  unfold State.chipSettle
  split
  · dsimp only
    split
    · exact s.drawDone_only.trans (State.chipComplete_only _)
    · exact s.drawDone_only
  · exact ChipOnly.refl s

theorem State.chipSettle_flashWf {s : State} (hc : s.cfg.wf = true) (h : s.flashWf) : s.chipSettle.flashWf := by
  unfold State.chipSettle
  split
  · dsimp only
    split
    · exact State.chipComplete_flashWf (s := s.drawDone.2) hc h
    · exact h
  · exact h

/-- A chip that is not busy is left as it is, and no draw is made. -/
theorem State.chipSettle_ready {s : State} (h : s.flash.wip = false) : s.chipSettle = s := by
  simp [State.chipSettle, h]

/-! ### `chipStart`, `chipUnspecified`, `chipStatus`, `chipExecute`, `chipReceive` -/

theorem State.chipStart_only (p : Pending) (s : State) : ChipOnly s (s.chipStart p) := by
  unfold State.chipStart
  split
  · exact ⟨rfl, rfl, rfl, rfl⟩
  · exact ChipOnly.refl s

theorem Pending.touches_inside {c : Config} {p : Pending} {o : Nat} (h : p.touches c o = true) : o < c.flashSize := by
  simp only [Pending.touches, Bool.and_eq_true, decide_eq_true_eq] at h; exact h.1

/-- An operation that has begun leaves every byte it does not work on (R101, R102). -/
theorem Flash.startWork_read {c : Config} {p : Pending} {fl : Flash} {o : Nat} (h : p.touches c o = false) :
    Memory.read (fl.startWork c p).array o = Memory.read fl.array o := Memory.read_disturbed_other h

@[simp] theorem Flash.startWork_wel (c : Config) (p : Pending) (fl : Flash) : (fl.startWork c p).wel = fl.wel := rfl
@[simp] theorem Flash.startWork_wip (c : Config) (p : Pending) (fl : Flash) : (fl.startWork c p).wip = true := rfl
@[simp] theorem Flash.startWork_framing (c : Config) (p : Pending) (fl : Flash) :
    (fl.startWork c p).framing = fl.framing := rfl
@[simp] theorem Flash.startWork_pending (c : Config) (p : Pending) (fl : Flash) : (fl.startWork c p).pending = p := rfl
@[simp] theorem Flash.startWork_found (c : Config) (p : Pending) (fl : Flash) :
    (fl.startWork c p).found = fl.array := rfl

theorem State.chipStart_arrayWf {p : Pending} {s : State} (h : s.arrayWf) : (s.chipStart p).arrayWf := by
  unfold State.chipStart
  split
  · exact ⟨⟨Memory.wf_disturbed h.1.1, Memory.inside_disturbed (fun _ => Pending.touches_inside) h.1.2⟩, h.1⟩
  · exact h

theorem State.chipUnspecified_only (f : Frame) (s : State) : ChipOnly s (s.chipUnspecified f).2 := by
  unfold State.chipUnspecified
  cases f.dir
  · exact s.chipUnknown_only
  · exact s.chipUnknown_only.trans (State.drawBytes_only _ _)

theorem State.chipUnspecified_flashWf (f : Frame) (s : State) : (s.chipUnspecified f).2.flashWf := by
  unfold State.chipUnspecified
  cases f.dir <;> exact s.chipUnknown_flashWf

theorem State.chipUnspecified_length {f : Frame} (s : State) (h : f.dir = .read) :
    (s.chipUnspecified f).1.length = f.len := by
  simp [State.chipUnspecified, h]

theorem State.chipStatus_only (f : Frame) (s : State) : ChipOnly s (s.chipStatus f).2 := ⟨rfl, rfl, rfl, rfl⟩

theorem State.chipExecute_only (f : Frame) (s : State) : ChipOnly s (s.chipExecute f).2 := by
  unfold State.chipExecute
  split
  · exact s.chipStatus_only f
  · exact ⟨rfl, rfl, rfl, rfl⟩
  · exact s.chipStart_only _
  · split
    · split
      · exact s.chipStart_only _
      · exact s.chipUnspecified_only f
    · exact s.chipUnspecified_only f
  · split
    · split
      · exact s.chipStart_only _
      · exact s.chipUnspecified_only f
    · exact s.chipUnspecified_only f
  · split
    · exact ⟨rfl, rfl, rfl, rfl⟩
    · exact s.chipUnspecified_only f
  · exact s.chipUnspecified_only f

theorem State.chipStart_flashWf {p : Pending} {s : State} (h : s.flashWf)
    (hp : ({ s with flash := { s.flash with pending := p } } : State).pendingInside) : (s.chipStart p).flashWf := by
  refine ⟨State.chipStart_arrayWf h.1, ?_⟩
  unfold State.chipStart
  split
  · exact hp
  · exact h.2

theorem State.chipExecute_flashWf {f : Frame} {s : State} (h : s.flashWf) : (s.chipExecute f).2.flashWf := by
  unfold State.chipExecute
  split
  · exact h
  · exact h
  · exact State.chipStart_flashWf h trivial
  · split
    · split
      next ha => exact State.chipStart_flashWf h ha
      · exact s.chipUnspecified_flashWf f
    · exact s.chipUnspecified_flashWf f
  · split
    · split
      next ha => exact State.chipStart_flashWf h ha
      · exact s.chipUnspecified_flashWf f
    · exact s.chipUnspecified_flashWf f
  · split
    · exact h
    · exact s.chipUnspecified_flashWf f
  · exact s.chipUnspecified_flashWf f

theorem State.chipExecute_length {f : Frame} (s : State) (h : f.dir = .read) :
    (s.chipExecute f).1.length = f.len := by
  unfold State.chipExecute
  split
  · simp [State.chipStatus]
  all_goals first
    | exact s.chipUnspecified_length h
    | simp_all

/-- A frame changes FLASH and its draws only. -/
theorem State.chipReceive_only (f : Frame) (s : State) : ChipOnly s (s.chipReceive f).2 := by
  unfold State.chipReceive
  dsimp only
  split
  · exact s.chipSettle_only.trans (State.chipUnspecified_only f _)
  · split
    · exact s.chipSettle_only.trans (State.chipUnspecified_only f _)
    · exact s.chipSettle_only.trans (State.chipExecute_only f _)

/-- A frame keeps the array in its form. -/
theorem State.chipReceive_flashWf {f : Frame} {s : State} (hc : s.cfg.wf = true) (h : s.flashWf) :
    (s.chipReceive f).2.flashWf := by
  unfold State.chipReceive
  dsimp only
  split
  · exact State.chipUnspecified_flashWf f _
  · split
    · exact State.chipUnspecified_flashWf f _
    · exact State.chipExecute_flashWf (State.chipSettle_flashWf hc h)

/-- A read frame is answered with as many bytes as it asks for (R98). -/
theorem State.chipReceive_length {f : Frame} (s : State) (h : f.dir = .read) :
    (s.chipReceive f).1.length = f.len := by
  unfold State.chipReceive
  dsimp only
  split
  · exact State.chipUnspecified_length _ h
  · split
    · exact State.chipUnspecified_length _ h
    · exact State.chipExecute_length _ h

/-- A ready chip that understands a frame acts on it (R99 to R104). -/
theorem State.chipReceive_ready {f : Frame} {s : State} (hw : s.flash.wip = false)
    (hu : s.flash.framing.understands f.iw f.aw f.dw = true) : s.chipReceive f = s.chipExecute f := by
  simp [State.chipReceive, State.chipSettle_ready hw, hu, hw]

end Sys2Proof.Machine
end

