-- ==== Sys2Proof/Laws/Apply.lean ====
section
/-! SUPPORT. The laws of the Transaction Builder and of CTRL: the registers and the events after the writes of
`apply` (R170 to R177), and what the wait of steps 6 and 7 can change (R178 to R181). -/

namespace Sys2Proof.Machine

open Sys2Proof

@[simp] theorem lines_enc (l : Lines) : lines (enc l) = some l := by cases l <;> decide

@[simp] theorem lines_zero : lines 0#2 = none := by decide

@[simp] theorem enc_widthFor_instr (om : OperatingMode) : enc (widthFor om).instr = modeCode om := by
  cases om <;> rfl

@[simp] theorem enc_widthFor_addr (om : OperatingMode) : enc (widthFor om).addr = modeCode om := by
  cases om <;> rfl

@[simp] theorem enc_widthFor_data (om : OperatingMode) : enc (widthFor om).data = modeCode om := by
  cases om <;> rfl

/-! ### The register writes -/

/-- A list of sets stores each in turn and is seen in order. -/
theorem State.setAll_eq (s : State) (ws : List CrWrite) :
    s.setAll ws = { s with cr := ws.foldl CR.write s.cr, log := (ws.map Event.set).reverse ++ s.log } := by
  induction ws generalizing s with
  | nil => rfl
  | cons w ws ih => rw [State.setAll, ih]; simp

/-- What steps 1 to 5 leave, field by field (R170 to R177). -/
theorem State.configure_eq {t : Transaction} {fm : FunctionalMode} {om : OperatingMode} {k : BitVec 2}
    (hk : fmodeCode fm = some k) (s : State) :
    s.configure t fm om =
      { s with
        tr   := t
        fm   := fm
        cr   := s.cr.configured s.cfg t fm om k
        ctrl := if fm = .memoryMapped then s.ctrl else s.ctrl.leaveMapped
        log  := configuredLog s.cfg t fm om k ++ s.log } := by
  cases ha : t.address <;>
    simp [State.configure, State.setAll_eq, State.commitMode, hk, State.writeAddress, ha, configuredLog, applyConfig,
      CR.write, CR.configured]

theorem lines_modeCode (om : OperatingMode) : lines (modeCode om) = some (widthFor om).instr := by
  cases om <;> decide

theorem widthFor_addr (om : OperatingMode) : (widthFor om).addr = (widthFor om).instr := by cases om <;> rfl

theorem widthFor_data (om : OperatingMode) : (widthFor om).data = (widthFor om).instr := by cases om <;> rfl

/-- Nothing of a 24-bit address is lost in `CR.AR` (R130 c). -/
@[simp] theorem address_toNat (a : Addr24) : (a.setWidth 32).toNat = a.toNat := by
  rw [BitVec.toNat_setWidth]; omega

theorem decodeFrame_configured_write (cr : CR) (c : Config) (t : Transaction) (om : OperatingMode) :
    decodeFrame (cr.configured c t .indirectWrite om 0).cfg (cr.configured c t .indirectWrite om 0).dl
        (cr.configured c t .indirectWrite om 0).ar
      = some (launchedFrame c t om .write) := by
  cases ha : t.address <;> by_cases hd : 0 < t.dataLength.toNat <;>
    simp_all [decodeFrame, CR.cfg, CR.configured, launchedFrame, lines_modeCode, widthFor_addr, widthFor_data,
      -BitVec.toNat_setWidth]

theorem decodeFrame_configured_read (cr : CR) (c : Config) (t : Transaction) (om : OperatingMode) :
    decodeFrame (cr.configured c t .indirectRead om 1).cfg (cr.configured c t .indirectRead om 1).dl
        (cr.configured c t .indirectRead om 1).ar
      = some (launchedFrame c t om .read) := by
  cases ha : t.address <;> by_cases hd : 0 < t.dataLength.toNat <;>
    simp_all [decodeFrame, CR.cfg, CR.configured, launchedFrame, lines_modeCode, widthFor_addr, widthFor_data,
      -BitVec.toNat_setWidth]

/-! ### The wait -/

/-- The events of steps 6 and 7: bytes, frames and gets of `CR.BUSY`. -/
def Event.isTransfer : Event → Bool
  | .push _    => true
  | .pop _     => true
  | .frame _   => true
  | .getBusy _ => true
  | _          => false

/-- `t` differs from `s` in what steps 6 and 7 of `apply` may change, and in nothing else. -/
structure WaitOnly (s t : State) : Prop where
  same   : t = { s with
                 seq   := { s.seq with phase := t.seq.phase, status := t.seq.status }
                 cr    := { s.cr with busy := t.cr.busy }
                 ctrl  := { s.ctrl with fifo := t.ctrl.fifo, inflight := t.ctrl.inflight }
                 flash := t.flash
                 env   := t.env
                 caller := t.caller
                 log   := t.log }
  caller : s.tr.data ≠ .caller → t.caller = s.caller
  slice  : t.env.slice = s.env.slice
  enable : t.env.enable = s.env.enable
  log    : ∃ l, t.log = l ++ s.log ∧ ∀ e ∈ l, e.isTransfer = true

namespace WaitOnly

theorem refl (s : State) : WaitOnly s s := ⟨rfl, fun _ => rfl, rfl, rfl, [], rfl, by simp⟩

theorem trans {s t u : State} (h1 : WaitOnly s t) (h2 : WaitOnly t u) : WaitOnly s u := by
  refine ⟨?_, fun h => ?_, h2.slice.trans h1.slice, h2.enable.trans h1.enable, ?_⟩
  · rw [h2.same]; rw [h1.same]
  · exact (h2.caller (by rw [h1.same]; exact h)).trans (h1.caller h)
  · obtain ⟨l1, e1, p1⟩ := h1.log
    obtain ⟨l2, e2, p2⟩ := h2.log
    refine ⟨l2 ++ l1, by rw [e2, e1, List.append_assoc], ?_⟩
    intro e he
    rcases List.mem_append.mp he with h | h
    · exact p2 e h
    · exact p1 e h

variable {s t : State}

theorem cfg (h : WaitOnly s t) : t.cfg = s.cfg := by rw [h.same]
theorem fm (h : WaitOnly s t) : t.fm = s.fm := by rw [h.same]
theorem tr (h : WaitOnly s t) : t.tr = s.tr := by rw [h.same]
theorem host (h : WaitOnly s t) : t.host = s.host := by rw [h.same]
theorem widths (h : WaitOnly s t) : t.widths = s.widths := by rw [h.same]
theorem crCfg (h : WaitOnly s t) : t.cr.cfg = s.cr.cfg := by rw [h.same]; rfl
theorem crEn (h : WaitOnly s t) : t.cr.en = s.cr.en := by rw [h.same]
theorem crDl (h : WaitOnly s t) : t.cr.dl = s.cr.dl := by rw [h.same]
theorem crAr (h : WaitOnly s t) : t.cr.ar = s.cr.ar := by rw [h.same]
theorem crFmode (h : WaitOnly s t) : t.cr.fmode = s.cr.fmode := by rw [h.same]
theorem seqState (h : WaitOnly s t) : t.seq.state = s.seq.state := by rw [h.same]
theorem seqStep (h : WaitOnly s t) : t.seq.step = s.seq.step := by rw [h.same]
theorem seqWaiting (h : WaitOnly s t) : t.seq.waiting = s.seq.waiting := by rw [h.same]
theorem seqR (h : WaitOnly s t) : t.seq.r = s.seq.r := by rw [h.same]
theorem seqAttempts (h : WaitOnly s t) : t.seq.attempts = s.seq.attempts := by rw [h.same]

end WaitOnly

/-- Where the delivery of the frame in flight leads: FLASH acts, the FIFO and the frame change, the observer
sees the frame (R98, R105). -/
theorem State.deliver_only (s : State) : WaitOnly s s.deliver := by
  unfold State.deliver
  split
  · exact WaitOnly.refl s
  next fl heq =>
    split
    · have h := State.chipReceive_only { fl.frame with data := s.ctrl.fifo.take fl.frame.len } s
      refine ⟨?_, fun _ => by dsimp only; rw [h.same], h.slice, h.enable, [_], by dsimp only; rw [h.log]; rfl,
        by simp [Event.isTransfer]⟩
      dsimp only
      rw [h.same]
    · have h := State.chipReceive_only fl.frame s
      refine ⟨?_, fun _ => by dsimp only; rw [h.same], h.slice, h.enable, [_], by dsimp only; rw [h.log]; rfl,
        by simp [Event.isTransfer]⟩
      dsimp only
      rw [h.same]

theorem State.drawLift_only (s : State) : WaitOnly s s.drawLift.2 := ⟨rfl, fun _ => rfl, rfl, rfl, [], rfl, by simp⟩

theorem State.clearBusy_only (s : State) : WaitOnly s s.clearBusy := ⟨rfl, fun _ => rfl, rfl, rfl, [], rfl, by simp⟩

theorem State.controllerStep_only (s : State) : WaitOnly s s.controllerStep := by
  unfold State.controllerStep
  split
  · exact s.deliver_only
  · exact s.clearBusy_only

theorem State.getBusy_only (s : State) : WaitOnly s s.getBusy.2 := by
  unfold State.getBusy
  split
  · exact ⟨rfl, fun _ => rfl, rfl, rfl, [_], rfl, by simp [Event.isTransfer]⟩
  · exact ⟨rfl, fun _ => rfl, rfl, rfl, [_], rfl, by simp [Event.isTransfer]⟩

theorem State.setPhase_only (p : ApplyPhase) (s : State) : WaitOnly s (s.setPhase p) :=
  ⟨rfl, fun _ => rfl, rfl, rfl, [], rfl, by simp⟩

theorem State.fifoPush_only (i : Nat) (b : Byte) (s : State) : WaitOnly s (s.fifoPush i b) :=
  ⟨rfl, fun _ => rfl, rfl, rfl, [_], rfl, by simp [Event.isTransfer]⟩

theorem State.fifoPop_only (i : Nat) (b : Byte) (rest : List Byte) (s : State) : WaitOnly s (s.fifoPop i b rest) :=
  ⟨rfl, fun h => if_neg h, rfl, rfl, [_], rfl, by simp [Event.isTransfer]⟩

/-- One step of the wait changes what steps 6 and 7 may change. -/
theorem State.waitOnce_only (s : State) : WaitOnly s s.waitOnce.2 := by
  unfold State.waitOnce
  split
  · exact WaitOnly.refl s
  · split
    · exact WaitOnly.refl s
    · dsimp only
      split
      · exact s.drawLift_only.trans (State.fifoPush_only _ _ _)
      · exact s.drawLift_only
  · split
    · exact s.fifoPop_only _ _ _
    · dsimp only
      split
      · exact s.drawLift_only.trans (State.deliver_only _)
      · exact s.drawLift_only
  · dsimp only
    have h : WaitOnly s (if s.drawLift.1 then s.drawLift.2.controllerStep else s.drawLift.2) := by
      split
      · exact s.drawLift_only.trans (State.controllerStep_only _)
      · exact s.drawLift_only
    generalize (if s.drawLift.1 then s.drawLift.2.controllerStep else s.drawLift.2) = u at h ⊢
    split
    · exact h.trans (State.getBusy_only _)
    · exact (h.trans (State.getBusy_only _)).trans (State.setPhase_only _ _)

theorem State.waitMany_only (k : Nat) (s : State) : WaitOnly s (s.waitMany k) := by
  induction k generalizing s with
  | zero => exact WaitOnly.refl s
  | succ k ih =>
    unfold State.waitMany
    split
    · exact WaitOnly.refl s
    · dsimp only
      split
      · exact s.waitOnce_only.trans (ih _)
      · exact s.waitOnce_only

/-- Steps 6 and 7 change the phase, the status latch, the caller's own buffer where `TR.data` refers to it, the busy bit,
the FIFO, the transaction in flight, FLASH, the draws and the log, and nothing else (R178 to R181). -/
theorem State.finishApply_only (s : State) : WaitOnly s s.finishApply := s.waitMany_only _

theorem State.waitMany_idle {k : Nat} {s : State} (h : s.seq.phase = .idle) : s.waitMany k = s := by
  cases k with
  | zero => rfl
  | succ k => simp [State.waitMany, h]

theorem State.finishApply_idle {s : State} (h : s.seq.phase = .idle) : s.finishApply = s := State.waitMany_idle h

end Sys2Proof.Machine
end

