-- ==== Sys2Proof/Laws/Coherent.lean ====
section
/-! SUPPORT. The invariant `coherent` through the Transaction Builder and CTRL: every step of the wait keeps it,
and so does a whole `apply`. -/

namespace Sys2Proof.Machine

open Sys2Proof

theorem State.flashWf_of_eq {s t : State} (hc : t.cfg = s.cfg) (hf : t.flash = s.flash) (h : s.flashWf) :
    t.flashWf := by
  unfold State.flashWf State.arrayWf State.pendingInside at *
  rw [hc, hf]; exact h

theorem State.transferAgrees_of_eq {s t : State} (hp : t.seq.phase = s.seq.phase) (hc : t.ctrl = s.ctrl)
    (ht : t.tr = s.tr) (hb : t.cr.busy = s.cr.busy) (h : s.transferAgrees) : t.transferAgrees := by
  unfold State.transferAgrees at *
  rw [hp, hc, ht, hb]; exact h

/-- What `transferAgrees` says of a wait on `CR.BUSY`. -/
theorem State.transferAgrees_await {s : State} (h : s.transferAgrees) (hp : s.seq.phase = .await) :
    ∃ fl, s.ctrl.inflight = some fl ∧ s.cr.busy = true ∧
      (if fl.delivered then s.ctrl.fifo = []
       else s.ctrl.fifo.length = fl.frame.len ∧ (fl.frame.dir = .read → fl.frame.len = 0)) := by
  unfold State.transferAgrees at h
  rw [hp] at h
  cases hi : s.ctrl.inflight with
  | none => simp [hi] at h
  | some fl => exact ⟨fl, rfl, by simpa [hi] using h⟩

/-- What `transferAgrees` says while bytes are streamed out. -/
theorem State.transferAgrees_push {s : State} {i : Nat} (h : s.transferAgrees) (hp : s.seq.phase = .push i) :
    ∃ fl, s.ctrl.inflight = some fl ∧ fl.frame.dir = .write ∧ fl.delivered = false
      ∧ fl.frame.len = s.tr.dataLength.toNat ∧ s.ctrl.fifo.length = i ∧ i < fl.frame.len ∧ s.cr.busy = true := by
  unfold State.transferAgrees at h
  rw [hp] at h
  cases hi : s.ctrl.inflight with
  | none => simp [hi] at h
  | some fl => exact ⟨fl, rfl, by simpa [hi] using h⟩

/-- What `transferAgrees` says while bytes are streamed in. -/
theorem State.transferAgrees_pop {s : State} {i : Nat} (h : s.transferAgrees) (hp : s.seq.phase = .pop i) :
    ∃ fl, s.ctrl.inflight = some fl ∧ fl.frame.dir = .read ∧ fl.frame.len = s.tr.dataLength.toNat
      ∧ i < fl.frame.len ∧ s.ctrl.fifo.length + i = (if fl.delivered then fl.frame.len else 0)
      ∧ s.cr.busy = true := by
  unfold State.transferAgrees at h
  rw [hp] at h
  cases hi : s.ctrl.inflight with
  | none => simp [hi] at h
  | some fl => exact ⟨fl, rfl, by simpa [hi] using h⟩

theorem State.transferAgrees_of_idle {s : State} (hp : s.seq.phase = .idle) (hi : s.ctrl.inflight = none)
    (hf : s.ctrl.fifo = []) (hb : s.cr.busy = false) : s.transferAgrees := by
  unfold State.transferAgrees; rw [hp, hi]; exact ⟨hf, hb⟩

theorem State.transferAgrees_of_await {s : State} {fl : Inflight} (hp : s.seq.phase = .await)
    (hi : s.ctrl.inflight = some fl) (hb : s.cr.busy = true)
    (h : if fl.delivered then s.ctrl.fifo = []
         else s.ctrl.fifo.length = fl.frame.len ∧ (fl.frame.dir = .read → fl.frame.len = 0)) :
    s.transferAgrees := by
  unfold State.transferAgrees; rw [hp, hi]; exact ⟨hb, h⟩

theorem State.transferAgrees_of_push {s : State} {i : Nat} {fl : Inflight} (hp : s.seq.phase = .push i)
    (hi : s.ctrl.inflight = some fl)
    (h : fl.frame.dir = .write ∧ fl.delivered = false ∧ fl.frame.len = s.tr.dataLength.toNat
      ∧ s.ctrl.fifo.length = i ∧ i < fl.frame.len ∧ s.cr.busy = true) : s.transferAgrees := by
  unfold State.transferAgrees; rw [hp, hi]; exact h

theorem State.transferAgrees_of_pop {s : State} {i : Nat} {fl : Inflight} (hp : s.seq.phase = .pop i)
    (hi : s.ctrl.inflight = some fl)
    (h : fl.frame.dir = .read ∧ fl.frame.len = s.tr.dataLength.toNat ∧ i < fl.frame.len
      ∧ s.ctrl.fifo.length + i = (if fl.delivered then fl.frame.len else 0) ∧ s.cr.busy = true) :
    s.transferAgrees := by
  unfold State.transferAgrees; rw [hp, hi]; exact h

theorem State.transferAgrees_idle {s : State} (h : s.transferAgrees) (hp : s.seq.phase = .idle) :
    s.ctrl.inflight = none ∧ s.ctrl.fifo = [] ∧ s.cr.busy = false := by
  unfold State.transferAgrees at h
  rw [hp] at h
  cases hi : s.ctrl.inflight with
  | none => exact ⟨rfl, by simpa [hi] using h⟩
  | some fl => simp [hi] at h

theorem State.deliver_cr (s : State) : s.deliver.cr = s.cr := by
  unfold State.deliver
  split
  · rfl
  next fl heq =>
    split
    · exact (State.chipReceive_only _ s).cr
    · exact (State.chipReceive_only _ s).cr

theorem State.deliver_phase (s : State) : s.deliver.seq.phase = s.seq.phase := by
  unfold State.deliver
  split
  · rfl
  next fl heq =>
    split
    · dsimp only; rw [(State.chipReceive_only _ s).seq]
    · dsimp only; rw [(State.chipReceive_only _ s).seq]

/-- A delivery leaves the frame delivered, and the FIFO as R98, R105 and R106 say. -/
theorem State.deliver_ctrl {s : State} {fl : Inflight} (h : s.ctrl.inflight = some fl) :
    ∃ f, f.dir = fl.frame.dir ∧ f.len = fl.frame.len
      ∧ s.deliver.ctrl.inflight = some { frame := f, delivered := true }
      ∧ (fl.frame.dir = .write → s.deliver.ctrl.fifo = s.ctrl.fifo.drop fl.frame.len)
      ∧ (fl.frame.dir = .read → ∃ d : List Byte, d.length = fl.frame.len ∧ s.deliver.ctrl.fifo = s.ctrl.fifo ++ d) := by
  cases hd : fl.frame.dir with
  | write =>
    refine ⟨{ fl.frame with data := s.ctrl.fifo.take fl.frame.len }, hd, rfl, ?_, fun _ => ?_, by simp⟩
    · simp [State.deliver, h, hd]
    · simp [State.deliver, h, hd]
  | read =>
    refine ⟨{ fl.frame with data := (s.chipReceive fl.frame).1 }, hd, rfl, ?_, by simp, fun _ =>
      ⟨(s.chipReceive fl.frame).1, State.chipReceive_length s hd, ?_⟩⟩
    · simp [State.deliver, h, hd]
    · simp [State.deliver, h, hd]

theorem State.deliver_flashWf {s : State} (hc : s.cfg.wf = true) (h : s.flashWf) : s.deliver.flashWf := by
  unfold State.deliver
  split
  · exact h
  · split
    · exact State.flashWf_of_eq (s := (s.chipReceive _).2) rfl rfl (State.chipReceive_flashWf hc h)
    · exact State.flashWf_of_eq (s := (s.chipReceive _).2) rfl rfl (State.chipReceive_flashWf hc h)

theorem State.controllerStep_flashWf {s : State} (hc : s.cfg.wf = true) (h : s.flashWf) :
    s.controllerStep.flashWf := by
  unfold State.controllerStep
  split
  · exact State.deliver_flashWf hc h
  · exact h

theorem State.getBusy_flash (s : State) : s.getBusy.2.flash = s.flash := by
  unfold State.getBusy; split <;> rfl

theorem State.getBusy_ctrl (s : State) : s.getBusy.2.ctrl = s.ctrl := by
  unfold State.getBusy; split <;> rfl

theorem State.getBusy_cr (s : State) : s.getBusy.2.cr = s.cr := by
  unfold State.getBusy; split <;> rfl

theorem State.getBusy_seq (s : State) : s.getBusy.2.seq = s.seq := by
  unfold State.getBusy; split <;> rfl

/-- One step of the wait keeps the array in its form. -/
theorem State.waitOnce_flashWf {s : State} (hc : s.cfg.wf = true) (h : s.flashWf) : s.waitOnce.2.flashWf := by
  unfold State.waitOnce
  split
  · exact h
  · split
    · exact h
    · dsimp only; split <;> exact h
  · split
    · exact h
    · dsimp only
      split
      · exact State.deliver_flashWf (s := s.drawLift.2) hc h
      · exact h
  · dsimp only
    have h1 : (if s.drawLift.1 then s.drawLift.2.controllerStep else s.drawLift.2).flashWf := by
      split
      · exact State.controllerStep_flashWf (s := s.drawLift.2) hc h
      · exact h
    have hcfg := (State.getBusy_only (if s.drawLift.1 then s.drawLift.2.controllerStep else s.drawLift.2)).cfg
    have hfl := State.getBusy_flash (if s.drawLift.1 then s.drawLift.2.controllerStep else s.drawLift.2)
    generalize (if s.drawLift.1 then s.drawLift.2.controllerStep else s.drawLift.2) = u at h1 hcfg hfl ⊢
    split
    · exact State.flashWf_of_eq hcfg hfl h1
    · exact State.flashWf_of_eq (s := u) hcfg hfl h1

/-- A byte pushed keeps CTRL and the place in `apply` in agreement. -/
theorem State.fifoPush_transferAgrees {s : State} {i : Nat} (b : Byte) (h : s.transferAgrees)
    (hp : s.seq.phase = .push i) : (s.fifoPush i b).transferAgrees := by
  obtain ⟨fl, hi, hdir, hdel, hlen, hfifo, hlt, hbusy⟩ := State.transferAgrees_push h hp
  by_cases hn : i + 1 < s.tr.dataLength.toNat
  · exact State.transferAgrees_of_push (i := i + 1) (fl := fl) (by simp [State.pushPhase, hn]) hi
      ⟨hdir, hdel, hlen, by simp [hfifo], by omega, hbusy⟩
  · refine State.transferAgrees_of_await (fl := fl) (by simp [State.pushPhase, hn]) hi hbusy ?_
    rw [if_neg (by simp [hdel])]
    exact ⟨by simp only [State.fifoPush_ctrl, List.length_append, List.length_singleton]; omega, by simp [hdir]⟩

/-- A byte popped keeps CTRL and the place in `apply` in agreement. -/
theorem State.fifoPop_transferAgrees {s : State} {i : Nat} {b : Byte} {rest : List Byte} (h : s.transferAgrees)
    (hp : s.seq.phase = .pop i) (hf : s.ctrl.fifo = b :: rest) : (s.fifoPop i b rest).transferAgrees := by
  obtain ⟨fl, hi, hdir, hlen, hlt, hcount, hbusy⟩ := State.transferAgrees_pop h hp
  rw [hf, List.length_cons] at hcount
  have hdel : fl.delivered = true := by
    by_contra hne
    rw [if_neg hne] at hcount
    omega
  rw [if_pos hdel] at hcount
  by_cases hn : i + 1 < s.tr.dataLength.toNat
  · exact State.transferAgrees_of_pop (i := i + 1) (fl := fl) (by simp [State.popPhase, hn]) hi
      ⟨hdir, hlen, by omega, by rw [if_pos hdel]; simp; omega, hbusy⟩
  · refine State.transferAgrees_of_await (fl := fl) (by simp [State.popPhase, hn]) hi hbusy ?_
    rw [if_pos hdel]
    exact List.length_eq_zero_iff.mp (by simp only [State.fifoPop_ctrl]; omega)

/-- A step of CTRL on a complete transfer keeps agreement, once the get of `CR.BUSY` is made (R105, R181). -/
theorem State.controllerStep_transferAgrees {s : State} (h : s.transferAgrees) (hp : s.seq.phase = .await) :
    (s.controllerStep.cr.busy = true → s.controllerStep.transferAgrees)
      ∧ (s.controllerStep.cr.busy = false → (s.controllerStep.setPhase .idle).transferAgrees) := by
  obtain ⟨fl, hi, hbusy, hfifo⟩ := State.transferAgrees_await h hp
  cases hdel : fl.delivered with
  | true =>
    have hstep : s.controllerStep = s.clearBusy := by
      simp [State.controllerStep, State.undelivered, Ctrl.cutShort, hi, hdel]
    rw [hdel, if_pos rfl] at hfifo
    rw [hstep]
    exact ⟨by simp, fun _ => State.transferAgrees_of_idle rfl rfl hfifo rfl⟩
  | false =>
    have hstep : s.controllerStep = s.deliver := by
      simp [State.controllerStep, State.undelivered, Ctrl.cutShort, hi, hdel]
    rw [hdel, if_neg (by simp)] at hfifo
    rw [hstep]
    obtain ⟨f, -, -, hin, hw, hr⟩ := State.deliver_ctrl hi
    refine ⟨fun _ => State.transferAgrees_of_await (by rw [State.deliver_phase, hp]) hin
      (by rw [State.deliver_cr, hbusy]) ?_, fun hb => by rw [State.deliver_cr, hbusy] at hb; simp at hb⟩
    rw [if_pos rfl]
    cases hd : fl.frame.dir with
    | write => rw [hw hd]; exact List.drop_eq_nil_of_le (by omega)
    | read =>
      obtain ⟨d, hlen, hd2⟩ := hr hd
      rw [hd2]
      have h0 := hfifo.2 hd
      have h1 : s.ctrl.fifo = [] := List.length_eq_zero_iff.mp (by omega)
      have h2 : d = [] := List.length_eq_zero_iff.mp (by omega)
      rw [h1, h2]; rfl

theorem State.getBusy_indirect {s : State} (h : s.cr.fmode ≠ 3) :
    s.getBusy = (s.cr.busy, s.emit (.getBusy s.cr.busy)) := by
  unfold State.getBusy; rw [if_neg h]

/-- One step of the wait keeps CTRL and the place in `apply` in agreement (R98, R105, R106, R181). -/
theorem State.waitOnce_transferAgrees {s : State} (hm : s.cr.fmode ≠ 3) (h : s.transferAgrees) :
    s.waitOnce.2.transferAgrees := by
  unfold State.waitOnce
  split
  · exact h
  next i hp =>
    split
    · exact h
    · dsimp only
      split
      · exact State.fifoPush_transferAgrees (s := s.drawLift.2) _ h hp
      · exact h
  next i hp =>
    split
    next b rest hf => exact State.fifoPop_transferAgrees h hp hf
    next hf =>
      dsimp only
      split
      next hl =>
        obtain ⟨fl, hi, hdir, hlen, hlt, hcount, hbusy⟩ := State.transferAgrees_pop h hp
        have hdel : fl.delivered = false := by
          simp only [Bool.and_eq_true] at hl
          simpa [State.undelivered, Ctrl.cutShort, hi] using hl.2
        rw [hf, hdel, if_neg (by simp)] at hcount
        obtain ⟨f, hfd, hfl, hin, -, hr⟩ := State.deliver_ctrl (s := s.drawLift.2) hi
        obtain ⟨d, hd1, hd2⟩ := hr hdir
        refine State.transferAgrees_of_pop (i := i) (by rw [State.deliver_phase]; exact hp) hin ⟨?_, ?_, ?_, ?_, ?_⟩
        · exact hfd.trans hdir
        · rw [(State.deliver_only _).tr]; exact hfl.trans hlen
        · exact hfl ▸ hlt
        · rw [if_pos rfl, hd2, List.length_append, hd1, State.drawLift_ctrl, hf]
          simp only [List.length_nil] at hcount ⊢
          rw [show ({ frame := f, delivered := true } : Inflight).frame.len = fl.frame.len from hfl]
          omega
        · rw [State.deliver_cr]; exact hbusy
      next => exact h
  next hp =>
    dsimp only
    have h1 : ((if s.drawLift.1 then s.drawLift.2.controllerStep else s.drawLift.2).cr.busy = true →
          (if s.drawLift.1 then s.drawLift.2.controllerStep else s.drawLift.2).transferAgrees)
        ∧ ((if s.drawLift.1 then s.drawLift.2.controllerStep else s.drawLift.2).cr.busy = false →
          ((if s.drawLift.1 then s.drawLift.2.controllerStep else s.drawLift.2).setPhase .idle).transferAgrees) := by
      split
      · exact State.controllerStep_transferAgrees (s := s.drawLift.2) h hp
      · obtain ⟨fl, hi, hbusy, hfifo⟩ := State.transferAgrees_await h hp
        exact ⟨fun _ => h, fun hb => by simp [hbusy] at hb⟩
    have h2 : (if s.drawLift.1 then s.drawLift.2.controllerStep else s.drawLift.2).cr.fmode ≠ 3 := by
      split
      · rw [(State.controllerStep_only _).crFmode]; exact hm
      · exact hm
    generalize (if s.drawLift.1 then s.drawLift.2.controllerStep else s.drawLift.2) = u at h1 h2 ⊢
    rw [State.getBusy_indirect h2]
    dsimp only
    split
    next hb => exact State.transferAgrees_of_eq (s := u) rfl rfl rfl rfl (h1.1 hb)
    next hb =>
      exact State.transferAgrees_of_eq (s := u.setPhase .idle) rfl rfl rfl rfl (h1.2 (by simpa using hb))

/-! ### `coherent` -/

theorem State.coherent_iff (s : State) :
    s.coherent ↔ s.modeAgrees ∧ s.waitMode ∧ s.transferAgrees ∧ s.flashWf := Iff.rfl

/-- In a coherent state a waiting `apply` has an indirect mode in the register. -/
theorem State.coherent_fmode {s : State} (h : s.coherent) (hp : s.seq.phase ≠ .idle) : s.cr.fmode ≠ 3 := by
  intro h3
  obtain ⟨hm, hw, -⟩ := h
  rcases hw hp with hf | hf <;> rcases hm with hm | hm <;> simp [hf, fmodeCode, h3] at hm

/-- One step of the wait keeps `coherent`. -/
theorem State.waitOnce_coherent {s : State} (hc : s.cfg.wf = true) (h : s.coherent) : s.waitOnce.2.coherent := by
  by_cases hp : s.seq.phase = .idle
  · have : s.waitOnce.2 = s := by simp [State.waitOnce, hp]
    rw [this]; exact h
  · have ho := s.waitOnce_only
    obtain ⟨hm, hw, ht, hf⟩ := (State.coherent_iff s).mp h
    refine (State.coherent_iff _).mpr ⟨?_, ?_, State.waitOnce_transferAgrees (State.coherent_fmode h hp) ht,
      State.waitOnce_flashWf hc hf⟩
    · unfold State.modeAgrees; rw [ho.fm, ho.crFmode]; exact hm
    · intro _; rw [ho.fm]; exact hw hp

theorem State.waitMany_coherent {k : Nat} {s : State} (hc : s.cfg.wf = true) (h : s.coherent) :
    (s.waitMany k).coherent := by
  induction k generalizing s with
  | zero => exact h
  | succ k ih =>
    unfold State.waitMany
    split
    · exact h
    · dsimp only
      split
      · exact ih (by rw [s.waitOnce_only.cfg]; exact hc) (State.waitOnce_coherent hc h)
      · exact State.waitOnce_coherent hc h

/-- Steps 6 and 7 keep `coherent`. -/
theorem State.finishApply_coherent {s : State} (hc : s.cfg.wf = true) (h : s.coherent) :
    s.finishApply.coherent := State.waitMany_coherent hc h

/-- The launch of an indirect write: its frame is under way, and the FIFO agrees with it (R98, R177, R178). -/
theorem State.launched_write {s : State} (t : Transaction) (om : OperatingMode) (hf : s.ctrl.fifo = []) :
    ((s.configure t .indirectWrite om).launch .indirectWrite).transferAgrees
      ∧ ((s.configure t .indirectWrite om).launch .indirectWrite).ctrl.inflight
          = some { frame := launchedFrame s.cfg t om .write, delivered := false } := by
  have hfr := decodeFrame_configured_write s.cr s.cfg t om
  rw [State.configure_eq rfl]
  refine ⟨?_, by simpa [State.launch, State.launchIndirect] using hfr⟩
  by_cases hd : 0 < t.dataLength.toNat
  · refine State.transferAgrees_of_push (i := 0) (fl := { frame := launchedFrame s.cfg t om .write, delivered := false }) ?_ ?_ ?_
    · simp [State.launch, State.pushPhase, hd]
    · simpa [State.launch, State.launchIndirect] using hfr
    · exact ⟨rfl, rfl, rfl, by simp [State.launch, State.launchIndirect, Ctrl.leaveMapped, hf], hd, rfl⟩
  · refine State.transferAgrees_of_await (fl := { frame := launchedFrame s.cfg t om .write, delivered := false }) ?_ ?_ rfl ?_
    · simp [State.launch, State.pushPhase, hd]
    · simpa [State.launch, State.launchIndirect] using hfr
    · rw [if_neg (by simp)]
      exact ⟨by simp [State.launch, State.launchIndirect, Ctrl.leaveMapped, hf, launchedFrame]; omega, by simp [launchedFrame]⟩

/-- The launch of an indirect read: its frame is under way, and the FIFO agrees with it (R98, R177, R179). -/
theorem State.launched_read {s : State} (t : Transaction) (om : OperatingMode) (hf : s.ctrl.fifo = []) :
    ((s.configure t .indirectRead om).launch .indirectRead).transferAgrees
      ∧ ((s.configure t .indirectRead om).launch .indirectRead).ctrl.inflight
          = some { frame := launchedFrame s.cfg t om .read, delivered := false } := by
  have hfr := decodeFrame_configured_read s.cr s.cfg t om
  rw [State.configure_eq rfl]
  refine ⟨?_, by simpa [State.launch, State.launchIndirect] using hfr⟩
  by_cases hd : 0 < t.dataLength.toNat
  · refine State.transferAgrees_of_pop (i := 0) (fl := { frame := launchedFrame s.cfg t om .read, delivered := false }) ?_ ?_ ?_
    · simp [State.launch, State.popPhase, hd]
    · simpa [State.launch, State.launchIndirect] using hfr
    · exact ⟨rfl, rfl, hd, by simp [State.launch, State.launchIndirect, Ctrl.leaveMapped, hf], rfl⟩
  · refine State.transferAgrees_of_await (fl := { frame := launchedFrame s.cfg t om .read, delivered := false }) ?_ ?_ rfl ?_
    · simp [State.launch, State.popPhase, hd]
    · simpa [State.launch, State.launchIndirect] using hfr
    · rw [if_neg (by simp)]
      exact ⟨by simp [State.launch, State.launchIndirect, Ctrl.leaveMapped, hf, launchedFrame]; omega,
        by simp [launchedFrame]; omega⟩

/-- A launch keeps `coherent` where no other `apply` is in progress (R32, R177). -/
theorem State.launched_coherent {s : State} {t : Transaction} {fm : FunctionalMode} {om : OperatingMode}
    (hfm : fm ≠ .uninitialized) (hp : s.seq.phase = .idle) (h : s.coherent) :
    ((s.configure t fm om).launch fm).coherent := by
  obtain ⟨hm, hw, ht, hf⟩ := (State.coherent_iff s).mp h
  obtain ⟨hi, hff, hb⟩ := State.transferAgrees_idle ht hp
  refine (State.coherent_iff _).mpr ?_
  cases fm with
  | uninitialized => exact absurd rfl hfm
  | memoryMapped =>
    rw [State.configure_eq rfl]
    exact ⟨Or.inr rfl, fun hne => absurd hp hne, State.transferAgrees_of_idle hp hi hff hb, hf⟩
  | indirectWrite =>
    have ht := (State.launched_write t om hff).1
    rw [State.configure_eq rfl] at ht ⊢
    exact ⟨Or.inr rfl, fun _ => Or.inl rfl, ht, hf⟩
  | indirectRead =>
    have ht := (State.launched_read t om hff).1
    rw [State.configure_eq rfl] at ht ⊢
    exact ⟨Or.inr rfl, fun _ => Or.inr rfl, ht, hf⟩

/-- `apply` keeps `coherent` where no other `apply` is in progress (R32, R177). -/
theorem State.apply_coherent {s : State} {t : Transaction} {fm : FunctionalMode} {om : OperatingMode}
    (hc : s.cfg.wf = true) (hfm : fm ≠ .uninitialized) (hp : s.seq.phase = .idle) (h : s.coherent) :
    (s.apply t fm om).coherent := by
  have hcfg : ((s.configure t fm om).launch fm).cfg = s.cfg := by
    cases fm <;> first | exact absurd rfl hfm | rw [State.configure_eq rfl]; rfl
  exact State.finishApply_coherent (by rw [hcfg]; exact hc) (State.launched_coherent hfm hp h)

end Sys2Proof.Machine
end

