-- ==== Sys2Proof/Laws/Sequencer.lean ====
section
/-! SUPPORT. What `apply`, `waitUntilReady` and the lines of an operation can change, said once each, and the
invariant `coherent` through all of them, up to one step of the machine. -/

namespace Sys2Proof.Machine

open Sys2Proof

/-! ### What `apply` can change -/

/-- `t` differs from `s` in what `apply` may change: the latch, the mode, the registers but `EN` and `DEVCFG`,
CTRL, FLASH, the draws, the log, the place inside `apply`, the status latch and the caller's own buffer (R170 "State
written"). -/
structure BuilderOnly (s t : State) : Prop where
  same   : t = { s with
                 tr := t.tr, fm := t.fm, cr := t.cr, ctrl := t.ctrl, flash := t.flash, env := t.env, caller := t.caller, log := t.log
                 seq := { s.seq with phase := t.seq.phase, status := t.seq.status } }
  slice  : t.env.slice = s.env.slice
  enable : t.env.enable = s.env.enable
  en     : t.cr.en = s.cr.en
  addrw  : t.cr.addrw = s.cr.addrw
  timing : t.cr.timing = s.cr.timing
  log    : ∃ l, t.log = l ++ s.log ∧ ∀ r, Event.response r ∉ l

namespace BuilderOnly

theorem refl (s : State) : BuilderOnly s s := ⟨rfl, rfl, rfl, rfl, rfl, rfl, [], rfl, by simp⟩

theorem trans {s t u : State} (h1 : BuilderOnly s t) (h2 : BuilderOnly t u) : BuilderOnly s u := by
  refine ⟨?_, h2.slice.trans h1.slice, h2.enable.trans h1.enable, h2.en.trans h1.en, h2.addrw.trans h1.addrw,
    h2.timing.trans h1.timing, ?_⟩
  · rw [h2.same]; rw [h1.same]
  · obtain ⟨l1, e1, p1⟩ := h1.log
    obtain ⟨l2, e2, p2⟩ := h2.log
    refine ⟨l2 ++ l1, by rw [e2, e1, List.append_assoc], fun r hr => ?_⟩
    rcases List.mem_append.mp hr with h | h
    · exact p2 r h
    · exact p1 r h

variable {s t : State}

theorem cfg (h : BuilderOnly s t) : t.cfg = s.cfg := by rw [h.same]
theorem host (h : BuilderOnly s t) : t.host = s.host := by rw [h.same]
theorem widths (h : BuilderOnly s t) : t.widths = s.widths := by rw [h.same]
theorem seqState (h : BuilderOnly s t) : t.seq.state = s.seq.state := by rw [h.same]
theorem seqStep (h : BuilderOnly s t) : t.seq.step = s.seq.step := by rw [h.same]
theorem seqOp (h : BuilderOnly s t) : t.seq.op = s.seq.op := by rw [h.same]
theorem seqAddr (h : BuilderOnly s t) : t.seq.addr = s.seq.addr := by rw [h.same]
theorem seqLen (h : BuilderOnly s t) : t.seq.len = s.seq.len := by rw [h.same]
theorem seqOff (h : BuilderOnly s t) : t.seq.off = s.seq.off := by rw [h.same]
theorem seqChunk (h : BuilderOnly s t) : t.seq.chunk = s.seq.chunk := by rw [h.same]
theorem seqAttempts (h : BuilderOnly s t) : t.seq.attempts = s.seq.attempts := by rw [h.same]
theorem seqResult (h : BuilderOnly s t) : t.seq.result = s.seq.result := by rw [h.same]
theorem seqR (h : BuilderOnly s t) : t.seq.r = s.seq.r := by rw [h.same]
theorem seqWaiting (h : BuilderOnly s t) : t.seq.waiting = s.seq.waiting := by rw [h.same]

end BuilderOnly

theorem WaitOnly.builder {s t : State} (h : WaitOnly s t) : BuilderOnly s t := by
  refine ⟨?_, h.slice, h.enable, h.crEn, by rw [h.same], by rw [h.same], ?_⟩
  · conv_lhs => rw [h.same]
    rw [h.fm, h.tr]
    congr 1 <;> (rw [h.same])
  · obtain ⟨l, e, p⟩ := h.log
    exact ⟨l, e, fun r hr => by simpa [Event.isTransfer] using p _ hr⟩

theorem configuredLog_noResponse {c : Config} {t : Transaction} {fm : FunctionalMode} {om : OperatingMode}
    {k : BitVec 2} (r : Result) : Event.response r ∉ configuredLog c t fm om k := by
  unfold configuredLog applyConfig
  cases t.address <;> simp

/-- What steps 1 to 5 and the launch can change. -/
theorem State.launched_only (t : Transaction) (fm : FunctionalMode) (om : OperatingMode) (s : State)
    (hfm : fm ≠ .uninitialized) : BuilderOnly s ((s.configure t fm om).launch fm) := by
  cases fm with
  | uninitialized => exact absurd rfl hfm
  | memoryMapped =>
    rw [State.configure_eq rfl]
    exact ⟨rfl, rfl, rfl, rfl, rfl, rfl, .launch :: configuredLog s.cfg t .memoryMapped om 3, rfl,
      fun r => by simp [configuredLog_noResponse]⟩
  | indirectWrite =>
    rw [State.configure_eq rfl]
    exact ⟨rfl, rfl, rfl, rfl, rfl, rfl, .launch :: configuredLog s.cfg t .indirectWrite om 0, rfl,
      fun r => by simp [configuredLog_noResponse]⟩
  | indirectRead =>
    rw [State.configure_eq rfl]
    exact ⟨rfl, rfl, rfl, rfl, rfl, rfl, .launch :: configuredLog s.cfg t .indirectRead om 1, rfl,
      fun r => by simp [configuredLog_noResponse]⟩

/-- What `apply` can change (R170). -/
theorem State.apply_only (t : Transaction) (fm : FunctionalMode) (om : OperatingMode) (s : State)
    (hfm : fm ≠ .uninitialized) : BuilderOnly s (s.apply t fm om) :=
  (s.launched_only t fm om hfm).trans (State.finishApply_only _).builder

/-- `apply` leaves `FM` at its argument, whether it returns or waits (R177, R241). -/
theorem State.apply_fm {t : Transaction} {fm : FunctionalMode} {om : OperatingMode} {s : State}
    (hfm : fm ≠ .uninitialized) : (s.apply t fm om).fm = fm := by
  unfold State.apply
  rw [(State.finishApply_only _).fm]
  cases fm with
  | uninitialized => exact absurd rfl hfm
  | memoryMapped => rw [State.configure_eq rfl]; rfl
  | indirectWrite => rw [State.configure_eq rfl]; rfl
  | indirectRead => rw [State.configure_eq rfl]; rfl

/-- The restoration step does not wait (R246), and what it leaves, exactly. -/
theorem State.enterMapped_eq {s : State} (hp : s.seq.phase = .idle) :
    s.enterMapped =
      { s with
        tr   := Transaction.readData s.cfg
        fm   := .memoryMapped
        cr   := s.cr.configured s.cfg (Transaction.readData s.cfg) .memoryMapped s.cfg.omDefault 3
        ctrl := { s.ctrl with
                  readCmd := some (s.cr.configured s.cfg (Transaction.readData s.cfg) .memoryMapped s.cfg.omDefault 3).cfg }
        log  := .launch :: configuredLog s.cfg (Transaction.readData s.cfg) .memoryMapped s.cfg.omDefault 3 ++ s.log } := by
  unfold State.enterMapped State.apply
  rw [State.finishApply_idle]
  · rw [State.configure_eq rfl]; rfl
  · rw [State.configure_eq rfl]; exact hp

/-! ### `coherent` through the Busy-Wait Protocol -/

theorem State.coherent_of_eq {s t : State} (hc : t.cfg = s.cfg) (hfm : t.fm = s.fm) (hk : t.cr.fmode = s.cr.fmode)
    (hp : t.seq.phase = s.seq.phase) (hctrl : t.ctrl = s.ctrl) (htr : t.tr = s.tr) (hb : t.cr.busy = s.cr.busy)
    (hf : t.flash = s.flash) (h : s.coherent) : t.coherent := by
  obtain ⟨h1, h2, h3, h4⟩ := (State.coherent_iff s).mp h
  refine (State.coherent_iff t).mpr ⟨?_, ?_, State.transferAgrees_of_eq hp hctrl htr hb h3,
    State.flashWf_of_eq hc hf h4⟩
  · unfold State.modeAgrees at *; rw [hfm, hk]; exact h1
  · unfold State.waitMode at *; rw [hp, hfm]; exact h2

theorem State.endWait_coherent {s : State} (r : Result) (h : s.coherent) : (s.endWait r).coherent :=
  State.coherent_of_eq rfl rfl rfl rfl rfl rfl rfl rfl h

/-- What a counted poll changes: the counter, and on success the result and the end of the wait (R221). -/
theorem State.countPoll_eq (s : State) :
    s.countPoll = if statusBusy s.cfg.busyBit s.seq.status
      then { s with seq := { s.seq with attempts := s.seq.attempts + 1 } }
      else { s with seq := { s.seq with attempts := s.seq.attempts + 1, r := .ok, waiting := none } } := rfl

theorem State.countPoll_coherent {s : State} (h : s.coherent) : s.countPoll.coherent := by
  rw [State.countPoll_eq]
  split <;> exact State.coherent_of_eq rfl rfl rfl rfl rfl rfl rfl rfl h

@[simp] theorem State.countPoll_cfg (s : State) : s.countPoll.cfg = s.cfg := by
  rw [State.countPoll_eq]; split <;> rfl

@[simp] theorem State.countPoll_phase (s : State) : s.countPoll.seq.phase = s.seq.phase := by
  rw [State.countPoll_eq]; split <;> rfl

theorem State.readStatus_only (s : State) : BuilderOnly s s.readStatus := State.apply_only _ _ _ _ (by simp)

/-- A loop that is done stays as it is. -/
theorem State.waitLoop_done {k : Nat} {s : State} (h : s.seq.waiting = none) : s.waitLoop k = s := by
  cases k with
  | zero => rfl
  | succ k => simp [State.waitLoop, h]

theorem State.waitLoop_coherent {k : Nat} {s : State} (hc : s.cfg.wf = true) (hp : s.seq.phase = .idle)
    (h : s.coherent) : (s.waitLoop k).coherent := by
  induction k generalizing s with
  | zero => exact h
  | succ k ih =>
    unfold State.waitLoop
    split
    · exact h
    · split
      · have h1 : s.readStatus.coherent := State.apply_coherent hc (by simp) hp h
        dsimp only
        split
        next hp1 =>
          exact ih (by rw [State.countPoll_cfg, s.readStatus_only.cfg]; exact hc) (by rw [State.countPoll_phase]; exact hp1)
            (State.countPoll_coherent h1)
        next => exact h1
      · exact State.endWait_coherent _ h

theorem State.waitUntilReady_coherent {max : Word32} {s : State} (hc : s.cfg.wf = true) (hp : s.seq.phase = .idle)
    (h : s.coherent) : (s.waitUntilReady max).coherent :=
  State.waitLoop_coherent (s := { s with seq := { s.seq with attempts := 0, waiting := some max } }) hc hp
    (State.coherent_of_eq rfl rfl rfl rfl rfl rfl rfl rfl h)

theorem State.resumeCall_coherent {s : State} (hc : s.cfg.wf = true) (h : s.coherent) : s.resumeCall.coherent := by
  have h1 : s.finishApply.coherent := State.finishApply_coherent hc h
  have hc1 : s.finishApply.cfg.wf = true := by rw [s.finishApply_only.cfg]; exact hc
  unfold State.resumeCall
  dsimp only
  split
  · exact h1
  · split
    · exact h1
    next hp1 =>
      have hp1 : s.finishApply.seq.phase = .idle := by simpa using hp1
      split
      · exact State.waitLoop_coherent hc1 hp1 h1
      · exact State.waitLoop_coherent (by simpa using hc1) (by simpa using hp1) (State.countPoll_coherent h1)

/-! ### `cfg` through everything: no step writes the configuration (R60) -/

@[simp] theorem State.setAll_cfg (s : State) (ws : List CrWrite) : (s.setAll ws).cfg = s.cfg := by
  rw [State.setAll_eq]

theorem State.apply_cfg {t : Transaction} {fm : FunctionalMode} {om : OperatingMode} (s : State)
    (hfm : fm ≠ .uninitialized) : (s.apply t fm om).cfg = s.cfg := (s.apply_only t fm om hfm).cfg

@[simp] theorem State.enterMapped_cfg (s : State) : s.enterMapped.cfg = s.cfg := State.apply_cfg s (by simp)

@[simp] theorem State.readStatus_cfg (s : State) : s.readStatus.cfg = s.cfg := State.apply_cfg s (by simp)

@[simp] theorem State.finishApply_cfg (s : State) : s.finishApply.cfg = s.cfg := s.finishApply_only.cfg

@[simp] theorem State.waitLoop_cfg (k : Nat) (s : State) : (s.waitLoop k).cfg = s.cfg := by
  induction k generalizing s with
  | zero => rfl
  | succ k ih =>
    unfold State.waitLoop
    split
    · rfl
    · split
      · dsimp only
        split
        · rw [ih]; simp
        · simp
      · rfl

@[simp] theorem State.waitUntilReady_cfg (max : Word32) (s : State) : (s.waitUntilReady max).cfg = s.cfg :=
  State.waitLoop_cfg _ _

@[simp] theorem State.resumeCall_cfg (s : State) : s.resumeCall.cfg = s.cfg := by
  unfold State.resumeCall
  dsimp only
  split
  · simp
  · split
    · simp
    · split <;> simp

@[simp] theorem State.raise_cfg (e : Failure) (s : State) : (s.raise e).cfg = s.cfg := by cases e <;> rfl

@[simp] theorem State.startLine_cfg (s : State) : s.startLine.cfg = s.cfg := by
  unfold State.startLine
  split <;> first
    | rfl
    | exact State.apply_cfg s (by simp)
    | simp
    | (split <;> first | rfl | exact State.apply_cfg s (by simp))

@[simp] theorem State.finishLine_cfg (s : State) : s.finishLine.cfg = s.cfg := by
  unfold State.finishLine
  split <;> first
    | rfl
    | (split <;> first | rfl | simp | (split <;> rfl))

@[simp] theorem State.line_cfg (s : State) : s.line.cfg = s.cfg := by
  unfold State.line
  dsimp only
  split <;> simp

@[simp] theorem State.run_cfg (k : Nat) (s : State) : (State.run k s).cfg = s.cfg := by
  induction k generalizing s with
  | zero => rfl
  | succ k ih =>
    unfold State.run
    split
    · rw [ih]; simp
    · rfl

@[simp] theorem State.resume_cfg (s : State) : s.resume.cfg = s.cfg := by
  unfold State.resume
  split
  · dsimp only
    split
    · simp
    · split <;> simp
  · simp

/-! ### `coherent` through the Operation Sequencer -/

theorem State.held_false {s : State} (h : s.held = false) : s.seq.phase = .idle ∧ s.seq.waiting = none := by
  simpa [State.held] using h

theorem State.raise_coherent {e : Failure} {s : State} (h : s.coherent) : (s.raise e).coherent := by
  cases e <;> exact State.coherent_of_eq rfl rfl rfl rfl rfl rfl rfl rfl h

theorem State.finishLine_coherent {s : State} (h : s.coherent) : s.finishLine.coherent := by
  have hn : s.nextLabel.coherent := State.coherent_of_eq rfl rfl rfl rfl rfl rfl rfl rfl h
  unfold State.finishLine
  split <;> first
    | exact hn
    | exact State.coherent_of_eq rfl rfl rfl rfl rfl rfl rfl rfl h
    | (split <;> first
        | exact State.coherent_of_eq rfl rfl rfl rfl rfl rfl rfl rfl h
        | (split <;> exact State.coherent_of_eq rfl rfl rfl rfl rfl rfl rfl rfl h))

theorem State.startLine_coherent {s : State} (hc : s.cfg.wf = true) (hp : s.seq.phase = .idle) (h : s.coherent) :
    s.startLine.coherent := by
  unfold State.startLine
  split <;> first
    | exact h
    | exact State.apply_coherent hc (by simp) hp h
    | exact State.waitUntilReady_coherent hc hp h
    | exact State.coherent_of_eq rfl rfl rfl rfl rfl rfl rfl rfl h
    | (split <;> first | exact h | exact State.apply_coherent hc (by simp) hp h)

theorem State.line_coherent {s : State} (hc : s.cfg.wf = true) (hp : s.seq.phase = .idle) (h : s.coherent) :
    s.line.coherent := by
  unfold State.line
  dsimp only
  split
  · exact State.startLine_coherent hc hp h
  · exact State.finishLine_coherent (State.startLine_coherent hc hp h)

theorem State.run_coherent {k : Nat} {s : State} (hc : s.cfg.wf = true) (h : s.coherent) :
    (State.run k s).coherent := by
  induction k generalizing s with
  | zero => exact h
  | succ k ih =>
    unfold State.run
    split
    next hr =>
      simp only [Bool.and_eq_true, Bool.not_eq_true', decide_eq_true_eq] at hr
      exact ih (by simpa using hc) (State.line_coherent hc (State.held_false hr.2).1 h)
    next => exact h

theorem State.resume_coherent {s : State} (hc : s.cfg.wf = true) (h : s.coherent) : s.resume.coherent := by
  unfold State.resume
  split
  · dsimp only
    have h1 := State.resumeCall_coherent hc h
    split
    · exact h1
    · split
      · exact State.run_coherent (by simpa using hc) (State.finishLine_coherent h1)
      · exact h1
  · exact State.run_coherent hc h

/-! ### Where an instruction can lead -/

/-- What a step answers when it has come to a state that reads nothing through the window: that state (R357). -/
theorem State.outcome_clear {s : State} (h : s.readsWindow = false) : s.outcome = .next s := by
  simp [State.outcome, h]

/-- What a step answers when it has come to a read through the window: the fault of R84 (R357). -/
theorem State.outcome_window {s : State} (h : s.readsWindow = true) : s.outcome = .fault .mappedReadOutsideMode := by
  simp [State.outcome, h]

/-- An outcome that is a next state is the state itself, which reads nothing through the window. -/
theorem State.outcome_next {s t : State} (h : s.outcome = .next t) : s.readsWindow = false ∧ t = s := by
  cases hr : s.readsWindow with
  | true => rw [State.outcome_window hr] at h; cases h
  | false => rw [State.outcome_clear hr] at h; cases h; exact ⟨rfl, rfl⟩

/-- A block that does not stream bytes out reads nothing through the window. -/
theorem State.readsWindow_idle {s : State} (h : s.seq.phase = .idle) : s.readsWindow = false := by
  simp [State.readsWindow, h]

/-- A host request that answers a next state was accepted, and led to the run of its lines (R260, R261). -/
theorem State.request_next {op : Op} {addr len : Word32} {s t : State} (h : s.request op addr len = .next t) :
    s.cfg.wf = true ∧ s.busy = false ∧ op.modeAllowed s.fm = true ∧ op.inRange s.cfg addr len = true
      ∧ op.dataPresent s.host.buffer len = true ∧ t = State.run s.env.slice (s.accept op addr len)
      ∧ t.readsWindow = false := by
  unfold State.request at h
  split at h
  · cases h
  · split at h
    · cases h
    · split at h
      · cases h
      · split at h
        · cases h
        · split at h
          · cases h
          · obtain ⟨h1, rfl⟩ := State.outcome_next h
            simp_all

/-- A direct call that answers a next state met R8 and found the block free. -/
theorem State.direct_next {go : State → Host.Outcome State Fault Refusal} {s t : State} (h : s.direct go = .next t) :
    s.cfg.wf = true ∧ s.busy = false ∧ go s = .next t := by
  unfold State.direct at h
  split at h
  · cases h
  · split at h
    · cases h
    · simp_all

/-- No row of R129 has the mode `Uninitialized` (D8). -/
theorem Transaction.rowOfTable_uninitialized (t : Transaction) : t.rowOfTable .uninitialized = false := by
  obtain ⟨cmd, adr, dc, d, n⟩ := t
  cases cmd <;> cases adr <;> cases d <;> rfl

theorem Transaction.wf_fm {c : Config} {t : Transaction} {fm : FunctionalMode} {om : OperatingMode}
    (h : t.wf c fm om = true) :
    fm ≠ .uninitialized := by
  intro hf
  subst hf
  unfold Transaction.wf at h
  rw [Transaction.rowOfTable_uninitialized] at h
  simp at h

theorem State.mayApply_fm {t : Transaction} {fm : FunctionalMode} {om : OperatingMode} {s : State}
    (h : s.mayApply t fm om = true) :
    fm ≠ .uninitialized := by
  simp only [State.mayApply, Bool.and_eq_true] at h
  exact Transaction.wf_fm h.1.1

theorem State.apply_tr {t : Transaction} {fm : FunctionalMode} {om : OperatingMode} {s : State}
    (hfm : fm ≠ .uninitialized) : (s.apply t fm om).tr = t := by
  unfold State.apply
  rw [(State.finishApply_only _).tr]
  cases fm <;> first | exact absurd rfl hfm | (rw [State.configure_eq rfl]; rfl)

/-- What a direct call of `apply` answers is what any step that has come to its state would: with no lent buffer to send
nothing is read through the window. -/
theorem State.apply_callOutcome {t : Transaction} {fm : FunctionalMode} {om : OperatingMode} {s : State}
    (hfm : fm ≠ .uninitialized) : (s.apply t fm om).callOutcome t = (s.apply t fm om).outcome := by
  have clear : ∀ d, t.data = d → (∀ off, d ≠ .buffer off) → (s.apply t fm om).outcome = .next (s.apply t fm om) := by
    intro d hd hne
    apply State.outcome_clear
    unfold State.readsWindow
    rw [State.apply_tr hfm, hd]
    split
    · cases d with
      | absent => rfl
      | status => rfl
      | caller => rfl
      | buffer off => exact absurd rfl (hne off)
    · rfl
  unfold State.callOutcome
  cases hd : t.data with
  | absent => exact (clear _ hd (by simp)).symm
  | status => exact (clear _ hd (by simp)).symm
  | caller => exact (clear _ hd (by simp)).symm
  | buffer off => rfl

/-- A direct call of `apply` that answers a next state was inside the contract and is that `apply` (R182). -/
theorem State.directApply_next {tr : Transaction} {fm : FunctionalMode} {om : OperatingMode} {s t : State}
    (h : s.directApply tr fm om = .next t) :
    s.cfg.wf = true ∧ s.busy = false ∧ s.mayApply tr fm om = true ∧ t = s.apply tr fm om ∧ t.readsWindow = false := by
  unfold State.directApply at h
  obtain ⟨h1, h2, h3⟩ := State.direct_next h
  by_cases hm : s.mayApply tr fm om = true
  · rw [if_pos hm] at h3
    rw [State.apply_callOutcome (State.mayApply_fm hm)] at h3
    obtain ⟨h4, rfl⟩ := State.outcome_next h3
    exact ⟨h1, h2, hm, rfl, h4⟩
  · rw [if_neg hm] at h3
    exact absurd h3 (by simp)

/-- Inside the contract a call of a block that can take it runs (R182). -/
theorem State.directApply_runs {s : State} {t : Transaction} {fm : FunctionalMode} {om : OperatingMode}
    (hc : s.cfg.wf = true) (hb : s.busy = false) (hen : s.cr.en = true) (hwf : t.wf s.cfg fm om = true)
    (hcov : t.data.covers s.host.buffer t.dataLength.toNat = true) :
    s.directApply t fm om = (s.apply t fm om).outcome := by
  rw [← State.apply_callOutcome (Transaction.wf_fm hwf)]
  simp [State.directApply, State.direct, hc, hb, State.mayApply, hwf, hen, hcov]

theorem State.busy_false {s : State} (h : s.busy = false) :
    s.seq.state = .idle ∧ s.seq.phase = .idle ∧ s.seq.waiting = none := by
  simp only [State.busy, Bool.or_eq_false_iff, decide_eq_false_iff_not] at h
  refine ⟨?_, State.held_false h.2⟩
  cases hs : s.seq.state
  · rfl
  · exact absurd hs h.1

/-- Every instruction keeps `coherent`. -/
theorem exec_coherent {i : Instr} {s t : State} (h : s.coherent) (he : exec i s = .next t) : t.coherent := by
  have hreq : ∀ {op addr len}, s.request op addr len = .next t → t.coherent := by
    intro op addr len hr
    obtain ⟨hc, -, -, -, -, rfl, -⟩ := State.request_next hr
    exact State.run_coherent hc (State.coherent_of_eq rfl rfl rfl rfl rfl rfl rfl rfl h)
  have hdir : ∀ {tr fm om}, s.directApply tr fm om = .next t → t.coherent := by
    intro tr fm om hr
    obtain ⟨hc, hb, hm, rfl, -⟩ := State.directApply_next hr
    exact State.apply_coherent hc (State.mayApply_fm hm) (State.busy_false hb).2.1 h
  cases i with
  | init => exact hreq he
  | merase => exact hreq he
  | serase a => exact hreq he
  | write d n => exact hreq he
  | rdsr => exact hdir he
  | wren => exact hdir he
  | ce => exact hdir he
  | se a => exact hdir he
  | pp a n => exact hdir he
  | read => exact hdir he
  | eqpi => exact hdir he
  | widthFor om => cases he; exact State.coherent_of_eq rfl rfl rfl rfl rfl rfl rfl rfl h
  | apply tr fm om => exact hdir he
  | waitUntilReady max =>
    simp only [exec, execWaitUntilReady] at he
    obtain ⟨hc, hb, hg⟩ := State.direct_next he
    split at hg
    · cases Host.Outcome.next.inj hg
      exact State.waitUntilReady_coherent hc (State.busy_false hb).2.1 h
    · exact absurd hg (by simp)
  | enterMemoryMapped =>
    simp only [exec, execEnterMemoryMapped] at he
    obtain ⟨hc, hb, hg⟩ := State.direct_next he
    split at hg
    · cases Host.Outcome.next.inj hg
      exact State.apply_coherent hc (by simp) (State.busy_false hb).2.1 h
    · exact absurd hg (by simp)

theorem State.resetBlock_coherent {s : State} (h : s.coherent) : s.resetBlock.coherent := by
  obtain ⟨-, -, -, hf⟩ := (State.coherent_iff s).mp h
  refine (State.coherent_iff _).mpr ⟨Or.inl rfl, fun hne => absurd rfl hne,
    State.transferAgrees_of_idle rfl rfl rfl rfl, ?_⟩
  unfold State.resetBlock
  dsimp only
  split
  · exact s.chipUnknown_flashWf
  · exact hf

theorem State.powerCycleChip_coherent {s : State} (h : s.coherent) : s.powerCycleChip.coherent := by
  obtain ⟨h1, h2, h3, hf⟩ := (State.coherent_iff s).mp h
  unfold State.powerCycleChip
  dsimp only
  split
  · exact (State.coherent_iff _).mpr ⟨h1, h2, h3, ⟨⟨Memory.wf_ofCells, Memory.inside_ofCells⟩, rfl, rfl⟩, trivial⟩
  · exact (State.coherent_iff _).mpr ⟨h1, h2, h3, ⟨hf.1.1, rfl, rfl⟩, trivial⟩

/-- A mapped read that answers a next state was made in memory-mapped mode with the block free and inside the
window (R83, R84). -/
theorem State.mappedRead_next {a n : Nat} {s t : State} (h : s.mappedRead a n = .next t) :
    s.fm = .memoryMapped ∧ s.busy = false ∧ s.cfg.mmBase ≤ a ∧ a + n ≤ s.cfg.mmBase + s.cfg.flashSize := by
  unfold State.mappedRead at h
  split at h
  · cases h
  · split at h
    · cases h
    · simp_all

theorem State.mappedRead_coherent {a n : Nat} {s t : State} (hc : s.cfg.wf = true) (h : s.coherent)
    (he : s.mappedRead a n = .next t) : t.coherent := by
  obtain ⟨hfm, hb, -, -⟩ := State.mappedRead_next he
  obtain ⟨h1, h2, h3, hf⟩ := (State.coherent_iff s).mp h
  obtain ⟨hi, hff, hbz⟩ := State.transferAgrees_idle h3 (State.busy_false hb).2.1
  have hset := s.chipSettle_only
  unfold State.mappedRead at he
  split at he
  · cases he
  · split at he
    · cases he
    · dsimp only at he
      have key : ∀ u : State, u.fm = s.fm → u.cr = s.cr → u.seq = s.seq → u.ctrl.inflight = none → u.ctrl.fifo = [] →
          u.flashWf → u.coherent := by
        intro u e1 e2 e3 e4 e5 e6
        refine (State.coherent_iff u).mpr ⟨?_, ?_, State.transferAgrees_of_idle ?_ e4 e5 ?_, e6⟩
        · unfold State.modeAgrees at *; rw [e1, e2]; exact h1
        · unfold State.waitMode at *; rw [e1, e3]; exact h2
        · rw [e3]; exact (State.busy_false hb).2.1
        · rw [e2]; exact hbz
      split at he
      · cases he
        exact key _ hset.fm hset.cr hset.seq (by show s.chipSettle.ctrl.inflight = none; rw [hset.ctrl, hi])
          (by show s.chipSettle.ctrl.fifo = []; rw [hset.ctrl, hff]) (State.chipUnknown_flashWf s.chipSettle)
      · cases he
        exact key _ hset.fm hset.cr hset.seq (by simp [State.deliverMapped, hset.ctrl, hi])
          (by simp [State.deliverMapped, hset.ctrl, hff]) (State.chipSettle_flashWf hc hf)

/-- What presenting a request changes: the two fields of HOST that hold its operands (R121). -/
theorem State.present_eq (s : State) (a : HostAction) :
    ∃ x n, s.present a = { s with host := { s.host with reqAddr := x, reqLen := n } } := by
  unfold State.present
  split
  · split
    · exact ⟨_, _, rfl⟩
    · exact ⟨s.host.reqAddr, s.host.reqLen, rfl⟩
  · exact ⟨s.host.reqAddr, s.host.reqLen, rfl⟩

theorem State.present_coherent {s : State} (a : HostAction) (h : s.coherent) : (s.present a).coherent := by
  obtain ⟨x, n, e⟩ := s.present_eq a
  rw [e]
  exact State.coherent_of_eq rfl rfl rfl rfl rfl rfl rfl rfl h

theorem perform_coherent {a : HostAction} {s t : State} (hc : s.cfg.wf = true) (h : s.coherent)
    (he : perform a s = .next t) : t.coherent := by
  unfold perform at he
  split at he
  · cases a with
    | lend ad d =>
      simp only [State.hostAct, State.lend] at he
      split at he
      · cases he
      · cases he; exact State.coherent_of_eq rfl rfl rfl rfl rfl rfl rfl rfl h
    | mappedRead x n => exact State.mappedRead_coherent hc h he
    | mappedWrite x v => cases he
    | resetBlock => cases he; exact State.resetBlock_coherent h
    | powerCycleChip => cases he; exact State.powerCycleChip_coherent h
    | request _ => cases he; exact h
    | transaction _ => cases he; exact h
    | call _ => cases he; exact h
  · exact exec_coherent (State.present_coherent a h) he
  · cases he

/-- Where a step can lead: it performs the action at the port, goes on, performs HOST's next action, or stays
(R11, R341). -/
theorem step_cases {s t : State} (h : step s = .next t) :
    s.cfg.wf = true ∧
      ((∃ a, s.host.port = some a ∧ perform a s.takePort = .next t)
        ∨ (s.host.port = none ∧ s.busy = true ∧ t = s.resume ∧ t.readsWindow = false)
        ∨ (∃ a rest, s.host.port = none ∧ s.busy = false ∧ s.host.program = a :: rest
            ∧ perform a (s.takeProgram rest) = .next t)
        ∨ (s.host.port = none ∧ s.busy = false ∧ s.host.program = [] ∧ t = s)) := by
  unfold step at h
  split at h
  · cases h
  next hwf =>
    refine ⟨by simpa using hwf, ?_⟩
    split at h
    next a hp => exact Or.inl ⟨a, hp, h⟩
    next hp =>
      split at h
      next hb =>
        obtain ⟨hr, rfl⟩ := State.outcome_next h
        exact Or.inr (Or.inl ⟨hp, hb, rfl, hr⟩)
      next hb =>
        have hb : s.busy = false := by simpa using hb
        split at h
        next hn => cases h; exact Or.inr (Or.inr (Or.inr ⟨hp, hb, hn, rfl⟩))
        next a rest hn => exact Or.inr (Or.inr (Or.inl ⟨a, rest, hp, hb, hn, h⟩))

end Sys2Proof.Machine
end

