-- ==== Sys2Proof/Laws/Transactions.lean ====
section
/-! SUPPORT. What one whole transaction leaves when CTRL takes the steps its waits ask for: an indirect write (R178,
R181, R184), the chip's answer to each command when it is ready (R99 to R104), and the whole transaction of each
command that writes (R201 to R206). -/

namespace Sys2Proof.Machine

open Sys2Proof

/-! ### Granted steps -/

theorem State.lets_succ {s : State} {k : Nat} (h : s.lets (k + 1)) :
    s.env.lift = true :: s.env.lift.drop 1 ∧ (s.env.lift.drop 1).take k = List.replicate k true := by
  unfold State.lets at h
  cases hl : s.env.lift with
  | nil => rw [hl] at h; simp [List.replicate_succ] at h
  | cons b rest =>
    rw [hl] at h
    simp only [List.take_succ_cons, List.replicate_succ, List.cons.injEq] at h
    exact ⟨by rw [h.1]; rfl, h.2⟩

theorem take_replicate_mono {l : List Bool} {b : Bool} {j k : Nat} (h : l.take k = List.replicate k b) (hj : j ≤ k) :
    l.take j = List.replicate j b := by
  have := congrArg (List.take j) h
  rwa [List.take_take, List.take_replicate, Nat.min_eq_left hj] at this

theorem State.lets_mono {s : State} {j k : Nat} (h : s.lets k) (hj : j ≤ k) : s.lets j := take_replicate_mono h hj

theorem take_drop_replicate {l : List Bool} {b : Bool} {j k : Nat} (h : l.take (j + k) = List.replicate (j + k) b) :
    (l.drop j).take k = List.replicate k b := by
  have := congrArg (List.drop j) h
  rwa [List.drop_take, List.drop_replicate, Nat.add_sub_cancel_left] at this

theorem take_two {l : List Bool} (h : l.take 2 = List.replicate 2 true) : l = true :: true :: l.drop 2 := by
  match l, h with
  | a :: b :: r, h =>
    simp only [List.take_succ_cons, List.take_zero, List.replicate, List.cons.injEq] at h
    simp [h.1, h.2.1]

theorem Seq.phase_idle {q : Seq} (h : q.phase = .idle) : ({ q with phase := .idle } : Seq) = q := by
  cases q; cases h; rfl

/-! ### One step of a wait -/

/-- A byte is streamed out when CTRL has room for it (R106, R178). -/
theorem State.waitOnce_push {s : State} {i : Nat} {b : Byte} {l : List Bool} (hp : s.seq.phase = .push i)
    (hb : s.tr.data.byte s i = some b) (hl : s.env.lift = true :: l) :
    s.waitOnce = (true,
      { s with
        ctrl := { s.ctrl with fifo := s.ctrl.fifo ++ [b] }
        seq  := { s.seq with phase := if i + 1 < s.tr.dataLength.toNat then .push (i + 1) else .await }
        env  := { s.env with lift := l }
        log  := .push b :: s.log }) := by
  simp [State.waitOnce, hp, hb, State.drawLift, drawFrom, hl, State.fifoPush, State.pushPhase]

/-- A get of `CR.BUSY` after a step of CTRL, in an indirect mode (R54, R105, R181). -/
theorem State.waitOnce_await {s : State} {l : List Bool} (hp : s.seq.phase = .await) (hm : s.cr.fmode ≠ 3)
    (hl : s.env.lift = true :: l) :
    s.waitOnce =
      (if ({ s with env := { s.env with lift := l } } : State).controllerStep.cr.busy
       then (true, ({ s with env := { s.env with lift := l } } : State).controllerStep.emit (.getBusy true))
       else (true, (({ s with env := { s.env with lift := l } } : State).controllerStep.emit (.getBusy false)).setPhase .idle)) := by
  have hd : s.drawLift = (true, { s with env := { s.env with lift := l } }) := by
    simp [State.drawLift, drawFrom, hl]
  have hm2 : ({ s with env := { s.env with lift := l } } : State).controllerStep.cr.fmode ≠ 3 := by
    rw [(State.controllerStep_only _).crFmode]; exact hm
  unfold State.waitOnce
  simp only [hp]
  rw [hd]
  dsimp only
  rw [if_pos rfl, State.getBusy_indirect hm2]
  dsimp only
  split
  next h => rw [h]
  next h => rw [Bool.not_eq_true] at h; rw [h]

theorem State.waitMany_step {k : Nat} {s : State} (hp : s.seq.phase ≠ .idle) :
    s.waitMany (k + 1) = if s.waitOnce.1 then s.waitOnce.2.waitMany k else s.waitOnce.2 := by
  conv_lhs => unfold State.waitMany
  split
  next h => exact absurd h hp
  next => rfl

/-- All the bytes of a write are streamed out, in index order (R178). -/
theorem State.waitMany_push {k : Nat} {d : List Byte} {s : State} {i : Nat} (hp : s.seq.phase = .push i)
    (hn : s.tr.dataLength.toNat = i + d.length) (hd0 : 0 < d.length)
    (hd : ∀ j (h : j < d.length), s.tr.data.byte s (i + j) = some d[j]) (hl : s.lets d.length) :
    s.waitMany (d.length + k)
      = State.waitMany k
          { s with
            ctrl := { s.ctrl with fifo := s.ctrl.fifo ++ d }
            seq  := { s.seq with phase := .await }
            env  := { s.env with lift := s.env.lift.drop d.length }
            log  := (d.map Event.push).reverse ++ s.log } := by
  induction d generalizing s i with
  | nil => simp at hd0
  | cons b d ih =>
    have hl1 := State.lets_succ (k := d.length) hl
    have hb : s.tr.data.byte s i = some b := hd 0 (Nat.succ_pos _)
    rw [show (b :: d).length + k = (d.length + k) + 1 by simp; omega, State.waitMany_step (by rw [hp]; simp),
      State.waitOnce_push hp hb hl1.1, if_pos rfl]
    cases d with
    | nil =>
      have hlast : ¬ i + 1 < s.tr.dataLength.toNat := by rw [hn]; simp
      simp [hlast]
    | cons b2 d2 =>
      have hmore : i + 1 < s.tr.dataLength.toNat := by rw [hn]; simp
      rw [if_pos hmore]
      rw [ih (i := i + 1) (s := { s with
            ctrl := { s.ctrl with fifo := s.ctrl.fifo ++ [b] }
            seq  := { s.seq with phase := .push (i + 1) }
            env  := { s.env with lift := s.env.lift.drop 1 }
            log  := .push b :: s.log }) rfl (by rw [hn]; simp; omega) (by simp)
          (fun j h => by
            have := hd (j + 1) (by simpa using h)
            rw [show i + (j + 1) = i + 1 + j by omega] at this
            exact (DataRef.byte_congr rfl rfl rfl rfl).trans this)
          hl1.2]
      simp [Nat.add_comm]

/-- The end of a transaction whose frame has been delivered (R105, R181). -/
theorem State.waitMany_await_done {k : Nat} {s : State} {fl : Inflight} {l : List Bool}
    (hp : s.seq.phase = .await) (hm : s.cr.fmode ≠ 3) (hi : s.ctrl.inflight = some fl) (hdel : fl.delivered = true)
    (hl : s.env.lift = true :: l) :
    s.waitMany (k + 1)
      = { s with
          seq  := { s.seq with phase := .idle }
          cr   := { s.cr with busy := false }
          ctrl := { s.ctrl with inflight := none }
          env  := { s.env with lift := l }
          log  := .getBusy false :: s.log } := by
  have hc : ({ s with env := { s.env with lift := l } } : State).controllerStep
      = { s with
          cr   := { s.cr with busy := false }
          ctrl := { s.ctrl with inflight := none }
          env  := { s.env with lift := l } } := by
    simp [State.controllerStep, State.undelivered, Ctrl.cutShort, hi, hdel, State.clearBusy]
  rw [State.waitMany_step (by rw [hp]; simp), State.waitOnce_await hp hm hl, hc]
  dsimp only
  simp only [Bool.false_eq_true, if_false, if_true]
  rw [State.waitMany_idle rfl]
  rfl

/-- The end of a write: the frame on its way, the chip's act, and the clearing of `CR.BUSY` (R105, R181). -/
theorem State.waitMany_await_write {k : Nat} {s : State} {fl : Inflight} {l : List Bool} {c : Flash}
    (hp : s.seq.phase = .await) (hm : s.cr.fmode ≠ 3) (hb : s.cr.busy = true) (hi : s.ctrl.inflight = some fl)
    (hdir : fl.frame.dir = .write) (hdel : fl.delivered = false) (hlen : s.ctrl.fifo.length = fl.frame.len)
    (hl : s.env.lift = true :: true :: l)
    (hrec : ∀ u : State, u.cfg = s.cfg → u.flash = s.flash →
      u.chipReceive { fl.frame with data := s.ctrl.fifo } = ([], { u with flash := c })) :
    s.waitMany (k + 2)
      = { s with
          seq   := { s.seq with phase := .idle }
          cr    := { s.cr with busy := false }
          ctrl  := { s.ctrl with fifo := [], inflight := none }
          flash := c
          env   := { s.env with lift := l }
          log   := .getBusy false :: .getBusy true :: .frame { fl.frame with data := s.ctrl.fifo } :: s.log } := by
  have htake : s.ctrl.fifo.take fl.frame.len = s.ctrl.fifo := by rw [← hlen]; exact List.take_length
  have hdrop : s.ctrl.fifo.drop fl.frame.len = [] := by rw [← hlen]; exact List.drop_length
  have hdel1 : ({ s with env := { s.env with lift := true :: l } } : State).controllerStep
      = { s with
          ctrl  := { s.ctrl with fifo := [], inflight := some { frame := { fl.frame with data := s.ctrl.fifo }, delivered := true } }
          flash := c
          env   := { s.env with lift := true :: l }
          log   := .frame { fl.frame with data := s.ctrl.fifo } :: s.log } := by
    have := hrec { s with env := { s.env with lift := true :: l } } rfl rfl
    dsimp only at this
    rw [hdir] at this
    simp [State.controllerStep, State.undelivered, Ctrl.cutShort, hi, hdel, State.deliver, hdir, htake, hdrop, this]
  rw [show k + 2 = (k + 1) + 1 by rfl, State.waitMany_step (by rw [hp]; simp), State.waitOnce_await hp hm hl, hdel1]
  dsimp only
  rw [hb, if_pos rfl, if_pos rfl]
  exact State.waitMany_await_done (fl := { frame := { fl.frame with data := s.ctrl.fifo }, delivered := true }) hp hm rfl
    rfl rfl

/-- A whole indirect write (R170 to R181, R184): what `apply` leaves when CTRL takes the steps its waits ask for. -/
theorem State.apply_write {s : State} {t : Transaction} {om : OperatingMode} {d : List Byte} {c : Flash}
    (hcalm : s.calm) (hn : t.dataLength.toNat = d.length)
    (hd : ∀ j (h : j < d.length), t.data.byte s j = some d[j]) (hl : s.lets (d.length + 2))
    (hrec : ∀ u : State, u.cfg = s.cfg → u.flash = s.flash →
      u.chipReceive { launchedFrame s.cfg t om .write with data := d } = ([], { u with flash := c })) :
    s.apply t .indirectWrite om = s.written t om d c := by
  obtain ⟨hp, -, hf⟩ := hcalm
  have hcfg : (s.configure t .indirectWrite om).launch .indirectWrite
      = { s with
          tr := t, fm := .indirectWrite
          cr := { s.cr.configured s.cfg t .indirectWrite om 0 with busy := true }
          ctrl := { fifo := [], inflight := some { frame := launchedFrame s.cfg t om .write, delivered := false },
                    readCmd := none, prefetch := [] }
          seq := { s.seq with phase := if 0 < t.dataLength.toNat then .push 0 else .await }
          log := .launch :: (configuredLog s.cfg t .indirectWrite om 0 ++ s.log) } := by
    rw [State.configure_eq rfl]
    simp [State.launch, State.launchIndirect, State.setPhase, State.pushPhase, Ctrl.leaveMapped, hf]
    exact decodeFrame_configured_write s.cr s.cfg t om
  unfold State.apply State.finishApply
  rw [hcfg]
  dsimp only
  rw [hn]
  by_cases hz : d.length = 0
  · obtain rfl : d = [] := List.length_eq_zero_iff.mp hz
    have h3 : s.env.lift = true :: true :: s.env.lift.drop 2 := take_two hl
    rw [if_neg (by simp)]
    rw [show ([] : List Byte).length + 4 = 2 + 2 by rfl]
    refine (State.waitMany_await_write (k := 2)
      (fl := { frame := launchedFrame s.cfg t om .write, delivered := false }) (l := s.env.lift.drop 2) (c := c)
      ?_ ?_ ?_ ?_ ?_ ?_ ?_ ?_ ?_).trans ?_
    · rfl
    · simp [CR.configured]
    · rfl
    · rfl
    · rfl
    · rfl
    · simp [launchedFrame, hn]
    · exact h3
    · exact fun u e1 e2 => hrec u e1 e2
    · simp only [State.written, List.length_nil, List.nil_append, List.map_nil, List.reverse_nil, Seq.phase_idle hp, Nat.zero_add]
  · have hz : 0 < d.length := Nat.pos_of_ne_zero hz
    rw [if_pos hz]
    refine (State.waitMany_push (k := 4) (i := 0) (d := d) ?_ ?_ hz ?_ ?_).trans ?_
    · rfl
    · simpa using hn
    · intro j h
      rw [Nat.zero_add]
      exact (DataRef.byte_congr rfl rfl rfl rfl).trans (hd j h)
    · exact State.lets_mono hl (by omega)
    have h3 : s.env.lift.drop d.length = true :: true :: s.env.lift.drop (d.length + 2) := by
      rw [← List.drop_drop]; exact take_two (take_drop_replicate (j := d.length) (k := 2) hl)
    refine (State.waitMany_await_write (k := 2)
      (fl := { frame := launchedFrame s.cfg t om .write, delivered := false }) (l := s.env.lift.drop (d.length + 2))
      (c := c) ?_ ?_ ?_ ?_ ?_ ?_ ?_ ?_ ?_).trans ?_
    · rfl
    · simp [CR.configured]
    · rfl
    · rfl
    · rfl
    · rfl
    · simp [launchedFrame, hn]
    · exact h3
    · exact fun u e1 e2 => hrec u e1 e2
    · simp only [State.written, List.nil_append, Seq.phase_idle hp]

/-! ### The chip's answers -/

/-- The seven opcode bytes tell the commands apart (R8, R128). -/
theorem Config.commandOfOpcode_opcode {c : Config} (h : c.wf = true) (cmd : Command) :
    c.commandOfOpcode (c.opcode cmd) = some cmd := by
  simp only [Config.wf, Bool.and_eq_true, decide_eq_true_eq] at h
  have hn : c.opcodes.Nodup := h.1.1.2
  simp only [Config.opcodes, List.nodup_cons, List.mem_cons, not_or, List.not_mem_nil, not_false_eq_true,
    List.nodup_nil, and_true] at hn
  obtain ⟨⟨h1, h2, h3, h4, h5, h6⟩, ⟨h7, h8, h9, h10, h11⟩, ⟨h12, h13, h14, h15⟩, ⟨h16, h17, h18⟩, ⟨h19, h20⟩, h21⟩ := hn
  cases cmd <;> simp [Config.commandOfOpcode, Config.opcode, List.find?, *]

/-- The width of the default operating mode on every phase is one the chip understands in the framing it shares with
the block (R103). -/
theorem State.framed_understands {s : State} (h : s.framed) (t : Transaction) (dir : Direction) :
    s.flash.framing.understands (launchedFrame s.cfg t s.cfg.omDefault dir).iw
      (launchedFrame s.cfg t s.cfg.omDefault dir).aw (launchedFrame s.cfg t s.cfg.omDefault dir).dw = true := by
  rcases h with ⟨h1, h2⟩ | ⟨h1, h2⟩
  · simp [h1, h2, launchedFrame, widthFor, Framing.understands]
  · cases ha : t.address <;> by_cases hd : 0 < t.dataLength.toNat <;>
      simp [h1, h2, launchedFrame, widthFor, Framing.understands, ha, hd]

theorem Config.adsize_toNat {c : Config} (h : c.wf = true) : (adsizeCode c).toNat + 1 = c.adsizeBytes := by
  have h2 := Config.wf_addrBits h
  unfold adsizeCode Config.adsizeBytes
  rw [BitVec.toNat_ofNat]
  omega

/-- Nothing of an address inside the device is lost on the wire (R87, R130). -/
theorem launchedFrame_addr {c : Config} {t : Transaction} {om : OperatingMode} {dir : Direction} {a : Addr24}
    (h : c.wf = true) (ht : t.address = some a) (ha : a.toNat < c.flashSize) :
    (launchedFrame c t om dir).addr = some a.toNat := by
  have h2 := Config.wf_addrBits h
  simp only [launchedFrame, ht, Option.map_some, Option.some.injEq]
  rw [Config.adsize_toNat h]
  refine Nat.mod_eq_of_lt (lt_of_lt_of_le ha ?_)
  unfold Config.flashSize Config.adsizeBytes
  exact Nat.pow_le_pow_right (by omega) (by omega)

theorem State.chipStart_eq (p : Pending) (s : State) : s.chipStart p = { s with flash := s.flash.started s.cfg p } := by
  unfold State.chipStart Flash.started
  split <;> rfl

/-- A ready chip sets its latch on a WriteEnable frame (R99). -/
theorem State.receive_writeEnable {s u : State} (hc : s.cfg.wf = true) (h : s.chipReady) (hu : u.cfg = s.cfg)
    (hf : u.flash = s.flash) (d : List Byte) :
    u.chipReceive { launchedFrame s.cfg (Transaction.send .writeEnable) s.cfg.omDefault .write with data := d }
      = ([], { u with flash := { s.flash with wel := true } }) := by
  rw [State.chipReceive_ready (by rw [hf]; exact h.1) (by rw [hf]; exact State.framed_understands h.2 (Transaction.send .writeEnable) .write)]
  have := Config.commandOfOpcode_opcode hc .writeEnable
  simp [State.chipExecute, launchedFrame, Transaction.send, hu, this, hf]

/-- A ready chip starts to erase on a ChipErase frame, if its latch is set (R99, R100). -/
theorem State.receive_chipErase {s u : State} (hc : s.cfg.wf = true) (h : s.chipReady) (hu : u.cfg = s.cfg)
    (hf : u.flash = s.flash) (d : List Byte) :
    u.chipReceive { launchedFrame s.cfg (Transaction.send .chipErase) s.cfg.omDefault .write with data := d }
      = ([], { u with flash := s.flash.started s.cfg .chipErase }) := by
  rw [State.chipReceive_ready (by rw [hf]; exact h.1) (by rw [hf]; exact State.framed_understands h.2 (Transaction.send .chipErase) .write)]
  have := Config.commandOfOpcode_opcode hc .chipErase
  simp [State.chipExecute, launchedFrame, Transaction.send, hu, this, State.chipStart_eq, hf]

/-- A ready chip starts to erase a sector on a SectorErase frame, if its latch is set (R99, R100). -/
theorem State.receive_sectorErase {s u : State} {a : Addr24} (hc : s.cfg.wf = true) (h : s.chipReady)
    (ha : a.toNat < s.cfg.flashSize) (hu : u.cfg = s.cfg) (hf : u.flash = s.flash) (d : List Byte) :
    u.chipReceive { launchedFrame s.cfg (Transaction.sectorErase a) s.cfg.omDefault .write with data := d }
      = ([], { u with flash := s.flash.started s.cfg (.sectorErase a.toNat) }) := by
  rw [State.chipReceive_ready (by rw [hf]; exact h.1) (by rw [hf]; exact State.framed_understands h.2 (Transaction.sectorErase a) .write)]
  have h1 := Config.commandOfOpcode_opcode hc .sectorErase
  have h2 := launchedFrame_addr (t := Transaction.sectorErase a) (om := s.cfg.omDefault) (dir := .write) hc rfl ha
  have h3 : (launchedFrame s.cfg (Transaction.sectorErase a) s.cfg.omDefault .write).opcode = s.cfg.opcode .sectorErase := rfl
  have h4 : (launchedFrame s.cfg (Transaction.sectorErase a) s.cfg.omDefault .write).dir = .write := rfl
  simp [State.chipExecute, h2, h3, h4, hu, h1, State.chipStart_eq, hf, ha]

/-- A ready chip starts to program on a PageProgram frame, if its latch is set (R99, R100). -/
theorem State.receive_pageProgram {s u : State} {a : Addr24} {off n : Word32} (hc : s.cfg.wf = true)
    (h : s.chipReady) (ha : a.toNat < s.cfg.flashSize) (hu : u.cfg = s.cfg) (hf : u.flash = s.flash) (d : List Byte) :
    u.chipReceive { launchedFrame s.cfg (Transaction.pageProgram a off n) s.cfg.omDefault .write with data := d }
      = ([], { u with flash := s.flash.started s.cfg (.program a.toNat d) }) := by
  rw [State.chipReceive_ready (by rw [hf]; exact h.1) (by rw [hf]; exact State.framed_understands h.2 (Transaction.pageProgram a off n) .write)]
  have h1 := Config.commandOfOpcode_opcode hc .pageProgram
  have h2 := launchedFrame_addr (t := Transaction.pageProgram a off n) (om := s.cfg.omDefault) (dir := .write) hc rfl ha
  have h3 : (launchedFrame s.cfg (Transaction.pageProgram a off n) s.cfg.omDefault .write).opcode
    = s.cfg.opcode .pageProgram := rfl
  have h4 : (launchedFrame s.cfg (Transaction.pageProgram a off n) s.cfg.omDefault .write).dir = .write := rfl
  simp [State.chipExecute, h2, h3, h4, hu, h1, State.chipStart_eq, hf, ha]

/-- A chip in single-line framing that is not busy enters four-line framing on an EnableQPI frame at single width
(R103). -/
theorem State.receive_enableQPI {s u : State} (hc : s.cfg.wf = true) (hw : s.flash.wip = false)
    (hs : s.flash.framing = .single) (hu : u.cfg = s.cfg) (hf : u.flash = s.flash) (d : List Byte) :
    u.chipReceive { launchedFrame s.cfg (Transaction.send .enableQPI) .single .write with data := d }
      = ([], { u with flash := { s.flash with framing := .quad } }) := by
  rw [State.chipReceive_ready (by rw [hf]; exact hw) (by rw [hf, hs]; rfl)]
  have := Config.commandOfOpcode_opcode hc .enableQPI
  simp [State.chipExecute, launchedFrame, Transaction.send, hu, this, hf, hs]

/-! ### The transactions of the commands -/

theorem State.apply_writeEnable {s : State} (hc : s.cfg.wf = true) (hcalm : s.calm) (h : s.chipReady)
    (hl : s.lets 2) :
    s.apply (Transaction.send .writeEnable) .indirectWrite s.cfg.omDefault
      = s.written (Transaction.send .writeEnable) s.cfg.omDefault [] { s.flash with wel := true } :=
  State.apply_write hcalm rfl (by simp) hl (fun _ e1 e2 => State.receive_writeEnable hc h e1 e2 [])

theorem State.apply_chipErase {s : State} (hc : s.cfg.wf = true) (hcalm : s.calm) (h : s.chipReady)
    (hl : s.lets 2) :
    s.apply (Transaction.send .chipErase) .indirectWrite s.cfg.omDefault
      = s.written (Transaction.send .chipErase) s.cfg.omDefault [] (s.flash.started s.cfg .chipErase) :=
  State.apply_write hcalm rfl (by simp) hl (fun _ e1 e2 => State.receive_chipErase hc h e1 e2 [])

theorem State.apply_sectorErase {s : State} {a : Addr24} (hc : s.cfg.wf = true) (hcalm : s.calm) (h : s.chipReady)
    (ha : a.toNat < s.cfg.flashSize) (hl : s.lets 2) :
    s.apply (Transaction.sectorErase a) .indirectWrite s.cfg.omDefault
      = s.written (Transaction.sectorErase a) s.cfg.omDefault [] (s.flash.started s.cfg (.sectorErase a.toNat)) :=
  State.apply_write hcalm rfl (by simp) hl (fun _ e1 e2 => State.receive_sectorErase hc h ha e1 e2 [])

theorem State.apply_enableQPI {s : State} (hc : s.cfg.wf = true) (hcalm : s.calm) (hw : s.flash.wip = false)
    (hs : s.flash.framing = .single) (hl : s.lets 2) :
    s.apply (Transaction.send .enableQPI) .indirectWrite .single
      = s.written (Transaction.send .enableQPI) .single [] { s.flash with framing := .quad } :=
  State.apply_write hcalm rfl (by simp) hl (fun _ e1 e2 => State.receive_enableQPI hc hw hs e1 e2 [])

/-- A PageProgram of the bytes of the lent buffer from `off` on (R178, R204). -/
theorem State.apply_pageProgram {s : State} {a : Addr24} {off n : Word32} (hc : s.cfg.wf = true) (hcalm : s.calm)
    (h : s.chipReady) (ha : a.toNat < s.cfg.flashSize) (hbuf : off.toNat + n.toNat ≤ s.host.buffer.length)
    (hwin : s.clearOfWindow (off.toNat + n.toNat)) (hl : s.lets (n.toNat + 2)) :
    s.apply (Transaction.pageProgram a off n) .indirectWrite s.cfg.omDefault
      = s.written (Transaction.pageProgram a off n) s.cfg.omDefault ((s.host.buffer.drop off.toNat).take n.toNat)
          (s.flash.started s.cfg (.program a.toNat ((s.host.buffer.drop off.toNat).take n.toNat))) := by
  have hlen : ((s.host.buffer.drop off.toNat).take n.toNat).length = n.toNat := by
    simp only [List.length_take, List.length_drop]; omega
  refine State.apply_write hcalm (by rw [hlen]; rfl) (fun j hj => ?_) (by rw [hlen]; exact hl)
    (fun _ e1 e2 => State.receive_pageProgram hc h ha e1 e2 _)
  rw [hlen] at hj
  simp only [Transaction.pageProgram, DataRef.byte, hwin (off.toNat + j) (by omega), Bool.false_eq_true, if_false,
    List.getElem_take, List.getElem_drop]
  exact List.getElem?_eq_getElem (by omega)

/-! ### The chip looked at -/

/-- What the chip does at a status read depends on the chip and its draws alone. -/
theorem State.chipSettle_congr {s u : State} {l : List Bool} (hc : u.cfg = s.cfg) (hf : u.flash = s.flash)
    (he : u.env = { s.env with lift := l }) :
    u.chipSettle = { u with flash := s.chipSettle.flash, env := { s.chipSettle.env with lift := l } } := by
  obtain ⟨cfg, fm, tr, seq, cr, ctrl, flash, host, env, widths, log⟩ := u
  dsimp only at hc hf he
  subst hc hf he
  by_cases hw : s.flash.wip = true
  · cases hd : s.env.done with
    | nil =>
      by_cases hp : s.flash.pending = .unknown <;> by_cases hv : Config.freeDone s.env.n = true <;>
        simp [State.chipSettle, hw, State.drawDone, drawFrom, hd, hv, State.chipComplete, hp, State.arrayUnknown]
    | cons b rest =>
      by_cases hp : s.flash.pending = .unknown <;> cases b <;>
        simp [State.chipSettle, hw, State.drawDone, drawFrom, hd, State.chipComplete, hp, State.arrayUnknown]
  · simp [State.chipSettle, hw]

/-- A settled chip keeps its framing. -/
theorem State.chipSettle_framing (s : State) : s.chipSettle.flash.framing = s.flash.framing := by
  unfold State.chipSettle
  split
  · dsimp only
    split
    · unfold State.chipComplete; dsimp only; split <;> rfl
    · rfl
  · rfl

end Sys2Proof.Machine
end

