-- ==== Sys2Proof/Laws/Polling.lean ====
section
/-! SUPPORT. The status read and the poll loop of `waitUntilReady` when CTRL takes the steps its waits ask for: what
one read leaves (R179, R200), and where the loop ends when the chip becomes ready in time, or does not (R221 to
R224). -/

namespace Sys2Proof.Machine

open Sys2Proof

/-- The answer to a status read is the chip's, whatever is drawn for its other bits (R104). -/
theorem State.receive_readStatus {s u : State} {l : List Bool} (hc : s.cfg.wf = true) (h : s.framed) (hu : u.cfg = s.cfg)
    (hf : u.flash = s.flash) (he : u.env = { s.env with lift := l }) :
    u.chipReceive (launchedFrame s.cfg Transaction.readStatus s.cfg.omDefault .read)
      = ([statusByte s.cfg.busyBit s.chipSettle.flash.wip s.chipSettle.drawStatus.1],
         { u with flash := s.chipSettle.flash, env := { s.chipSettle.drawStatus.2.env with lift := l } }) := by
  have hset := State.chipSettle_congr hu hf he
  have hsc := s.chipSettle_only.cfg
  have hund : s.chipSettle.flash.framing.understands
      (launchedFrame s.cfg Transaction.readStatus s.cfg.omDefault .read).iw
      (launchedFrame s.cfg Transaction.readStatus s.cfg.omDefault .read).aw
      (launchedFrame s.cfg Transaction.readStatus s.cfg.omDefault .read).dw = true := by
    rw [State.chipSettle_framing]; exact State.framed_understands h Transaction.readStatus .read
  have h1 := Config.commandOfOpcode_opcode hc .readStatusRegister
  have h3 : (launchedFrame s.cfg Transaction.readStatus s.cfg.omDefault .read).opcode
    = s.cfg.opcode .readStatusRegister := rfl
  have h4 : (launchedFrame s.cfg Transaction.readStatus s.cfg.omDefault .read).dir = .read := rfl
  have h5 : (launchedFrame s.cfg Transaction.readStatus s.cfg.omDefault .read).len = 1 := rfl
  have h6 : s.cfg.opcode .readStatusRegister = s.cfg.opcRdsr := rfl
  unfold State.chipReceive
  rw [hset]
  dsimp only
  rw [hund]
  simp only [Bool.not_true, Bool.false_eq_true, if_false, State.isStatusRead, h3, h4, hu, h6, decide_true, Bool.and_self,
    Bool.and_false, State.chipExecute]
  rw [← h6, h1]
  simp only [State.chipStatus, h5, State.drawStatus, List.replicate_one]

/-- The wait of a one-byte read, from the launch on (R105, R106, R179, R181). -/
theorem State.waitMany_read {s : State} {f : Frame} {b : Byte} {fl : Flash} {e : Env} {l : List Bool}
    (hp : s.seq.phase = .pop 0) (hm : s.cr.fmode ≠ 3) (hf : s.ctrl.fifo = [])
    (hi : s.ctrl.inflight = some { frame := f, delivered := false }) (hdir : f.dir = .read)
    (hn : s.tr.dataLength.toNat = 1) (hl : s.env.lift = true :: true :: l)
    (hrec : ({ s with env := { s.env with lift := true :: l } } : State).chipReceive f
      = ([b], { s with flash := fl, env := { e with lift := true :: l } })) :
    s.waitMany 5
      = { s with
          seq   := { s.seq with status := if s.tr.data = .caller then s.seq.status else b, phase := .idle }
          cr    := { s.cr with busy := false }
          ctrl  := { s.ctrl with fifo := [], inflight := none }
          flash := fl
          env   := { e with lift := l }
          caller := if s.tr.data = .caller then b else s.caller
          log   := .getBusy false :: .pop b :: .frame { f with data := [b] } :: s.log } := by
  have hdraw : s.drawLift = (true, { s with env := { s.env with lift := true :: l } }) := by
    simp [State.drawLift, drawFrom, hl]
  have h1 : s.waitOnce = (true,
      { s with
        ctrl  := { s.ctrl with fifo := [b], inflight := some { frame := { f with data := [b] }, delivered := true } }
        flash := fl
        env   := { e with lift := true :: l }
        log   := .frame { f with data := [b] } :: s.log }) := by
    unfold State.waitOnce
    simp only [hp, hf]
    rw [hdraw]
    dsimp only
    have hu : ({ s with env := { s.env with lift := true :: l } } : State).undelivered = true := by
      simp [State.undelivered, Ctrl.cutShort, hi]
    rw [hu]
    simp only [Bool.and_self, if_true, State.deliver, hi, hdir]
    dsimp only at hrec
    rw [hrec]
    simp [hf]
  refine (State.waitMany_step (k := 4) (by rw [hp]; simp)).trans ?_
  rw [h1, if_pos rfl]
  have h2 : State.waitOnce
      { s with
        ctrl  := { s.ctrl with fifo := [b], inflight := some { frame := { f with data := [b] }, delivered := true } }
        flash := fl
        env   := { e with lift := true :: l }
        log   := .frame { f with data := [b] } :: s.log } = (true,
      { s with
        seq   := { s.seq with status := if s.tr.data = .caller then s.seq.status else b, phase := .await }
        ctrl  := { s.ctrl with fifo := [], inflight := some { frame := { f with data := [b] }, delivered := true } }
        flash := fl
        env   := { e with lift := true :: l }
        caller := if s.tr.data = .caller then b else s.caller
        log   := .pop b :: .frame { f with data := [b] } :: s.log }) := by
    simp [State.waitOnce, hp, State.fifoPop, State.popPhase, hn]
  refine (State.waitMany_step (k := 3) (by simp [hp])).trans ?_
  rw [h2, if_pos rfl]
  exact State.waitMany_await_done (k := 2) (fl := { frame := { f with data := [b] }, delivered := true }) (l := l) rfl hm
    rfl rfl rfl

/-- What a status read of the sequencer's leaves: its byte is in `SEQ.status` (R200). -/
theorem State.statusRead_eq (s : State) (b : Byte) (fl : Flash) (e : Env) :
    s.statusRead b fl e = { s with
      tr    := Transaction.readStatus
      fm    := .indirectRead
      cr    := { s.cr.configured s.cfg Transaction.readStatus .indirectRead s.cfg.omDefault 1 with busy := false }
      seq   := { s.seq with status := b }
      ctrl  := { fifo := [], inflight := none, readCmd := none, prefetch := [] }
      flash := fl
      env   := { e with lift := s.env.lift.drop 2 }
      log   := .getBusy false :: .pop b :: .frame (statusFrame s.cfg b) :: .launch
                 :: (configuredLog s.cfg Transaction.readStatus .indirectRead s.cfg.omDefault 1 ++ s.log) } := rfl

/-- One whole status read (R179, R181, R200). -/
theorem State.readStatus_eq {s : State} (hc : s.cfg.wf = true) (hcalm : s.calm) (h : s.framed) (hl : s.lets 2) :
    s.readStatus
      = s.statusRead (statusByte s.cfg.busyBit s.chipSettle.flash.wip s.chipSettle.drawStatus.1) s.chipSettle.flash
          s.chipSettle.drawStatus.2.env := by
  obtain ⟨hp, -, hf⟩ := hcalm
  have h2 := take_two hl
  have hcfg : (s.configure Transaction.readStatus .indirectRead s.cfg.omDefault).launch .indirectRead
      = { s with
          tr := Transaction.readStatus, fm := .indirectRead
          cr := { s.cr.configured s.cfg Transaction.readStatus .indirectRead s.cfg.omDefault 1 with busy := true }
          ctrl := { fifo := []
                    inflight := some { frame := launchedFrame s.cfg Transaction.readStatus s.cfg.omDefault .read,
                                       delivered := false }
                    readCmd := none, prefetch := [] }
          seq := { s.seq with phase := .pop 0 }
          log := .launch :: (configuredLog s.cfg Transaction.readStatus .indirectRead s.cfg.omDefault 1 ++ s.log) } := by
    rw [State.configure_eq rfl]
    simp [State.launch, State.launchIndirect, State.setPhase, State.popPhase, Ctrl.leaveMapped, hf,
      Transaction.readStatus]
    exact decodeFrame_configured_read s.cr s.cfg Transaction.readStatus s.cfg.omDefault
  unfold State.readStatus State.apply State.finishApply
  rw [hcfg]
  refine (State.waitMany_read (f := launchedFrame s.cfg Transaction.readStatus s.cfg.omDefault .read)
    (l := s.env.lift.drop 2) ?_ ?_ ?_ ?_ ?_ ?_ ?_
    (State.receive_readStatus (s := s) (l := true :: s.env.lift.drop 2) hc h ?_ ?_ ?_)).trans ?_
  · rfl
  · simp [CR.configured]
  · rfl
  · rfl
  · rfl
  · rfl
  · exact h2
  · rfl
  · rfl
  · rfl
  · simp only [State.statusRead_eq]
    congr 1
    cases hs : s.seq; rw [hs] at hp; cases hp; rfl

/-- The busy bit of a status byte is the chip's busy flag (R104, R222). -/
@[simp] theorem statusBusy_statusByte (k : Fin 8) (w : Bool) (x : Byte) : statusBusy k (statusByte k w x) = w := by
  cases w <;> simp [statusBusy, statusByte]

/-- A status read that finds the chip still busy (R100, R221). -/
theorem State.readStatus_busy {s : State} {ds : List Bool} (hc : s.cfg.wf = true) (hcalm : s.calm) (h : s.framed)
    (hl : s.lets 2) (hw : s.flash.wip = true) (hd : s.env.done = false :: ds) :
    ∃ b st n, statusBusy s.cfg.busyBit b = true
      ∧ s.readStatus = s.statusRead b s.flash { s.env with done := ds, status := st, n := n } := by
  have hset : s.chipSettle = { s with env := { s.env with done := ds } } := by
    simp [State.chipSettle, hw, State.drawDone, drawFrom, hd]
  refine ⟨statusByte s.cfg.busyBit true s.chipSettle.drawStatus.1, s.chipSettle.drawStatus.2.env.status,
    s.chipSettle.drawStatus.2.env.n, by simp, ?_⟩
  rw [State.readStatus_eq hc hcalm h hl]
  have h1 : s.chipSettle.flash = s.flash := by rw [hset]
  have h2 : s.chipSettle.drawStatus.2.env = { s.env with done := ds, status := s.chipSettle.drawStatus.2.env.status,
                                                         n := s.chipSettle.drawStatus.2.env.n } := by
    rw [hset]; rfl
  rw [h1, hw]
  conv_lhs => rw [h2]

/-- A status read that finds the chip ready (R99, R100, R223). -/
theorem State.readStatus_ready {s : State} (hc : s.cfg.wf = true) (hcalm : s.calm) (h : s.framed) (hl : s.lets 2)
    (hr : s.readyAfter 0) :
    ∃ b st n, statusBusy s.cfg.busyBit b = false
      ∧ s.readStatus = s.statusRead b (s.flash.finished s.cfg)
          { s.env with done := s.env.done.drop (if s.flash.wip then 1 else 0), status := st, n := n } := by
  have hset : s.chipSettle = { s with flash := s.flash.finished s.cfg,
                                      env := { s.env with done := s.env.done.drop (if s.flash.wip then 1 else 0) } } := by
    rcases hr with ⟨hw, -⟩ | ⟨hw, hu, hd⟩
    · simp [State.chipSettle, hw, Flash.finished]
    · cases hdone : s.env.done with
      | nil => rw [hdone] at hd; simp at hd
      | cons b rest =>
        rw [hdone] at hd
        simp only [Nat.zero_add, List.take_succ_cons, List.take_zero, List.replicate_zero, List.nil_append,
          List.cons.injEq, and_true] at hd
        subst hd
        simp [State.chipSettle, hw, State.drawDone, drawFrom, hdone, State.chipComplete, hu, Flash.finished]
  have hwip : (s.flash.finished s.cfg).wip = false := by
    unfold Flash.finished
    split
    · rfl
    next hw => simpa using hw
  refine ⟨statusByte s.cfg.busyBit false s.chipSettle.drawStatus.1, s.chipSettle.drawStatus.2.env.status,
    s.chipSettle.drawStatus.2.env.n, by simp, ?_⟩
  rw [State.readStatus_eq hc hcalm h hl]
  have h1 : s.chipSettle.flash = s.flash.finished s.cfg := by rw [hset]
  have h2 : s.chipSettle.drawStatus.2.env = { s.env with done := s.env.done.drop (if s.flash.wip then 1 else 0),
                                                         status := s.chipSettle.drawStatus.2.env.status,
                                                         n := s.chipSettle.drawStatus.2.env.n } := by
    rw [hset]; rfl
  rw [h1, hwip]
  conv_lhs => rw [h2]

/-- `t` is where `k` status reads, at least one, and the result `r` leave the caller of `waitUntilReady` that stood at
`s`, the chip left as `fl`, `d` answers about its work consumed (R221). -/
structure Polled (s t : State) (k : Nat) (r : Result) (fl : Flash) (d : Nat) : Prop where
  same : t = { s with
               tr    := Transaction.readStatus
               fm    := .indirectRead
               cr    := { s.cr.configured s.cfg Transaction.readStatus .indirectRead s.cfg.omDefault 1 with busy := false }
               ctrl  := { fifo := [], inflight := none, readCmd := none, prefetch := [] }
               seq   := { s.seq with attempts := t.seq.attempts, status := t.seq.status, r := r, waiting := none }
               flash := fl
               env   := { s.env with lift := s.env.lift.drop (2 * k), done := s.env.done.drop d,
                                     status := t.env.status, n := t.env.n }
               log   := t.log }
  attempts : t.seq.attempts.toNat = s.seq.attempts.toNat + k
  frames   : ∃ bs : List Byte, bs.length = k ∧ t.frames = bs.map (statusFrame s.cfg) ++ s.frames
               ∧ bs.head? = some t.seq.status
               ∧ (∀ b ∈ bs.tail, statusBusy s.cfg.busyBit b = true)
               ∧ statusBusy s.cfg.busyBit t.seq.status = decide (r = .timeout)

theorem configuredLog_frames (c : Config) (t : Transaction) (fm : FunctionalMode) (om : OperatingMode) (k : BitVec 2) :
    (configuredLog c t fm om k).filterMap Event.frameSent = [] := by
  unfold configuredLog applyConfig
  cases t.address <;> simp [Event.frameSent]

/-- A status read adds one frame. -/
theorem State.statusRead_frames (s : State) (b : Byte) (fl : Flash) (e : Env) :
    (s.statusRead b fl e).frames = statusFrame s.cfg b :: s.frames := by
  simp only [State.frames, State.statusRead_eq, List.filterMap_cons, List.filterMap_append, Event.frameSent,
    configuredLog_frames, List.nil_append]

/-- The state after a status read that found the chip busy, and its count: where the loop goes on. -/
theorem Polled.more {s u t : State} {b : Byte} {st : List Byte} {n k d : Nat} {r : Result} {fl : Flash} {ds : List Bool}
    (hd : s.env.done = false :: ds) (hb : statusBusy s.cfg.busyBit b = true)
    (hu : u = { s.statusRead b s.flash { s.env with done := ds, status := st, n := n } with
                seq := { s.seq with status := b, attempts := s.seq.attempts + 1 } })
    (hlt : s.seq.attempts.toNat + 1 < 2 ^ 32) (h : Polled u t k r fl d) (hk : 0 < k) :
    Polled s t (k + 1) r fl (d + 1) := by
  obtain ⟨h1, h2, bs, h3, h4, h5, h6, h7⟩ := h
  subst hu
  refine ⟨?_, ?_, bs ++ [b], by simp [h3], ?_, ?_, ?_, h7⟩
  · conv_lhs => rw [h1]
    simp only [State.statusRead_eq, hd, List.drop_succ_cons, List.drop_drop]
    rw [show 2 + 2 * k = 2 * (k + 1) by ring]
    rfl
  · rw [h2]
    show (s.seq.attempts + 1).toNat + k = _
    rw [BitVec.toNat_add, show (1 : Word32).toNat = 1 from rfl, Nat.mod_eq_of_lt hlt]
    omega
  · rw [h4]
    have : State.frames { s.statusRead b s.flash { s.env with done := ds, status := st, n := n } with
        seq := { s.seq with status := b, attempts := s.seq.attempts + 1 } } = statusFrame s.cfg b :: s.frames :=
      State.statusRead_frames s b s.flash { s.env with done := ds, status := st, n := n }
    rw [this]
    simp [State.statusRead_eq]
  · cases bs with
    | nil => simp at h3; omega
    | cons x xs => simpa using h5
  · cases bs with
    | nil => simp at h3; omega
    | cons x xs =>
      intro y hy
      simp only [List.cons_append, List.tail_cons, List.mem_append, List.mem_singleton] at hy
      rcases hy with hy | rfl
      · exact h6 y (by simpa using hy)
      · exact hb

theorem State.waitLoop_step {k : Nat} {s : State} {max : Word32} (hw : s.seq.waiting = some max)
    (hlt : s.seq.attempts.toNat < max.toNat) (hp : s.readStatus.seq.phase = .idle) :
    s.waitLoop (k + 1) = s.readStatus.countPoll.waitLoop k := by
  conv_lhs => unfold State.waitLoop
  simp only [hw]
  rw [if_pos (by rw [BitVec.lt_def]; exact hlt), if_pos hp]

/-- The loop ends with `Timeout` once the attempts are used up (R221, R224). -/
theorem State.waitLoop_over {k : Nat} {s : State} {max : Word32} (hw : s.seq.waiting = some max)
    (hlt : ¬ s.seq.attempts.toNat < max.toNat) : s.waitLoop (k + 1) = s.endWait .timeout := by
  conv_lhs => unfold State.waitLoop
  simp only [hw]
  rw [if_neg (by rw [BitVec.lt_def]; exact hlt)]

/-- The loop ends with `Ok` at the first read that finds the chip ready (R223). -/
theorem State.waitLoop_ok {j k : Nat} {s : State} {max : Word32} (hc : s.cfg.wf = true) (hcalm : s.calm)
    (h : s.framed) (hw : s.seq.waiting = some max) (hk : j < k) (hl : s.lets (2 * (j + 1)))
    (hmax : s.seq.attempts.toNat + (j + 1) ≤ max.toNat) (hr : s.readyAfter j) :
    Polled s (s.waitLoop k) (j + 1) .ok (s.flash.finished s.cfg) (if s.flash.wip then j + 1 else 0) := by
  have hmax2 := max.isLt
  induction j generalizing k s with
  | zero =>
    obtain ⟨b, st, n, hb, hrd⟩ := State.readStatus_ready hc hcalm h (State.lets_mono hl (by omega)) hr
    obtain ⟨k, rfl⟩ : ∃ k', k = k' + 1 := ⟨k - 1, by omega⟩
    rw [State.waitLoop_step hw (by omega) (by rw [hrd]; exact hcalm.1), hrd, State.countPoll_eq]
    rw [if_neg (by show ¬ statusBusy s.cfg.busyBit b = true; rw [hb]; simp)]
    rw [State.waitLoop_done rfl]
    refine ⟨?_, ?_, [b], rfl, ?_, rfl, by simp, ?_⟩
    · simp only [State.statusRead_eq]
    · show (s.seq.attempts + 1).toNat = _
      rw [BitVec.toNat_add, show (1 : Word32).toNat = 1 from rfl, Nat.mod_eq_of_lt (by omega)]
    · exact State.statusRead_frames s b (s.flash.finished s.cfg)
        { s.env with done := s.env.done.drop (if s.flash.wip then 1 else 0), status := st, n := n }
    · exact hb
  | succ j ih =>
    rcases hr with ⟨-, h0⟩ | ⟨hwip, hu, hd⟩
    · simp at h0
    · cases hdone : s.env.done with
      | nil => rw [hdone] at hd; simp at hd
      | cons b0 ds =>
        rw [hdone] at hd
        simp only [List.take_succ_cons, List.replicate_succ, List.cons_append, List.cons.injEq] at hd
        obtain ⟨rfl, hds⟩ := hd
        obtain ⟨b, st, n, hb, hrd⟩ := State.readStatus_busy hc hcalm h (State.lets_mono hl (by omega)) hwip hdone
        obtain ⟨k, rfl⟩ : ∃ k', k = k' + 1 := ⟨k - 1, by omega⟩
        rw [State.waitLoop_step hw (by omega) (by rw [hrd]; exact hcalm.1), hrd, State.countPoll_eq]
        rw [if_pos (by show statusBusy s.cfg.busyBit b = true; exact hb)]
        have hlt : s.seq.attempts.toNat + 1 < 2 ^ 32 := by omega
        have hpoll := ih (k := k)
          (s := { s.statusRead b s.flash { s.env with done := ds, status := st, n := n } with
                  seq := { s.seq with status := b, attempts := s.seq.attempts + 1 } })
          hc ⟨hcalm.1, rfl, rfl⟩ h hw (by omega)
          (by
            show (s.env.lift.drop 2).take (2 * (j + 1)) = _
            exact take_drop_replicate (j := 2) (k := 2 * (j + 1))
              (by rw [show 2 + 2 * (j + 1) = 2 * (j + 1 + 1) by ring]; exact hl))
          (by
            show (s.seq.attempts + 1).toNat + (j + 1) ≤ _
            rw [BitVec.toNat_add, show (1 : Word32).toNat = 1 from rfl, Nat.mod_eq_of_lt hlt]
            omega)
          (Or.inr ⟨hwip, hu, hds⟩)
        have hfl : (if (State.flash { s.statusRead b s.flash { s.env with done := ds, status := st, n := n } with
            seq := { s.seq with status := b, attempts := s.seq.attempts + 1 } }).wip = true then j + 1 else 0) = j + 1 := by
          rw [if_pos]; exact hwip
        rw [hfl] at hpoll
        rw [if_pos hwip]
        exact Polled.more hdone hb rfl hlt hpoll (by omega)

/-- The loop ends with `Timeout` after `max` reads that all found the chip busy (R224). -/
theorem State.waitLoop_timeout {j k : Nat} {s : State} {max : Word32} (hc : s.cfg.wf = true) (hcalm : s.calm)
    (h : s.framed) (hw : s.seq.waiting = some max) (hk : j + 1 < k) (hl : s.lets (2 * (j + 1)))
    (hmax : s.seq.attempts.toNat + (j + 1) = max.toNat) (hr : s.busyThrough (j + 1)) :
    Polled s (s.waitLoop k) (j + 1) .timeout s.flash (j + 1) := by
  have hmax2 := max.isLt
  induction j generalizing k s with
  | zero =>
    obtain ⟨hwip, hd⟩ := hr
    cases hdone : s.env.done with
    | nil => rw [hdone] at hd; simp at hd
    | cons b0 ds =>
      rw [hdone] at hd
      simp only [Nat.zero_add, List.take_succ_cons, List.take_zero, List.replicate_one, List.cons.injEq, and_true] at hd
      subst hd
      obtain ⟨b, st, n, hb, hrd⟩ := State.readStatus_busy hc hcalm h (State.lets_mono hl (by omega)) hwip hdone
      obtain ⟨k, rfl⟩ : ∃ k', k = k' + 2 := ⟨k - 2, by omega⟩
      rw [State.waitLoop_step hw (by omega) (by rw [hrd]; exact hcalm.1), hrd, State.countPoll_eq]
      rw [if_pos (by show statusBusy s.cfg.busyBit b = true; exact hb)]
      have hatt : (s.seq.attempts + 1).toNat = s.seq.attempts.toNat + 1 := by
        rw [BitVec.toNat_add, show (1 : Word32).toNat = 1 from rfl, Nat.mod_eq_of_lt (by omega)]
      rw [State.waitLoop_over (max := max) ?_ ?_]
      rotate_left
      · exact hw
      · show ¬ (s.seq.attempts + 1).toNat < max.toNat
        rw [hatt]; omega
      refine ⟨?_, hatt, [b], rfl,
        State.statusRead_frames s b s.flash { s.env with done := ds, status := st, n := n }, rfl, by simp, hb⟩
      simp only [State.endWait, State.statusRead_eq, hdone, List.drop_succ_cons, List.drop_zero]
  | succ j ih =>
    obtain ⟨hwip, hd⟩ := hr
    cases hdone : s.env.done with
    | nil => rw [hdone] at hd; simp at hd
    | cons b0 ds =>
      rw [hdone] at hd
      simp only [List.take_succ_cons, List.replicate_succ, List.cons.injEq] at hd
      obtain ⟨rfl, hds⟩ := hd
      obtain ⟨b, st, n, hb, hrd⟩ := State.readStatus_busy hc hcalm h (State.lets_mono hl (by omega)) hwip hdone
      obtain ⟨k, rfl⟩ : ∃ k', k = k' + 1 := ⟨k - 1, by omega⟩
      rw [State.waitLoop_step hw (by omega) (by rw [hrd]; exact hcalm.1), hrd, State.countPoll_eq]
      rw [if_pos (by show statusBusy s.cfg.busyBit b = true; exact hb)]
      have hlt : s.seq.attempts.toNat + 1 < 2 ^ 32 := by omega
      have hatt : (s.seq.attempts + 1).toNat = s.seq.attempts.toNat + 1 := by
        rw [BitVec.toNat_add, show (1 : Word32).toNat = 1 from rfl, Nat.mod_eq_of_lt hlt]
      have hpoll := ih (k := k)
        (s := { s.statusRead b s.flash { s.env with done := ds, status := st, n := n } with
                seq := { s.seq with status := b, attempts := s.seq.attempts + 1 } })
        hc ⟨hcalm.1, rfl, rfl⟩ h hw (by omega)
        (by
          show (s.env.lift.drop 2).take (2 * (j + 1)) = _
          exact take_drop_replicate (j := 2) (k := 2 * (j + 1))
            (by rw [show 2 + 2 * (j + 1) = 2 * (j + 1 + 1) by ring]; exact hl))
        (by show (s.seq.attempts + 1).toNat + (j + 1) = _; rw [hatt]; omega)
        ⟨hwip, by show ds.take (j + 1) = _; simpa [List.replicate_succ] using hds⟩
      exact Polled.more hdone hb rfl hlt hpoll (by omega)

/-- The poll of a whole operation that ends with `Ok` (R223). -/
theorem State.waitUntilReady_ok {j : Nat} {s : State} {max : Word32} (hc : s.cfg.wf = true) (hcalm : s.calm)
    (h : s.framed) (hl : s.lets (2 * (j + 1))) (hmax : j + 1 ≤ max.toNat) (hr : s.readyAfter j) :
    Polled { s with seq := { s.seq with attempts := 0, waiting := some max } } (s.waitUntilReady max) (j + 1) .ok
      (s.flash.finished s.cfg) (if s.flash.wip then j + 1 else 0) :=
  State.waitLoop_ok (s := { s with seq := { s.seq with attempts := 0, waiting := some max } }) hc hcalm h rfl (by omega)
    hl (by show (0 : Word32).toNat + (j + 1) ≤ _; simpa using hmax) hr

/-- The poll of a whole operation that ends with `Timeout` (R224). -/
theorem State.waitUntilReady_timeout {s : State} {max : Word32} (hc : s.cfg.wf = true) (hcalm : s.calm)
    (h : s.framed) (hl : s.lets (2 * max.toNat)) (h0 : 0 < max.toNat) (hr : s.busyThrough max.toNat) :
    Polled { s with seq := { s.seq with attempts := 0, waiting := some max } } (s.waitUntilReady max) max.toNat .timeout
      s.flash max.toNat := by
  obtain ⟨j, hj⟩ : ∃ j, max.toNat = j + 1 := ⟨max.toNat - 1, by omega⟩
  rw [hj] at hl hr ⊢
  unfold State.waitUntilReady
  rw [hj]
  exact State.waitLoop_timeout (s := { s with seq := { s.seq with attempts := 0, waiting := some max } }) hc hcalm h rfl
    (by omega) hl (by show (0 : Word32).toNat + (j + 1) = _; simp [hj]) hr

/-- A bound of 0 makes no read and ends with `Timeout` (R225 a). -/
theorem State.waitUntilReady_zero (s : State) :
    s.waitUntilReady 0 = { s with seq := { s.seq with attempts := 0, r := .timeout, waiting := none } } := by
  unfold State.waitUntilReady
  rw [show (0 : Word32).toNat + 1 = 0 + 1 from rfl]
  exact State.waitLoop_over (max := 0) rfl (by simp)

end Sys2Proof.Machine
end

