-- ==== Sys2Proof/Laws/Calls.lean ====
section
/-! SUPPORT. `apply` with a chip of any kind: whatever the chip does with the frame, an indirect call whose waits CTRL
lifts returns, and leaves the registers, the FIFO and one frame as R184 says. -/

namespace Sys2Proof.Machine

open Sys2Proof

/-- The end of a write, whatever the chip does with the frame (R105, R181). -/
theorem State.waitMany_await_any {k : Nat} {s : State} {fl : Inflight} {l : List Bool}
    (hp : s.seq.phase = .await) (hm : s.cr.fmode ≠ 3) (hb : s.cr.busy = true) (hi : s.ctrl.inflight = some fl)
    (hdir : fl.frame.dir = .write) (hdel : fl.delivered = false) (hlen : s.ctrl.fifo.length = fl.frame.len)
    (hl : s.env.lift = true :: true :: l) :
    ∃ (c : Flash) (e : Env), e.slice = s.env.slice ∧ e.enable = s.env.enable ∧ e.lift = l
      ∧ s.waitMany (k + 2)
        = { s with
            seq   := { s.seq with phase := .idle }
            cr    := { s.cr with busy := false }
            ctrl  := { s.ctrl with fifo := [], inflight := none }
            flash := c
            env   := e
            log   := .getBusy false :: .getBusy true :: .frame { fl.frame with data := s.ctrl.fifo } :: s.log } := by
  have htake : s.ctrl.fifo.take fl.frame.len = s.ctrl.fifo := by rw [← hlen]; exact List.take_length
  have hdrop : s.ctrl.fifo.drop fl.frame.len = [] := by rw [← hlen]; exact List.drop_length
  have hon := State.chipReceive_only { fl.frame with data := s.ctrl.fifo } { s with env := { s.env with lift := true :: l } }
  generalize hr : (State.chipReceive { fl.frame with data := s.ctrl.fifo } { s with env := { s.env with lift := true :: l } }).2 = r
    at hon
  have hsame := hon.same
  have hdel1 : ({ s with env := { s.env with lift := true :: l } } : State).controllerStep
      = { s with
          ctrl  := { s.ctrl with fifo := [], inflight := some { frame := { fl.frame with data := s.ctrl.fifo }, delivered := true } }
          flash := r.flash
          env   := r.env
          log   := .frame { fl.frame with data := s.ctrl.fifo } :: s.log } := by
    simp only [State.controllerStep, State.undelivered, Ctrl.cutShort, hi, hdel, Bool.not_false, if_true, State.deliver,
      hdir, htake, hdrop]
    dsimp only at hr
    rw [hdir] at hr
    rw [hr]
    conv_lhs => rw [hsame]
  have hlift : r.env.lift = true :: l := hon.lift
  refine ⟨r.flash, { r.env with lift := l }, hon.slice, hon.enable, rfl, ?_⟩
  rw [show k + 2 = (k + 1) + 1 by rfl, State.waitMany_step (by rw [hp]; simp), State.waitOnce_await hp hm hl, hdel1]
  dsimp only
  rw [hb, if_pos rfl, if_pos rfl]
  exact State.waitMany_await_done (fl := { frame := { fl.frame with data := s.ctrl.fifo }, delivered := true }) hp hm rfl
    rfl hlift

/-- A whole indirect write, whatever the chip does with the frame (R170 to R181, R184). -/
theorem State.apply_write_any {s : State} {t : Transaction} {om : OperatingMode} {d : List Byte}
    (hcalm : s.calm) (hn : t.dataLength.toNat = d.length)
    (hd : ∀ j (h : j < d.length), t.data.byte s j = some d[j]) (hl : s.lets (d.length + 2)) :
    ∃ (c : Flash) (e : Env), e.slice = s.env.slice ∧ e.enable = s.env.enable ∧ e.lift = s.env.lift.drop (d.length + 2)
      ∧ s.apply t .indirectWrite om = { s.written t om d c with env := e } := by
  obtain ⟨hp, -, hf⟩ := hcalm
  have hcfg : (s.configure t .indirectWrite om).launch .indirectWrite
      = { s with
          tr := t, fm := .indirectWrite
          cr := { s.cr.configured s.cfg t .indirectWrite om 0 with busy := true }
          ctrl := { fifo := [], inflight := some { frame := launchedFrame s.cfg t om .write, delivered := false },
                    readCmd := none, prefetch := [] }
          seq := { s.seq with phase := if 0 < t.dataLength.toNat then .push 0 else .await }
          log := .launch :: (configuredLog s.cfg t .indirectWrite om 0 ++ s.log) } := by
    rw [State.configure_eq rfl]
    simp [State.launch, State.launchIndirect, State.setPhase, State.pushPhase, Ctrl.leaveMapped, hf]
    exact decodeFrame_configured_write s.cr s.cfg t om
  unfold State.apply State.finishApply
  rw [hcfg]
  dsimp only
  rw [hn]
  by_cases hz : d.length = 0
  · obtain rfl : d = [] := List.length_eq_zero_iff.mp hz
    have h3 : s.env.lift = true :: true :: s.env.lift.drop 2 := take_two hl
    rw [if_neg (by simp)]
    rw [show ([] : List Byte).length + 4 = 2 + 2 by rfl]
    obtain ⟨c, e, e1, e2, e3, e4⟩ := State.waitMany_await_any (k := 2)
      (s := { s with
          tr := t, fm := .indirectWrite
          cr := { s.cr.configured s.cfg t .indirectWrite om 0 with busy := true }
          ctrl := { fifo := [], inflight := some { frame := launchedFrame s.cfg t om .write, delivered := false },
                    readCmd := none, prefetch := [] }
          seq := { s.seq with phase := .await }
          log := .launch :: (configuredLog s.cfg t .indirectWrite om 0 ++ s.log) })
      (fl := { frame := launchedFrame s.cfg t om .write, delivered := false }) (l := s.env.lift.drop 2)
      rfl (by simp [CR.configured]) rfl rfl rfl rfl (by simp [launchedFrame, hn]) h3
    refine ⟨c, e, e1, e2, e3, e4.trans ?_⟩
    simp only [State.written, List.nil_append, List.map_nil, List.reverse_nil, Seq.phase_idle hp]
  · have hz : 0 < d.length := Nat.pos_of_ne_zero hz
    have h3 : s.env.lift.drop d.length = true :: true :: s.env.lift.drop (d.length + 2) := by
      rw [← List.drop_drop]; exact take_two (take_drop_replicate (j := d.length) (k := 2) hl)
    rw [if_pos hz]
    obtain ⟨c, e, e1, e2, e3, e4⟩ := State.waitMany_await_any (k := 2)
      (s := { s with
          tr := t, fm := .indirectWrite
          cr := { s.cr.configured s.cfg t .indirectWrite om 0 with busy := true }
          ctrl := { fifo := [] ++ d, inflight := some { frame := launchedFrame s.cfg t om .write, delivered := false },
                    readCmd := none, prefetch := [] }
          seq := { s.seq with phase := .await }
          env := { s.env with lift := s.env.lift.drop d.length }
          log := (d.map Event.push).reverse ++ (.launch :: (configuredLog s.cfg t .indirectWrite om 0 ++ s.log)) })
      (fl := { frame := launchedFrame s.cfg t om .write, delivered := false }) (l := s.env.lift.drop (d.length + 2))
      rfl (by simp [CR.configured]) rfl rfl rfl rfl (by simp [launchedFrame, hn]) h3
    refine ⟨c, e, e1, e2, e3, ?_⟩
    refine (State.waitMany_push (k := 4) (i := 0) (d := d) ?_ ?_ hz ?_ ?_).trans (e4.trans ?_)
    · rfl
    · simpa using hn
    · intro j h
      rw [Nat.zero_add]
      exact (DataRef.byte_congr rfl rfl rfl rfl).trans (hd j h)
    · exact State.lets_mono hl (by omega)
    · simp only [State.written, List.nil_append, Seq.phase_idle hp]

/-- A whole indirect read of one byte, whatever the chip does with the frame (R170 to R181, R184). -/
theorem State.apply_read_any {s : State} {t : Transaction} {om : OperatingMode} (hcalm : s.calm)
    (hn : t.dataLength.toNat = 1) (hl : s.lets 2) :
    ∃ (b : Byte) (c : Flash) (e : Env), e.slice = s.env.slice ∧ e.enable = s.env.enable
      ∧ s.apply t .indirectRead om = s.received t om b c e := by
  obtain ⟨hp, -, hf⟩ := hcalm
  have h2 := take_two hl
  have hcfg : (s.configure t .indirectRead om).launch .indirectRead
      = { s with
          tr := t, fm := .indirectRead
          cr := { s.cr.configured s.cfg t .indirectRead om 1 with busy := true }
          ctrl := { fifo := [], inflight := some { frame := launchedFrame s.cfg t om .read, delivered := false },
                    readCmd := none, prefetch := [] }
          seq := { s.seq with phase := .pop 0 }
          log := .launch :: (configuredLog s.cfg t .indirectRead om 1 ++ s.log) } := by
    rw [State.configure_eq rfl]
    simp [State.launch, State.launchIndirect, State.setPhase, State.popPhase, Ctrl.leaveMapped, hf, hn]
    exact decodeFrame_configured_read s.cr s.cfg t om
  have hlen : (launchedFrame s.cfg t om .read).len = 1 := by simp [launchedFrame, hn]
  unfold State.apply State.finishApply
  rw [hcfg]
  dsimp only
  rw [hn]
  generalize hu : ({ s with
          tr := t, fm := .indirectRead
          cr := { s.cr.configured s.cfg t .indirectRead om 1 with busy := true }
          ctrl := { fifo := [], inflight := some { frame := launchedFrame s.cfg t om .read, delivered := false },
                    readCmd := none, prefetch := [] }
          seq := { s.seq with phase := .pop 0 }
          env := { s.env with lift := true :: s.env.lift.drop 2 }
          log := .launch :: (configuredLog s.cfg t .indirectRead om 1 ++ s.log) } : State) = u
  have hon := State.chipReceive_only (launchedFrame s.cfg t om .read) u
  have hlen1 : (State.chipReceive (launchedFrame s.cfg t om .read) u).1.length = 1 := by
    rw [State.chipReceive_length u rfl, hlen]
  obtain ⟨b, hb⟩ := List.length_eq_one_iff.mp hlen1
  generalize hr : (State.chipReceive (launchedFrame s.cfg t om .read) u).2 = r at hon
  have hsame := hon.same
  have hlift : r.env.lift = true :: s.env.lift.drop 2 := by rw [hon.lift, ← hu]
  refine ⟨b, r.flash, r.env, ?_, ?_, ?_⟩
  · rw [hon.slice, ← hu]
  · rw [hon.enable, ← hu]
  · refine (State.waitMany_read (f := launchedFrame s.cfg t om .read) (b := b) (fl := r.flash) (e := r.env)
      (l := s.env.lift.drop 2) ?_ ?_ ?_ ?_ ?_ ?_ ?_ ?_).trans ?_
    · rfl
    · simp [CR.configured]
    · rfl
    · rfl
    · rfl
    · exact hn
    · exact h2
    · have hpair : State.chipReceive (launchedFrame s.cfg t om .read) u = ([b], r) := Prod.ext hb hr
      have hr2 : r = { u with flash := r.flash, env := r.env } := hsame
      have : State.chipReceive (launchedFrame s.cfg t om .read) u
          = ([b], { u with flash := r.flash, env := { r.env with lift := true :: s.env.lift.drop 2 } }) := by
        rw [hpair]
        congr 1
        rw [← hlift]
        exact hr2
      rw [← hu] at this
      exact this
    · simp only [State.received]
      congr 1
      cases hs : s.seq; rw [hs] at hp; cases hp; rfl

end Sys2Proof.Machine
end

