-- ==== Sys2Proof/Laws/Operations.lean ====
section
/-! SUPPORT. The lines of the listings when CTRL takes the steps their waits ask for: the shared skeleton
`WriteEnable → command → waitUntilReady → RESTORE → RET` (R262), and `initialize` line by line (R265). -/

namespace Sys2Proof.Machine

open Sys2Proof

/-! ### Running lines -/

theorem State.run_idle {k : Nat} {s : State} (h : s.seq.state = .idle) : State.run k s = s := by
  cases k with
  | zero => rfl
  | succ k => simp [State.run, h]

theorem State.run_held {k : Nat} {s : State} (h : s.held = true) : State.run k s = s := by
  cases k with
  | zero => rfl
  | succ k => simp [State.run, h]

theorem State.run_succ {k : Nat} {s : State} (hr : s.seq.state = .running) (hh : s.held = false) :
    State.run (k + 1) s = State.run k s.line := by
  conv_lhs => unfold State.run
  simp [hr, hh]

theorem State.held_of_calm {s : State} (h : s.calm) (hw : s.seq.waiting = none) : s.held = false := by
  simp [State.held, h.1, hw]

/-- A line whose calls have returned makes its move. -/
theorem State.line_finish {s : State} (h : s.startLine.held = false) : s.line = s.startLine.finishLine := by
  simp [State.line, h]

/-! ### The destructive skeleton -/

/-- The destructive transaction that follows the WriteEnable at a label, its data, and what the chip works on
(R270, R274, R277). -/
def State.destructive (s : State) : Transaction × List Byte × Pending :=
  match s.seq.step with
  | .s1 => (Transaction.sectorErase (flashAddress s.seq.addr), [], .sectorErase (flashAddress s.seq.addr).toNat)
  | .w3 => (Transaction.pageProgram (chunkAddress s.seq.addr s.seq.off) s.seq.off s.seq.chunk,
      (s.host.buffer.drop s.seq.off.toNat).take s.seq.chunk.toNat,
      .program (chunkAddress s.seq.addr s.seq.off).toNat ((s.host.buffer.drop s.seq.off.toNat).take s.seq.chunk.toNat))
  | _ => (Transaction.send .chipErase, [], .chipErase)

/-- The destructive transaction is inside the device and its bytes are there. -/
def State.destructiveFits (s : State) : Prop :=
  match s.seq.step with
  | .s1 => (flashAddress s.seq.addr).toNat < s.cfg.flashSize
  | .w3 => (chunkAddress s.seq.addr s.seq.off).toNat < s.cfg.flashSize
      ∧ s.seq.off.toNat + s.seq.chunk.toNat ≤ s.host.buffer.length
      ∧ s.clearOfWindow (s.seq.off.toNat + s.seq.chunk.toNat)
  | _ => True

/-- The chip at work on an operation it accepted. -/
def Flash.working (c : Config) (p : Pending) (fl : Flash) : Flash :=
  ({ fl with wel := true } : Flash).startWork c p

/-- The chip after an operation it accepted has ended. -/
def Flash.worked (c : Config) (p : Pending) (fl : Flash) : Flash :=
  { wel := false, wip := false, framing := fl.framing, array := p.result c fl.array, pending := .nothing, found := []
    work := fl.work + 1 }

/-- The end of the work (R99 to R102). -/
theorem Flash.working_finished {c : Config} {p : Pending} {fl : Flash}
    (h : p ≠ .nothing ∧ p ≠ .unknown) : (fl.working c p).finished c = fl.worked c p := by
  cases p <;> first | rfl | exact absurd rfl h.1 | exact absurd rfl h.2

/-- The state after the WriteEnable and the destructive transaction of a maintenance operation. -/
def State.issued (s : State) : State :=
  (((s.written (Transaction.send .writeEnable) s.cfg.omDefault [] { s.flash with wel := true }).nextLabel).written
    s.destructive.1 s.cfg.omDefault s.destructive.2.1 (s.flash.working s.cfg s.destructive.2.2)).nextLabel

theorem State.run_issue {k : Nat} {s : State} (hc : s.cfg.wf = true) (hr : s.seq.state = .running)
    (hw : s.seq.waiting = none) (hcalm : s.calm) (h : s.chipReady) (hfit : s.destructiveFits)
    (hstep : s.seq.step = .m0 ∨ s.seq.step = .s1 ∨ s.seq.step = .w3)
    (hl : s.lets (s.destructive.2.1.length + 4)) : State.run (k + 2) s = State.run k s.issued := by
  have hlen : (s.destructive.2.1.length + 4) = 2 + (s.destructive.2.1.length + 2) := by omega
  have hl2 : (s.env.lift.drop 2).take (s.destructive.2.1.length + 2)
      = List.replicate (s.destructive.2.1.length + 2) true := by
    unfold State.lets at hl
    rw [hlen] at hl
    exact take_drop_replicate hl
  -- the WriteEnable line
  have e1 : s.startLine = s.written (Transaction.send .writeEnable) s.cfg.omDefault [] { s.flash with wel := true } := by
    rw [← State.apply_writeEnable hc hcalm h (State.lets_mono hl (by omega))]
    rcases hstep with hs | hs | hs <;> simp only [State.startLine, hs]
  have e2 : s.line
      = (s.written (Transaction.send .writeEnable) s.cfg.omDefault [] { s.flash with wel := true }).nextLabel := by
    rw [State.line_finish (by rw [e1]; exact State.held_of_calm (s := s) hcalm hw), e1]
    unfold State.finishLine
    rcases hstep with hs | hs | hs <;>
      rw [show (s.written (Transaction.send .writeEnable) s.cfg.omDefault [] { s.flash with wel := true }).seq.step
        = s.seq.step from rfl, hs]
  rw [State.run_succ hr (State.held_of_calm hcalm hw), e2]
  -- the destructive line
  generalize hu : (s.written (Transaction.send .writeEnable) s.cfg.omDefault [] { s.flash with wel := true }).nextLabel = u
  have hucfg : u.cfg = s.cfg := by rw [← hu]; rfl
  have huhost : u.host = s.host := by rw [← hu]; rfl
  have hustep : u.seq.step = s.seq.step.next := by rw [← hu]; rfl
  have huaddr : u.seq.addr = s.seq.addr := by rw [← hu]; rfl
  have huoff : u.seq.off = s.seq.off := by rw [← hu]; rfl
  have huchunk : u.seq.chunk = s.seq.chunk := by rw [← hu]; rfl
  have hucalm : u.calm := by rw [← hu]; exact ⟨hcalm.1, rfl, rfl⟩
  have huw : u.seq.waiting = none := by rw [← hu]; exact hw
  have hur : u.seq.state = .running := by rw [← hu]; exact hr
  have hul : u.lets (s.destructive.2.1.length + 2) := by rw [← hu]; exact hl2
  have huflash : u.flash = { s.flash with wel := true } := by rw [← hu]; rfl
  have hready : u.chipReady := by rw [← hu]; exact ⟨h.1, h.2⟩
  have huc : u.cfg.wf = true := by rw [hucfg]; exact hc
  have e3 : u.startLine = u.written s.destructive.1 u.cfg.omDefault s.destructive.2.1 (s.flash.working s.cfg s.destructive.2.2) := by
    rcases hstep with hs | hs | hs
    · have hd : s.destructive = (Transaction.send .chipErase, [], .chipErase) := by simp [State.destructive, hs]
      rw [hd] at hul ⊢
      rw [hs] at hustep
      simp only [State.startLine, hustep, Label.next]
      rw [State.apply_chipErase huc hucalm hready hul, huflash, hucfg]
      rfl
    · have hd : s.destructive = (Transaction.sectorErase (flashAddress s.seq.addr), [],
          .sectorErase (flashAddress s.seq.addr).toNat) := by simp [State.destructive, hs]
      rw [hd] at hul ⊢
      rw [hs] at hustep
      unfold State.destructiveFits at hfit
      rw [hs] at hfit
      simp only [State.startLine, hustep, Label.next]
      rw [huaddr, State.apply_sectorErase huc hucalm hready (by rw [hucfg]; exact hfit) hul, huflash, hucfg]
      rfl
    · have hd : s.destructive = (Transaction.pageProgram (chunkAddress s.seq.addr s.seq.off) s.seq.off s.seq.chunk,
          (s.host.buffer.drop s.seq.off.toNat).take s.seq.chunk.toNat,
          .program (chunkAddress s.seq.addr s.seq.off).toNat
            ((s.host.buffer.drop s.seq.off.toNat).take s.seq.chunk.toNat)) := by simp [State.destructive, hs]
      unfold State.destructiveFits at hfit
      rw [hs] at hfit hustep
      have hlen : ((s.host.buffer.drop s.seq.off.toNat).take s.seq.chunk.toNat).length = s.seq.chunk.toNat := by
        simp only [List.length_take, List.length_drop]; omega
      rw [hd] at hul ⊢
      simp only [State.startLine, hustep, Label.next]
      rw [huaddr, huoff, huchunk,
        State.apply_pageProgram huc hucalm hready (by rw [hucfg]; exact hfit.1) (by rw [huhost]; exact hfit.2.1)
          (by unfold State.clearOfWindow; rw [huhost, hucfg]; exact hfit.2.2) (by rw [← hlen]; exact hul), huflash, huhost,
          hucfg]
      rfl
  have e4 : u.line = (u.written s.destructive.1 u.cfg.omDefault s.destructive.2.1 (s.flash.working s.cfg s.destructive.2.2)).nextLabel := by
    rw [State.line_finish (by rw [e3]; exact State.held_of_calm (s := u) hucalm huw), e3]
    unfold State.finishLine
    rw [show (u.written s.destructive.1 u.cfg.omDefault s.destructive.2.1 (s.flash.working s.cfg s.destructive.2.2)).seq.step
      = u.seq.step from rfl, hustep]
    rcases hstep with hs | hs | hs <;> simp only [hs, Label.next]
  rw [State.run_succ hur (State.held_of_calm hucalm huw), e4, hucfg]
  unfold State.issued
  rw [hu]

/-! ### The poll that follows, and the restoration -/

/-- The frame of the WriteEnable of a maintenance operation. -/
def writeEnableFrame (c : Config) : Frame := launchedFrame c (Transaction.send .writeEnable) c.omDefault .write

theorem State.written_frames (s : State) (t : Transaction) (om : OperatingMode) (d : List Byte) (fl : Flash) :
    (s.written t om d fl).frames = { launchedFrame s.cfg t om .write with data := d } :: s.frames := by
  simp only [State.frames, State.written, List.filterMap_cons, List.filterMap_append, Event.frameSent,
    configuredLog_frames, List.nil_append, List.filterMap_reverse, List.filterMap_map]
  have : List.filterMap (Event.frameSent ∘ Event.push) d = [] := by
    rw [List.filterMap_eq_nil_iff]; intro b _; rfl
  rw [this]; rfl

theorem State.issued_frames (s : State) :
    s.issued.frames = { launchedFrame s.cfg s.destructive.1 s.cfg.omDefault .write with data := s.destructive.2.1 }
      :: writeEnableFrame s.cfg :: s.frames := by
  have hn : ∀ u : State, u.nextLabel.frames = u.frames := fun _ => rfl
  unfold State.issued
  rw [hn, State.written_frames, hn, State.written_frames]
  rfl

/-- `v` is where the poll after a destructive command leaves an operation that stood at its WriteEnable in `s`: `k`
reads, the result `r`, the chip as `fl` (R262). -/
structure Issued (s v : State) (k : Nat) (r : Result) (fl : Flash) : Prop where
  cfg      : v.cfg = s.cfg
  host     : v.host = s.host
  widths   : v.widths = s.widths
  seq      : v.seq = { s.seq with step := v.seq.step, attempts := v.seq.attempts, status := v.seq.status, r := r }
  attempts : v.seq.attempts.toNat = k
  ctrl     : v.ctrl = { fifo := [], inflight := none, readCmd := none, prefetch := [] }
  en       : v.cr.en = s.cr.en
  addrw    : v.cr.addrw = s.cr.addrw
  timing   : v.cr.timing = s.cr.timing
  busy     : v.cr.busy = false
  flash    : v.flash = fl
  slice    : v.env.slice = s.env.slice
  enable   : v.env.enable = s.env.enable
  lift     : v.env.lift = s.env.lift.drop (s.destructive.2.1.length + 4 + 2 * k)
  done     : v.env.done = s.env.done.drop k
  frames   : ∃ bs : List Byte, bs.length = k
               ∧ v.frames = bs.map (statusFrame s.cfg)
                   ++ { launchedFrame s.cfg s.destructive.1 s.cfg.omDefault .write with data := s.destructive.2.1 }
                     :: writeEnableFrame s.cfg :: s.frames
               ∧ (r = .timeout → ∀ b ∈ bs, statusBusy s.cfg.busyBit b = true)
               ∧ (r = .ok → ∃ b rest, bs = b :: rest ∧ statusBusy s.cfg.busyBit b = false
                   ∧ ∀ b ∈ rest, statusBusy s.cfg.busyBit b = true)

/-- From a poll of `k` reads to the skeleton's record of it. -/
theorem Issued.of_polled {s v : State} {k : Nat} {r : Result} {fl : Flash} {max : Word32} {l : Label}
    (hw : s.seq.waiting = none) (hr : r = .ok ∨ r = .timeout)
    (h : Polled { s.issued with seq := { s.issued.seq with attempts := 0, waiting := some max } } v k r fl k) :
    Issued s (v.goto l) k r fl := by
  obtain ⟨h1, h2, bs, h3, h4, h5, h6, h7⟩ := h
  have h7 : statusBusy s.cfg.busyBit v.seq.status = decide (r = .timeout) := h7
  have h6 : ∀ b ∈ bs.tail, statusBusy s.cfg.busyBit b = true := h6
  have hlift : List.drop (2 * k) s.issued.env.lift = s.env.lift.drop (s.destructive.2.1.length + 4 + 2 * k) := by
    show List.drop (2 * k) (List.drop (s.destructive.2.1.length + 2) (List.drop 2 s.env.lift)) = _
    rw [List.drop_drop, List.drop_drop]; congr 1; omega
  refine ⟨by rw [State.goto_cfg, h1]; rfl, by rw [State.goto_host, h1]; rfl, by rw [State.goto_widths, h1]; rfl, ?_, ?_,
    by rw [State.goto_ctrl, h1], by rw [State.goto_cr, h1]; rfl, by rw [State.goto_cr, h1]; rfl,
    by rw [State.goto_cr, h1]; rfl, by rw [State.goto_cr, h1], by rw [State.goto_flash, h1],
    by rw [State.goto_env, h1]; rfl, by rw [State.goto_env, h1]; rfl, ?_, by rw [State.goto_env, h1]; rfl, bs, h3, ?_, ?_, ?_⟩
  · rw [State.goto_seq]
    conv_lhs => rw [h1]
    simp only [State.issued, State.written, State.nextLabel_seq, hw]
  · show v.seq.attempts.toNat = k
    rw [h2]; show (0 : Word32).toNat + k = k; simp
  · rw [State.goto_env, h1]; exact hlift
  · show v.frames = _
    rw [h4]
    show _ ++ s.issued.frames = _
    rw [State.issued_frames]
    rfl
  · intro hto
    subst hto
    cases bs with
    | nil => simp
    | cons b rest =>
      simp only [List.head?_cons, Option.some.injEq] at h5
      intro y hy
      rcases List.mem_cons.mp hy with rfl | hy
      · rw [h5]; simpa using h7
      · exact h6 y hy
  · intro hok
    subst hok
    cases bs with
    | nil => simp at h5
    | cons b rest =>
      simp only [List.head?_cons, Option.some.injEq] at h5
      exact ⟨b, rest, rfl, by rw [h5]; simpa using h7, h6⟩

theorem State.issued_step (s : State) : s.issued.seq.step = s.seq.step.next.next := rfl

theorem State.issued_start {s : State} (hstep : s.seq.step = .m0 ∨ s.seq.step = .s1 ∨ s.seq.step = .w3) :
    s.issued.startLine = s.issued.waitUntilReady s.cfg.maxAttempts := by
  unfold State.startLine
  rcases hstep with hs | hs | hs <;> simp only [State.issued_step, hs, Label.next] <;> rfl

/-- The skeleton with a chip that becomes ready in time (R223, R262): three lines. -/
theorem State.run_skeleton_ok {j k : Nat} {s : State} (hc : s.cfg.wf = true) (hr : s.seq.state = .running)
    (hw : s.seq.waiting = none) (hcalm : s.calm) (h : s.chipReady) (hfit : s.destructiveFits)
    (hstep : s.seq.step = .m0 ∨ s.seq.step = .s1 ∨ s.seq.step = .w3)
    (hl : s.lets (s.destructive.2.1.length + 4 + 2 * (j + 1))) (hmax : j + 1 ≤ s.cfg.maxAttempts.toNat)
    (hdone : s.env.done.take (j + 1) = List.replicate j false ++ [true]) :
    ∃ v, State.run (k + 3) s = State.run k v ∧ v.seq.step = s.seq.step.next.next.next
      ∧ Issued s v (j + 1) .ok (s.flash.worked s.cfg s.destructive.2.2) := by
  rw [show k + 3 = (k + 1) + 2 by rfl,
    State.run_issue hc hr hw hcalm h hfit hstep (State.lets_mono hl (by omega))]
  have hicalm : s.issued.calm := ⟨hcalm.1, rfl, rfl⟩
  have hil : s.issued.lets (2 * (j + 1)) := by
    show List.take _ (List.drop (s.destructive.2.1.length + 2) (List.drop 2 s.env.lift)) = _
    rw [List.drop_drop]
    exact take_drop_replicate (by
      rw [show 2 + (s.destructive.2.1.length + 2) + 2 * (j + 1) = s.destructive.2.1.length + 4 + 2 * (j + 1) by omega]
      exact hl)
  have hpend : s.destructive.2.2 ≠ .nothing ∧ s.destructive.2.2 ≠ .unknown := by
    unfold State.destructive
    split <;> simp
  have hp := State.waitUntilReady_ok (s := s.issued) (max := s.cfg.maxAttempts) (j := j) hc hicalm h.2 hil hmax
    (Or.inr ⟨rfl, hpend.2, hdone⟩)
  have hfin : s.issued.flash.finished s.cfg = s.flash.worked s.cfg s.destructive.2.2 := Flash.working_finished hpend
  have hwip : s.issued.flash.wip = true := rfl
  rw [show s.issued.cfg = s.cfg from rfl, hfin, hwip, if_pos rfl] at hp
  have hheld : (s.issued.waitUntilReady s.cfg.maxAttempts).held = false := by
    rw [hp.same]; exact State.held_of_calm (s := { s.issued with seq := { s.issued.seq with waiting := none } }) hicalm rfl
  have hr3 : (s.issued.waitUntilReady s.cfg.maxAttempts).seq.r = .ok := by rw [hp.same]
  have hst : (s.issued.waitUntilReady s.cfg.maxAttempts).seq.step = s.seq.step.next.next := by rw [hp.same]; rfl
  have hline : s.issued.line = (s.issued.waitUntilReady s.cfg.maxAttempts).goto s.seq.step.next.next.next := by
    rw [State.line_finish (by rw [State.issued_start hstep]; exact hheld), State.issued_start hstep]
    unfold State.finishLine
    rw [hst, hr3]
    rcases hstep with hs | hs | hs <;> simp only [hs, Label.next] <;>
      (unfold State.nextLabel; rw [hst, hs]; rfl)
  rw [State.run_succ (s := s.issued) hr (State.held_of_calm hicalm hw), hline]
  exact ⟨_, rfl, rfl, Issued.of_polled (max := s.cfg.maxAttempts) hw (Or.inl rfl) hp⟩

/-- The skeleton with a chip that stays busy (R224, R262, R307): three lines, and control at `RESTORE`. -/
theorem State.run_skeleton_timeout {k : Nat} {s : State} (hc : s.cfg.wf = true) (hr : s.seq.state = .running)
    (hw : s.seq.waiting = none) (hcalm : s.calm) (h : s.chipReady) (hfit : s.destructiveFits)
    (hstep : s.seq.step = .m0 ∨ s.seq.step = .s1 ∨ s.seq.step = .w3)
    (hl : s.lets (s.destructive.2.1.length + 4 + 2 * s.cfg.maxAttempts.toNat))
    (hdone : s.env.done.take s.cfg.maxAttempts.toNat = List.replicate s.cfg.maxAttempts.toNat false) :
    ∃ v, State.run (k + 3) s = State.run k v ∧ v.seq.step = .restore
      ∧ Issued s v s.cfg.maxAttempts.toNat .timeout (s.flash.working s.cfg s.destructive.2.2) := by
  rw [show k + 3 = (k + 1) + 2 by rfl,
    State.run_issue hc hr hw hcalm h hfit hstep (State.lets_mono hl (by omega))]
  have hicalm : s.issued.calm := ⟨hcalm.1, rfl, rfl⟩
  have hil : s.issued.lets (2 * s.cfg.maxAttempts.toNat) := by
    show List.take _ (List.drop (s.destructive.2.1.length + 2) (List.drop 2 s.env.lift)) = _
    rw [List.drop_drop]
    exact take_drop_replicate (by
      rw [show 2 + (s.destructive.2.1.length + 2) + 2 * s.cfg.maxAttempts.toNat
        = s.destructive.2.1.length + 4 + 2 * s.cfg.maxAttempts.toNat by omega]
      exact hl)
  have hp : Polled { s.issued with seq := { s.issued.seq with attempts := 0, waiting := some s.cfg.maxAttempts } }
      (s.issued.waitUntilReady s.cfg.maxAttempts) s.cfg.maxAttempts.toNat .timeout s.issued.flash s.cfg.maxAttempts.toNat
      ∨ s.cfg.maxAttempts.toNat = 0 := by
    by_cases h0 : 0 < s.cfg.maxAttempts.toNat
    · exact Or.inl (State.waitUntilReady_timeout (s := s.issued) (max := s.cfg.maxAttempts) hc hicalm h.2 hil h0
        ⟨rfl, hdone⟩)
    · exact Or.inr (by omega)
  have hshape : (s.issued.waitUntilReady s.cfg.maxAttempts).held = false
      ∧ (s.issued.waitUntilReady s.cfg.maxAttempts).seq.r = .timeout
      ∧ (s.issued.waitUntilReady s.cfg.maxAttempts).seq.step = s.seq.step.next.next := by
    rcases hp with hp | hp
    · refine ⟨?_, by rw [hp.same], by rw [hp.same]; rfl⟩
      rw [hp.same]
      exact State.held_of_calm (s := { s.issued with seq := { s.issued.seq with waiting := none } }) hicalm rfl
    · have hz : s.cfg.maxAttempts = 0 := by apply BitVec.eq_of_toNat_eq; simpa using hp
      rw [hz, State.waitUntilReady_zero]
      exact ⟨State.held_of_calm (s := { s.issued with seq := { s.issued.seq with waiting := none } }) hicalm rfl, rfl, rfl⟩
  obtain ⟨hheld, hr3, hst⟩ := hshape
  have hline : s.issued.line = ((s.issued.waitUntilReady s.cfg.maxAttempts).goto .restore) := by
    rw [State.line_finish (by rw [State.issued_start hstep]; exact hheld), State.issued_start hstep]
    have hrt : (s.issued.waitUntilReady s.cfg.maxAttempts).raise .timeout
        = (s.issued.waitUntilReady s.cfg.maxAttempts).goto .restore := by
      simp only [State.raise, Failure.result, State.goto]
      rw [← hr3]
    unfold State.finishLine
    rw [hst, hr3]
    rcases hstep with hs | hs | hs <;> simp only [hs, Label.next, if_true] <;> exact hrt
  rw [State.run_succ (s := s.issued) hr (State.held_of_calm hicalm hw), hline]
  refine ⟨_, rfl, rfl, ?_⟩
  rcases hp with hp | hp
  · exact Issued.of_polled (max := s.cfg.maxAttempts) hw (Or.inr rfl) hp
  · have hz : s.cfg.maxAttempts = 0 := by apply BitVec.eq_of_toNat_eq; simpa using hp
    rw [hz, State.waitUntilReady_zero]
    refine ⟨rfl, rfl, rfl, ?_, rfl, rfl, rfl, rfl, rfl, rfl, rfl, rfl, rfl, ?_, rfl, [], rfl, ?_, by simp, by simp⟩
    · simp only [State.goto_seq, State.issued, State.written, State.nextLabel_seq, hw]
    · show List.drop (s.destructive.2.1.length + 2) (List.drop 2 s.env.lift) = _
      rw [List.drop_drop]; congr 1; simp; omega
    · exact State.issued_frames s

/-- `RESTORE` and `RET` (R246, R307): two lines, and the response. -/
theorem State.run_restore {k : Nat} {s : State} (hr : s.seq.state = .running) (hw : s.seq.waiting = none)
    (hp : s.seq.phase = .idle) (hstep : s.seq.step = .restore) :
    State.run (k + 2) s = ((s.mapped).goto .ret).respond s.seq.r := by
  have hh : s.held = false := by simp [State.held, hw, hp]
  have e1 : s.line = s.mapped.goto .ret := by
    have hs : s.startLine = s.mapped := by
      simp only [State.startLine, hstep]
      exact State.enterMapped_eq hp
    rw [State.line_finish (by rw [hs]; simp [State.held, State.mapped, hp, hw]), hs]
    unfold State.finishLine
    rw [show s.mapped.seq.step = s.seq.step from rfl, hstep]
    dsimp only
    unfold State.nextLabel
    rw [show s.mapped.seq.step = s.seq.step from rfl, hstep]
    rfl
  have hh2 : (s.mapped.goto .ret).held = false := by simp [State.held, State.mapped, State.goto, hp, hw]
  have e2 : (s.mapped.goto .ret).line = (s.mapped.goto .ret).respond s.seq.r := by
    have hs : (s.mapped.goto .ret).startLine = s.mapped.goto .ret := rfl
    rw [State.line_finish (by rw [hs]; exact hh2), hs]
    rfl
  rw [show k + 2 = (k + 1) + 1 by rfl, State.run_succ hr hh, e1, State.run_succ (s := s.mapped.goto .ret) hr hh2, e2]
  exact State.run_idle rfl

theorem State.mapped_frames (s : State) : s.mapped.frames = s.frames := by
  simp only [State.frames, State.mapped, List.filterMap_cons, List.filterMap_append, Event.frameSent,
    configuredLog_frames, List.nil_append]

theorem State.respond_frames (r : Result) (s : State) : (s.respond r).frames = s.frames := by
  simp only [State.frames, State.respond, List.filterMap_cons, Event.frameSent]

/-! ### `initialize` -/

/-- The state after `I2`, the peripheral enabled: at `I3` for `Quad`, else at `I4` (R266, R267, R282). -/
def State.initEnabled (s : State) (es : List Bool) : State :=
  { s with
    seq := { s.seq with step := if s.cfg.omDefault = .quad then .i3 else .i4 }
    cr  := { s.cr with addrw := BitVec.ofNat 5 s.cfg.addrBits, timing := s.cfg.timingCfg, en := true }
    env := { s.env with enable := es }
    log := .getEn true :: .setEn :: .set (.timing s.cfg.timingCfg) :: .set (.addrw (BitVec.ofNat 5 s.cfg.addrBits))
             :: s.log }

theorem State.run_init_enable {k : Nat} {s : State} {es : List Bool} (hr : s.seq.state = .running)
    (hw : s.seq.waiting = none) (hp : s.seq.phase = .idle) (hstep : s.seq.step = .i0)
    (he : s.env.enable = true :: es) : State.run (k + 3) s = State.run k (s.initEnabled es) := by
  have h0 : s.held = false := by simp [State.held, hw, hp]
  have e1 : s.line = ({ s with
      seq := { s.seq with step := .i1 }
      cr  := { s.cr with addrw := BitVec.ofNat 5 s.cfg.addrBits, timing := s.cfg.timingCfg }
      log := .set (.timing s.cfg.timingCfg) :: .set (.addrw (BitVec.ofNat 5 s.cfg.addrBits)) :: s.log } : State) := by
    simp [State.line, State.startLine, State.finishLine, hstep, State.configureDevice, State.setAll, CR.write, State.held,
      hw, hp, State.nextLabel, State.goto, Label.next]
  rw [show k + 3 = (k + 2) + 1 by rfl, State.run_succ hr h0, e1]
  generalize hu : ({ s with
      seq := { s.seq with step := .i1 }
      cr  := { s.cr with addrw := BitVec.ofNat 5 s.cfg.addrBits, timing := s.cfg.timingCfg }
      log := .set (.timing s.cfg.timingCfg) :: .set (.addrw (BitVec.ofNat 5 s.cfg.addrBits)) :: s.log } : State) = u
  have e2 : u.line = ({ u with
      seq := { u.seq with step := .i2 }, cr := { u.cr with en := true }, env := { u.env with enable := es }
      log := .setEn :: u.log } : State) := by
    rw [← hu]
    simp [State.line, State.startLine, State.finishLine, State.setEnable, State.drawEnable, drawFrom, he, State.held,
      hw, hp, State.nextLabel, State.goto, Label.next]
  rw [show k + 2 = (k + 1) + 1 by rfl, State.run_succ (s := u) (by rw [← hu]; exact hr)
    (by rw [← hu]; simp [State.held, hw, hp]), e2]
  generalize hv : ({ u with
      seq := { u.seq with step := .i2 }, cr := { u.cr with en := true }, env := { u.env with enable := es }
      log := .setEn :: u.log } : State) = v
  have e3 : v.line = s.initEnabled es := by
    rw [← hv, ← hu]
    by_cases hq : s.cfg.omDefault = .quad <;>
      simp [State.line, State.startLine, State.finishLine, State.emit, State.held,
        hw, hp, State.nextLabel, State.goto, Label.next, State.initEnabled, hq]
  rw [State.run_succ (s := v) (by rw [← hv, ← hu]; exact hr) (by rw [← hv, ← hu]; simp [State.held, hw, hp]), e3]

/-- The lines `I4` and `I5` (R269). -/
theorem State.run_init_finish {k : Nat} {s : State} (hr : s.seq.state = .running) (hw : s.seq.waiting = none)
    (hp : s.seq.phase = .idle) (hstep : s.seq.step = .i4) :
    State.run (k + 2) s
      = State.respond .ok { s.mapped with seq := { s.seq with step := .i5, r := .ok } } := by
  have hh : s.held = false := by simp [State.held, hw, hp]
  have e1 : s.line = s.mapped.goto .i5 := by
    have hs : s.startLine = s.mapped := by
      simp only [State.startLine, hstep]
      exact State.enterMapped_eq hp
    rw [State.line_finish (by rw [hs]; simp [State.held, State.mapped, hp, hw]), hs]
    unfold State.finishLine
    rw [show s.mapped.seq.step = s.seq.step from rfl, hstep]
    dsimp only
    unfold State.nextLabel
    rw [show s.mapped.seq.step = s.seq.step from rfl, hstep]
    rfl
  have hh2 : (s.mapped.goto .i5).held = false := by simp [State.held, State.mapped, State.goto, hp, hw]
  have e2 : (s.mapped.goto .i5).line
      = State.respond .ok { s.mapped with seq := { s.seq with step := .i5, r := .ok } } := by
    have hs : (s.mapped.goto .i5).startLine = { s.mapped with seq := { s.seq with step := .i5, r := .ok } } := rfl
    rw [State.line_finish (by rw [hs]; simp [State.held, hw, hp]), hs]
    rfl
  rw [show k + 2 = (k + 1) + 1 by rfl, State.run_succ hr hh, e1, State.run_succ (s := s.mapped.goto .i5) hr hh2, e2]
  exact State.run_idle rfl

/-- The line `I3`, taken for `Quad` only (R268, R282): EnableQPI at single width. -/
theorem State.line_init_qpi {s : State} (hc : s.cfg.wf = true) (hw : s.seq.waiting = none) (hcalm : s.calm)
    (hstep : s.seq.step = .i3) (hom : s.cfg.omDefault = .quad) (h1 : s.flash.wip = false)
    (h2 : s.flash.framing = .single) (h3 : s.lets 2) :
    s.line = (s.written (Transaction.send .enableQPI) .single [] { s.flash with framing := .quad }).goto .i4 := by
  have hs : s.startLine = s.written (Transaction.send .enableQPI) .single [] { s.flash with framing := .quad } := by
    simp only [State.startLine, hstep, hom]
    exact State.apply_enableQPI hc hcalm h1 h2 h3
  have hst : s.startLine.seq = s.seq := by rw [hs]; rfl
  rw [State.line_finish (by simp [State.held, hst, hw, hcalm.1]), ← hs]
  unfold State.finishLine
  rw [hst, hstep]
  dsimp only
  unfold State.nextLabel
  rw [hst, hstep]
  rfl

/-- `initialize` with a peripheral that does not enable (R267, R301, R308): three lines. -/
theorem State.run_init_fatal {k : Nat} {s : State} {es : List Bool} (hr : s.seq.state = .running)
    (hw : s.seq.waiting = none) (hp : s.seq.phase = .idle) (hstep : s.seq.step = .i0)
    (he : s.env.enable = false :: es) :
    State.run (k + 3) s = State.respond .fatalError
      { s with
        seq := { s.seq with step := .i2 }
        cr  := { s.cr with addrw := BitVec.ofNat 5 s.cfg.addrBits, timing := s.cfg.timingCfg, en := false }
        env := { s.env with enable := es }
        log := .getEn false :: .setEn :: .set (.timing s.cfg.timingCfg)
                 :: .set (.addrw (BitVec.ofNat 5 s.cfg.addrBits)) :: s.log } := by
  have h0 : s.held = false := by simp [State.held, hw, hp]
  have e1 : s.line = ({ s with
      seq := { s.seq with step := .i1 }
      cr  := { s.cr with addrw := BitVec.ofNat 5 s.cfg.addrBits, timing := s.cfg.timingCfg }
      log := .set (.timing s.cfg.timingCfg) :: .set (.addrw (BitVec.ofNat 5 s.cfg.addrBits)) :: s.log } : State) := by
    simp [State.line, State.startLine, State.finishLine, hstep, State.configureDevice, State.setAll, CR.write, State.held,
      hw, hp, State.nextLabel, State.goto, Label.next]
  rw [show k + 3 = (k + 2) + 1 by rfl, State.run_succ hr h0, e1]
  generalize hu : ({ s with
      seq := { s.seq with step := .i1 }
      cr  := { s.cr with addrw := BitVec.ofNat 5 s.cfg.addrBits, timing := s.cfg.timingCfg }
      log := .set (.timing s.cfg.timingCfg) :: .set (.addrw (BitVec.ofNat 5 s.cfg.addrBits)) :: s.log } : State) = u
  have e2 : u.line = ({ u with
      seq := { u.seq with step := .i2 }, cr := { u.cr with en := false }, env := { u.env with enable := es }
      log := .setEn :: u.log } : State) := by
    rw [← hu]
    simp [State.line, State.startLine, State.finishLine, State.setEnable, State.drawEnable, drawFrom, he, State.held,
      hw, hp, State.nextLabel, State.goto, Label.next]
  rw [show k + 2 = (k + 1) + 1 by rfl, State.run_succ (s := u) (by rw [← hu]; exact hr)
    (by rw [← hu]; simp [State.held, hw, hp]), e2]
  generalize hv : ({ u with
      seq := { u.seq with step := .i2 }, cr := { u.cr with en := false }, env := { u.env with enable := es }
      log := .setEn :: u.log } : State) = v
  have e3 : v.line = State.respond .fatalError
      { s with
        seq := { s.seq with step := .i2 }
        cr  := { s.cr with addrw := BitVec.ofNat 5 s.cfg.addrBits, timing := s.cfg.timingCfg, en := false }
        env := { s.env with enable := es }
        log := .getEn false :: .setEn :: .set (.timing s.cfg.timingCfg)
                 :: .set (.addrw (BitVec.ofNat 5 s.cfg.addrBits)) :: s.log } := by
    rw [← hv, ← hu]
    simp [State.line, State.startLine, State.finishLine, State.emit, State.held, hw, hp, State.raise, Failure.result]
  rw [State.run_succ (s := v) (by rw [← hv, ← hu]; exact hr) (by rw [← hv, ← hu]; simp [State.held, hw, hp]), e3]
  exact State.run_idle rfl

end Sys2Proof.Machine
end

