-- ==== Sys2Proof/Laws/Chunks.lean ====
section
/-! SUPPORT. The chunking rule (R279) and the `W` loop of `writeMemory` (R277, R281, R282): one chunk, and by
induction on the bytes still to write, all of them. -/

namespace Sys2Proof.Machine

open Sys2Proof

/-! ### The chunking rule -/

theorem chunkLength_pos {p a m : Nat} (hp : 1 ≤ p) (hm : 0 < m) : 0 < chunkLength p a m := by
  have := Nat.mod_lt a hp
  unfold chunkLength
  omega

theorem chunkLength_le {p a m : Nat} : chunkLength p a m ≤ m := Nat.min_le_left _ _

theorem chunkLength_page {p a m : Nat} (hp : 1 ≤ p) : a % p + chunkLength p a m ≤ p := by
  have := Nat.mod_lt a hp
  unfold chunkLength
  omega

/-- More room in the count makes no difference once there is enough. -/
theorem chunksUpTo_enough {p : Nat} (hp : 1 ≤ p) {k : Nat} :
    ∀ {j a m : Nat}, m ≤ j → m ≤ k → chunksUpTo p j a m = chunksUpTo p k a m := by
  induction k with
  | zero =>
    intro j a m _ hk
    have : m = 0 := by omega
    subst this
    cases j <;> simp [chunksUpTo]
  | succ k ih =>
    intro j a m hj hk
    cases j with
    | zero =>
      have : m = 0 := by omega
      subst this
      simp [chunksUpTo]
    | succ j =>
      by_cases h0 : m = 0
      · subst h0; simp [chunksUpTo]
      · have h1 := chunkLength_pos (a := a) hp (Nat.pos_of_ne_zero h0)
        simp only [chunksUpTo, h0, if_false]
        rw [ih (by omega) (by omega)]

theorem chunks_zero (p a : Nat) : chunks p a 0 = [] := rfl

/-- The first chunk, and the chunks of what it leaves (R279). -/
theorem chunks_cons {p a m : Nat} (hp : 1 ≤ p) (hm : 0 < m) :
    chunks p a m = (a, chunkLength p a m) :: chunks p (a + chunkLength p a m) (m - chunkLength p a m) := by
  have h1 := chunkLength_pos (a := a) hp hm
  obtain ⟨k, rfl⟩ : ∃ k, m = k + 1 := ⟨m - 1, by omega⟩
  unfold chunks
  rw [chunksUpTo, if_neg (by omega), chunksUpTo_enough (k := k + 1 - chunkLength p a (k + 1)) hp (by omega) le_rfl]

/-- Every chunk starts at or after the start of the write. -/
theorem chunks_from {p : Nat} (hp : 1 ≤ p) {ch : Nat × Nat} : ∀ {a : Nat} (m : Nat), ch ∈ chunks p a m → a ≤ ch.1 := by
  intro a m
  induction m using Nat.strong_induction_on generalizing a with
  | _ m ih =>
    intro h
    rcases Nat.eq_zero_or_pos m with rfl | h0
    · rw [chunks_zero] at h; simp at h
    · have h1 := chunkLength_pos (a := a) hp h0
      rw [chunks_cons hp h0] at h
      rcases List.mem_cons.mp h with rfl | h
      · exact le_rfl
      · exact le_trans (Nat.le_add_right _ _) (ih _ (by omega) h)

/-! ### Programming within a page -/

theorem pageOffset_within {p a i n : Nat} (hi : i < n) (h : a % p + n ≤ p) : pageOffset p a i = a + i := by
  have hp : 0 < p := by omega
  have h1 : (a + i) % p = a % p + i := by
    rw [Nat.add_mod, Nat.mod_eq_of_lt (a := i) (by omega), Nat.mod_eq_of_lt (by omega)]
  have h2 := Nat.mod_le a p
  unfold pageOffset
  omega

/-- A page program that stays in its page: every byte of its range becomes its old value AND the data byte, and no
other byte changes (R102). -/
theorem Memory.read_program_within {m : Memory} {p a b : Nat} {d : List Byte} (hm : Memory.wf m = true)
    (h : a % p + d.length ≤ p) :
    Memory.read (Memory.program m p a d) b
      = if hb : a ≤ b ∧ b - a < d.length then Memory.read m b &&& d[b - a]'hb.2 else Memory.read m b := by
  have hoff : ∀ j, j < d.length → pageOffset p a j = a + j := fun j hj => pageOffset_within hj h
  split
  next hb =>
    have h0 := Memory.read_programFrom_at (old := m) (m := m) (p := p) (a := a) (i := 0) (k := b - a) (d := d) hm hb.2
      (fun j h1 h2 => by rw [Nat.zero_add, Nat.zero_add, hoff j h2, hoff _ hb.2]; omega)
    rw [Nat.zero_add, hoff _ hb.2, show a + (b - a) = b by omega] at h0
    exact h0
  next hb =>
    refine Memory.read_programFrom_other (fun j _ h2 => ?_)
    rw [hoff j (by omega)]
    omega

/-- The offsets a page program inside a page works on (R102). -/
theorem touches_program {c : Config} {a n b : Nat} {d : List Byte} (hd : d.length ≤ n)
    (hpage : a % c.pageChunk + n ≤ c.pageChunk) (hb : b < a ∨ a + n ≤ b) :
    (Pending.program a d).touches c b = false := by
  simp only [Pending.touches, Bool.and_eq_false_iff]
  refine Or.inr (List.any_eq_false.mpr fun i hi => ?_)
  have hi : i < d.length := List.mem_range.mp hi
  rw [pageOffset_within (n := n) (by omega) hpage]
  simp only [decide_eq_true_eq]
  omega

/-! ### One chunk -/

/-- What a stretch of the `W` loop leaves alone: everything but the position, the registers of the transactions, the
chip, the draws and the log. -/
structure WriteOnly (s v : State) : Prop where
  cfg    : v.cfg = s.cfg
  host   : v.host = s.host
  widths : v.widths = s.widths
  seq    : v.seq = { s.seq with step := v.seq.step, off := v.seq.off, chunk := v.seq.chunk, attempts := v.seq.attempts,
                                status := v.seq.status, r := v.seq.r }
  en     : v.cr.en = s.cr.en
  addrw  : v.cr.addrw = s.cr.addrw
  timing : v.cr.timing = s.cr.timing
  slice  : v.env.slice = s.env.slice
  enable : v.env.enable = s.env.enable
  calm   : s.calm → v.calm
  busy   : s.cr.busy = false → v.cr.busy = false

theorem WriteOnly.refl (s : State) : WriteOnly s s := ⟨rfl, rfl, rfl, rfl, rfl, rfl, rfl, rfl, rfl, id, id⟩

theorem WriteOnly.trans {s t u : State} (h1 : WriteOnly s t) (h2 : WriteOnly t u) : WriteOnly s u where
  cfg := h2.cfg.trans h1.cfg
  host := h2.host.trans h1.host
  widths := h2.widths.trans h1.widths
  seq := by conv_lhs => rw [h2.seq, h1.seq]
  en := h2.en.trans h1.en
  addrw := h2.addrw.trans h1.addrw
  timing := h2.timing.trans h1.timing
  slice := h2.slice.trans h1.slice
  enable := h2.enable.trans h1.enable
  calm := fun h => h2.calm (h1.calm h)
  busy := fun h => h2.busy (h1.busy h)

theorem Issued.writeOnly {s v : State} {k : Nat} {r : Result} {fl : Flash} (hs : s.seq.phase = .idle)
    (h : Issued s v k r fl) : WriteOnly s v where
  cfg := h.cfg
  host := h.host
  widths := h.widths
  seq := by conv_lhs => rw [h.seq]
            rw [h.seq]
  en := h.en
  addrw := h.addrw
  timing := h.timing
  slice := h.slice
  enable := h.enable
  calm := fun _ => by
    refine ⟨?_, by rw [h.ctrl], by rw [h.ctrl]⟩
    rw [h.seq]; exact hs
  busy := fun _ => h.busy

theorem State.line_plain {s : State} (hw : s.seq.waiting = none) (hp : s.seq.phase = .idle)
    (h : s.startLine.seq.waiting = s.seq.waiting ∧ s.startLine.seq.phase = s.seq.phase) :
    s.line = s.startLine.finishLine :=
  State.line_finish (by simp [State.held, h.1, h.2, hw, hp])

/-- The state at `W3` of the chunk at `SEQ.off`. -/
def State.atChunk (s : State) : State := { s with seq := { s.seq with chunk := s.nextChunk, step := .w3 } }

theorem State.run_toChunk {k : Nat} {s : State} (hr : s.seq.state = .running) (hw : s.seq.waiting = none)
    (hp : s.seq.phase = .idle) (hstep : s.seq.step = .w1) (hne : s.seq.off ≠ s.seq.len) :
    State.run (k + 2) s = State.run k s.atChunk := by
  have hh : s.held = false := by simp [State.held, hw, hp]
  have e1 : s.line = s.goto .w2 := by
    have hs : s.startLine = s := by unfold State.startLine; rw [hstep]
    rw [State.line_finish (by rw [hs]; exact hh), hs]
    unfold State.finishLine
    rw [hstep]
    simp only [hne, if_false]
    unfold State.nextLabel
    rw [hstep]; rfl
  have hh2 : (s.goto .w2).held = false := by simp [State.held, State.goto, hw, hp]
  have e2 : (s.goto .w2).line = s.atChunk := by
    have hs : (s.goto .w2).startLine = { s with seq := { s.seq with step := .w2, chunk := s.nextChunk } } := rfl
    rw [State.line_finish (by rw [hs]; exact hh), hs]
    rfl
  rw [show k + 2 = (k + 1) + 1 by rfl, State.run_succ hr hh, e1, State.run_succ (s := s.goto .w2) hr hh2, e2]

theorem State.nextChunk_toNat {s : State} (hlt : s.seq.off.toNat < s.seq.len.toNat) :
    s.nextChunk.toNat = chunkLength s.cfg.pageChunk (s.seq.addr.toNat + s.seq.off.toNat)
      (s.seq.len.toNat - s.seq.off.toNat) := by
  have h1 := chunkLength_le (p := s.cfg.pageChunk) (a := s.seq.addr.toNat + s.seq.off.toNat)
    (m := s.seq.len.toNat - s.seq.off.toNat)
  have h2 := s.seq.len.isLt
  unfold State.nextChunk
  rw [BitVec.toNat_ofNat, Nat.mod_eq_of_lt (by omega)]

theorem chunkAddress_toNat {addr off : Word32} (h : addr.toNat + off.toNat < 2 ^ 24) :
    (chunkAddress addr off).toNat = addr.toNat + off.toNat := by
  unfold chunkAddress
  rw [BitVec.toNat_setWidth, BitVec.toNat_add]
  omega

theorem Config.flashSize_le {c : Config} (h : c.wf = true) : c.flashSize ≤ 2 ^ 24 := by
  unfold Config.flashSize
  exact Nat.pow_le_pow_right (by omega) (Config.wf_addrBits h).2

/-- The length of the chunk at `SEQ.off` (R279). -/
def State.chunkNow (s : State) : Nat :=
  chunkLength s.cfg.pageChunk (s.seq.addr.toNat + s.seq.off.toNat) (s.seq.len.toNat - s.seq.off.toNat)

/-- An operation that stands before the chunk at `SEQ.off`: the write is inside the device, and its bytes are
there (R61, R261, R277). -/
structure WriteGoing (s : State) : Prop where
  conf    : s.cfg.wf = true
  running : s.seq.state = .running
  waiting : s.seq.waiting = none
  calm    : s.calm
  step    : s.seq.step = .w1
  range   : s.seq.addr.toNat + s.seq.len.toNat ≤ s.cfg.flashSize
  buffer  : s.seq.len.toNat ≤ s.host.buffer.length
  off     : s.seq.off.toNat ≤ s.seq.len.toNat

/-- It stays so when the position alone moves on in the write. -/
theorem WriteGoing.of_only {s v : State} (h : WriteGoing s) (hw : WriteOnly s v) (hs : v.seq.step = .w1)
    (ho : v.seq.off.toNat ≤ s.seq.len.toNat) : WriteGoing v := by
  have haddr : v.seq.addr = s.seq.addr := by rw [hw.seq]
  have hlen : v.seq.len = s.seq.len := by rw [hw.seq]
  refine ⟨by rw [hw.cfg]; exact h.conf, by rw [hw.seq]; exact h.running, by rw [hw.seq]; exact h.waiting, hw.calm h.calm, hs,
    by rw [haddr, hlen, hw.cfg]; exact h.range, by rw [hlen, hw.host]; exact h.buffer, by rw [hlen]; exact ho⟩

/-- The buffer stays where it is. -/
theorem State.clearOfWindow.of_only {s v : State} {n : Nat} (h : s.clearOfWindow n) (hw : WriteOnly s v) :
    v.clearOfWindow n := by
  unfold State.clearOfWindow
  rw [hw.host, hw.cfg]
  exact h

/-- The chip is ready for the chunk at `SEQ.off` as well. -/
structure WriteReady (s : State) : Prop extends WriteGoing s where
  ready   : s.chipReady

/-- The chunk at `SEQ.off` as the skeleton sees it at `W3` (R130, R277, R279). -/
theorem WriteGoing.chunk {s : State} (h : WriteGoing s) (hlt : s.seq.off.toNat < s.seq.len.toNat)
    (hwin : s.clearOfWindow (s.seq.off.toNat + s.chunkNow)) :
    s.atChunk.destructive = (Transaction.pageProgram (chunkAddress s.seq.addr s.seq.off) s.seq.off s.nextChunk,
        (s.host.buffer.drop s.seq.off.toNat).take s.chunkNow,
        .program (s.seq.addr.toNat + s.seq.off.toNat) ((s.host.buffer.drop s.seq.off.toNat).take s.chunkNow))
      ∧ s.atChunk.destructiveFits
      ∧ ((s.host.buffer.drop s.seq.off.toNat).take s.chunkNow).length = s.chunkNow
      ∧ s.nextChunk.toNat = s.chunkNow
      ∧ chunkAddress s.seq.addr s.seq.off = BitVec.ofNat 24 (s.seq.addr.toNat + s.seq.off.toNat)
      ∧ s.nextChunk = BitVec.ofNat 32 s.chunkNow := by
  have hc32 : s.nextChunk.toNat = s.chunkNow := State.nextChunk_toNat hlt
  have hcle : s.chunkNow ≤ s.seq.len.toNat - s.seq.off.toNat := chunkLength_le
  have hfs := Config.flashSize_le h.conf
  have hrange := h.range
  have haddr : (chunkAddress s.seq.addr s.seq.off).toNat = s.seq.addr.toNat + s.seq.off.toNat :=
    chunkAddress_toNat (by omega)
  have haddr24 : chunkAddress s.seq.addr s.seq.off = BitVec.ofNat 24 (s.seq.addr.toNat + s.seq.off.toNat) := by
    apply BitVec.eq_of_toNat_eq
    rw [haddr, BitVec.toNat_ofNat, Nat.mod_eq_of_lt (by omega)]
  have hcw : s.nextChunk = BitVec.ofNat 32 s.chunkNow := by
    apply BitVec.eq_of_toNat_eq
    have := s.nextChunk.isLt
    rw [hc32, BitVec.toNat_ofNat, Nat.mod_eq_of_lt (by omega)]
  have hd : s.atChunk.destructive = (Transaction.pageProgram (chunkAddress s.seq.addr s.seq.off) s.seq.off s.nextChunk,
      (s.host.buffer.drop s.seq.off.toNat).take s.chunkNow,
      .program (s.seq.addr.toNat + s.seq.off.toNat) ((s.host.buffer.drop s.seq.off.toNat).take s.chunkNow)) := by
    rw [← hc32, ← haddr]; rfl
  have hlen : ((s.host.buffer.drop s.seq.off.toNat).take s.chunkNow).length = s.chunkNow := by
    have := h.buffer
    simp only [List.length_take, List.length_drop]; omega
  have hbuf := h.buffer
  refine ⟨hd, ⟨?_, ?_⟩, hlen, hc32, haddr24, hcw⟩
  · show (chunkAddress s.seq.addr s.seq.off).toNat < s.cfg.flashSize
    rw [haddr]; omega
  · show s.seq.off.toNat + s.nextChunk.toNat ≤ s.host.buffer.length
      ∧ s.clearOfWindow (s.seq.off.toNat + s.nextChunk.toNat)
    rw [hc32]
    exact ⟨by omega, hwin⟩

/-- One chunk (R262, R277, R279): six lines. -/
theorem State.run_chunk {k : Nat} {s : State} (h : WriteReady s) (hmax : 1 ≤ s.cfg.maxAttempts.toNat)
    (hlt : s.seq.off.toNat < s.seq.len.toNat) (hwin : s.clearOfWindow (s.seq.off.toNat + s.chunkNow))
    (hl : s.lets (s.chunkNow + 6)) (hdone : s.env.done.take 1 = [true]) :
    ∃ v b, State.run (k + 6) s = State.run k v ∧ WriteOnly s v ∧ v.seq.step = .w1 ∧ v.seq.r = .ok
      ∧ v.seq.off.toNat = s.seq.off.toNat + s.chunkNow ∧ v.cr.busy = false
      ∧ v.flash = s.flash.worked s.cfg (.program (s.seq.addr.toNat + s.seq.off.toNat)
          ((s.host.buffer.drop s.seq.off.toNat).take s.chunkNow))
      ∧ v.env.lift = s.env.lift.drop (s.chunkNow + 6) ∧ v.env.done = s.env.done.drop 1
      ∧ statusBusy s.cfg.busyBit b = false
      ∧ v.frames = chunkFrames s.cfg ((s.host.buffer.drop s.seq.off.toNat).take s.chunkNow)
          (s.seq.addr.toNat + s.seq.off.toNat, s.chunkNow) b ++ s.frames := by
  obtain ⟨hd, hfit, hlen, hc32, haddr24, hcw⟩ := h.chunk hlt hwin
  have hcle : s.chunkNow ≤ s.seq.len.toNat - s.seq.off.toNat := chunkLength_le
  obtain ⟨v, e, hst, hi⟩ := State.run_skeleton_ok (s := s.atChunk) (j := 0) (k := k + 1) h.conf h.running h.waiting
    h.calm h.ready
    hfit
    (Or.inr (Or.inr rfl))
    (by
      rw [hd]
      show List.take _ s.env.lift = _
      rw [hlen]
      exact hl)
    hmax (by show s.env.done.take 1 = _; simpa using hdone)
  rw [hd] at hi
  have hiw : WriteOnly s.atChunk v := hi.writeOnly h.calm.1
  have hvw : v.seq.waiting = none := by rw [hi.seq]; exact h.waiting
  have hvp : v.seq.phase = .idle := by rw [hi.seq]; exact h.calm.1
  have hvr : v.seq.state = .running := by rw [hi.seq]; exact h.running
  have hst6 : v.seq.step = .w6 := hst
  have hoff : v.seq.off = s.seq.off := by rw [hi.seq]; rfl
  have hchunk : v.seq.chunk = s.nextChunk := by rw [hi.seq]; rfl
  have eline : v.line = { v with seq := { v.seq with off := s.seq.off + s.nextChunk, step := .w1 } } := by
    have hs : v.startLine = { v with seq := { v.seq with off := s.seq.off + s.nextChunk } } := by
      unfold State.startLine; rw [hst6]; simp only [hoff, hchunk]
    rw [State.line_finish (by rw [hs]; simp [State.held, hvw, hvp]), hs]
    unfold State.finishLine
    rw [show ({ v with seq := { v.seq with off := s.seq.off + s.nextChunk } } : State).seq.step = v.seq.step from rfl, hst6]
    dsimp only
    unfold State.nextLabel
    rw [show ({ v with seq := { v.seq with off := s.seq.off + s.nextChunk } } : State).seq.step = v.seq.step from rfl, hst6]
    rfl
  obtain ⟨bs, hbl, hframes, -, hok⟩ := hi.frames
  obtain ⟨b, rest, rfl, hb, -⟩ := hok rfl
  have hrest : rest = [] := by
    cases rest with
    | nil => rfl
    | cons _ _ => simp at hbl
  subst hrest
  refine ⟨{ v with seq := { v.seq with off := s.seq.off + s.nextChunk, step := .w1 } }, b, ?_, ?_, rfl, ?_, ?_, hi.busy,
    hi.flash, ?_, hi.done, hb, ?_⟩
  · rw [show k + 6 = (k + 4) + 2 by rfl, State.run_toChunk h.running h.waiting h.calm.1 h.step
      (by intro he; rw [he] at hlt; exact absurd hlt (lt_irrefl _)),
      show k + 4 = (k + 1) + 3 by rfl, e,
      State.run_succ hvr (by simp [State.held, hvw, hvp]), eline]
  · refine WriteOnly.trans (t := v) (WriteOnly.trans (t := s.atChunk) ?_ hiw) ?_
    · exact ⟨rfl, rfl, rfl, rfl, rfl, rfl, rfl, rfl, rfl, id, id⟩
    · exact ⟨rfl, rfl, rfl, rfl, rfl, rfl, rfl, rfl, rfl, id, id⟩
  · show v.seq.r = _
    rw [hi.seq]
  · show (s.seq.off + s.nextChunk).toNat = _
    rw [BitVec.toNat_add, hc32, Nat.mod_eq_of_lt (by omega)]
  · show v.env.lift = _
    rw [hi.lift, hd]
    show List.drop _ s.env.lift = _
    rw [hlen]
  · show v.frames = _
    rw [hframes, hd]
    unfold chunkFrames chunkCommands
    rw [← haddr24, ← hcw]
    rfl

/-- Where the `W` loop stands once all bytes are written (R277, R281). -/
structure Wrote (s v : State) : Prop where
  only   : WriteOnly s v
  step   : v.seq.step = .restore
  r      : s.seq.r = .ok → v.seq.r = .ok
  off    : v.seq.off = s.seq.len
  wip    : v.flash.wip = false
  frame  : v.flash.framing = s.flash.framing
  wel    : v.flash.wel = (if s.seq.off = s.seq.len then s.flash.wel else false)
  wf     : Memory.wf v.flash.array = true
  array  : ∀ a, Memory.read v.flash.array a
             = match s.host.buffer[a - s.seq.addr.toNat]? with
               | some d => if s.seq.addr.toNat + s.seq.off.toNat ≤ a ∧ a < s.seq.addr.toNat + s.seq.len.toNat
                           then Memory.read s.flash.array a &&& d else Memory.read s.flash.array a
               | none   => Memory.read s.flash.array a
  frames : ∃ bs : List Byte,
             bs.length = (chunks s.cfg.pageChunk (s.seq.addr.toNat + s.seq.off.toNat)
               (s.seq.len.toNat - s.seq.off.toNat)).length
             ∧ (∀ b ∈ bs, statusBusy s.cfg.busyBit b = false)
             ∧ v.frames = writeFrames s.cfg s.host.buffer s.seq.addr.toNat
                 (chunks s.cfg.pageChunk (s.seq.addr.toNat + s.seq.off.toNat) (s.seq.len.toNat - s.seq.off.toNat)) bs
               ++ s.frames

/-- The `W` loop from `W1` to `RESTORE`, every chunk ready at its first poll (R277, R279, R281, R282). -/
theorem State.run_writeLoop {n : Nat} : ∀ {k : Nat} {s : State}, WriteReady s →
    s.clearOfWindow s.seq.len.toNat → (0 < n → 1 ≤ s.cfg.maxAttempts.toNat) → Memory.wf s.flash.array = true →
    s.seq.len.toNat - s.seq.off.toNat = n → s.lets (7 * n) → s.env.done.take n = List.replicate n true →
    ∃ v, State.run (k + (6 * (chunks s.cfg.pageChunk (s.seq.addr.toNat + s.seq.off.toNat) n).length + 1)) s
        = State.run k v ∧ Wrote s v := by
  induction n using Nat.strong_induction_on with
  | _ n ih =>
    intro k s h hwin hmax hm hn hl hdone
    by_cases h0 : n = 0
    · subst h0
      have hoff : s.seq.off = s.seq.len := by
        apply BitVec.eq_of_toNat_eq
        have := h.off
        omega
      have hh : s.held = false := by simp [State.held, h.waiting, h.calm.1]
      have e1 : s.line = s.goto .restore := by
        have hs : s.startLine = s := by unfold State.startLine; rw [h.step]
        rw [State.line_finish (by rw [hs]; exact hh), hs]
        unfold State.finishLine
        rw [h.step]
        simp [hoff]
      refine ⟨s.goto .restore, ?_, ?_⟩
      · rw [chunks_zero, show k + (6 * ([] : List (Nat × Nat)).length + 1) = k + 1 by simp, State.run_succ h.running hh, e1]
      · refine ⟨⟨rfl, rfl, rfl, rfl, rfl, rfl, rfl, rfl, rfl, id, id⟩, rfl, id, hoff, h.ready.1, rfl, ?_, hm, ?_, [], ?_, ?_, ?_⟩
        · simp [hoff, State.goto]
        · intro a
          have : ¬ (s.seq.addr.toNat + s.seq.off.toNat ≤ a ∧ a < s.seq.addr.toNat + s.seq.len.toNat) := by
            rw [hoff]; omega
          cases s.host.buffer[a - s.seq.addr.toNat]? <;> simp [State.goto, this]
        · rw [hn, chunks_zero]; rfl
        · simp
        · rw [hn, chunks_zero]; rfl
    · have hpc := Config.wf_pageChunk h.conf
      have hcn : s.chunkNow = chunkLength s.cfg.pageChunk (s.seq.addr.toNat + s.seq.off.toNat) n := by
        unfold State.chunkNow; rw [hn]
      have hpos : 0 < s.chunkNow := by rw [hcn]; exact chunkLength_pos hpc (Nat.pos_of_ne_zero h0)
      have hle : s.chunkNow ≤ n := by rw [hcn]; exact chunkLength_le
      have hpage : (s.seq.addr.toNat + s.seq.off.toNat) % s.cfg.pageChunk + s.chunkNow ≤ s.cfg.pageChunk := by
        rw [hcn]; exact chunkLength_page hpc
      have hcons : chunks s.cfg.pageChunk (s.seq.addr.toNat + s.seq.off.toNat) n
          = (s.seq.addr.toNat + s.seq.off.toNat, s.chunkNow)
            :: chunks s.cfg.pageChunk (s.seq.addr.toNat + (s.seq.off.toNat + s.chunkNow)) (n - s.chunkNow) := by
        rw [chunks_cons hpc (Nat.pos_of_ne_zero h0), ← hcn, Nat.add_assoc]
      have hbuf := h.buffer
      have hblen : ((s.host.buffer.drop s.seq.off.toNat).take s.chunkNow).length = s.chunkNow := by
        simp only [List.length_take, List.length_drop]; omega
      obtain ⟨u, b, e, hw, hst, hr, huoff, hubusy, hflash, hlift, hdone', hb, hframes⟩ :=
        State.run_chunk (k := k + (6 * (chunks s.cfg.pageChunk (s.seq.addr.toNat + (s.seq.off.toNat + s.chunkNow))
          (n - s.chunkNow)).length + 1)) h (hmax (by omega)) (by omega) (fun i hi => hwin i (by omega)) (State.lets_mono hl (by omega))
          (take_replicate_mono hdone (by omega))
      have haddr : u.seq.addr = s.seq.addr := by rw [hw.seq]
      have hlen' : u.seq.len = s.seq.len := by rw [hw.seq]
      have hstate : u.seq.state = s.seq.state := by rw [hw.seq]
      have hwait : u.seq.waiting = s.seq.waiting := by rw [hw.seq]
      have hcfg := hw.cfg
      have hhost := hw.host
      have hready : WriteReady u := by
        refine ⟨h.toWriteGoing.of_only hw hst (by omega), by rw [hflash]; rfl, ?_⟩
        unfold State.framed
        rw [hflash, hcfg]
        exact h.ready.2
      have humem : Memory.wf u.flash.array = true := by
        rw [hflash]; exact Memory.wf_program hm
      have hul : u.lets (7 * (n - s.chunkNow)) := by
        unfold State.lets
        rw [hlift]
        refine take_drop_replicate (take_replicate_mono hl (by omega))
      have hud : u.env.done.take (n - s.chunkNow) = List.replicate (n - s.chunkNow) true := by
        rw [hdone']
        exact take_drop_replicate (take_replicate_mono hdone (by omega))
      obtain ⟨v, e2, hv⟩ := ih (n - s.chunkNow) (by omega) (k := k) hready
        (by rw [hlen']; exact State.clearOfWindow.of_only hwin hw) (fun _ => by rw [hcfg]; exact hmax (by omega)) humem
        (by rw [huoff, hlen']; omega) hul hud
      refine ⟨v, ?_, ?_⟩
      · rw [hcons, List.length_cons]
        rw [hcfg, haddr, huoff] at e2
        rw [← e2, ← e]
        congr 1
      · obtain ⟨bs, hbl, hbb, hvf⟩ := hv.frames
        rw [hcfg, haddr, huoff, hlen'] at hbl
        rw [hcfg] at hbb
        rw [hcfg, haddr, huoff, hlen', hhost, hframes] at hvf
        have hsub : s.seq.len.toNat - (s.seq.off.toNat + s.chunkNow) = n - s.chunkNow := by omega
        rw [hsub] at hbl hvf
        refine ⟨hw.trans hv.only, hv.step, fun _ => hv.r hr, hv.off.trans hlen', hv.wip, by rw [hv.frame, hflash]; rfl, ?_,
          hv.wf, ?_, b :: bs, ?_, ?_, ?_⟩
        · rw [hv.wel, hflash]
          have : s.seq.off ≠ s.seq.len := by intro he; rw [he] at hn; omega
          rw [if_neg this]
          split <;> rfl
        · intro a
          rw [hv.array a, haddr, huoff, hlen', hhost, hflash]
          have hread := Memory.read_program_within (m := s.flash.array) (p := s.cfg.pageChunk)
            (a := s.seq.addr.toNat + s.seq.off.toNat) (b := a)
            (d := (s.host.buffer.drop s.seq.off.toNat).take s.chunkNow) hm (by rw [hblen]; exact hpage)
          have hres : (s.flash.worked s.cfg (.program (s.seq.addr.toNat + s.seq.off.toNat)
              ((s.host.buffer.drop s.seq.off.toNat).take s.chunkNow))).array
              = Memory.program s.flash.array s.cfg.pageChunk (s.seq.addr.toNat + s.seq.off.toNat)
                  ((s.host.buffer.drop s.seq.off.toNat).take s.chunkNow) := rfl
          rw [hres, hread]
          simp only [hblen]
          cases hx : s.host.buffer[a - s.seq.addr.toNat]? with
          | none =>
            have hge : s.host.buffer.length ≤ a - s.seq.addr.toNat := by
              rw [List.getElem?_eq_none_iff] at hx; exact hx
            rw [dif_neg (by omega)]
          | some d =>
            dsimp only
            split
            next h1 =>
              rw [dif_neg (by omega), if_pos ⟨by omega, h1.2⟩]
            next h1 =>
              split
              next h2 =>
                have hd : ((s.host.buffer.drop s.seq.off.toNat).take s.chunkNow)[a - (s.seq.addr.toNat + s.seq.off.toNat)]'(by
                    rw [hblen]; exact h2.2) = d := by
                  rw [List.getElem_take, List.getElem_drop]
                  have := (List.getElem?_eq_some_iff.mp hx).2
                  rw [← this]
                  congr 1
                  omega
                rw [hd, if_pos ⟨h2.1, by omega⟩]
              next h2 => rw [if_neg (by omega)]
        · rw [hn, hcons]; simp [hbl]
        · intro x hx
          rcases List.mem_cons.mp hx with rfl | hx
          · exact hb
          · exact hbb x hx
        · rw [hn, hcons, writeFrames, hvf, List.append_assoc, chunkData, Nat.add_sub_cancel_left]

/-- Where the `W` loop stands when the chunk `ch`, number `j` from 0, has timed out (R281). -/
structure WroteUntil (s v : State) (j : Nat) (ch : Nat × Nat) : Prop where
  only    : WriteOnly s v
  step    : v.seq.step = .restore
  r       : v.seq.r = .timeout
  off     : s.seq.addr.toNat + v.seq.off.toNat = ch.1
  wip     : v.flash.wip = true
  frame   : v.flash.framing = s.flash.framing
  pending : v.flash.pending = .program ch.1 (chunkData s.host.buffer s.seq.addr.toNat ch)
  wf      : Memory.wf v.flash.array = true
  array   : ∀ a, a < ch.1 ∨ ch.1 + ch.2 ≤ a → Memory.read v.flash.array a
              = match s.host.buffer[a - s.seq.addr.toNat]? with
                | some d => if s.seq.addr.toNat + s.seq.off.toNat ≤ a ∧ a < ch.1
                            then Memory.read s.flash.array a &&& d else Memory.read s.flash.array a
                | none   => Memory.read s.flash.array a
  frames  : ∃ bs ps : List Byte,
              bs.length = j ∧ (∀ b ∈ bs, statusBusy s.cfg.busyBit b = false)
              ∧ ps.length = s.cfg.maxAttempts.toNat ∧ (∀ b ∈ ps, statusBusy s.cfg.busyBit b = true)
              ∧ v.frames = ps.map (statusFrame s.cfg)
                  ++ chunkCommands s.cfg (chunkData s.host.buffer s.seq.addr.toNat ch) ch
                  ++ writeFrames s.cfg s.host.buffer s.seq.addr.toNat
                      ((chunks s.cfg.pageChunk (s.seq.addr.toNat + s.seq.off.toNat)
                        (s.seq.len.toNat - s.seq.off.toNat)).take j) bs
                  ++ s.frames

theorem chunkData_now (s : State) :
    chunkData s.host.buffer s.seq.addr.toNat (s.seq.addr.toNat + s.seq.off.toNat, s.chunkNow)
      = (s.host.buffer.drop s.seq.off.toNat).take s.chunkNow := by
  rw [chunkData, Nat.add_sub_cancel_left]

/-- The `W` loop from `W1` to `RESTORE` when chunk `j` is the first that times out (R224, R281, R282). -/
theorem State.run_writeTimeout {j : Nat} : ∀ {k n : Nat} {s : State} {ch : Nat × Nat}, WriteReady s →
    s.clearOfWindow s.seq.len.toNat → (0 < j → 1 ≤ s.cfg.maxAttempts.toNat) → Memory.wf s.flash.array = true →
    s.seq.len.toNat - s.seq.off.toNat = n →
    (chunks s.cfg.pageChunk (s.seq.addr.toNat + s.seq.off.toNat) n)[j]? = some ch →
    s.lets (7 * n + 2 * s.cfg.maxAttempts.toNat) →
    s.env.done.take (j + s.cfg.maxAttempts.toNat)
      = List.replicate j true ++ List.replicate s.cfg.maxAttempts.toNat false →
    ∃ v, State.run (k + (6 * j + 5)) s = State.run k v ∧ WroteUntil s v j ch := by
  induction j with
  | zero =>
    intro k n s ch h hwin _ hm hn hch hl hdone
    have hpc := Config.wf_pageChunk h.conf
    have hn0 : 0 < n := by
      rcases Nat.eq_zero_or_pos n with rfl | h0
      · rw [chunks_zero] at hch; simp at hch
      · exact h0
    have hlt : s.seq.off.toNat < s.seq.len.toNat := by omega
    have hcn : s.chunkNow = chunkLength s.cfg.pageChunk (s.seq.addr.toNat + s.seq.off.toNat) n := by
      unfold State.chunkNow; rw [hn]
    have hle : s.chunkNow ≤ n := by rw [hcn]; exact chunkLength_le
    have hche : ch = (s.seq.addr.toNat + s.seq.off.toNat, s.chunkNow) := by
      rw [chunks_cons hpc hn0, ← hcn] at hch
      simpa using hch.symm
    obtain ⟨hd, hfit, hlen, hc32, haddr24, hcw⟩ := h.chunk hlt (fun i hi => hwin i (by omega))
    obtain ⟨v, e, hst, hi⟩ := State.run_skeleton_timeout (s := s.atChunk) (k := k) h.conf h.running h.waiting
      h.calm h.ready hfit (Or.inr (Or.inr rfl))
      (by
        rw [hd]
        show List.take _ s.env.lift = _
        rw [hlen]
        show List.take (s.chunkNow + 4 + 2 * s.cfg.maxAttempts.toNat) s.env.lift = _
        exact take_replicate_mono hl (by show s.chunkNow + 4 + 2 * s.cfg.maxAttempts.toNat ≤ _; omega))
      (by show List.take s.cfg.maxAttempts.toNat s.env.done = List.replicate s.cfg.maxAttempts.toNat false
          simpa using hdone)
    rw [hd] at hi
    have hiw : WriteOnly s.atChunk v := hi.writeOnly h.calm.1
    obtain ⟨ps, hpl, hframes, hbusy, -⟩ := hi.frames
    subst hche
    refine ⟨v, ?_, ?_⟩
    · rw [show k + (6 * 0 + 5) = (k + 3) + 2 by rfl, State.run_toChunk h.running h.waiting h.calm.1 h.step
        (by intro he; rw [he] at hlt; exact absurd hlt (lt_irrefl _)), e]
    · refine ⟨WriteOnly.trans (t := s.atChunk)
          ⟨rfl, rfl, rfl, rfl, rfl, rfl, rfl, rfl, rfl, id, id⟩ hiw, hst, by rw [hi.seq],
        by rw [hi.seq]; rfl, by rw [hi.flash]; rfl, by rw [hi.flash]; rfl,
        by rw [hi.flash, chunkData_now]; rfl, by rw [hi.flash]; exact Memory.wf_disturbed hm, ?_, [], ps, rfl, by simp, hpl, hbusy rfl, ?_⟩
      · intro a ha
        have hpage : (s.seq.addr.toNat + s.seq.off.toNat) % s.cfg.pageChunk + s.chunkNow ≤ s.cfg.pageChunk :=
          chunkLength_page hpc
        have hread : Memory.read v.flash.array a = Memory.read s.flash.array a := by
          rw [hi.flash]
          exact Flash.startWork_read (fl := { s.flash with wel := true })
            (touches_program (n := s.chunkNow) (by rw [hlen]) hpage ha)
        rw [hread]
        have : ¬ (s.seq.addr.toNat + s.seq.off.toNat ≤ a ∧ a < s.seq.addr.toNat + s.seq.off.toNat) := by omega
        cases s.host.buffer[a - s.seq.addr.toNat]? <;> simp only [this, if_false]
      · rw [hframes, hd, chunkData_now]
        simp only [List.take_zero, writeFrames, List.append_nil]
        unfold chunkCommands
        rw [← haddr24, ← hcw, List.append_assoc]
        rfl
  | succ j ih =>
    intro k n s ch h hwin hmax hm hn hch hl hdone
    have hpc := Config.wf_pageChunk h.conf
    have hn0 : 0 < n := by
      rcases Nat.eq_zero_or_pos n with rfl | h0
      · rw [chunks_zero] at hch; simp at hch
      · exact h0
    have hlt : s.seq.off.toNat < s.seq.len.toNat := by omega
    have hcn : s.chunkNow = chunkLength s.cfg.pageChunk (s.seq.addr.toNat + s.seq.off.toNat) n := by
      unfold State.chunkNow; rw [hn]
    have hpos : 0 < s.chunkNow := by rw [hcn]; exact chunkLength_pos hpc hn0
    have hle : s.chunkNow ≤ n := by rw [hcn]; exact chunkLength_le
    have hpage : (s.seq.addr.toNat + s.seq.off.toNat) % s.cfg.pageChunk + s.chunkNow ≤ s.cfg.pageChunk := by
      rw [hcn]; exact chunkLength_page hpc
    have hcons : chunks s.cfg.pageChunk (s.seq.addr.toNat + s.seq.off.toNat) n
        = (s.seq.addr.toNat + s.seq.off.toNat, s.chunkNow)
          :: chunks s.cfg.pageChunk (s.seq.addr.toNat + (s.seq.off.toNat + s.chunkNow)) (n - s.chunkNow) := by
      rw [chunks_cons hpc hn0, ← hcn, Nat.add_assoc]
    have hbuf := h.buffer
    have hblen : ((s.host.buffer.drop s.seq.off.toNat).take s.chunkNow).length = s.chunkNow := by
      simp only [List.length_take, List.length_drop]; omega
    have hd1 : s.env.done.take 1 = [true] := by
      have := congrArg (List.take 1) hdone
      rw [List.take_take, Nat.min_eq_left (by omega), List.replicate_succ] at this
      simpa using this
    obtain ⟨u, b, e, hw, hst, hr, huoff, hubusy, hflash, hlift, hdone', hb, hframes⟩ :=
      State.run_chunk (k := k + (6 * j + 5)) h (hmax (by omega)) hlt (fun i hi => hwin i (by omega))
        (State.lets_mono hl (by omega)) hd1
    have haddr : u.seq.addr = s.seq.addr := by rw [hw.seq]
    have hlen' : u.seq.len = s.seq.len := by rw [hw.seq]
    have hstate : u.seq.state = s.seq.state := by rw [hw.seq]
    have hwait : u.seq.waiting = s.seq.waiting := by rw [hw.seq]
    have hcfg := hw.cfg
    have hhost := hw.host
    have hready : WriteReady u := by
      refine ⟨h.toWriteGoing.of_only hw hst (by omega), by rw [hflash]; rfl, ?_⟩
      unfold State.framed
      rw [hflash, hcfg]
      exact h.ready.2
    have humem : Memory.wf u.flash.array = true := by
      rw [hflash]; exact Memory.wf_program hm
    have hul : u.lets (7 * (n - s.chunkNow) + 2 * u.cfg.maxAttempts.toNat) := by
      unfold State.lets
      rw [hlift, hcfg]
      refine take_drop_replicate (take_replicate_mono hl (by omega))
    have hud : u.env.done.take (j + u.cfg.maxAttempts.toNat)
        = List.replicate j true ++ List.replicate u.cfg.maxAttempts.toNat false := by
      rw [hdone', hcfg]
      have := congrArg (List.drop 1) hdone
      rw [List.drop_take, List.replicate_succ] at this
      rw [show j + s.cfg.maxAttempts.toNat = j + 1 + s.cfg.maxAttempts.toNat - 1 by omega, this]
      rfl
    have huch : (chunks u.cfg.pageChunk (u.seq.addr.toNat + u.seq.off.toNat) (n - s.chunkNow))[j]? = some ch := by
      rw [hcfg, haddr, huoff]
      rw [hcons] at hch
      simpa using hch
    obtain ⟨v, e2, hv⟩ := ih (k := k) hready
      (by rw [hlen']; exact State.clearOfWindow.of_only hwin hw) (fun _ => by rw [hcfg]; exact hmax (by omega)) humem
      (by rw [huoff, hlen']; omega) huch hul hud
    refine ⟨v, ?_, ?_⟩
    · rw [← e2, ← e]
      congr 1
    · obtain ⟨bs, ps, hbl, hbb, hpl, hpb, hvf⟩ := hv.frames
      rw [hcfg] at hbb hpl hpb
      rw [hcfg, haddr, huoff, hlen', hhost, hframes] at hvf
      have hsub : s.seq.len.toNat - (s.seq.off.toNat + s.chunkNow) = n - s.chunkNow := by omega
      rw [hsub] at hvf
      have hge : s.seq.addr.toNat + (s.seq.off.toNat + s.chunkNow) ≤ ch.1 := by
        have hmem : ch ∈ chunks s.cfg.pageChunk (s.seq.addr.toNat + (s.seq.off.toNat + s.chunkNow)) (n - s.chunkNow) := by
          rw [hcons] at hch
          exact List.mem_of_getElem? (by simpa using hch)
        exact chunks_from hpc _ hmem
      refine ⟨hw.trans hv.only, hv.step, hv.r, by rw [← haddr]; exact hv.off, hv.wip, by rw [hv.frame, hflash]; rfl,
        by rw [hv.pending, haddr, hhost], hv.wf, ?_, b :: bs, ps, by simp [hbl], ?_, hpl, hpb, ?_⟩
      · intro a ha
        rw [hv.array a ha, haddr, huoff, hhost, hflash]
        have hread := Memory.read_program_within (m := s.flash.array) (p := s.cfg.pageChunk)
          (a := s.seq.addr.toNat + s.seq.off.toNat) (b := a)
          (d := (s.host.buffer.drop s.seq.off.toNat).take s.chunkNow) hm (by rw [hblen]; exact hpage)
        have hres : (s.flash.worked s.cfg (.program (s.seq.addr.toNat + s.seq.off.toNat)
            ((s.host.buffer.drop s.seq.off.toNat).take s.chunkNow))).array
            = Memory.program s.flash.array s.cfg.pageChunk (s.seq.addr.toNat + s.seq.off.toNat)
                ((s.host.buffer.drop s.seq.off.toNat).take s.chunkNow) := rfl
        rw [hres, hread]
        simp only [hblen]
        cases hx : s.host.buffer[a - s.seq.addr.toNat]? with
        | none =>
          have hge2 : s.host.buffer.length ≤ a - s.seq.addr.toNat := by
            rw [List.getElem?_eq_none_iff] at hx; exact hx
          rw [dif_neg (by omega)]
        | some d =>
          dsimp only
          split
          next h1 => rw [dif_neg (by omega), if_pos ⟨by omega, h1.2⟩]
          next h1 =>
            split
            next h2 =>
              have hdd : ((s.host.buffer.drop s.seq.off.toNat).take s.chunkNow)[a - (s.seq.addr.toNat + s.seq.off.toNat)]'(by
                  rw [hblen]; exact h2.2) = d := by
                rw [List.getElem_take, List.getElem_drop]
                have := (List.getElem?_eq_some_iff.mp hx).2
                rw [← this]
                congr 1
                omega
              rw [hdd, if_pos ⟨h2.1, by omega⟩]
            next h2 => rw [if_neg (by omega)]
      · intro x hx
        rcases List.mem_cons.mp hx with rfl | hx
        · exact hb
        · exact hbb x hx
      · rw [hn, hcons, List.take_succ_cons, writeFrames, hvf, chunkData_now]
        simp only [List.append_assoc]

end Sys2Proof.Machine
end

