-- ==== Sys2Proof/Laws/Frames.lean ====
section
/-! SUPPORT. What the poll and the lines of an operation leave alone, in any environment: said once for
`waitUntilReady`, once for a line, once for a run and for a block that goes on (R183, R221, R260). -/

namespace Sys2Proof.Machine

open Sys2Proof

/-! ### The poll -/

/-- `t` differs from `s` in what `waitUntilReady` may change: what `apply` may, and the counter, the result and the
operand of the poll (R221). -/
structure PollOnly (s t : State) : Prop where
  same   : t = { s with
                 tr := t.tr, fm := t.fm, cr := t.cr, ctrl := t.ctrl, flash := t.flash, env := t.env, caller := t.caller, log := t.log
                 seq := { s.seq with phase := t.seq.phase, status := t.seq.status, attempts := t.seq.attempts
                                     r := t.seq.r, waiting := t.seq.waiting } }
  slice  : t.env.slice = s.env.slice
  enable : t.env.enable = s.env.enable
  en     : t.cr.en = s.cr.en
  addrw  : t.cr.addrw = s.cr.addrw
  timing : t.cr.timing = s.cr.timing

namespace PollOnly

theorem refl (s : State) : PollOnly s s := ⟨rfl, rfl, rfl, rfl, rfl, rfl⟩

theorem trans {s t u : State} (h1 : PollOnly s t) (h2 : PollOnly t u) : PollOnly s u := by
  refine ⟨?_, h2.slice.trans h1.slice, h2.enable.trans h1.enable, h2.en.trans h1.en, h2.addrw.trans h1.addrw,
    h2.timing.trans h1.timing⟩
  conv_lhs => rw [h2.same, h1.same]

variable {s t : State}

theorem cfg (h : PollOnly s t) : t.cfg = s.cfg := by rw [h.same]
theorem host (h : PollOnly s t) : t.host = s.host := by rw [h.same]
theorem widths (h : PollOnly s t) : t.widths = s.widths := by rw [h.same]
theorem seqState (h : PollOnly s t) : t.seq.state = s.seq.state := by rw [h.same]
theorem seqStep (h : PollOnly s t) : t.seq.step = s.seq.step := by rw [h.same]
theorem seqOp (h : PollOnly s t) : t.seq.op = s.seq.op := by rw [h.same]
theorem seqAddr (h : PollOnly s t) : t.seq.addr = s.seq.addr := by rw [h.same]
theorem seqLen (h : PollOnly s t) : t.seq.len = s.seq.len := by rw [h.same]
theorem seqOff (h : PollOnly s t) : t.seq.off = s.seq.off := by rw [h.same]
theorem seqChunk (h : PollOnly s t) : t.seq.chunk = s.seq.chunk := by rw [h.same]

end PollOnly

theorem BuilderOnly.poll {s t : State} (h : BuilderOnly s t) : PollOnly s t :=
  ⟨by conv_lhs => rw [h.same]
      rw [h.seqAttempts, h.seqR, h.seqWaiting], h.slice, h.enable, h.en, h.addrw, h.timing⟩

theorem State.countPoll_only (s : State) : PollOnly s s.countPoll := by
  rw [State.countPoll_eq]
  split <;> exact ⟨rfl, rfl, rfl, rfl, rfl, rfl⟩

theorem State.waitLoop_only {k : Nat} {s : State} : PollOnly s (s.waitLoop k) := by
  induction k generalizing s with
  | zero => exact PollOnly.refl s
  | succ k ih =>
    unfold State.waitLoop
    split
    · exact PollOnly.refl s
    · split
      · have h1 := s.readStatus_only.poll
        dsimp only
        split
        · exact (h1.trans (State.countPoll_only _)).trans ih
        · exact h1
      · exact ⟨rfl, rfl, rfl, rfl, rfl, rfl⟩

theorem State.waitUntilReady_only (max : Word32) (s : State) : PollOnly s (s.waitUntilReady max) :=
  PollOnly.trans (t := { s with seq := { s.seq with attempts := 0, waiting := some max } })
    ⟨rfl, rfl, rfl, rfl, rfl, rfl⟩ State.waitLoop_only

theorem State.resumeCall_only (s : State) : PollOnly s s.resumeCall := by
  have h1 := s.finishApply_only.builder.poll
  unfold State.resumeCall
  dsimp only
  split
  · exact h1
  · split
    · exact h1
    · split
      · exact h1.trans State.waitLoop_only
      · exact (h1.trans (State.countPoll_only _)).trans State.waitLoop_only

/-! ### The lines -/

/-- What the lines of an operation leave alone (R183, R260): the configuration, HOST but for the response, the request's
operands, and, outside `initialize`, the enable and the device configuration. -/
structure LinesOnly (s t : State) : Prop where
  cfg    : t.cfg = s.cfg
  host   : t.host = { s.host with response := t.host.response }
  widths : t.widths = s.widths
  op     : t.seq.op = s.seq.op
  addr   : t.seq.addr = s.seq.addr
  len    : t.seq.len = s.seq.len
  slice  : t.env.slice = s.env.slice
  device : s.seq.step.ofInit = false →
             t.seq.step.ofInit = false ∧ t.cr.en = s.cr.en ∧ t.cr.addrw = s.cr.addrw ∧ t.cr.timing = s.cr.timing

namespace LinesOnly

theorem refl (s : State) : LinesOnly s s := ⟨rfl, rfl, rfl, rfl, rfl, rfl, rfl, fun h => ⟨h, rfl, rfl, rfl⟩⟩

theorem trans {s t u : State} (h1 : LinesOnly s t) (h2 : LinesOnly t u) : LinesOnly s u := by
  refine ⟨h2.cfg.trans h1.cfg, ?_, h2.widths.trans h1.widths, h2.op.trans h1.op, h2.addr.trans h1.addr,
    h2.len.trans h1.len, h2.slice.trans h1.slice, fun h => ?_⟩
  · rw [h2.host, h1.host]
  · obtain ⟨a1, a2, a3, a4⟩ := h1.device h
    obtain ⟨b1, b2, b3, b4⟩ := h2.device a1
    exact ⟨b1, b2.trans a2, b3.trans a3, b4.trans a4⟩

end LinesOnly

theorem PollOnly.lines {s t : State} (h : PollOnly s t) : LinesOnly s t :=
  ⟨h.cfg, by rw [h.host], h.widths, h.seqOp, h.seqAddr, h.seqLen, h.slice,
    fun hs => ⟨by rw [h.seqStep]; exact hs, h.en, h.addrw, h.timing⟩⟩

theorem State.startLine_only (s : State) : LinesOnly s s.startLine := by
  have hb : ∀ t fm om, fm ≠ .uninitialized → LinesOnly s (s.apply t fm om) :=
    fun t fm om h => (s.apply_only t fm om h).poll.lines
  have hl : ∀ l, s.seq.step = l → l.ofInit = true → s.seq.step.ofInit = true := fun l e h => by rw [e]; exact h
  unfold State.startLine
  split
  next h =>
    refine ⟨by simp [State.configureDevice, State.setAll_eq], ?_, ?_, ?_, ?_, ?_, ?_, fun hs => ?_⟩
    case refine_7 => rw [hl _ h rfl] at hs; cases hs
    all_goals simp [State.configureDevice, State.setAll_eq]
  next h =>
    refine ⟨rfl, rfl, rfl, rfl, rfl, rfl, rfl, fun hs => ?_⟩
    rw [hl _ h rfl] at hs; cases hs
  next => exact ⟨rfl, rfl, rfl, rfl, rfl, rfl, rfl, fun hs => ⟨hs, rfl, rfl, rfl⟩⟩
  next =>
    split
    · exact hb _ _ _ (by simp)
    · exact LinesOnly.refl s
    · exact LinesOnly.refl s
  next => exact hb _ _ _ (by simp)
  all_goals first
    | exact hb _ _ _ (by simp)
    | exact (s.waitUntilReady_only _).lines
    | exact ⟨rfl, rfl, rfl, rfl, rfl, rfl, rfl, fun hs => ⟨hs, rfl, rfl, rfl⟩⟩

/-- A line's calls leave its label. -/
theorem State.startLine_step (s : State) : s.startLine.seq.step = s.seq.step := by
  have hb : ∀ t fm om, fm ≠ .uninitialized → (s.apply t fm om).seq.step = s.seq.step :=
    fun t fm om h => (s.apply_only t fm om h).seqStep
  unfold State.startLine
  split
  case h_1 => simp [State.configureDevice, State.setAll_eq]
  case h_4 => split <;> first | exact hb _ _ _ (by simp) | rfl
  all_goals first
    | exact hb _ _ _ (by simp)
    | exact (s.waitUntilReady_only _).seqStep
    | rfl

theorem State.finishLine_only (s : State) : LinesOnly s s.finishLine := by
  have hg : ∀ l : Label, (s.seq.step.ofInit = false → l.ofInit = false) → LinesOnly s (s.goto l) :=
    fun l h => ⟨rfl, rfl, rfl, rfl, rfl, rfl, rfl, fun hs => ⟨h hs, rfl, rfl, rfl⟩⟩
  have hn : LinesOnly s s.nextLabel := hg _ (fun h => by revert h; cases s.seq.step <;> simp [Label.ofInit, Label.next])
  have hr : ∀ r, LinesOnly s (s.respond r) :=
    fun r => ⟨rfl, rfl, rfl, rfl, rfl, rfl, rfl, fun hs => ⟨hs, rfl, rfl, rfl⟩⟩
  have ht : LinesOnly s (s.raise .timeout) :=
    ⟨rfl, rfl, rfl, rfl, rfl, rfl, rfl, fun _ => ⟨rfl, rfl, rfl, rfl⟩⟩
  unfold State.finishLine
  split
  next heq =>
    split
    · split
      · exact hn
      · exact hg _ (fun h => by rw [heq] at h; cases h)
    · exact hr _
  · exact hr _
  · split
    · exact hr _
    · exact hn
  · split
    · exact ht
    · exact hn
  · split
    · exact ht
    · exact hn
  · split
    · exact ht
    · exact hn
  · split
    · exact hg _ (fun _ => rfl)
    · exact hn
  · exact hr _
  · exact hn

theorem State.line_only (s : State) : LinesOnly s s.line := by
  unfold State.line
  dsimp only
  split
  · exact s.startLine_only
  · exact s.startLine_only.trans s.startLine.finishLine_only

theorem State.run_only {k : Nat} {s : State} : LinesOnly s (State.run k s) := by
  induction k generalizing s with
  | zero => exact LinesOnly.refl s
  | succ k ih =>
    unfold State.run
    split
    · exact s.line_only.trans ih
    · exact LinesOnly.refl s

theorem State.resume_only (s : State) : LinesOnly s s.resume := by
  unfold State.resume
  split
  · dsimp only
    split
    · exact s.resumeCall_only.lines
    · split
      · exact (s.resumeCall_only.lines.trans s.resumeCall.finishLine_only).trans State.run_only
      · exact s.resumeCall_only.lines
  · exact State.run_only

/-! ### The caller's own buffer -/

theorem State.launched_caller {t : Transaction} {fm : FunctionalMode} {om : OperatingMode} {s : State} :
    ((s.configure t fm om).launch fm).caller = s.caller := by
  cases fm with
  | uninitialized =>
    show (s.configure t .uninitialized om).caller = s.caller
    unfold State.configure State.commitMode State.writeAddress
    simp only [fmodeCode]
    split <;> simp [State.setAll_eq]
  | memoryMapped => rw [State.configure_eq rfl]; rfl
  | indirectWrite => rw [State.configure_eq rfl]; rfl
  | indirectRead => rw [State.configure_eq rfl]; rfl

/-- A call of `apply` that does not refer to the caller's own buffer leaves it alone (R179). -/
theorem State.apply_caller {t : Transaction} {fm : FunctionalMode} {om : OperatingMode} {s : State}
    (hfm : fm ≠ .uninitialized) (ht : t.data ≠ .caller) : (s.apply t fm om).caller = s.caller := by
  have htr : ((s.configure t fm om).launch fm).tr = t := by
    cases fm <;> first | exact absurd rfl hfm | (rw [State.configure_eq rfl]; rfl)
  unfold State.apply
  rw [(State.finishApply_only _).caller (by rw [htr]; exact ht), State.launched_caller]

theorem State.waitLoop_caller {k : Nat} {s : State} : (s.waitLoop k).caller = s.caller := by
  induction k generalizing s with
  | zero => rfl
  | succ k ih =>
    have hr : s.readStatus.caller = s.caller := State.apply_caller (by simp) (by simp [Transaction.readStatus])
    unfold State.waitLoop
    split
    · rfl
    · split
      · dsimp only
        split
        · rw [ih, State.countPoll_eq]
          split <;> exact hr
        · exact hr
      · rfl

theorem State.waitUntilReady_caller (max : Word32) (s : State) : (s.waitUntilReady max).caller = s.caller :=
  State.waitLoop_caller

theorem State.startLine_caller (s : State) : s.startLine.caller = s.caller := by
  have hb : ∀ t fm om, fm ≠ .uninitialized → t.data ≠ .caller → (s.apply t fm om).caller = s.caller :=
    fun _ _ _ h1 h2 => State.apply_caller h1 h2
  unfold State.startLine
  split
  case h_1 => simp [State.configureDevice, State.setAll_eq]
  case h_4 => split <;> first | exact hb _ _ _ (by simp) (by simp [Transaction.send]) | rfl
  all_goals first
    | exact hb _ _ _ (by simp) (by simp [Transaction.send, Transaction.readData, Transaction.sectorErase, Transaction.pageProgram])
    | exact s.waitUntilReady_caller _
    | rfl

theorem State.finishLine_caller (s : State) : s.finishLine.caller = s.caller := by
  unfold State.finishLine
  split <;> first
    | rfl
    | (split <;> first | rfl | (split <;> rfl))

/-- The lines of an operation leave the caller's own buffer alone. -/
theorem State.run_caller {k : Nat} {s : State} : (State.run k s).caller = s.caller := by
  have hline : ∀ s : State, s.line.caller = s.caller := by
    intro s
    unfold State.line
    dsimp only
    split
    · exact s.startLine_caller
    · rw [s.startLine.finishLine_caller, s.startLine_caller]
  induction k generalizing s with
  | zero => rfl
  | succ k ih =>
    unfold State.run
    split
    · rw [ih, hline]
    · rfl

end Sys2Proof.Machine
end

