-- ==== Sys2Proof/Laws/AnyChip.lean ====
section
/-! SUPPORT. The poll and the maintenance operations with a chip of any kind, one in another framing or one the block's
default operating mode does not fit among them: what the block itself does, wherever CTRL takes the steps its waits ask
for (R164, R221, R262, R304). -/

namespace Sys2Proof.Machine

open Sys2Proof

/-! ### The poll -/

/-- `v` is where `k` status reads and the result `r` leave a poll that stood at `s`, whatever the chip answered (R221,
R222). -/
structure PolledAny (s v : State) (max : Word32) (k : Nat) (r : Result) : Prop where
  poll     : PollOnly s v
  waiting  : v.seq.waiting = none
  result   : v.seq.r = r
  attempts : v.seq.attempts.toNat = s.seq.attempts.toNat + k
  bound    : k ≤ max.toNat - s.seq.attempts.toNat
  calm     : v.calm
  busy     : s.cr.busy = false → v.cr.busy = false
  mode     : 0 < k → v.fm = .indirectRead
               ∧ v.cr = { s.cr.configured s.cfg Transaction.readStatus .indirectRead s.cfg.omDefault 1 with busy := false }
  none     : k = 0 → v.fm = s.fm ∧ v.cr = s.cr ∧ v.flash = s.flash ∧ v.seq.status = s.seq.status
  lift     : v.env.lift = s.env.lift.drop (2 * k)
  frames   : ∃ bs : List Byte, bs.length = k ∧ v.frames = bs.map (statusFrame s.cfg) ++ s.frames
               ∧ (0 < k → bs.head? = some v.seq.status)
               ∧ (∀ b ∈ bs.tail, statusBusy s.cfg.busyBit b = true)
               ∧ (r = .ok → 0 < k ∧ statusBusy s.cfg.busyBit v.seq.status = false)
               ∧ (r = .timeout → max.toNat ≤ v.seq.attempts.toNat ∧ ∀ b ∈ bs, statusBusy s.cfg.busyBit b = true)

theorem CR.configured_configured (cr : CR) (c : Config) (t : Transaction) (fm : FunctionalMode) (om : OperatingMode)
    (k : BitVec 2) (b : Bool) (h : t.address = none) :
    CR.configured { cr.configured c t fm om k with busy := b } c t fm om k = { cr.configured c t fm om k with busy := b } := by
  simp [CR.configured, h]

theorem State.waitLoop_any {n : Nat} : ∀ {k : Nat} {s : State} {max : Word32}, s.calm → s.seq.waiting = some max →
    max.toNat - s.seq.attempts.toNat = n → n < k → s.lets (2 * n) →
    ∃ m r, (r = .ok ∨ r = .timeout) ∧ PolledAny s (s.waitLoop k) max m r := by
  induction n with
  | zero =>
    intro k s max hcalm hw hn hk hl
    obtain ⟨k, rfl⟩ : ∃ j, k = j + 1 := ⟨k - 1, by omega⟩
    rw [State.waitLoop_over hw (by omega)]
    refine ⟨0, .timeout, Or.inr rfl, ⟨⟨rfl, rfl, rfl, rfl, rfl, rfl⟩, rfl, rfl, rfl, by omega, hcalm, id, by simp, ?_, rfl, [], rfl,
      rfl, by simp, by simp, by simp, fun _ => ⟨by show _ ≤ s.seq.attempts.toNat; omega, by simp⟩⟩⟩
    exact fun _ => ⟨rfl, rfl, rfl, rfl⟩
  | succ n ih =>
    intro k s max hcalm hw hn hk hl
    obtain ⟨k, rfl⟩ : ∃ j, k = j + 1 := ⟨k - 1, by omega⟩
    have hmax := max.isLt
    obtain ⟨b, c, e, e1, e2, e3⟩ := State.apply_read_any (s := s) (t := Transaction.readStatus) (om := s.cfg.omDefault)
      hcalm rfl (State.lets_mono hl (by omega))
    have hr : s.readStatus = s.received Transaction.readStatus s.cfg.omDefault b c e := e3
    have hfr : s.readStatus.frames = statusFrame s.cfg b :: s.frames := by
      rw [hr]; exact State.statusRead_frames s b c e
    have hp : s.readStatus.seq.phase = .idle := by rw [hr]; exact hcalm.1
    have hcfg : s.readStatus.cfg = s.cfg := by rw [hr]; rfl
    have hst : s.readStatus.seq.status = b := by rw [hr]; rfl
    have hon := s.readStatus_only.poll
    rw [State.waitLoop_step hw (by omega) hp]
    have hatt : (s.seq.attempts + 1).toNat = s.seq.attempts.toNat + 1 := by
      rw [BitVec.toNat_add, show (1 : Word32).toNat = 1 from rfl, Nat.mod_eq_of_lt (by omega)]
    have hatt2 : s.readStatus.seq.attempts = s.seq.attempts := s.readStatus_only.seqAttempts
    have hcalm1 : s.readStatus.calm := by rw [hr]; exact ⟨hcalm.1, rfl, rfl⟩
    have hlift : s.readStatus.env.lift = s.env.lift.drop 2 := by rw [hr]; rfl
    have hcr : s.readStatus.cr
        = { s.cr.configured s.cfg Transaction.readStatus .indirectRead s.cfg.omDefault 1 with busy := false } := by
      rw [hr]; rfl
    have hfm : s.readStatus.fm = .indirectRead := by rw [hr]; rfl
    cases hb : statusBusy s.cfg.busyBit b with
    | false =>
      have hc : s.readStatus.countPoll = { s.readStatus with
          seq := { s.readStatus.seq with attempts := s.readStatus.seq.attempts + 1, r := .ok, waiting := none } } := by
        rw [State.countPoll_eq, if_neg (by rw [hcfg, hst, hb]; simp)]
      rw [State.waitLoop_done (by rw [hc])]
      refine ⟨1, .ok, Or.inl rfl, ⟨hon.trans (State.countPoll_only _), by rw [hc], by rw [hc], ?_, by omega, ?_, ?_, ?_, by simp, ?_,
        [b], rfl, ?_, ?_, by simp, ?_, by simp⟩⟩
      · rw [hc]; show (s.readStatus.seq.attempts + 1).toNat = _; rw [hatt2]; exact hatt
      · rw [hc]; exact hcalm1
      · intro _; rw [hc]; show s.readStatus.cr.busy = false; rw [hcr]
      · intro _; rw [hc]; exact ⟨hfm, hcr⟩
      · rw [hc]; exact hlift
      · rw [hc]; exact hfr
      · intro _; rw [hc]; show some b = some s.readStatus.seq.status; rw [hst]
      · intro _; rw [hc]; exact ⟨by omega, by show statusBusy _ s.readStatus.seq.status = false; rw [hst]; exact hb⟩
    | true =>
      have hc : s.readStatus.countPoll = { s.readStatus with
          seq := { s.readStatus.seq with attempts := s.readStatus.seq.attempts + 1 } } := by
        rw [State.countPoll_eq, if_pos (by rw [hcfg, hst]; exact hb)]
      have hatt3 : s.readStatus.countPoll.seq.attempts.toNat = s.seq.attempts.toNat + 1 := by
        rw [hc]; show (s.readStatus.seq.attempts + 1).toNat = _; rw [hatt2]; exact hatt
      obtain ⟨m, r, h1, h2⟩ := ih (k := k) (s := s.readStatus.countPoll) (max := max) (by rw [hc]; exact hcalm1)
        (by rw [hc]; show s.readStatus.seq.waiting = _; rw [s.readStatus_only.seqWaiting]; exact hw) (by rw [hatt3]; omega)
        (by omega)
        (by
          unfold State.lets
          rw [hc]
          show List.take (2 * n) s.readStatus.env.lift = _
          rw [hlift]
          exact take_drop_replicate (by rw [show 2 + 2 * n = 2 * (n + 1) by ring]; exact hl))
      have hcfg3 : s.readStatus.countPoll.cfg = s.cfg := by rw [hc]; exact hcfg
      have hcr3 : s.readStatus.countPoll.cr = s.readStatus.cr := by rw [hc]
      obtain ⟨bs, h3, h4, h5, h6, h7, h8⟩ := h2.frames
      rw [hcfg3] at h4 h6 h7 h8
      have hf3 : s.readStatus.countPoll.frames = statusFrame s.cfg b :: s.frames := by rw [hc]; exact hfr
      refine ⟨m + 1, r, h1, ⟨(hon.trans (State.countPoll_only _)).trans h2.poll, h2.waiting, h2.result, ?_, ?_, h2.calm, ?_, ?_,
        by simp, ?_, bs ++ [b], by simp [h3], ?_, ?_, ?_, ?_, ?_⟩⟩
      · rw [h2.attempts, hatt3]; omega
      · have := h2.bound; rw [hatt3] at this; omega
      · intro _; exact h2.busy (by rw [hcr3, hcr])
      · intro _
        rcases Nat.eq_zero_or_pos m with h0 | h0
        · obtain ⟨h9, h10, -, -⟩ := h2.none h0
          rw [h9, h10, hcr3]
          exact ⟨by rw [hc]; exact hfm, hcr⟩
        · obtain ⟨h9, h10⟩ := h2.mode h0
          refine ⟨h9, ?_⟩
          rw [h10, hcfg3, hcr3, hcr, CR.configured_configured _ _ _ _ _ _ _ rfl]
      · rw [h2.lift, hc]
        show List.drop (2 * m) s.readStatus.env.lift = _
        rw [hlift, List.drop_drop]; congr 1; ring
      · rw [h4, hf3]; simp
      · intro _
        rcases Nat.eq_zero_or_pos m with h0 | h0
        · have hbs : bs = [] := List.length_eq_zero_iff.mp (h3.trans h0)
          rw [hbs, (h2.none h0).2.2.2, hc]
          show some b = some s.readStatus.seq.status
          rw [hst]
        · cases bs with
          | nil => simp at h3; omega
          | cons x xs => simpa using h5 h0
      · intro y hy
        cases bs with
        | nil => simp at hy
        | cons x xs =>
          simp only [List.cons_append, List.tail_cons, List.mem_append, List.mem_singleton] at hy
          rcases hy with hy | rfl
          · exact h6 y (by simpa using hy)
          · exact hb
      · intro hok; exact ⟨by omega, (h7 hok).2⟩
      · intro hto
        refine ⟨(h8 hto).1, fun y hy => ?_⟩
        rcases List.mem_append.mp hy with hy | hy
        · exact (h8 hto).2 y hy
        · rw [List.mem_singleton.mp hy]; exact hb

theorem State.waitUntilReady_any {s : State} {max : Word32} (hcalm : s.calm) (hl : s.lets (2 * max.toNat)) :
    ∃ m r, (r = .ok ∨ r = .timeout)
      ∧ PolledAny { s with seq := { s.seq with attempts := 0, waiting := some max } } (s.waitUntilReady max) max m r :=
  State.waitLoop_any (n := max.toNat) hcalm rfl (by simp) (by omega) hl

/-! ### The destructive skeleton -/

/-- A line that sends one indirect write, and its move (R262, R282). -/
theorem State.line_write_any {s : State} {t : Transaction} {om : OperatingMode} {d : List Byte} (hw : s.seq.waiting = none)
    (hcalm : s.calm) (hstart : s.startLine = s.apply t .indirectWrite om)
    (hmove : ∀ v : State, v.seq.step = s.seq.step → v.finishLine = v.nextLabel) (hn : t.dataLength.toNat = d.length)
    (hd : ∀ j (h : j < d.length), t.data.byte s j = some d[j]) (hl : s.lets (d.length + 2)) :
    WriteOnly s s.line ∧ s.line.seq = { s.seq with step := s.seq.step.next }
      ∧ s.line.env.lift = s.env.lift.drop (d.length + 2)
      ∧ s.line.frames = { launchedFrame s.cfg t om .write with data := d } :: s.frames := by
  obtain ⟨c, e, e1, e2, e3, e4⟩ := State.apply_write_any (om := om) hcalm hn hd hl
  have hs : s.startLine = { s.written t om d c with env := e } := hstart.trans e4
  have hline : s.line = ({ s.written t om d c with env := e } : State).nextLabel := by
    rw [State.line_finish (by rw [hs]; exact State.held_of_calm (s := s) hcalm hw), hs]
    exact hmove _ rfl
  rw [hline]
  refine ⟨⟨rfl, rfl, rfl, rfl, rfl, rfl, rfl, e1, e2, fun _ => ⟨hcalm.1, rfl, rfl⟩, fun _ => rfl⟩, rfl, e3, ?_⟩
  exact State.written_frames s t om d c

/-- The bytes the destructive command of a label sends are there, outside the window (R61, R357). -/
def State.destructiveCovered (s : State) : Prop :=
  s.seq.step = .w3 → s.seq.off.toNat + s.seq.chunk.toNat ≤ s.host.buffer.length
    ∧ s.clearOfWindow (s.seq.off.toNat + s.seq.chunk.toNat)

/-- The skeleton with a chip of any kind (R262, R307): three lines. -/
theorem State.run_skeleton_any {s : State} (hr : s.seq.state = .running) (hw : s.seq.waiting = none)
    (hcalm : s.calm) (hcov : s.destructiveCovered)
    (hstep : s.seq.step = .m0 ∨ s.seq.step = .s1 ∨ s.seq.step = .w3)
    (hl : s.lets (s.destructive.2.1.length + 4 + 2 * s.cfg.maxAttempts.toNat)) :
    ∃ (v : State) (m : Nat) (r : Result), (r = .ok ∨ r = .timeout) ∧ m ≤ s.cfg.maxAttempts.toNat
      ∧ (∀ k, State.run (k + 3) s = State.run k v) ∧ WriteOnly s v
      ∧ v.seq.r = r ∧ v.seq.step = (if r = .ok then s.seq.step.next.next.next else .restore)
      ∧ v.seq.off = s.seq.off ∧ v.seq.chunk = s.seq.chunk
      ∧ v.env.lift = s.env.lift.drop (s.destructive.2.1.length + 4 + 2 * m)
      ∧ ∃ bs : List Byte, bs.length = m ∧ v.frames = bs.map (statusFrame s.cfg)
          ++ { launchedFrame s.cfg s.destructive.1 s.cfg.omDefault .write with data := s.destructive.2.1 }
            :: writeEnableFrame s.cfg :: s.frames
          ∧ (∀ b ∈ bs.tail, statusBusy s.cfg.busyBit b = true)
          ∧ (r = .ok → ∃ b rest, bs = b :: rest ∧ statusBusy s.cfg.busyBit b = false)
          ∧ (r = .timeout → m = s.cfg.maxAttempts.toNat ∧ ∀ b ∈ bs, statusBusy s.cfg.busyBit b = true) := by
  have drop2 : ∀ {l : List Bool} {a b : Nat}, l.take (a + b) = List.replicate (a + b) true →
      (l.drop a).take b = List.replicate b true := fun h => take_drop_replicate h
  -- the WriteEnable line
  obtain ⟨a1, a2, a3, a4⟩ := State.line_write_any (s := s) (t := Transaction.send .writeEnable) (om := s.cfg.omDefault)
    (d := []) hw hcalm (by rcases hstep with h | h | h <;> simp only [State.startLine, h])
    (fun v hv => by unfold State.finishLine; rcases hstep with h | h | h <;> rw [hv, h]) rfl (by simp)
    (State.lets_mono hl (by simp; omega))
  have hh : s.held = false := State.held_of_calm hcalm hw
  generalize hu : s.line = u at a1 a2 a3 a4
  have hucalm := a1.calm hcalm
  have huw : u.seq.waiting = none := by rw [a2]; exact hw
  have hul : u.lets (s.destructive.2.1.length + 2 + 2 * s.cfg.maxAttempts.toNat) := by
    unfold State.lets
    rw [a3]
    refine drop2 (a := ([] : List Byte).length + 2) ?_
    rw [show ([] : List Byte).length + 2 + (s.destructive.2.1.length + 2 + 2 * s.cfg.maxAttempts.toNat)
      = s.destructive.2.1.length + 4 + 2 * s.cfg.maxAttempts.toNat by simp; omega]
    exact hl
  -- the destructive line
  have hdat : s.destructive.1.dataLength.toNat = s.destructive.2.1.length
      ∧ (∀ j (h : j < s.destructive.2.1.length), s.destructive.1.data.byte u j = some s.destructive.2.1[j])
      ∧ u.startLine = u.apply s.destructive.1 .indirectWrite u.cfg.omDefault := by
    have hst : u.seq.step = s.seq.step.next := by rw [a2]
    rcases hstep with h | h | h
    · rw [h] at hst
      refine ⟨by simp [State.destructive, h]; rfl, by simp [State.destructive, h], ?_⟩
      simp only [State.startLine, hst, Label.next, State.destructive, h]
    · rw [h] at hst
      refine ⟨by simp [State.destructive, h]; rfl, by simp [State.destructive, h], ?_⟩
      simp only [State.startLine, hst, Label.next, State.destructive, h, show u.seq.addr = s.seq.addr by rw [a2]]
    · rw [h] at hst
      obtain ⟨h1, h2⟩ := hcov h
      have hlen : ((s.host.buffer.drop s.seq.off.toNat).take s.seq.chunk.toNat).length = s.seq.chunk.toNat := by
        simp only [List.length_take, List.length_drop]; omega
      refine ⟨?_, ?_, ?_⟩
      · simp only [State.destructive, h]
        rw [hlen]; rfl
      · simp only [State.destructive, h]
        intro j hj
        rw [hlen] at hj
        have := h2 (s.seq.off.toNat + j) (by omega)
        simp only [Transaction.pageProgram, DataRef.byte]
        rw [a1.cfg, a1.host]
        rw [this, if_neg (by simp), List.getElem?_eq_getElem (by omega), List.getElem_take, List.getElem_drop]
      · simp only [State.startLine, hst, Label.next, State.destructive, h]
        rw [show u.seq.addr = s.seq.addr by rw [a2], show u.seq.off = s.seq.off by rw [a2],
          show u.seq.chunk = s.seq.chunk by rw [a2]]
  obtain ⟨b1, b2, b3, b4⟩ := State.line_write_any (s := u) (t := s.destructive.1) (om := u.cfg.omDefault)
    (d := s.destructive.2.1) huw hucalm hdat.2.2
    (fun v hv => by
      have hst : u.seq.step = s.seq.step.next := by rw [a2]
      unfold State.finishLine
      rcases hstep with h | h | h <;> rw [hv, hst, h] <;> rfl) hdat.1 hdat.2.1
    (State.lets_mono hul (by omega))
  have huh : u.held = false := State.held_of_calm hucalm huw
  generalize hx : u.line = x at b1 b2 b3 b4
  have hxcalm := b1.calm hucalm
  have hxw : x.seq.waiting = none := by rw [b2]; exact huw
  have hxl : x.lets (2 * x.cfg.maxAttempts.toNat) := by
    unfold State.lets
    rw [b3, b1.cfg, a1.cfg]
    exact drop2 hul
  have hxs : x.seq.step = s.seq.step.next.next := by rw [b2, a2]
  -- the poll
  obtain ⟨m, r, h1, h2⟩ := State.waitUntilReady_any (max := x.cfg.maxAttempts) hxcalm hxl
  have hstart : x.startLine = x.waitUntilReady x.cfg.maxAttempts := by
    unfold State.startLine
    rcases hstep with h | h | h <;> simp only [hxs, h, Label.next]
  have hpoll : PollOnly x (x.waitUntilReady x.cfg.maxAttempts) := State.waitUntilReady_only _ _
  generalize hy : x.waitUntilReady x.cfg.maxAttempts = y at h2 hstart hpoll
  have hyh : y.held = false := State.held_of_calm h2.calm h2.waiting
  have hys : y.seq.step = s.seq.step.next.next := by rw [hpoll.seqStep, hxs]
  have hline : x.line = y.goto (if r = .ok then s.seq.step.next.next.next else .restore) := by
    rw [State.line_finish (by rw [hstart]; exact hyh), hstart]
    unfold State.finishLine
    rcases h1 with rfl | rfl
    · rcases hstep with h | h | h <;> simp only [hys, h, Label.next, h2.result] <;>
        simp [State.nextLabel, hys, h, Label.next]
    · have hrt : y.raise .timeout = y.goto .restore := by
        simp only [State.raise, Failure.result, State.goto]
        rw [← h2.result]
      rcases hstep with h | h | h <;> simp only [hys, h, Label.next, h2.result] <;> simp [hrt]
  have hcfg : x.cfg = s.cfg := b1.cfg.trans a1.cfg
  obtain ⟨bs, f1, f2, f3, f4, f5, f6⟩ := h2.frames
  have hxf : x.frames = { launchedFrame s.cfg s.destructive.1 s.cfg.omDefault .write with data := s.destructive.2.1 }
      :: writeEnableFrame s.cfg :: s.frames := by
    rw [b4, a4, a1.cfg]; rfl
  have hw1 : WriteOnly x (y.goto (if r = .ok then s.seq.step.next.next.next else .restore)) := by
    refine ⟨hpoll.cfg, hpoll.host, hpoll.widths, ?_, hpoll.en, hpoll.addrw, hpoll.timing, hpoll.slice, hpoll.enable,
      fun _ => h2.calm, h2.busy⟩
    rw [State.goto_seq]
    conv_lhs => rw [hpoll.same]
    simp only [h2.waiting, hxw, h2.calm.1, hxcalm.1, hpoll.seqOff, hpoll.seqChunk]
  refine ⟨_, m, r, h1, ?_, ?_, (a1.trans b1).trans hw1, h2.result, rfl, ?_, ?_, ?_, bs, f1, ?_, ?_, ?_, ?_⟩
  · have := h2.bound; rw [hcfg] at this; simpa using this
  · intro k
    rw [show k + 3 = (k + 2) + 1 by rfl, State.run_succ hr hh, hu, show k + 2 = (k + 1) + 1 by rfl,
      State.run_succ (by rw [a2]; exact hr) huh, hx, State.run_succ (by rw [b2, a2]; exact hr)
      (State.held_of_calm hxcalm hxw), hline]
  · show y.seq.off = _; rw [hpoll.seqOff, b2, a2]
  · show y.seq.chunk = _; rw [hpoll.seqChunk, b2, a2]
  · show y.env.lift = _
    rw [h2.lift]
    show List.drop (2 * m) x.env.lift = _
    rw [b3, a3, List.drop_drop, List.drop_drop]
    congr 1
    simp; omega
  · show y.frames = _
    rw [f2]
    show bs.map (statusFrame x.cfg) ++ x.frames = _
    rw [hxf, hcfg]
  · intro b hb; have := f4 b hb; rw [hcfg] at this; exact this
  · intro hok
    obtain ⟨h3, h4⟩ := f5 hok
    cases bs with
    | nil => simp at f1; omega
    | cons b rest =>
      have h5 := f3 h3
      simp only [List.head?_cons, Option.some.injEq] at h5
      rw [hcfg] at h4
      exact ⟨b, rest, rfl, by rw [h5]; exact h4⟩
  · intro hto
    obtain ⟨h3, h4⟩ := f6 hto
    have h5 := h2.attempts
    have h6 := h2.bound
    rw [hcfg] at h3 h4 h6
    refine ⟨?_, h4⟩
    have : (0 : Word32).toNat = 0 := rfl
    simp only [this] at h5 h6
    omega

/-! ### The write loop -/

/-- The `W` loop from `W1` to `RESTORE` with a chip of any kind (R277, R279, R281, R282). -/
theorem State.run_writeAny {n : Nat} : ∀ {s : State}, WriteGoing s →
    s.clearOfWindow s.seq.len.toNat → s.seq.len.toNat - s.seq.off.toNat = n → s.lets ((5 + 2 * s.cfg.maxAttempts.toNat) * n) →
    ∃ (v : State) (j : Nat) (r : Result), (r = .ok ∨ r = .timeout) ∧ j ≤ 6 * n + 1
      ∧ (∀ k, State.run (k + j) s = State.run k v) ∧ WriteOnly s v ∧ v.seq.step = .restore
      ∧ (r = .ok → s.seq.r = .ok → v.seq.r = .ok) ∧ (r = .timeout → v.seq.r = .timeout)
      ∧ ∃ ps : List (List Byte),
          v.frames = attemptFrames s.cfg s.host.buffer s.seq.addr.toNat
              (chunks s.cfg.pageChunk (s.seq.addr.toNat + s.seq.off.toNat) n) ps ++ s.frames
            ∧ ps.length ≤ (chunks s.cfg.pageChunk (s.seq.addr.toNat + s.seq.off.toNat) n).length
            ∧ (r = .ok → ps.length = (chunks s.cfg.pageChunk (s.seq.addr.toNat + s.seq.off.toNat) n).length
                ∧ ∀ bs ∈ ps, ∃ b rest, bs = b :: rest ∧ statusBusy s.cfg.busyBit b = false)
            ∧ (r = .timeout → ∃ bs, ps.getLast? = some bs ∧ bs.length = s.cfg.maxAttempts.toNat
                ∧ ∀ b ∈ bs, statusBusy s.cfg.busyBit b = true) := by
  induction n using Nat.strong_induction_on with
  | _ n ih =>
    intro s h hwin hn hl
    by_cases h0 : n = 0
    · subst h0
      have hoff : s.seq.off = s.seq.len := by
        apply BitVec.eq_of_toNat_eq
        have := h.off
        omega
      have hh : s.held = false := by simp [State.held, h.waiting, h.calm.1]
      have e1 : s.line = s.goto .restore := by
        have hs : s.startLine = s := by unfold State.startLine; rw [h.step]
        rw [State.line_finish (by rw [hs]; exact hh), hs]
        unfold State.finishLine
        rw [h.step]
        simp [hoff]
      refine ⟨s.goto .restore, 1, .ok, Or.inl rfl, by omega, fun k => by rw [State.run_succ h.running hh, e1],
        ⟨rfl, rfl, rfl, rfl, rfl, rfl, rfl, rfl, rfl, id, id⟩, rfl, fun _ h => h, by simp, [], rfl, by simp, ?_, by simp⟩
      intro _
      exact ⟨by rw [chunks_zero]; rfl, by simp⟩
    · have hpc := Config.wf_pageChunk h.conf
      have hlt : s.seq.off.toNat < s.seq.len.toNat := by omega
      have hcn : s.chunkNow = chunkLength s.cfg.pageChunk (s.seq.addr.toNat + s.seq.off.toNat) n := by
        unfold State.chunkNow; rw [hn]
      have hpos : 0 < s.chunkNow := by rw [hcn]; exact chunkLength_pos hpc (Nat.pos_of_ne_zero h0)
      have hle : s.chunkNow ≤ n := by rw [hcn]; exact chunkLength_le
      have hcons : chunks s.cfg.pageChunk (s.seq.addr.toNat + s.seq.off.toNat) n
          = (s.seq.addr.toNat + s.seq.off.toNat, s.chunkNow)
            :: chunks s.cfg.pageChunk (s.seq.addr.toNat + (s.seq.off.toNat + s.chunkNow)) (n - s.chunkNow) := by
        rw [chunks_cons hpc (Nat.pos_of_ne_zero h0), ← hcn, Nat.add_assoc]
      obtain ⟨hd, -, hlen, hc32, haddr24, hcw⟩ := h.chunk hlt (fun i hi => hwin i (by omega))
      have hbuf := h.buffer
      have hneed : s.chunkNow + 4 + 2 * s.cfg.maxAttempts.toNat
          + (5 + 2 * s.cfg.maxAttempts.toNat) * (n - s.chunkNow) ≤ (5 + 2 * s.cfg.maxAttempts.toNat) * n := by
        obtain ⟨q, rfl⟩ : ∃ q, n = s.chunkNow + q := ⟨n - s.chunkNow, by omega⟩
        rw [Nat.add_sub_cancel_left, Nat.mul_add]
        have : s.chunkNow + 4 + 2 * s.cfg.maxAttempts.toNat ≤ (5 + 2 * s.cfg.maxAttempts.toNat) * s.chunkNow := by
          nlinarith
        omega
      obtain ⟨v, m, r, h1, h2, h3, h4, h5, h6, h7, h8, h9, bs, f1, f2, f3, f4, f5⟩ :=
        State.run_skeleton_any (s := s.atChunk) h.running h.waiting h.calm
          (fun _ => ⟨by show s.seq.off.toNat + s.nextChunk.toNat ≤ _; rw [hc32]; show _ ≤ s.host.buffer.length; omega,
            fun i hi => hwin i (by
              have : i < s.seq.off.toNat + s.nextChunk.toNat := hi
              omega)⟩)
          (Or.inr (Or.inr rfl))
          (by
            rw [hd]
            show List.take _ s.env.lift = _
            rw [hlen]
            exact State.lets_mono hl (by show s.chunkNow + 4 + 2 * s.cfg.maxAttempts.toNat ≤ _; omega))
      rw [hd] at h9 f2
      have hw1 : WriteOnly s v := WriteOnly.trans (t := s.atChunk) ⟨rfl, rfl, rfl, rfl, rfl, rfl, rfl, rfl, rfl, id, id⟩ h4
      have hcmd : v.frames = (bs.map (statusFrame s.cfg)
          ++ chunkCommands s.cfg (chunkData s.host.buffer s.seq.addr.toNat (s.seq.addr.toNat + s.seq.off.toNat, s.chunkNow))
              (s.seq.addr.toNat + s.seq.off.toNat, s.chunkNow)) ++ s.frames := by
        rw [f2, chunkData_now]
        unfold chunkCommands
        rw [← haddr24, ← hcw]
        simp only [List.append_assoc]
        rfl
      have htochunk : ∀ j, State.run (j + 2) s = State.run j s.atChunk := fun j =>
        State.run_toChunk h.running h.waiting h.calm.1 h.step (by intro he; rw [he] at hlt; exact absurd hlt (lt_irrefl _))
      rcases h1 with rfl | rfl
      · -- the chunk is written: `W6`, and the rest
        rw [if_pos rfl] at h6
        have hst6 : v.seq.step = .w6 := h6
        have hvw : v.seq.waiting = none := by rw [hw1.seq]; exact h.waiting
        have hvp : v.seq.phase = .idle := by rw [hw1.seq]; exact h.calm.1
        have hvr : v.seq.state = .running := by rw [hw1.seq]; exact h.running
        have hoff : v.seq.off = s.seq.off := h7
        have hchunk : v.seq.chunk = s.nextChunk := h8
        have eline : v.line = { v with seq := { v.seq with off := s.seq.off + s.nextChunk, step := .w1 } } := by
          have hs : v.startLine = { v with seq := { v.seq with off := s.seq.off + s.nextChunk } } := by
            unfold State.startLine; rw [hst6]; simp only [hoff, hchunk]
          rw [State.line_finish (by rw [hs]; simp [State.held, hvw, hvp]), hs]
          unfold State.finishLine
          rw [show ({ v with seq := { v.seq with off := s.seq.off + s.nextChunk } } : State).seq.step = v.seq.step from rfl,
            hst6]
          dsimp only
          unfold State.nextLabel
          rw [show ({ v with seq := { v.seq with off := s.seq.off + s.nextChunk } } : State).seq.step = v.seq.step from rfl,
            hst6]
          rfl
        generalize hu : ({ v with seq := { v.seq with off := s.seq.off + s.nextChunk, step := .w1 } } : State) = u at eline
        have huw : WriteOnly s u := by
          rw [← hu]
          exact hw1.trans ⟨rfl, rfl, rfl, rfl, rfl, rfl, rfl, rfl, rfl, id, id⟩
        have huoff : u.seq.off.toNat = s.seq.off.toNat + s.chunkNow := by
          rw [← hu]
          show (s.seq.off + s.nextChunk).toNat = _
          have := s.seq.len.isLt
          rw [BitVec.toNat_add, hc32, Nat.mod_eq_of_lt (by omega)]
        have hur : u.seq.r = .ok := by rw [← hu]; exact h5
        have huf : u.frames = v.frames := by rw [← hu]; rfl
        have hgo : WriteGoing u := h.of_only huw (by rw [← hu]) (by omega)
        have haddr : u.seq.addr = s.seq.addr := by rw [huw.seq]
        have hlen' : u.seq.len = s.seq.len := by rw [huw.seq]
        have hul : u.lets ((5 + 2 * u.cfg.maxAttempts.toNat) * (n - s.chunkNow)) := by
          have hlift : u.env.lift = s.env.lift.drop (s.chunkNow + 4 + 2 * m) := by
            rw [← hu]; show v.env.lift = _; rw [h9]; show List.drop _ s.env.lift = _; rw [hlen]
          have hmm : m ≤ s.cfg.maxAttempts.toNat := h2
          unfold State.lets
          rw [hlift, huw.cfg]
          exact take_drop_replicate (State.lets_mono hl (by omega))
        obtain ⟨x, j, r, g1, g2, g3, g4, g5, g6, g7, ps, g8, g9, g10, g11⟩ :=
          ih (n - s.chunkNow) (by omega) hgo (by rw [hlen']; exact State.clearOfWindow.of_only hwin huw) (by rw [huoff, hlen']; omega) hul
        rw [huw.cfg, huw.host, haddr, huoff] at g8
        rw [huw.cfg, haddr, huoff] at g9 g10
        rw [huw.cfg] at g11
        refine ⟨x, j + 6, r, g1, by omega, ?_, huw.trans g4, g5, fun hr _ => g6 hr hur, g7, bs :: ps, ?_, ?_, ?_, ?_⟩
        · intro k
          rw [show k + (j + 6) = (k + j + 1 + 3) + 2 by omega, htochunk, h3,
            State.run_succ hvr (by simp [State.held, hvw, hvp]), eline, g3]
        · rw [hcons, attemptFrames, g8, huf, hcmd]
          simp only [List.append_assoc]
        · rw [hcons]; simpa using g9
        · intro hr
          obtain ⟨q1, q2⟩ := g10 hr
          refine ⟨by rw [hcons]; simpa using q1, fun bs' hbs => ?_⟩
          rcases List.mem_cons.mp hbs with rfl | hbs
          · exact f4 rfl
          · exact q2 bs' hbs
        · intro hr
          obtain ⟨bs', q1, q2⟩ := g11 hr
          refine ⟨bs', ?_, q2⟩
          rw [List.getLast?_cons, q1]; rfl
      · -- the chunk has timed out
        rw [if_neg (by simp)] at h6
        refine ⟨v, 5, .timeout, Or.inr rfl, by omega, ?_, hw1, h6, by simp, fun _ => h5, [bs], ?_, ?_, by simp, ?_⟩
        · intro k
          rw [show k + 5 = (k + 3) + 2 by rfl, htochunk, h3]
        · rw [hcons, attemptFrames, hcmd]
          cases chunks s.cfg.pageChunk (s.seq.addr.toNat + (s.seq.off.toNat + s.chunkNow)) (n - s.chunkNow) <;>
            simp [attemptFrames]
        · rw [hcons]; simp
        · intro _
          obtain ⟨q1, q2⟩ := f5 rfl
          exact ⟨bs, rfl, by rw [f1, q1]; rfl, q2⟩

end Sys2Proof.Machine
end

