-- ==== Sys2Proof/Laws/Confined.lean ====
section
/-! SUPPORT. What reaches the chip, whatever the environment does: an indirect call of `apply` brings its one frame to
the chip or has not done so yet (R98, R105), and so a running operation leaves every byte outside its range as it was,
at every step, also one that waits (R100 to R102, R271, R275, R281). -/

namespace Sys2Proof.Machine

open Sys2Proof

/-! ### One frame -/

/-- What a frame makes of a chip of which `P` holds: one of which `Q` holds, beside the byte it answers a one-byte read
with. -/
structure Carries (c : Config) (f : Frame) (P : Flash → Prop) (Q : Flash → Byte → Prop) : Prop where
  data : f.data = []
  one  : f.dir = .read → f.len = 1
  made : ∀ (u : State) (d : List Byte), u.cfg = c → P u.flash → d.length ≤ f.len → (f.dir = .read → d = []) →
           ∀ b, (f.dir = .read → (u.chipReceive { f with data := d }).1 = [b]) →
             Q (u.chipReceive { f with data := d }).2.flash b

/-- The frame `f` has reached the chip, of which `Q` now holds, beside the byte in the FIFO or in `SEQ.status`. -/
structure Delivered (f : Frame) (Q : Flash → Byte → Prop) (s : State) : Prop where
  done : ∀ x, s.ctrl.inflight = some x → x.delivered = true ∧ x.frame.len = f.len
  made : ∀ b, (f.dir = .read → b = s.ctrl.fifo.headD s.seq.status) → Q s.flash b

/-- The frame `f` is on its way to a chip of which `P` holds, or has reached it; what it reads goes to `SEQ.status`. -/
def Underway (c : Config) (f : Frame) (P : Flash → Prop) (Q : Flash → Byte → Prop) (s : State) : Prop :=
  (s.cfg = c ∧ (f.dir = .read → s.tr.data = .status)) ∧ ((P s.flash ∧ s.ctrl.inflight = some { frame := f, delivered := false }) ∨ Delivered f Q s)

variable {c : Config} {f : Frame} {P : Flash → Prop} {Q : Flash → Byte → Prop}

theorem Underway.of_eq {s t : State} (hc : t.cfg = s.cfg) (htr : t.tr = s.tr) (hf : t.flash = s.flash)
    (hi : t.ctrl.inflight = s.ctrl.inflight) (hq : t.ctrl.fifo = s.ctrl.fifo) (hs : t.seq.status = s.seq.status)
    (h : Underway c f P Q s) : Underway c f P Q t := by
  obtain ⟨h1, h2⟩ := h
  refine ⟨⟨hc.trans h1.1, fun e => htr ▸ h1.2 e⟩, ?_⟩
  rcases h2 with ⟨h2, h3⟩ | ⟨h2, h3⟩
  · exact Or.inl ⟨hf ▸ h2, hi.trans h3⟩
  · exact Or.inr ⟨fun x hx => h2 x (hi ▸ hx), fun b hb => by rw [hf]; exact h3 b (fun e => by rw [hb e, hq, hs])⟩

/-- CTRL delivers the frame (R98, R105, R106). -/
theorem State.deliver_delivered {s : State} (hF : Carries s.cfg f P Q)
    (hi : s.ctrl.inflight = some { frame := f, delivered := false }) (hp : P s.flash)
    (hq : f.dir = .read → s.ctrl.fifo = []) : Delivered f Q s.deliver := by
  have hf : ({ f with data := [] } : Frame) = f := by rw [← hF.data]
  cases hdir : f.dir with
  | write =>
    refine ⟨fun x hx => ?_, fun b _ => ?_⟩
    · simp only [State.deliver, hi, hdir, Option.some.injEq] at hx
      subst hx; exact ⟨rfl, rfl⟩
    · have := hF.made s (s.ctrl.fifo.take f.len) rfl hp (by simp) (fun h => absurd h (by rw [hdir]; simp)) b
        (fun h => absurd h (by rw [hdir]; simp))
      simpa [State.deliver, hi, hdir] using this
  | read =>
    refine ⟨fun x hx => ?_, fun b hb => ?_⟩
    · simp only [State.deliver, hi, hdir, Option.some.injEq] at hx
      subst hx; exact ⟨rfl, rfl⟩
    · obtain ⟨b', hb'⟩ := List.length_eq_one_iff.mp ((State.chipReceive_length s hdir).trans (hF.one hdir))
      have hbb : b = b' := by
        rw [hb hdir]
        simp [State.deliver, hi, hdir, hq hdir, hb']
      have := hF.made s [] rfl hp (Nat.zero_le _) (fun _ => rfl) b (fun _ => by rw [hf, hbb]; exact hb')
      rw [hf] at this
      simpa [State.deliver, hi, hdir] using this

/-- One step of the wait takes the frame no further than to the chip, and that once (R93, R105). -/
theorem State.waitOnce_underway {s : State} (hF : Carries c f P Q) (ht : s.transferAgrees) (h : Underway c f P Q s) :
    Underway c f P Q s.waitOnce.2 := by
  have hdel : ∀ u : State, u.cfg = s.cfg → u.tr = s.tr → u.flash = s.flash → u.ctrl = s.ctrl → u.undelivered = true →
      (f.dir = .read → s.ctrl.fifo = []) → Underway c f P Q u.deliver := by
    intro u e1 et e2 e3 hu hq
    obtain ⟨h1, ⟨h2, h3⟩ | h2⟩ := h
    · have hin : u.ctrl.inflight = some { frame := f, delivered := false } := by rw [e3, h3]
      have := State.deliver_delivered (s := u) (by rw [e1, h1.1]; exact hF) hin (by rw [e2]; exact h2) (by rw [e3]; exact hq)
      exact ⟨⟨by rw [(State.deliver_only u).cfg, e1, h1.1],
        fun e => by rw [(State.deliver_only u).tr, et]; exact h1.2 e⟩, Or.inr this⟩
    · simp only [State.undelivered, Ctrl.cutShort, e3] at hu
      cases hi : s.ctrl.inflight with
      | none => simp [hi] at hu
      | some x => simp [hi, (h2.done x hi).1] at hu
  unfold State.waitOnce
  split
  · exact h
  next i hp =>
    split
    · exact h
    · dsimp only
      split
      · obtain ⟨x, hi, -, hx, -⟩ := State.transferAgrees_push ht hp
        obtain ⟨h1, ⟨h2, h3⟩ | h2⟩ := h
        · exact ⟨h1, Or.inl ⟨h2, h3⟩⟩
        · exact absurd hx (by simp [(h2.done x hi).1])
      · exact Underway.of_eq (s := s) rfl rfl rfl rfl rfl rfl h
  next i hp =>
    obtain ⟨x, hi, hdir, hlen, hlt, hcount, -⟩ := State.transferAgrees_pop ht hp
    split
    next b rest hq =>
      obtain ⟨h1, ⟨h2, h3⟩ | h2⟩ := h
      · rw [h3] at hi; cases hi
        rw [hq] at hcount; simp at hcount
      · refine ⟨h1, Or.inr ⟨h2.done, fun b' hb' => h2.made b' (fun e => ?_)⟩⟩
        obtain ⟨k1, k2⟩ := h2.done x hi
        rw [k1, if_pos rfl, hq, k2, hF.one e, List.length_cons] at hcount
        have hr : rest = [] := List.length_eq_zero_iff.mp (by omega)
        rw [hb' e, hq]
        simp [State.fifoPop, hr, h1.2 e]
    next hq =>
      dsimp only
      split
      next hl =>
        simp only [Bool.and_eq_true] at hl
        exact hdel s.drawLift.2 rfl rfl rfl rfl hl.2 (fun _ => hq)
      next => exact Underway.of_eq (s := s) rfl rfl rfl rfl rfl rfl h
  next hp =>
    obtain ⟨x, hi, hbusy, hfifo⟩ := State.transferAgrees_await ht hp
    dsimp only
    have key : Underway c f P Q (if s.drawLift.1 then s.drawLift.2.controllerStep else s.drawLift.2) := by
      split
      · unfold State.controllerStep
        split
        next hu =>
          refine hdel s.drawLift.2 rfl rfl rfl rfl hu (fun a => ?_)
          obtain ⟨h1, ⟨h2, h3⟩ | h2⟩ := h
          · rw [h3] at hi; cases hi
            simp only [Bool.false_eq_true, if_false] at hfifo
            have := hfifo.2 a
            have := hF.one a
            omega
          · have hu' : s.undelivered = true := hu
            simp [State.undelivered, Ctrl.cutShort, hi, (h2.done x hi).1] at hu'
        next hu =>
          obtain ⟨h1, ⟨h2, h3⟩ | h2⟩ := h
          · exact absurd (show s.drawLift.2.undelivered = true by
              simp [State.undelivered, Ctrl.cutShort, State.drawLift_ctrl, h3]) hu
          · exact ⟨h1, Or.inr ⟨fun y hy => by simp [State.clearBusy] at hy, h2.made⟩⟩
      · exact Underway.of_eq (s := s) rfl rfl rfl rfl rfl rfl h
    generalize (if s.drawLift.1 then s.drawLift.2.controllerStep else s.drawLift.2) = u at key ⊢
    have hb : Underway c f P Q u.getBusy.2 := by
      unfold State.getBusy
      split <;> exact Underway.of_eq (s := u) rfl rfl rfl rfl rfl rfl key
    split
    · exact hb
    · exact Underway.of_eq (s := u.getBusy.2) rfl rfl rfl rfl rfl rfl hb

theorem State.waitMany_underway {k : Nat} {s : State} (hF : Carries c f P Q)
    (hm : s.cr.fmode ≠ 3) (ht : s.transferAgrees) (h : Underway c f P Q s) :
    Underway c f P Q (s.waitMany k) ∧ (s.waitMany k).transferAgrees := by
  induction k generalizing s with
  | zero => exact ⟨h, ht⟩
  | succ k ih =>
    unfold State.waitMany
    split
    · exact ⟨h, ht⟩
    · have h1 := State.waitOnce_underway hF ht h
      have h2 := State.waitOnce_transferAgrees hm ht
      dsimp only
      split
      · exact ih (by rw [s.waitOnce_only.crFmode]; exact hm) h2 h1
      · exact ⟨h1, h2⟩

/-- A call of `apply` in `IndirectWrite` on a block with nothing under way (R170, R178): its frame is on its way, or has
reached the chip; when the call has returned it has. -/
theorem State.apply_write_underway {s : State} {t : Transaction} {om : OperatingMode} (hcalm : s.calm)
    (hF : Carries s.cfg (launchedFrame s.cfg t om .write) P Q) (hP : P s.flash) :
    Underway s.cfg (launchedFrame s.cfg t om .write) P Q (s.apply t .indirectWrite om)
      ∧ (s.apply t .indirectWrite om).transferAgrees := by
  obtain ⟨hp, hi, hff⟩ := hcalm
  obtain ⟨h1, h2⟩ := State.launched_write t om hff
  unfold State.apply
  rw [State.configure_eq rfl] at h1 h2 ⊢
  exact State.waitMany_underway hF (by simp [State.launch, State.launchIndirect, CR.configured]) h1 ⟨⟨rfl, fun e => by cases e⟩, Or.inl ⟨hP, h2⟩⟩

/-- A call of `apply` in `IndirectRead` on a block with nothing under way, whose byte goes to `SEQ.status` (R170, R179,
R200). -/
theorem State.apply_read_underway {s : State} {t : Transaction} {om : OperatingMode} (ht : t.data = .status)
    (hcalm : s.calm) (hF : Carries s.cfg (launchedFrame s.cfg t om .read) P Q) (hP : P s.flash) :
    Underway s.cfg (launchedFrame s.cfg t om .read) P Q (s.apply t .indirectRead om)
      ∧ (s.apply t .indirectRead om).transferAgrees := by
  obtain ⟨hp, hi, hff⟩ := hcalm
  obtain ⟨h1, h2⟩ := State.launched_read t om hff
  unfold State.apply
  rw [State.configure_eq rfl] at h1 h2 ⊢
  exact State.waitMany_underway hF (by simp [State.launch, State.launchIndirect, CR.configured]) h1 ⟨⟨rfl, fun _ => ht⟩, Or.inl ⟨hP, h2⟩⟩

/-- What an indirect call can have made of the chip. -/
theorem Underway.flash {s : State} {R : Flash → Prop} (h : Underway c f P Q s) (h0 : ∀ fl, P fl → R fl)
    (h1 : ∀ fl b, Q fl b → R fl) : R s.flash := by
  obtain ⟨-, ⟨h2, -⟩ | h2⟩ := h
  · exact h0 _ h2
  · exact h1 _ _ (h2.made _ (fun _ => rfl))

/-- Once the call has returned its frame has reached the chip, and nothing is under way (R93, R181). -/
theorem Underway.returned {s : State} (h : Underway c f P Q s) (ht : s.transferAgrees) (hp : s.seq.phase = .idle) :
    s.calm ∧ Q s.flash s.seq.status := by
  obtain ⟨h1, h2, h3⟩ := State.transferAgrees_idle ht hp
  refine ⟨⟨hp, h1, h2⟩, ?_⟩
  obtain ⟨-, ⟨-, h4⟩ | h4⟩ := h
  · rw [h1] at h4; cases h4
  · exact h4.made _ (fun _ => by rw [h2]; rfl)

/-! ### A chip that works inside a range -/

/-- The end of an operation that spares `R`, on an array it found with certain bytes there. -/
theorem Pending.spares.outcome {c : Config} {R : Nat → Prop} {fl : Flash} (h : fl.pending.spares c R) {a : Nat} (ha : R a) :
    Memory.read (fl.outcome c) a = Memory.read fl.found a := by
  have h2 := h.2.2 fl.found a ha
  unfold Flash.outcome
  cases hp : fl.pending <;> rw [hp] at h h2 <;> first | exact h2 | exact absurd rfl h.1.1 | exact absurd rfl h.1.2

/-- The chip understands the default operating mode where `q` says so, holds the bytes of `m` at the offsets in `R`, and
works on nothing that would change one of them. -/
structure Flash.Confined (c : Config) (q : Prop) (R : Nat → Prop) (m : Memory) (fl : Flash) : Prop where
  framed : q → (fl.framing = .single ∧ c.omDefault = .single) ∨ (fl.framing = .quad ∧ c.omDefault = .quad)
  array  : ∀ a, R a → Memory.read fl.array a = Memory.read m a
  found  : fl.wip = true → ∀ a, R a → Memory.read fl.found a = Memory.read m a
  spares : fl.wip = true → fl.pending.spares c R

/-- A ChipErase spares nothing, which is all there is to spare where `R` is empty (R101). -/
theorem spares_chipErase {c : Config} {R : Nat → Prop} (hR : ∀ b, ¬ R b) : Pending.chipErase.spares c R :=
  ⟨by simp, fun b hb => absurd hb (hR b), fun _ b hb => absurd hb (hR b)⟩

/-- A SectorErase of an aligned address spares what lies outside its sector (R101). -/
theorem spares_sectorErase {c : Config} {R : Nat → Prop} {a : Nat} (ha : a % c.sectorSize = 0)
    (hR : ∀ b, R b → b < a ∨ a + c.sectorSize ≤ b) : (Pending.sectorErase a).spares c R := by
  refine ⟨by simp, fun b hb => ?_, fun m b hb => ?_⟩
  · have := hR b hb
    simp only [Pending.touches, ha, Nat.sub_zero, Bool.and_eq_false_iff, decide_eq_false_iff_not]
    omega
  · simp only [Pending.result, ha, Nat.sub_zero]
    rw [Memory.read_eraseRange, if_neg]
    have := hR b hb
    omega

/-- A PageProgram inside a page spares what lies outside its bytes (R102). -/
theorem spares_program {c : Config} {R : Nat → Prop} {a n : Nat} {d : List Byte} (hd : d.length ≤ n)
    (hpage : a % c.pageChunk + n ≤ c.pageChunk) (hR : ∀ b, R b → b < a ∨ a + n ≤ b) :
    (Pending.program a d).spares c R := by
  refine ⟨by simp, fun b hb => touches_program hd hpage (hR b hb),
    fun m b hb => Memory.read_programFrom_other (fun j _ h2 => ?_)⟩
  rw [pageOffset_within (n := n) (by omega) hpage]
  have := hR b hb
  omega

variable {q : Prop} {R : Nat → Prop} {m : Memory}

theorem State.framed_of_confined {s : State} (hq : q) (h : s.flash.Confined s.cfg q R m) : s.framed := h.framed hq

/-- A chip that is not at work is confined by its framing and its array alone. -/
theorem Flash.Confined.of_ready {fl : Flash} (hw : fl.wip = false)
    (hf : q → (fl.framing = .single ∧ c.omDefault = .single) ∨ (fl.framing = .quad ∧ c.omDefault = .quad))
    (ha : ∀ a, R a → Memory.read fl.array a = Memory.read m a) : fl.Confined c q R m :=
  ⟨hf, ha, fun h => absurd (hw.symm.trans h) (by decide), fun h => absurd (hw.symm.trans h) (by decide)⟩

/-- A chip that finishes its work stays confined (R100 to R102). -/
theorem State.chipSettle_confined {s : State} (h : s.flash.Confined s.cfg q R m) :
    s.chipSettle.flash.Confined s.cfg q R m := by
  unfold State.chipSettle
  split
  next hw =>
    dsimp only
    split
    · have hp := h.spares hw
      rw [State.chipComplete_known (s := s.drawDone.2) hp.1.2]
      exact Flash.Confined.of_ready rfl h.framed (fun a ha => (hp.outcome ha).trans (h.found hw a ha))
    · exact h
  · exact h

/-- A destructive command that spares `R`, sent to a ready chip (R99, R100). -/
theorem Flash.Confined.started {fl : Flash} {p : Pending} (h : fl.Confined c q R m) (hp : p.spares c R) :
    (fl.started c p).Confined c q R m := by
  unfold Flash.started
  split
  · exact ⟨h.framed, fun a ha => (Flash.startWork_read (hp.2.1 a ha)).trans (h.array a ha),
      fun _ a ha => h.array a ha, fun _ => hp⟩
  · exact h

/-! ### What a line's call makes of the chip -/

/-- The chip before the frame of a line that calls: confined, and ready where the line finds it so. -/
def Label.before (c : Config) (q : Prop) (R : Nat → Prop) (m : Memory) (l : Label) (fl : Flash) : Prop :=
  fl.Confined c q R m ∧ (l.findsReady = true → fl.wip = false)
    ∧ (l.beforeMapped = true → c.omDefault = .quad → fl.framing = .single)

/-- The chip after the frame of a line that calls: confined; still ready, if the frame is no destructive command; busy or
not as the byte `b` says, after a status read. -/
def Label.after (c : Config) (q : Prop) (R : Nat → Prop) (m : Memory) (l : Label) (fl : Flash) (b : Byte) : Prop :=
  fl.Confined c q R m ∧ (l.findsReady = true → l.destroys = false → fl.wip = false)
    ∧ (l.polls = true → statusBusy c.busyBit b = fl.wip)

/-- A status read (R100, R104, R200). -/
theorem carries_readStatus {l : Label} (hc : c.wf = true) (hq : q) (hl : l.polls = true) :
    Carries c (launchedFrame c Transaction.readStatus c.omDefault .read) (l.before c q R m) (l.after c q R m) := by
  refine ⟨rfl, fun _ => rfl, fun u d e1 hp _ hd b hb => ?_⟩
  have hcu : u.flash.Confined u.cfg q R m := by rw [e1]; exact hp.1
  have := State.receive_readStatus (s := u) (u := u) (l := u.env.lift) (by rw [e1]; exact hc)
    (State.framed_of_confined hq hcu) rfl rfl rfl
  rw [e1] at this
  have hb := hb rfl
  rw [hd rfl] at hb ⊢
  have h2 := State.chipSettle_confined hcu
  rw [e1] at h2
  have hb2 : (u.chipReceive (launchedFrame c Transaction.readStatus c.omDefault .read)).1 = [b] := hb
  show Label.after c q R m l (u.chipReceive (launchedFrame c Transaction.readStatus c.omDefault .read)).2.flash b
  rw [this] at hb2 ⊢
  refine ⟨h2, fun h => absurd h (by cases l <;> simp_all [Label.polls, Label.findsReady]), fun _ => ?_⟩
  rw [← (List.cons.inj hb2).1]
  exact statusBusy_statusByte _ _ _

/-- A WriteEnable (R99). -/
theorem carries_writeEnable {l : Label} (hc : c.wf = true) (hq : q) (hl : l.enables = true) :
    Carries c (launchedFrame c (Transaction.send .writeEnable) c.omDefault .write) (l.before c q R m) (l.after c q R m) := by
  refine ⟨rfl, fun h => absurd h (by simp [launchedFrame]), fun u d e1 hp _ _ b _ => ?_⟩
  have hw : u.flash.wip = false := hp.2.1 (by cases l <;> cases hl <;> rfl)
  have hfr := hp.1.framed hq
  rw [← e1] at hfr hc ⊢
  rw [State.receive_writeEnable hc ⟨hw, hfr⟩ rfl rfl d]
  exact ⟨Flash.Confined.of_ready hw (fun _ => hfr) hp.1.array, fun _ _ => hw,
    fun h => absurd h (by cases l <;> simp_all [Label.enables, Label.polls])⟩

/-- A destructive command that spares `R` (R99, R100). -/
theorem carries_destructive {l : Label} {t : Transaction} (hl : l.destroys = true)
    (hrec : ∀ (u : State) (d : List Byte), u.cfg = c → u.flash.wip = false → u.flash.Confined c q R m →
      d.length ≤ t.dataLength.toNat → ∃ p : Pending, p.spares c R ∧
        u.chipReceive { launchedFrame c t c.omDefault .write with data := d } = ([], { u with flash := u.flash.started c p })) :
    Carries c (launchedFrame c t c.omDefault .write) (l.before c q R m) (l.after c q R m) := by
  refine ⟨rfl, fun h => absurd h (by simp [launchedFrame]), fun u d e1 hp hd _ b _ => ?_⟩
  have hw : u.flash.wip = false := hp.2.1 (by cases l <;> cases hl <;> rfl)
  obtain ⟨p, hs, e⟩ := hrec u d e1 hw hp.1 hd
  rw [e]
  exact ⟨hp.1.started hs, fun _ h => absurd (hl.symm.trans h) (by decide),
    fun h => absurd h (by cases l <;> simp_all [Label.destroys, Label.polls])⟩

/-- An EnableQPI (R103). -/
theorem carries_enableQPI (hc : c.wf = true) (hq : ¬ q) (hom : c.omDefault = .quad) :
    Carries c (launchedFrame c (Transaction.send .enableQPI) .single .write) (Label.i3.before c q R m)
      (Label.i3.after c q R m) := by
  refine ⟨rfl, fun h => absurd h (by simp [launchedFrame]), fun u d e1 hp _ _ b _ => ?_⟩
  have hw : u.flash.wip = false := hp.2.1 rfl
  have hs := hp.2.2 rfl hom
  rw [← e1] at hc ⊢
  rw [State.receive_enableQPI hc hw hs rfl rfl d]
  exact ⟨Flash.Confined.of_ready hw (fun h => absurd h hq) hp.1.array, fun _ _ => hw,
    fun h => absurd h (by simp [Label.polls])⟩

/-! ### The position of an operation that keeps to its range -/

/-- `R` lies outside the bytes the request names, and those lie inside the device (R81, R261). -/
def State.outsideSector (R : Nat → Prop) (s : State) : Prop :=
  s.seq.addr.toNat % s.cfg.sectorSize = 0
    ∧ s.seq.addr.toNat < s.cfg.flashSize ∧ ∀ a, R a → a < s.seq.addr.toNat ∨ s.seq.addr.toNat + s.cfg.sectorSize ≤ a

def State.outsideWrite (R : Nat → Prop) (s : State) : Prop :=
  s.seq.addr.toNat + s.seq.len.toNat ≤ s.cfg.flashSize
    ∧ ∀ a, R a → a < s.seq.addr.toNat ∨ s.seq.addr.toNat + s.seq.len.toNat ≤ a

/-- What the line at a label finds of the operands, so that its command keeps inside the request's range (R274, R277). -/
def State.fitsAt (R : Nat → Prop) (s : State) : Label → Prop
  | .m0 | .m1 => ∀ a, ¬ R a
  | .s0 => s.seq.addr.toNat % s.cfg.sectorSize = 0 → s.outsideSector R
  | .s1 | .s2 => s.outsideSector R
  | .w0 => s.outsideWrite R
  | .w1 => s.outsideWrite R ∧ s.seq.off.toNat ≤ s.seq.len.toNat
  | .w2 => s.outsideWrite R ∧ s.seq.off.toNat < s.seq.len.toNat
  | .w3 | .w4 => s.outsideWrite R ∧ s.seq.off.toNat < s.seq.len.toNat ∧ s.seq.chunk = s.nextChunk
  | .w5 | .w6 => s.outsideWrite R ∧ s.seq.off.toNat + s.seq.chunk.toNat ≤ s.seq.len.toNat
  | _ => True

/-- The operands as another state has them. -/
theorem State.fitsAt_congr {s t : State} {l : Label} (hc : t.cfg = s.cfg) (ha : t.seq.addr = s.seq.addr)
    (hl : t.seq.len = s.seq.len) (ho : t.seq.off = s.seq.off) (hk : t.seq.chunk = s.seq.chunk) (h : s.fitsAt R l) :
    t.fitsAt R l := by
  unfold State.fitsAt State.outsideSector State.outsideWrite State.nextChunk at *
  rw [hc, ha, hl, ho, hk]
  exact h

theorem PollOnly.fits {s t : State} {l : Label} (ho : PollOnly s t) (h : s.fitsAt R l) : t.fitsAt R l :=
  State.fitsAt_congr ho.cfg ho.seqAddr ho.seqLen ho.seqOff ho.seqChunk h

/-- What the line at a label leaves of the operands once its calls have returned: what it found, but for the lines that
assign one (R277). -/
def State.fitsAfter (R : Nat → Prop) (s : State) : Label → Prop
  | .w0 => s.outsideWrite R ∧ s.seq.off.toNat ≤ s.seq.len.toNat
  | .w2 => s.outsideWrite R ∧ s.seq.off.toNat < s.seq.len.toNat ∧ s.seq.chunk = s.nextChunk
  | .w6 => s.outsideWrite R ∧ s.seq.off.toNat ≤ s.seq.len.toNat
  | l   => s.fitsAt R l

/-- The labels after which a listing goes on to the next one whatever their calls have answered (R282). -/
def Label.straight : Label → Bool
  | .i2 | .i5 | .s0 | .m2 | .s3 | .w5 | .w1 | .ret => false
  | _ => true

theorem State.finishLine_straight {s : State} {l : Label} (hs : s.seq.step = l) (hl : l.straight = true) :
    s.finishLine = s.nextLabel := by
  subst hs
  unfold State.finishLine
  split <;> first | rfl | simp_all [Label.straight]

/-- What the frame of a line's call makes of the chip, for every line that calls (R265, R270, R274, R277). -/
theorem carries_line {s : State} (hc : s.cfg.wf = true) (hfit : s.fitsAt R s.seq.step) (hi : s.seq.step.ofInit = false ↔ q)
    (hf : s.lineFrame = some f) : Carries s.cfg f (s.seq.step.before s.cfg q R m) (s.seq.step.after s.cfg q R m) := by
  have hfs := Config.flashSize_le hc
  have hq : s.seq.step.ofInit = false → q := hi.mp
  unfold State.lineFrame at hf
  cases hstep : s.seq.step <;> rw [hstep] at hf hfit hq <;>
    first
    | (cases hf; done)
    | (cases hf; exact carries_writeEnable hc (hq rfl) rfl)
    | (cases hf; exact carries_readStatus hc (hq rfl) rfl)
    | skip
  case i3 =>
    dsimp only at hf
    split at hf
    next hom =>
      cases hf
      exact carries_enableQPI hc (fun hq' => absurd (hi.mpr hq') (by rw [hstep]; simp [Label.ofInit])) hom
    · cases hf
  case m1 =>
    cases hf
    refine carries_destructive rfl (fun u d e1 hw hcu _ => ⟨.chipErase, spares_chipErase hfit, ?_⟩)
    have hfr := hcu.framed (hq rfl)
    rw [← e1] at hfr hc ⊢
    exact State.receive_chipErase hc ⟨hw, hfr⟩ rfl rfl d
  case s2 =>
    cases hf
    obtain ⟨hal, hin, hR⟩ := hfit
    have hfa : (flashAddress s.seq.addr).toNat = s.seq.addr.toNat := by
      unfold flashAddress
      rw [BitVec.toNat_setWidth, Nat.mod_eq_of_lt (by omega)]
    refine carries_destructive rfl (fun u d e1 hw hcu _ => ⟨.sectorErase (flashAddress s.seq.addr).toNat,
      spares_sectorErase (by rw [hfa]; exact hal) (by rw [hfa]; exact hR), ?_⟩)
    have hfr := hcu.framed (hq rfl)
    rw [← e1] at hfr hc hin ⊢
    exact State.receive_sectorErase hc ⟨hw, hfr⟩ (by rw [hfa]; exact hin) rfl rfl d
  case w4 =>
    cases hf
    obtain ⟨⟨hin, hR⟩, hlt, hch⟩ := hfit
    have hcn : s.seq.chunk.toNat = s.chunkNow := by rw [hch]; exact State.nextChunk_toNat hlt
    have hle : s.chunkNow ≤ s.seq.len.toNat - s.seq.off.toNat := chunkLength_le
    have hpage : (s.seq.addr.toNat + s.seq.off.toNat) % s.cfg.pageChunk + s.chunkNow ≤ s.cfg.pageChunk :=
      chunkLength_page (Config.wf_pageChunk hc)
    have hca : (chunkAddress s.seq.addr s.seq.off).toNat = s.seq.addr.toNat + s.seq.off.toNat :=
      chunkAddress_toNat (by omega)
    refine carries_destructive rfl (fun u d e1 hw hcu hd => ⟨.program (chunkAddress s.seq.addr s.seq.off).toNat d,
      spares_program (n := s.chunkNow) (hcn ▸ hd) (by rw [hca]; exact hpage) (fun b hb => ?_), ?_⟩)
    · have := hR b hb
      omega
    · have hfr := hcu.framed (hq rfl)
      rw [← e1] at hfr hc hin ⊢
      exact State.receive_pageProgram hc ⟨hw, hfr⟩ (by rw [hca]; omega) rfl rfl d

/-- A running operation that keeps to its range, between two lines. -/
structure Within (q : Prop) (R : Nat → Prop) (m : Memory) (s : State) : Prop where
  conf    : s.cfg.wf = true
  calm    : s.calm
  waiting : s.seq.waiting = none
  flash   : s.seq.step.before s.cfg q R m s.flash
  fits    : s.fitsAt R s.seq.step
  init    : s.seq.step.ofInit = false ↔ q

/-- A running operation that keeps to its range, in the middle of a call. -/
structure Amid (q : Prop) (R : Nat → Prop) (m : Memory) (s : State) : Prop where
  conf    : s.cfg.wf = true
  agrees  : s.transferAgrees
  fmode   : s.cr.fmode ≠ 3
  phase   : s.seq.phase ≠ .idle
  waiting : s.seq.waiting.isSome = s.seq.step.polls
  fits    : s.fitsAt R s.seq.step
  way     : ∃ f, s.lineFrame = some f ∧ Carries s.cfg f (s.seq.step.before s.cfg q R m) (s.seq.step.after s.cfg q R m)
              ∧ Underway s.cfg f (s.seq.step.before s.cfg q R m) (s.seq.step.after s.cfg q R m) s
  init    : s.seq.step.ofInit = false ↔ q

/-- A running operation that keeps to its range, its line's calls returned and its move to come. -/
structure Called (q : Prop) (R : Nat → Prop) (m : Memory) (s : State) : Prop where
  conf    : s.cfg.wf = true
  calm    : s.calm
  waiting : s.seq.waiting = none
  flash   : s.flash.Confined s.cfg q R m
  ready   : s.seq.step.findsReady = true → s.seq.step.destroys = false → s.flash.wip = false
  single  : s.seq.step = .i0 ∨ s.seq.step = .i1 ∨ s.seq.step = .i2 → s.cfg.omDefault = .quad → s.flash.framing = .single
  polled  : s.seq.step.polls = true → s.seq.r ≠ .timeout → s.flash.wip = false
  fits    : s.fitsAfter R s.seq.step
  init    : s.seq.step.ofInit = false ↔ q

/-- Where a running operation that keeps to its range can stand: confined in any case, and in one of the three
positions while it runs. -/
def OnTrack (q : Prop) (R : Nat → Prop) (m : Memory) (s : State) : Prop :=
  s.flash.Confined s.cfg q R m
    ∧ (s.seq.state = .running → (s.held = false → Within q R m s) ∧ (s.held = true → Amid q R m s))

theorem Within.held {s : State} (h : Within q R m s) : s.held = false := State.held_of_calm h.calm h.waiting

theorem Amid.held {s : State} (h : Amid q R m s) : s.held = true := by simp [State.held, h.phase]

theorem Amid.confined {s : State} (h : Amid q R m s) : s.flash.Confined s.cfg q R m := by
  obtain ⟨f, -, -, h2⟩ := h.way
  exact h2.flash (fun _ h => h.1) (fun _ _ h => h.1)

/-- The frame a line's call sends is a function of its position and its operands. -/
theorem State.lineFrame_congr {s t : State} (hc : t.cfg = s.cfg) (hs : t.seq.step = s.seq.step)
    (ha : t.seq.addr = s.seq.addr) (ho : t.seq.off = s.seq.off) (hk : t.seq.chunk = s.seq.chunk) :
    t.lineFrame = s.lineFrame := by
  unfold State.lineFrame
  rw [hc, hs, ha, ho, hk]

/-! ### The poll -/

/-- Where a poll stands after some of its reads. -/
def PollTrack (q : Prop) (R : Nat → Prop) (m : Memory) (s t : State) : Prop :=
  t.flash.Confined s.cfg q R m
    ∧ (t.held = true → t.seq.phase ≠ .idle ∧ t.transferAgrees ∧ t.cr.fmode ≠ 3 ∧ t.seq.waiting.isSome = true
        ∧ Underway s.cfg (launchedFrame s.cfg Transaction.readStatus s.cfg.omDefault .read)
            (s.seq.step.before s.cfg q R m) (s.seq.step.after s.cfg q R m) t)
    ∧ (t.held = false → t.calm ∧ (t.seq.r ≠ .timeout → t.flash.wip = false))

theorem State.readStatus_fmode (s : State) : s.readStatus.cr.fmode ≠ 3 := by
  unfold State.readStatus State.apply
  rw [(State.finishApply_only _).crFmode, State.configure_eq rfl]
  simp [State.launch, State.launchIndirect, CR.configured]

/-- The poll keeps a confined chip confined; where it has returned and has not timed out the chip is ready (R221 to
R224). -/
theorem State.waitLoop_track {k : Nat} {max : Word32} {s0 : State} (hc : s0.cfg.wf = true) (hq : q)
    (hl : s0.seq.step.polls = true) : ∀ {s : State}, s.cfg = s0.cfg → s.calm → s.flash.Confined s0.cfg q R m →
    s.seq.waiting = some max → 0 < k → max.toNat < s.seq.attempts.toNat + k →
    PollTrack q R m s0 (s.waitLoop k) := by
  have hmax := max.isLt
  induction k with
  | zero => intro s _ _ _ _ h0; exact absurd h0 (lt_irrefl 0)
  | succ k ih =>
    intro s hcfg hcalm h hw _ hk
    have hF := carries_readStatus (R := R) (m := m) (l := s0.seq.step) hc hq hl
    rw [← hcfg] at hF
    have hP : s0.seq.step.before s.cfg q R m s.flash :=
      ⟨by rw [hcfg]; exact h, fun hr => absurd hr (by generalize s0.seq.step = l at hl; cases l <;> simp_all [Label.polls, Label.findsReady]),
        fun hr => absurd hr (by generalize s0.seq.step = l at hl; cases l <;> simp_all [Label.polls, Label.beforeMapped])⟩
    obtain ⟨hu, ht⟩ := State.apply_read_underway rfl hcalm hF hP
    have hu : Underway s.cfg (launchedFrame s.cfg Transaction.readStatus s.cfg.omDefault .read)
        (s0.seq.step.before s.cfg q R m) (s0.seq.step.after s.cfg q R m) s.readStatus := hu
    have ht : s.readStatus.transferAgrees := ht
    have hconf : s.readStatus.flash.Confined s0.cfg q R m := by
      rw [← hcfg]; exact hu.flash (fun _ h => h.1) (fun _ _ h => h.1)
    have hret := hu.returned ht
    rw [hcfg] at hu hret
    have ho := s.readStatus_only
    have hrw : s.readStatus.seq.waiting = some max := by rw [ho.seqWaiting]; exact hw
    unfold State.waitLoop
    rw [hw]
    dsimp only
    split
    next hlt =>
      rw [BitVec.lt_def] at hlt
      split
      next hp =>
        obtain ⟨h3, h4⟩ := hret hp
        have hb : statusBusy s.readStatus.cfg.busyBit s.readStatus.seq.status = s.readStatus.flash.wip := by
          rw [ho.cfg, hcfg]; exact h4.2.2 hl
        rw [State.countPoll_eq, hb]
        split
        next hwip =>
          refine ih (s := { s.readStatus with seq := { s.readStatus.seq with attempts := s.readStatus.seq.attempts + 1 } })
            (ho.cfg.trans hcfg) h3 hconf hrw (by omega) ?_
          show _ < (s.readStatus.seq.attempts + 1).toNat + k
          rw [ho.seqAttempts, BitVec.toNat_add, show (1 : Word32).toNat = 1 from rfl, Nat.mod_eq_of_lt (by omega)]
          omega
        next hwip =>
          rw [State.waitLoop_done rfl]
          exact ⟨hconf, fun hh => absurd hh (by simp [State.held, hp]), fun _ => ⟨h3, fun _ => by simpa using hwip⟩⟩
      next hp =>
        refine ⟨hconf, fun _ => ⟨hp, ht, s.readStatus_fmode, by rw [hrw]; rfl, hu⟩,
          fun hh => absurd (State.held_false hh).1 hp⟩
    · exact ⟨h, fun hh => absurd hh (by simp [State.held, State.endWait, hcalm.1]), fun _ => ⟨hcalm, fun hne => absurd rfl hne⟩⟩

theorem State.waitUntilReady_track {s : State} (max : Word32) (hc : s.cfg.wf = true) (hq : q)
    (hl : s.seq.step.polls = true) (hcalm : s.calm) (h : s.flash.Confined s.cfg q R m) :
    PollTrack q R m s (s.waitUntilReady max) :=
  State.waitLoop_track (s := { s with seq := { s.seq with attempts := 0, waiting := some max } }) hc hq hl rfl hcalm h rfl
    (Nat.succ_pos _) (by show _ < (0 : Word32).toNat + _; simp)

/-! ### From a call to the next line -/

/-- A waiting line is in the middle of its call; one that has returned has its move to come. -/
def Line (q : Prop) (R : Nat → Prop) (m : Memory) (s : State) : Prop :=
  (s.held = true → Amid q R m s) ∧ (s.held = false → Called q R m s)

theorem Line.confined {s : State} (h : Line q R m s) : s.flash.Confined s.cfg q R m := by
  cases hh : s.held with
  | true => exact (h.1 hh).confined
  | false => exact (h.2 hh).flash

theorem State.fitsAfter_call {s : State} (hf : s.lineFrame.isSome = true) (h : s.fitsAt R s.seq.step) :
    s.fitsAfter R s.seq.step := by
  unfold State.lineFrame at hf
  generalize s.seq.step = l at h hf
  cases l <;> first | exact h | cases hf

/-- A line that calls `apply` (R265, R270, R274, R277). -/
theorem Within.call {s : State} {t : Transaction} {om : OperatingMode} (h : Within q R m s)
    (hv : s.startLine = s.apply t .indirectWrite om)
    (hfr : s.lineFrame = some (launchedFrame s.cfg t om .write))
    (hl : s.seq.step.polls = false) : Line q R m s.startLine := by
  have hF : Carries s.cfg (launchedFrame s.cfg t om .write) (s.seq.step.before s.cfg q R m) (s.seq.step.after s.cfg q R m) :=
    carries_line h.conf h.fits h.init hfr
  obtain ⟨hu, ht⟩ := State.apply_write_underway h.calm hF h.flash
  have ho := s.apply_only t .indirectWrite om (by simp)
  have hm : (s.apply t .indirectWrite om).cr.fmode ≠ 3 := by
    unfold State.apply
    rw [(State.finishApply_only _).crFmode, State.configure_eq rfl]
    simp [State.launch, State.launchIndirect, CR.configured]
  rw [hv]
  generalize s.apply t .indirectWrite om = v at hu ht ho hm
  have hvw : v.seq.waiting = none := by rw [ho.seqWaiting]; exact h.waiting
  have hvf : v.fitsAt R v.seq.step := by rw [ho.seqStep]; exact ho.poll.fits h.fits
  have hvi : v.seq.step.ofInit = false ↔ q := by rw [ho.seqStep]; exact h.init
  have hfrv : v.lineFrame = some (launchedFrame s.cfg t om .write) := by
    rw [State.lineFrame_congr ho.cfg ho.seqStep ho.seqAddr ho.seqOff ho.seqChunk]; exact hfr
  refine ⟨fun hh => ⟨by rw [ho.cfg]; exact h.conf, ht, hm, ?_, by rw [hvw, ho.seqStep, hl]; rfl, hvf,
    ⟨_, hfrv, by rw [ho.cfg, ho.seqStep]; exact hF, by rw [ho.cfg, ho.seqStep]; exact hu⟩, hvi⟩, fun hh => ?_⟩
  · intro hp; rw [State.held, hp, hvw] at hh; simp at hh
  · obtain ⟨h1, h2⟩ := hu.returned ht (State.held_false hh).1
    refine ⟨by rw [ho.cfg]; exact h.conf, h1, hvw, by rw [ho.cfg]; exact h2.1, by rw [ho.seqStep]; exact h2.2.1,
      fun hor => ?_, fun hp => ?_, ?_, hvi⟩
    · rw [ho.seqStep] at hor
      rcases hor with e | e | e <;> unfold State.lineFrame at hfr <;> rw [e] at hfr <;> cases hfr
    · rw [ho.seqStep, hl] at hp; cases hp
    · exact State.fitsAfter_call (by rw [hfrv]; rfl) hvf

/-- A line that polls (R262). -/
theorem Within.poll {s : State} (h : Within q R m s) (hv : s.startLine = s.waitUntilReady s.cfg.maxAttempts)
    (hfr : s.lineFrame = some (launchedFrame s.cfg Transaction.readStatus s.cfg.omDefault .read))
    (hl : s.seq.step.polls = true) : Line q R m s.startLine := by
  have hq : q := h.init.mp (by generalize s.seq.step = l at hl; cases l <;> simp_all [Label.polls, Label.ofInit])
  have hs : s.seq.step.straight = false := by generalize s.seq.step = l at hl; cases l <;> simp_all [Label.polls, Label.straight]
  obtain ⟨h1, h2, h3⟩ := State.waitUntilReady_track (R := R) (m := m) s.cfg.maxAttempts h.conf hq hl h.calm h.flash.1
  have ho := s.waitUntilReady_only s.cfg.maxAttempts
  rw [hv]
  generalize s.waitUntilReady s.cfg.maxAttempts = v at h1 h2 h3 ho
  have hvf : v.fitsAt R v.seq.step := by rw [ho.seqStep]; exact ho.fits h.fits
  have hvi : v.seq.step.ofInit = false ↔ q := by rw [ho.seqStep]; exact h.init
  have hfrv : v.lineFrame = some (launchedFrame s.cfg Transaction.readStatus s.cfg.omDefault .read) := by
    rw [State.lineFrame_congr ho.cfg ho.seqStep ho.seqAddr ho.seqOff ho.seqChunk]; exact hfr
  refine ⟨fun hh => ?_, fun hh => ?_⟩
  · obtain ⟨a1, a2, a3, a4, a5⟩ := h2 hh
    exact ⟨by rw [ho.cfg]; exact h.conf, a2, a3, a1, by rw [a4, ho.seqStep, hl], hvf,
      ⟨_, hfrv, by rw [ho.cfg, ho.seqStep]; exact carries_readStatus h.conf hq hl, by rw [ho.cfg, ho.seqStep]; exact a5⟩, hvi⟩
  · obtain ⟨b1, b2⟩ := h3 hh
    refine ⟨by rw [ho.cfg]; exact h.conf, b1, (State.held_false hh).2, by rw [ho.cfg]; exact h1, fun hr => ?_, fun hor => ?_,
      fun _ => b2, ?_, hvi⟩
    · rw [ho.seqStep] at hr
      generalize s.seq.step = l at hl hr
      cases l <;> simp_all [Label.polls, Label.findsReady]
    · rw [ho.seqStep] at hor
      generalize s.seq.step = l at hl hor
      rcases hor with e | e | e <;> rw [e] at hl <;> cases hl
    · exact State.fitsAfter_call (by rw [hfrv]; rfl) hvf

/-- A line without a call that waits: its assignments leave the chip alone. -/
theorem Within.plain {s v : State} (h : Within q R m s) (hv : s.startLine = v) (hc : v.cfg = s.cfg)
    (hf : v.flash = s.flash) (hs : v.seq.step = s.seq.step) (hp : v.calm) (hw : v.seq.waiting = none)
    (hl : s.seq.step.polls = false) (hfit : v.fitsAfter R s.seq.step) : Line q R m s.startLine := by
  have hh : v.held = false := State.held_of_calm hp hw
  rw [hv]
  refine ⟨fun hh' => absurd (hh.symm.trans hh') (by decide), fun _ => ?_⟩
  refine ⟨by rw [hc]; exact h.conf, hp, hw, by rw [hc, hf]; exact h.flash.1, ?_, ?_, ?_, by rw [hs]; exact hfit,
    by rw [hs]; exact h.init⟩
  · rw [hs, hf]; exact fun hr _ => h.flash.2.1 hr
  · rw [hs, hf, hc]
    intro hor
    refine h.flash.2.2 ?_
    rcases hor with e | e | e <;> rw [e] <;> rfl
  · rw [hs, hl]; intro hp; cases hp

/-- Every line, once it has made its calls, is in the middle of one of them or has its move to come. -/
theorem Within.start {s : State} (h : Within q R m s) : Line q R m s.startLine := by
  have hfit := h.fits
  cases hstep : s.seq.step with
  | i0 =>
    refine h.plain (v := s.configureDevice) (by unfold State.startLine; rw [hstep]) ?_ ?_ ?_ ?_ ?_ (by rw [hstep]; rfl) ?_
    all_goals simp only [State.configureDevice, State.setAll_eq]
    · exact h.calm
    · exact h.waiting
    · rw [hstep]; trivial
  | i1 =>
    exact h.plain (v := s.setEnable) (by unfold State.startLine; rw [hstep]) rfl rfl rfl h.calm h.waiting
      (by rw [hstep]; rfl) (by rw [hstep]; trivial)
  | i2 =>
    exact h.plain (v := s.emit (.getEn s.cr.en)) (by unfold State.startLine; rw [hstep]) rfl rfl rfl h.calm h.waiting
      (by rw [hstep]; rfl) (by rw [hstep]; trivial)
  | i3 =>
    cases hom : s.cfg.omDefault with
    | single =>
      exact h.plain (v := s) (by unfold State.startLine; rw [hstep, hom]) rfl rfl rfl h.calm h.waiting
        (by rw [hstep]; rfl) (by rw [hstep]; trivial)
    | dual =>
      exact h.plain (v := s) (by unfold State.startLine; rw [hstep, hom]) rfl rfl rfl h.calm h.waiting
        (by rw [hstep]; rfl) (by rw [hstep]; trivial)
    | quad =>
      exact h.call (t := Transaction.send .enableQPI) (om := .single) (by unfold State.startLine; rw [hstep, hom])
        (by unfold State.lineFrame; rw [hstep]; simp [hom]) (by rw [hstep]; rfl)
  | i4 =>
    have hs : s.startLine = s.enterMapped := by unfold State.startLine; rw [hstep]
    rw [State.enterMapped_eq h.calm.1] at hs
    exact h.plain hs rfl rfl rfl h.calm h.waiting (by rw [hstep]; rfl) (by rw [hstep]; trivial)
  | i5 =>
    exact h.plain (v := { s with seq := { s.seq with r := .ok } }) (by unfold State.startLine; rw [hstep]) rfl rfl rfl
      h.calm h.waiting (by rw [hstep]; rfl) (by rw [hstep]; trivial)
  | m0 =>
    exact h.call (t := Transaction.send .writeEnable)
      (om := s.cfg.omDefault) (by unfold State.startLine; rw [hstep]) (by unfold State.lineFrame; rw [hstep])
      (by rw [hstep]; rfl)
  | s1 =>
    exact h.call (t := Transaction.send .writeEnable)
      (om := s.cfg.omDefault) (by unfold State.startLine; rw [hstep]) (by unfold State.lineFrame; rw [hstep])
      (by rw [hstep]; rfl)
  | w3 =>
    exact h.call (t := Transaction.send .writeEnable)
      (om := s.cfg.omDefault) (by unfold State.startLine; rw [hstep]) (by unfold State.lineFrame; rw [hstep])
      (by rw [hstep]; rfl)
  | m1 =>
    exact h.call (t := Transaction.send .chipErase)
      (om := s.cfg.omDefault) (by unfold State.startLine; rw [hstep]) (by unfold State.lineFrame; rw [hstep])
      (by rw [hstep]; rfl)
  | s2 =>
    exact h.call (t := Transaction.sectorErase (flashAddress s.seq.addr))
      (om := s.cfg.omDefault) (by unfold State.startLine; rw [hstep]) (by unfold State.lineFrame; rw [hstep])
      (by rw [hstep]; rfl)
  | w4 =>
    exact h.call (t := Transaction.pageProgram (chunkAddress s.seq.addr s.seq.off) s.seq.off s.seq.chunk)
      (om := s.cfg.omDefault) (by unfold State.startLine; rw [hstep]) (by unfold State.lineFrame; rw [hstep])
      (by rw [hstep]; rfl)
  | m2 => exact h.poll (by unfold State.startLine; rw [hstep]) (by unfold State.lineFrame; rw [hstep]) (by rw [hstep]; rfl)
  | s3 => exact h.poll (by unfold State.startLine; rw [hstep]) (by unfold State.lineFrame; rw [hstep]) (by rw [hstep]; rfl)
  | w5 => exact h.poll (by unfold State.startLine; rw [hstep]) (by unfold State.lineFrame; rw [hstep]) (by rw [hstep]; rfl)
  | s0 =>
    rw [hstep] at hfit
    exact h.plain (v := s) (by unfold State.startLine; rw [hstep]) rfl rfl rfl h.calm h.waiting (by rw [hstep]; rfl)
      (by rw [hstep]; exact hfit)
  | w0 =>
    rw [hstep] at hfit
    exact h.plain (v := { s with seq := { s.seq with off := 0, r := .ok } }) (by unfold State.startLine; rw [hstep]) rfl rfl
      rfl h.calm h.waiting (by rw [hstep]; rfl) (by rw [hstep]; exact ⟨hfit, by simp⟩)
  | w1 =>
    rw [hstep] at hfit
    exact h.plain (v := s) (by unfold State.startLine; rw [hstep]) rfl rfl rfl h.calm h.waiting (by rw [hstep]; rfl)
      (by rw [hstep]; exact hfit)
  | w2 =>
    rw [hstep] at hfit
    exact h.plain (v := { s with seq := { s.seq with chunk := s.nextChunk } }) (by unfold State.startLine; rw [hstep]) rfl rfl
      rfl h.calm h.waiting (by rw [hstep]; rfl) (by rw [hstep]; exact ⟨hfit.1, hfit.2, rfl⟩)
  | w6 =>
    rw [hstep] at hfit
    refine h.plain (v := { s with seq := { s.seq with off := s.seq.off + s.seq.chunk } })
      (by unfold State.startLine; rw [hstep]) rfl rfl rfl h.calm h.waiting (by rw [hstep]; rfl) ?_
    rw [hstep]
    refine ⟨hfit.1, ?_⟩
    show (s.seq.off + s.seq.chunk).toNat ≤ s.seq.len.toNat
    rw [BitVec.toNat_add]
    exact le_trans (Nat.mod_le _ _) hfit.2
  | restore =>
    have hs : s.startLine = s.enterMapped := by unfold State.startLine; rw [hstep]
    rw [State.enterMapped_eq h.calm.1] at hs
    exact h.plain hs rfl rfl rfl h.calm h.waiting (by rw [hstep]; rfl) (by rw [hstep]; trivial)
  | ret =>
    exact h.plain (v := s) (by unfold State.startLine; rw [hstep]) rfl rfl rfl h.calm h.waiting (by rw [hstep]; rfl)
      (by rw [hstep]; trivial)

/-- The label alone moves. -/
theorem State.fitsAt_goto {s : State} {l : Label} (k : Label) (h : s.fitsAt R l) : (s.goto k).fitsAt R l := by
  cases l <;> exact h

/-- The move of a line (R282). -/
theorem Called.finish {s : State} (h : Called q R m s) : OnTrack q R m s.finishLine := by
  have move : ∀ l : Label, s.fitsAt R l → (l.findsReady = true → s.flash.wip = false) →
      (l.beforeMapped = true → s.cfg.omDefault = .quad → s.flash.framing = .single) →
      (l.ofInit = false ↔ s.seq.step.ofInit = false) → OnTrack q R m (s.goto l) := by
    intro l h1 h2 h3 h4
    refine ⟨h.flash, fun _ => ⟨fun _ => ⟨h.conf, h.calm, h.waiting, ⟨h.flash, h2, h3⟩, State.fitsAt_goto _ h1,
      h4.trans h.init⟩, fun hh => ?_⟩⟩
    rw [show (s.goto l).held = s.held from rfl, State.held_of_calm h.calm h.waiting] at hh
    cases hh
  have stop : ∀ r, OnTrack q R m (s.respond r) := fun r => ⟨h.flash, fun hr => by cases hr⟩
  have hfit := h.fits
  have hready := h.ready
  have hsingle := h.single
  have hpolled := h.polled
  have hrt : s.seq.r = .timeout → s.raise .timeout = s.goto .restore := fun e => by
    simp only [State.raise, Failure.result, State.goto]; rw [← e]
  have fin : ∀ l, s.seq.step = l → l.straight = true → s.finishLine = s.goto l.next := fun l e hl => by
    rw [State.finishLine_straight e hl]; unfold State.nextLabel; rw [e]
  cases hstep : s.seq.step with
  | i0 =>
    rw [fin _ hstep rfl]; rw [hstep] at hready
    exact move _ trivial (fun _ => hready rfl rfl) (fun _ => hsingle (Or.inl hstep)) (by rw [hstep]; rfl)
  | i1 =>
    rw [fin _ hstep rfl]; rw [hstep] at hready
    exact move _ trivial (fun _ => hready rfl rfl) (fun _ => hsingle (Or.inr (Or.inl hstep))) (by rw [hstep]; rfl)
  | i2 =>
    rw [hstep] at hready
    have e : s.finishLine
        = if s.cr.en then (if s.cfg.omDefault = .quad then s.nextLabel else s.goto .i4) else s.raise .fatalError := by
      unfold State.finishLine; rw [hstep]
    rw [e]
    split
    · split
      · unfold State.nextLabel; rw [hstep]
        exact move _ trivial (fun _ => hready rfl rfl) (fun _ => hsingle (Or.inr (Or.inr hstep))) (by rw [hstep]; rfl)
      · exact move _ trivial (fun h => by cases h) (fun h => by cases h) (by rw [hstep]; rfl)
    · exact stop _
  | i3 =>
    rw [fin _ hstep rfl]
    exact move _ trivial (fun h => by cases h) (fun h => by cases h) (by rw [hstep]; rfl)
  | i4 =>
    rw [fin _ hstep rfl]
    exact move _ trivial (fun h => by cases h) (fun h => by cases h) (by rw [hstep]; rfl)
  | i5 =>
    have e : s.finishLine = s.returnResult := by unfold State.finishLine; rw [hstep]
    rw [e]; exact stop _
  | ret =>
    have e : s.finishLine = s.returnResult := by unfold State.finishLine; rw [hstep]
    rw [e]; exact stop _
  | m0 =>
    rw [fin _ hstep rfl]; rw [hstep] at hready hfit
    exact move _ hfit (fun _ => hready rfl rfl) (fun h => by cases h) (by rw [hstep]; rfl)
  | m1 =>
    rw [fin _ hstep rfl]
    exact move _ trivial (fun h => by cases h) (fun h => by cases h) (by rw [hstep]; rfl)
  | m2 =>
    have e : s.finishLine = if s.seq.r = .timeout then s.raise .timeout else s.nextLabel := by
      unfold State.finishLine; rw [hstep]
    rw [e]
    split
    next hr => rw [hrt hr]; exact move _ trivial (fun h => by cases h) (fun h => by cases h) (by rw [hstep]; rfl)
    next hr =>
      unfold State.nextLabel; rw [hstep]
      exact move _ trivial (fun h => by cases h) (fun h => by cases h) (by rw [hstep]; rfl)
  | s3 =>
    have e : s.finishLine = if s.seq.r = .timeout then s.raise .timeout else s.nextLabel := by
      unfold State.finishLine; rw [hstep]
    rw [e]
    split
    next hr => rw [hrt hr]; exact move _ trivial (fun h => by cases h) (fun h => by cases h) (by rw [hstep]; rfl)
    next hr =>
      unfold State.nextLabel; rw [hstep]
      exact move _ trivial (fun h => by cases h) (fun h => by cases h) (by rw [hstep]; rfl)
  | w5 =>
    have e : s.finishLine = if s.seq.r = .timeout then s.raise .timeout else s.nextLabel := by
      unfold State.finishLine; rw [hstep]
    rw [e]
    rw [hstep] at hfit hpolled
    split
    next hr => rw [hrt hr]; exact move _ trivial (fun h => by cases h) (fun h => by cases h) (by rw [hstep]; rfl)
    next hr =>
      unfold State.nextLabel; rw [hstep]
      exact move _ hfit (fun _ => hpolled rfl hr) (fun h => by cases h) (by rw [hstep]; rfl)
  | s0 =>
    have e : s.finishLine = if s.seq.addr.toNat % s.cfg.sectorSize ≠ 0 then s.raise .alignmentError else s.nextLabel := by
      unfold State.finishLine; rw [hstep]
    rw [e]
    rw [hstep] at hready hfit
    split
    · exact stop _
    next hal =>
      unfold State.nextLabel; rw [hstep]
      exact move _ (hfit (by simpa using hal)) (fun _ => hready rfl rfl) (fun h => by cases h) (by rw [hstep]; rfl)
  | s1 =>
    rw [fin _ hstep rfl]; rw [hstep] at hready hfit
    exact move _ hfit (fun _ => hready rfl rfl) (fun h => by cases h) (by rw [hstep]; rfl)
  | s2 =>
    rw [fin _ hstep rfl]
    exact move _ trivial (fun h => by cases h) (fun h => by cases h) (by rw [hstep]; rfl)
  | w0 =>
    rw [fin _ hstep rfl]; rw [hstep] at hready hfit
    exact move _ hfit (fun _ => hready rfl rfl) (fun h => by cases h) (by rw [hstep]; rfl)
  | w1 =>
    have e : s.finishLine = if s.seq.off = s.seq.len then s.goto .restore else s.nextLabel := by
      unfold State.finishLine; rw [hstep]
    rw [e]
    rw [hstep] at hready hfit
    split
    · exact move _ trivial (fun h => by cases h) (fun h => by cases h) (by rw [hstep]; rfl)
    next hne =>
      unfold State.nextLabel; rw [hstep]
      refine move _ ⟨hfit.1, ?_⟩ (fun _ => hready rfl rfl) (fun h => by cases h) (by rw [hstep]; rfl)
      have h1 : s.seq.off.toNat ≠ s.seq.len.toNat := fun e => hne (BitVec.eq_of_toNat_eq e)
      have := hfit.2
      omega
  | w2 =>
    rw [fin _ hstep rfl]; rw [hstep] at hready hfit
    exact move _ hfit (fun _ => hready rfl rfl) (fun h => by cases h) (by rw [hstep]; rfl)
  | w3 =>
    rw [fin _ hstep rfl]; rw [hstep] at hready hfit
    exact move _ hfit (fun _ => hready rfl rfl) (fun h => by cases h) (by rw [hstep]; rfl)
  | w4 =>
    rw [fin _ hstep rfl]; rw [hstep] at hfit
    obtain ⟨h1, h2, h3⟩ := hfit
    refine move _ ⟨h1, ?_⟩ (fun h => by cases h) (fun h => by cases h) (by rw [hstep]; rfl)
    have hcn : s.seq.chunk.toNat = s.chunkNow := by rw [h3]; exact State.nextChunk_toNat h2
    have hle : s.chunkNow ≤ s.seq.len.toNat - s.seq.off.toNat := chunkLength_le
    rw [hcn]; omega
  | w6 =>
    rw [fin _ hstep rfl]; rw [hstep] at hready hfit
    exact move _ hfit (fun _ => hready rfl rfl) (fun h => by cases h) (by rw [hstep]; rfl)
  | restore =>
    rw [fin _ hstep rfl]
    exact move _ trivial (fun h => by cases h) (fun h => by cases h) (by rw [hstep]; rfl)

/-- A call in the middle goes on (R185, R225 e). -/
theorem Amid.resume {s : State} (h : Amid q R m s) : Line q R m s.resumeCall := by
  obtain ⟨f, hfr, hF, hu⟩ := h.way
  obtain ⟨hu1, ht1⟩ := State.waitMany_underway (k := s.tr.dataLength.toNat + 4) hF h.fmode h.agrees hu
  have hu1 : Underway s.cfg f (s.seq.step.before s.cfg q R m) (s.seq.step.after s.cfg q R m) s.finishApply := hu1
  have ht1 : s.finishApply.transferAgrees := ht1
  have hm1 : s.finishApply.cr.fmode ≠ 3 := by rw [s.finishApply_only.crFmode]; exact h.fmode
  have ho := s.finishApply_only.builder
  have hret := hu1.returned ht1
  have hfrv : ∀ v : State, PollOnly s v → v.lineFrame = some f := fun v hv => by
    rw [State.lineFrame_congr hv.cfg hv.seqStep hv.seqAddr hv.seqOff hv.seqChunk]; exact hfr
  have amid : ∀ v : State, PollOnly s v → v.transferAgrees → v.cr.fmode ≠ 3 → v.seq.phase ≠ .idle →
      v.seq.waiting.isSome = s.seq.step.polls →
      Underway s.cfg f (s.seq.step.before s.cfg q R m) (s.seq.step.after s.cfg q R m) v → Amid q R m v := by
    intro v hv a1 a2 a3 a4 a5
    exact ⟨by rw [hv.cfg]; exact h.conf, a1, a2, a3, by rw [a4, hv.seqStep], by rw [hv.seqStep]; exact hv.fits h.fits,
      ⟨f, hfrv v hv, by rw [hv.cfg, hv.seqStep]; exact hF, by rw [hv.cfg, hv.seqStep]; exact a5⟩,
      by rw [hv.seqStep]; exact h.init⟩
  cases hw : s.seq.waiting with
  | none =>
    have hl : s.seq.step.polls = false := by rw [← h.waiting, hw]; rfl
    have e : s.resumeCall = s.finishApply := by simp [State.resumeCall, hw]
    rw [e]
    refine ⟨fun hh => ?_, fun hh => ?_⟩
    · have hwn : s.finishApply.seq.waiting = none := by rw [ho.seqWaiting]; exact hw
      exact amid _ ho.poll ht1 hm1 (fun hp => by rw [State.held, hp, hwn] at hh; simp at hh) (by rw [hwn, hl]; rfl) hu1
    · obtain ⟨h1, h2⟩ := hret (State.held_false hh).1
      refine ⟨by rw [ho.cfg]; exact h.conf, h1, (State.held_false hh).2, by rw [ho.cfg]; exact h2.1,
        by rw [ho.seqStep]; exact h2.2.1, fun hor => ?_, fun hp => ?_, ?_, by rw [ho.seqStep]; exact h.init⟩
      · rw [ho.seqStep] at hor
        rcases hor with e | e | e <;> unfold State.lineFrame at hfr <;> rw [e] at hfr <;> cases hfr
      · rw [ho.seqStep, hl] at hp; cases hp
      · exact State.fitsAfter_call (by rw [hfrv _ ho.poll]; rfl) (by rw [ho.seqStep]; exact ho.poll.fits h.fits)
  | some max =>
    have hl : s.seq.step.polls = true := by rw [← h.waiting, hw]; rfl
    have hq : q := h.init.mp (by generalize s.seq.step = l at hl; cases l <;> simp_all [Label.polls, Label.ofInit])
    have hff : f = launchedFrame s.cfg Transaction.readStatus s.cfg.omDefault .read := by
      unfold State.lineFrame at hfr
      generalize s.seq.step = l at hl hfr
      cases l <;> simp_all [Label.polls]
    have hws : s.finishApply.seq.waiting = some max := by rw [ho.seqWaiting]; exact hw
    have done : ∀ v : State, PollOnly s v → PollTrack q R m s v → Line q R m v := by
      intro v hv hp
      obtain ⟨h1, h2, h3⟩ := hp
      refine ⟨fun hh => ?_, fun hh => ?_⟩
      · obtain ⟨a1, a2, a3, a4, a5⟩ := h2 hh
        exact amid v hv a2 a3 a1 (by rw [a4, hl]) (by rw [hff]; exact a5)
      · obtain ⟨b1, b2⟩ := h3 hh
        refine ⟨by rw [hv.cfg]; exact h.conf, b1, (State.held_false hh).2, by rw [hv.cfg]; exact h1, fun hr => ?_, fun hor => ?_,
          fun _ => b2, ?_, by rw [hv.seqStep]; exact h.init⟩
        · rw [hv.seqStep] at hr
          generalize s.seq.step = l at hl hr
          cases l <;> simp_all [Label.polls, Label.findsReady]
        · rw [hv.seqStep] at hor
          generalize s.seq.step = l at hl hor
          rcases hor with e | e | e <;> rw [e] at hl <;> cases hl
        · exact State.fitsAfter_call (by rw [hfrv v hv]; rfl) (by rw [hv.seqStep]; exact hv.fits h.fits)
    have honly := s.resumeCall_only
    refine done _ honly ?_
    have hconf : s.finishApply.flash.Confined s.cfg q R m := hu1.flash (fun _ h => h.1) (fun _ _ h => h.1)
    unfold State.resumeCall
    rw [hw]
    dsimp only
    split
    next hp1 =>
      exact ⟨hconf, fun _ => ⟨hp1, ht1, hm1, by rw [hws]; rfl, by rw [← hff]; exact hu1⟩,
        fun hh => absurd (State.held_false hh).1 hp1⟩
    next hp1 =>
      have hp1 : s.finishApply.seq.phase = .idle := by simpa using hp1
      rw [if_neg h.phase]
      obtain ⟨h1, h2⟩ := hret hp1
      have hb : statusBusy s.finishApply.cfg.busyBit s.finishApply.seq.status = s.finishApply.flash.wip := by
        rw [ho.cfg]; exact h2.2.2 hl
      rw [State.countPoll_eq, hb]
      split
      next hwip =>
        exact State.waitLoop_track (s := { s.finishApply with
            seq := { s.finishApply.seq with attempts := s.finishApply.seq.attempts + 1 } }) h.conf hq hl ho.cfg h1 hconf hws
          (Nat.succ_pos _) (by omega)
      next hwip =>
        rw [State.waitLoop_done rfl]
        exact ⟨hconf, fun hh => absurd hh (by simp [State.held, hp1]), fun _ => ⟨h1, fun _ => by simpa using hwip⟩⟩

/-! ### Lines, stretches of lines, steps -/

theorem Within.line {s : State} (h : Within q R m s) : OnTrack q R m s.line := by
  have h1 := h.start
  unfold State.line
  dsimp only
  split
  next hh => exact ⟨h1.confined, fun _ => ⟨fun h0 => absurd (hh.symm.trans h0) (by decide), h1.1⟩⟩
  next hh => exact (h1.2 (by simpa using hh)).finish

/-- A stretch of lines keeps the operation in its range, however far it gets (R12). -/
theorem OnTrack.run {k : Nat} {s : State} (h : OnTrack q R m s) : OnTrack q R m (State.run k s) := by
  induction k generalizing s with
  | zero => exact h
  | succ k ih =>
    unfold State.run
    split
    next hr =>
      simp only [Bool.and_eq_true, decide_eq_true_eq, Bool.not_eq_true'] at hr
      exact ih ((h.2 hr.1).1 hr.2).line
    · exact h

/-- An operation that goes on keeps to its range, whatever line it resumes at (R185, R282). -/
theorem OnTrack.resume {s : State} (h : OnTrack q R m s) (hr : s.seq.state = .running) : OnTrack q R m s.resume := by
  unfold State.resume
  split
  next hh =>
    have h1 := ((h.2 hr).2 hh).resume
    dsimp only
    split
    next hh1 => exact ⟨h1.confined, fun _ => ⟨fun h0 => absurd (hh1.symm.trans h0) (by decide), h1.1⟩⟩
    next hh1 =>
      split
      · exact ((h1.2 (by simpa using hh1)).finish).run
      next hi => exact ⟨h1.confined, fun h0 => absurd h0 hi⟩
  next hh => exact h.run

/-! ### The invariant of a running operation -/

theorem Op.owns_init {op : Op} {l : Label} (h : op.owns l = true) : l.ofInit = false ↔ op ≠ .init := by
  cases op <;> cases l <;> simp_all [Op.owns, Label.ofInit]

theorem Op.owns_next {op : Op} {l : Label} (h : op.owns l = true) : op.owns l.next = true := by
  cases op <;> cases l <;> first | rfl | exact absurd h (by decide)

/-- A line's move stays in the listing of its operation (R282). -/
theorem State.finishLine_owns {s : State} (h : s.seq.op.owns s.seq.step = true) :
    s.finishLine.seq.op.owns s.finishLine.seq.step = true := by
  have hn : s.nextLabel.seq.op.owns s.nextLabel.seq.step = true := Op.owns_next h
  have hr : ∀ l, s.seq.step = l → (∀ op : Op, op.owns l = true → op.owns .restore = true) →
      s.seq.op.owns .restore = true := fun l e hl => hl _ (e ▸ h)
  unfold State.finishLine
  split
  next e =>
    split
    · split
      · exact hn
      · show s.seq.op.owns .i4 = true
        rw [e] at h
        revert h
        cases s.seq.op <;> decide
    · exact h
  · exact h
  · split
    · exact h
    · exact hn
  next e => split; exact hr _ e (fun op => by cases op <;> decide); exact hn
  next e => split; exact hr _ e (fun op => by cases op <;> decide); exact hn
  next e => split; exact hr _ e (fun op => by cases op <;> decide); exact hn
  next e => split; exact hr _ e (fun op => by cases op <;> decide); exact hn
  · exact h
  · exact hn

theorem State.line_owns {s : State} (h : s.seq.op.owns s.seq.step = true) : s.line.seq.op.owns s.line.seq.step = true := by
  have hs : s.startLine.seq.op.owns s.startLine.seq.step = true := by
    rw [s.startLine_step, s.startLine_only.op]; exact h
  unfold State.line
  dsimp only
  split
  · exact hs
  · exact State.finishLine_owns hs

theorem State.run_owns {k : Nat} {s : State} (h : s.seq.op.owns s.seq.step = true) :
    (State.run k s).seq.op.owns (State.run k s).seq.step = true := by
  induction k generalizing s with
  | zero => exact h
  | succ k ih =>
    unfold State.run
    split
    · exact ih (State.line_owns h)
    · exact h

/-- An operation that goes on stays in its listing (R185, R282). -/
theorem State.resume_owns {s : State} (h : s.seq.op.owns s.seq.step = true) :
    s.resume.seq.op.owns s.resume.seq.step = true := by
  have hc : s.resumeCall.seq.op.owns s.resumeCall.seq.step = true := by
    rw [s.resumeCall_only.seqStep, s.resumeCall_only.seqOp]; exact h
  unfold State.resume
  split
  · dsimp only
    split
    · exact hc
    · split
      · exact State.run_owns (State.finishLine_owns hc)
      · exact hc
  · exact State.run_owns h

theorem State.phase_inflight {s : State} (h : s.transferAgrees) (hp : s.seq.phase ≠ .idle) :
    ∃ x, s.ctrl.inflight = some x := by
  unfold State.transferAgrees at h
  cases hi : s.ctrl.inflight with
  | some x => exact ⟨x, rfl⟩
  | none =>
    rw [hi] at h
    cases hp' : s.seq.phase <;> rw [hp'] at h <;> first | exact absurd hp' hp | exact absurd h id

/-- A running operation in its range, as the lemmas above have it. -/
theorem State.InRange.onTrack {s : State} (h : s.InRange) :
    OnTrack (s.seq.op ≠ .init) s.outsideRange s.flash.array s := by
  have hi := Op.owns_init h.label
  have hconf : s.flash.Confined s.cfg (s.seq.op ≠ .init) s.outsideRange s.flash.array :=
    ⟨h.framed, fun _ _ => rfl, fun hw a ha => (h.work hw).2 a ha, fun hw => (h.work hw).1⟩
  have hfit : s.fitsAt s.outsideRange s.seq.step := by
    have ho := h.operands
    have hl := h.label
    have hR : s.seq.op = .merase → ∀ a, ¬ s.outsideRange a := fun e a ha => by
      unfold State.outsideRange at ha; rw [e] at ha; exact ha
    have hS : s.seq.op = .serase → ∀ a, s.outsideRange a → a < s.seq.addr.toNat ∨ s.seq.addr.toNat + s.cfg.sectorSize ≤ a :=
      fun e a ha => by unfold State.outsideRange at ha; rw [e] at ha; exact ha
    have hW : s.seq.op = .write → ∀ a, s.outsideRange a → a < s.seq.addr.toNat ∨ s.seq.addr.toNat + s.seq.len.toNat ≤ a :=
      fun e a ha => by unfold State.outsideRange at ha; rw [e] at ha; exact ha
    unfold State.operandsFit at ho
    cases hop : s.seq.op <;> cases hstep : s.seq.step <;> rw [hop, hstep] at hl <;> rw [hop, hstep] at ho <;>
      first
      | exact absurd hl (by decide)
      | exact trivial
      | exact hR hop
      | exact fun hal => ⟨hal, ho hal, hS hop⟩
      | exact ⟨ho.1, ho.2, hS hop⟩
      | exact ⟨ho, hW hop⟩
      | exact ⟨⟨ho.1, hW hop⟩, ho.2⟩
  refine ⟨hconf, fun _ => ⟨fun hh => ?_, fun hh => ?_⟩⟩
  · obtain ⟨hp, hw⟩ := State.held_false hh
    obtain ⟨h1, h2, h3⟩ := State.transferAgrees_idle h.coherent.2.2.1 hp
    have hd : s.delivered = false := by simp [State.delivered, h1]
    exact ⟨h.conf, ⟨hp, h1, h2⟩, hw, ⟨hconf, fun hr => h.ready hr (fun _ => hd), fun hb hq => h.single hb hq hd⟩, hfit, hi⟩
  · obtain ⟨hp, hw⟩ := h.call hh
    obtain ⟨x, hx⟩ := State.phase_inflight h.coherent.2.2.1 hp
    obtain ⟨f, hf, hlen, hfr⟩ := h.frame x hx
    refine ⟨h.conf, h.coherent.2.2.1, State.coherent_fmode h.coherent hp, hp, hw, hfit,
      ⟨f, hf, carries_line h.conf hfit hi hf, ⟨rfl, fun hrd => h.dest ?_⟩, ?_⟩, hi⟩
    · rw [hw]
      unfold State.lineFrame at hf
      generalize s.seq.step = l at hf
      cases l <;> simp only [reduceCtorEq, Option.some.injEq] at hf <;> first
        | (subst hf; first | rfl | cases hrd)
        | (split at hf <;> cases hf; cases hrd)
    cases hd : x.delivered with
    | false =>
      have hd' : s.delivered = false := by simp [State.delivered, hx, hd]
      refine Or.inl ⟨⟨hconf, fun hr => h.ready hr (fun _ => hd'), fun hb hq => h.single hb hq hd'⟩, ?_⟩
      rw [hx, ← hfr hd, ← hd]
    | true =>
      have hd' : s.delivered = true := by simp [State.delivered, hx, hd]
      refine Or.inr ⟨fun y hy => ?_, fun b hb => ⟨hconf, fun hr hde => h.ready hr (fun e => by rw [hde] at e; cases e), fun hpl => ?_⟩⟩
      · rw [hx] at hy; cases hy; exact ⟨hd, hlen⟩
      · have hread : f.dir = .read := by
          unfold State.lineFrame at hf
          generalize s.seq.step = l at hf hpl
          cases l <;> first | exact absurd hpl (by decide) | (cases hf; rfl)
        rw [hb hread]
        exact h.answer (by rw [hw, hpl]) hd'

/-- A running operation in its range, from what the lemmas above say of it. -/
theorem OnTrack.inRange {m : Memory} {s : State} (h : OnTrack (s.seq.op ≠ .init) s.outsideRange m s) (hc : s.coherent)
    (hr : s.seq.state = .running) (hl : s.seq.op.owns s.seq.step = true) : s.InRange := by
  obtain ⟨hconf, h⟩ := h
  obtain ⟨hW, hA⟩ := h hr
  have hfit : s.fitsAt s.outsideRange s.seq.step := by
    cases hh : s.held with
    | false => exact (hW hh).fits
    | true => exact (hA hh).fits
  have hwf : s.cfg.wf = true := by
    cases hh : s.held with
    | false => exact (hW hh).conf
    | true => exact (hA hh).conf
  refine ⟨hwf, hc, hr, hl, ?_, fun hh => ⟨(hA hh).phase, (hA hh).waiting⟩, fun x hx => ?_, hconf.framed, fun hb hq hd => ?_,
    fun hf hd => ?_, fun hw => ⟨hconf.spares hw, fun a ha => (hconf.found hw a ha).trans (hconf.array a ha).symm⟩,
    fun hw => ?_, fun hw hd => ?_⟩
  · unfold State.operandsFit
    cases hop : s.seq.op <;> cases hstep : s.seq.step <;> rw [hop, hstep] at hl <;> rw [hstep] at hfit <;>
      first
      | exact absurd hl (by decide)
      | exact trivial
      | exact fun hal => (hfit hal).2.1
      | exact ⟨hfit.1, hfit.2.1⟩
      | exact hfit.1
      | exact ⟨hfit.1.1, hfit.2⟩
  · cases hh : s.held with
    | false => rw [(hW hh).calm.2.1] at hx; cases hx
    | true =>
      obtain ⟨f, hf, hF, -, ⟨-, hu⟩ | hu⟩ := (hA hh).way
      · rw [hu] at hx; cases hx; exact ⟨f, hf, rfl, fun _ => rfl⟩
      · obtain ⟨h1, h2⟩ := hu.done x hx
        exact ⟨f, hf, h2, fun h0 => absurd (h1.symm.trans h0) (by decide)⟩
  · cases hh : s.held with
    | false => exact (hW hh).flash.2.2 hb hq
    | true =>
      obtain ⟨f, hf, hF, -, ⟨hu, -⟩ | hu⟩ := (hA hh).way
      · exact hu.2.2 hb hq
      · obtain ⟨x, hx⟩ := State.phase_inflight hc.2.2.1 (hA hh).phase
        simp [State.delivered, hx, (hu.done x hx).1] at hd
  · cases hh : s.held with
    | false => exact (hW hh).flash.2.1 hf
    | true =>
      obtain ⟨f, hfr, hF, -, ⟨hu, -⟩ | hu⟩ := (hA hh).way
      · exact hu.2.1 hf
      · obtain ⟨x, hx⟩ := State.phase_inflight hc.2.2.1 (hA hh).phase
        have hdel : s.delivered = true := by simp [State.delivered, hx, (hu.done x hx).1]
        refine (hu.made _ (fun _ => rfl)).2.1 hf ?_
        cases hde : s.seq.step.destroys with
        | false => rfl
        | true => exact absurd (hdel.symm.trans (hd hde)) (by decide)
  · cases hh : s.held with
    | false => rw [(State.held_false hh).2] at hw; cases hw
    | true =>
      obtain ⟨f, hfr, -, ⟨-, hst⟩, -⟩ := (hA hh).way
      have hpl : s.seq.step.polls = true := by rw [← (hA hh).waiting]; exact hw
      refine hst ?_
      unfold State.lineFrame at hfr
      generalize s.seq.step = l at hfr hpl
      cases l <;> first | exact absurd hpl (by decide) | (cases hfr; rfl)
  · cases hh : s.held with
    | false => rw [(State.held_false hh).2] at hw; cases hw
    | true =>
      obtain ⟨f, hfr, hF, -, ⟨-, hu⟩ | hu⟩ := (hA hh).way
      · simp [State.delivered, hu] at hd
      · refine (hu.made _ (fun _ => rfl)).2.2 ?_
        rw [← (hA hh).waiting]; exact hw

end Sys2Proof.Machine
end

