-- ==== Sys2Proof/Laws/Discipline.lean ====
section
/-! SUPPORT. The invariant of a machine used through its four host operations: what a poll loop and a line can do to
the sequencer position, and that every line, every stretch of lines and every resumption keeps the position, the
mode and the response in agreement. -/

namespace Sys2Proof.Machine

open Sys2Proof

/-! ### What the poll loop does to the position -/

/-- `t` stands where `s` stood, with the poll loop further on: still waiting, or returned with a result in `r`. -/
structure PollShape (s t : State) : Prop where
  state  : t.seq.state = s.seq.state
  step   : t.seq.step = s.seq.step
  host   : t.host = s.host
  slice  : t.env.slice = s.env.slice
  result : t.seq.r = s.seq.r ∨ t.seq.r = .ok ∨ t.seq.r = .timeout
  done   : t.seq.waiting.isSome = true
             ∨ t.seq.waiting = none ∧ t.seq.phase = .idle ∧ (t.seq.r = .ok ∨ t.seq.r = .timeout)

/-- The loop left as it is while it waits. -/
theorem PollShape.stay {s t : State} (h : BuilderOnly s t) (hw : s.seq.waiting.isSome = true) : PollShape s t :=
  ⟨h.seqState, h.seqStep, h.host, h.slice, Or.inl h.seqR, Or.inl (by rw [h.seqWaiting]; exact hw)⟩

theorem PollShape.trans {s t u : State} (h1 : BuilderOnly s t) (h2 : PollShape t u) : PollShape s u :=
  ⟨h2.state.trans h1.seqState, h2.step.trans h1.seqStep, h2.host.trans h1.host, h2.slice.trans h1.slice,
    by rw [← h1.seqR]; exact h2.result, h2.done⟩

theorem State.endWait_shape {s : State} {r : Result} (hp : s.seq.phase = .idle) (hr : r = .ok ∨ r = .timeout) :
    PollShape s (s.endWait r) :=
  ⟨rfl, rfl, rfl, rfl, Or.inr hr, Or.inr ⟨rfl, hp, hr⟩⟩

theorem State.waitLoop_shape {k : Nat} {s : State} (hp : s.seq.phase = .idle) (hw : s.seq.waiting.isSome = true) :
    PollShape s (s.waitLoop k) := by
  induction k generalizing s with
  | zero => exact PollShape.stay (BuilderOnly.refl s) hw
  | succ k ih =>
    unfold State.waitLoop
    split
    next h => simp [h] at hw
    next max hmax =>
      split
      · have h1 := s.readStatus_only
        dsimp only
        split
        next hp1 =>
          rw [State.countPoll_eq]
          split
          · have hw1 : s.readStatus.seq.waiting.isSome = true := by rw [h1.seqWaiting]; exact hw
            have h2 := ih
              (s := { s.readStatus with seq := { s.readStatus.seq with attempts := s.readStatus.seq.attempts + 1 } })
              hp1 hw1
            exact PollShape.trans h1 ⟨h2.state, h2.step, h2.host, h2.slice, h2.result, h2.done⟩
          · rw [State.waitLoop_done rfl]
            exact PollShape.trans h1 ⟨rfl, rfl, rfl, rfl, Or.inr (Or.inl rfl), Or.inr ⟨rfl, hp1, Or.inl rfl⟩⟩
        next => exact PollShape.stay h1 hw
      · exact State.endWait_shape hp (Or.inr rfl)

theorem State.waitUntilReady_shape {max : Word32} {s : State} (hp : s.seq.phase = .idle) :
    PollShape s (s.waitUntilReady max) := by
  have h := State.waitLoop_shape (k := max.toNat + 1)
    (s := { s with seq := { s.seq with attempts := 0, waiting := some max } }) hp rfl
  exact ⟨h.state, h.step, h.host, h.slice, h.result, h.done⟩

theorem State.countPoll_shape {s : State} (hp : s.seq.phase = .idle) (hw : s.seq.waiting.isSome = true) :
    PollShape s s.countPoll := by
  rw [State.countPoll_eq]
  split
  · exact ⟨rfl, rfl, rfl, rfl, Or.inl rfl, Or.inl hw⟩
  · exact ⟨rfl, rfl, rfl, rfl, Or.inr (Or.inl rfl), Or.inr ⟨rfl, hp, Or.inl rfl⟩⟩

theorem PollShape.comp {s t u : State} (h1 : PollShape s t) (h2 : PollShape t u) : PollShape s u := by
  refine ⟨h2.state.trans h1.state, h2.step.trans h1.step, h2.host.trans h1.host, h2.slice.trans h1.slice, ?_, h2.done⟩
  rcases h2.result with h | h | h
  · rw [h]; exact h1.result
  · exact Or.inr (Or.inl h)
  · exact Or.inr (Or.inr h)

/-- A call that waits inside `waitUntilReady` goes on as the loop does. -/
theorem State.resumeCall_shape {s : State} (hw : s.seq.waiting.isSome = true) : PollShape s s.resumeCall := by
  have hb := s.finishApply_only.builder
  unfold State.resumeCall
  dsimp only
  split
  next h => simp [h] at hw
  next max hmax =>
    have hw1 : s.finishApply.seq.waiting.isSome = true := by rw [hb.seqWaiting]; exact hw
    split
    · exact PollShape.stay hb hw
    next hp1 =>
      have hp1 : s.finishApply.seq.phase = .idle := by simpa using hp1
      split
      · exact PollShape.trans hb (State.waitLoop_shape hp1 hw1)
      · have hc := State.countPoll_shape hp1 hw1
        rcases hc.done with h | ⟨h, -, -⟩
        · exact PollShape.trans hb (hc.comp (State.waitLoop_shape (by simpa using hp1) h))
        · rw [State.waitLoop_done h]; exact PollShape.trans hb hc

/-- A call that waits outside `waitUntilReady` goes on as its `apply` does. -/
theorem State.resumeCall_apply {s : State} (hw : s.seq.waiting = none) : s.resumeCall = s.finishApply := by
  simp [State.resumeCall, hw]

/-! ### The position, the mode and the response -/

/-- The part of `disciplined` that is about a running operation and its end. -/
def State.position (s : State) : Prop :=
  s.idleMode ∧ s.lineMode ∧ s.lineResult ∧ s.returnMode ∧ (s.seq.state = .idle → s.held = false)

/-- While an operation runs there is no response. -/
theorem State.returnMode_running {s : State} (h : s.returnMode) (hr : s.seq.state = .running) :
    s.host.response = none := by
  unfold State.returnMode at h
  split at h
  next h2 => exact h2
  next => rw [hr] at h; exact absurd h.1 (by simp)
  next => rw [hr] at h; exact absurd h.1 (by simp)

theorem State.position_running {s : State} (hr : s.seq.state = .running) (hh : s.host.response = none)
    (hm : s.lineMode) (hl : s.lineResult) : s.position :=
  ⟨fun h => by rw [hr] at h; exact absurd h (by simp), hm, hl, by unfold State.returnMode; rw [hh]; trivial,
    fun h => by rw [hr] at h; exact absurd h (by simp)⟩

theorem State.position_idle {s : State} (hi : s.seq.state = .idle) (hh : s.held = false)
    (hf : s.fm = .uninitialized ∨ s.fm = .memoryMapped) (hr : s.returnMode) : s.position :=
  ⟨fun _ => hf, fun h => by rw [hi] at h; exact absurd h (by simp), fun h => by rw [hi] at h; exact absurd h (by simp),
    hr, fun _ => hh⟩

/-- The end of an operation in memory-mapped mode. -/
theorem State.respond_position {s : State} {r : Result} (hh : s.held = false) (hf : s.fm = .memoryMapped)
    (hr : r ≠ .fatalError) : (s.respond r).position := by
  refine State.position_idle rfl hh (Or.inr hf) ?_
  unfold State.returnMode
  cases r <;> first | exact absurd rfl hr | exact ⟨rfl, hf⟩

/-- What `finishLine` needs to keep the position in order: the calls of the line have returned, and the mode and the
result are as the line leaves them. -/
theorem State.finishLine_position {s : State} (hrun : s.seq.state = .running) (hresp : s.host.response = none)
    (hh : s.held = false)
    (hmode : match s.seq.step with
      | .i0 | .i1 | .i2 => s.fm = .uninitialized
      | .i4 | .i5 | .s0 | .ret | .restore => s.fm = .memoryMapped
      | _ => True)
    (hr : match s.seq.step with
      | .w0 | .w1 | .w2 | .w3 | .w4 | .w5 | .w6 | .restore | .ret | .m2 | .s3 => s.seq.r = .ok ∨ s.seq.r = .timeout
      | .i5 => s.seq.r = .ok
      | _ => True) : s.finishLine.position := by
  obtain ⟨hp, hw⟩ := State.held_false hh
  cases hst : s.seq.step <;> simp only [hst] at hmode hr <;> unfold State.finishLine <;> simp only [hst]
  case i2 =>
    split
    · split
      · refine State.position_running hrun hresp ?_ ?_ <;> (intro _; simp [hst, Label.next, hp, hw])
      · refine State.position_running hrun hresp ?_ ?_ <;>
          (intro _; simp [State.goto, State.held, hp, hw])
    · exact State.position_idle rfl hh (Or.inl hmode) ⟨rfl, hmode⟩
  case i5 => exact State.respond_position hh hmode (by rw [hr]; simp)
  case ret => exact State.respond_position hh hmode (by rcases hr with h | h <;> simp [h])
  case s0 =>
    split
    · exact State.respond_position (r := .alignmentError) hh hmode (by simp)
    · refine State.position_running hrun hresp ?_ ?_ <;> (intro _; simp [hst, Label.next, hp, hw])
  case w1 =>
    split <;> refine State.position_running hrun hresp ?_ ?_ <;>
      (intro _; simp [State.held, hst, Label.next, hr, hp, hw])
  case m2 | s3 | w5 =>
    split <;> refine State.position_running hrun hresp ?_ ?_ <;>
      (intro _; simp [State.raise, Failure.result, State.held, Label.next, hst, hr, hp, hw])
  all_goals
    refine State.position_running hrun hresp ?_ ?_ <;>
      (intro _; simp [State.held, hst, Label.next, hmode, hr, hp, hw])

/-- A line whose call waits stays where it is. -/
theorem State.waiting_position {s : State} (hrun : s.seq.state = .running) (hresp : s.host.response = none)
    (hline : match s.seq.step with
      | .i3 | .m0 | .m1 | .s1 | .s2 | .w3 | .w4 => s.seq.waiting = none
      | .m2 | .s3 | .w5 => s.seq.waiting.isSome = true
      | _ => False)
    (hl : s.lineResult) : s.position := by
  refine State.position_running hrun hresp (fun _ => ?_) hl
  cases hst : s.seq.step <;> simp only [hst] at hline ⊢ <;> first | exact hline | exact fun _ => hline

/-- The part of a line that is one `apply` or one poll, or nothing that waits, keeps the position in order, with the
move that follows it. -/
theorem State.lineEnd_position {s t : State} (hrun : s.seq.state = .running) (hresp : s.host.response = none)
    (hstate : t.seq.state = s.seq.state) (hstep : t.seq.step = s.seq.step) (hhost : t.host = s.host)
    (hline : t.held = true → match s.seq.step with
      | .i3 | .m0 | .m1 | .s1 | .s2 | .w3 | .w4 => t.seq.waiting = none
      | .m2 | .s3 | .w5 => t.seq.waiting.isSome = true
      | _ => False)
    (hl : t.lineResult)
    (hmode : match s.seq.step with
      | .i0 | .i1 | .i2 => t.fm = .uninitialized
      | .i4 | .i5 | .s0 | .ret | .restore => t.fm = .memoryMapped
      | _ => True)
    (hr : t.held = false → match s.seq.step with
      | .w0 | .w1 | .w2 | .w3 | .w4 | .w5 | .w6 | .restore | .ret | .m2 | .s3 => t.seq.r = .ok ∨ t.seq.r = .timeout
      | .i5 => t.seq.r = .ok
      | _ => True) : (if t.held then t else t.finishLine).position := by
  rw [← hstep] at hline hmode hr
  rw [← hstate] at hrun
  rw [← hhost] at hresp
  cases hh : t.held with
  | true => rw [if_pos rfl]; exact State.waiting_position hrun hresp (hline hh) hl
  | false => rw [if_neg (by simp)]; exact State.finishLine_position hrun hresp hh hmode (hr hh)

theorem State.lineResult_of_eq {s t : State} (h1 : t.seq.state = s.seq.state) (h2 : t.seq.step = s.seq.step)
    (h3 : t.seq.r = s.seq.r) (h : s.lineResult) : t.lineResult := by
  unfold State.lineResult at *; rw [h1, h2, h3]; exact h

/-- One line keeps the position in order. -/
theorem State.line_position {s : State} (hrun : s.seq.state = .running) (hh : s.held = false) (h : s.position) :
    s.line.position := by
  obtain ⟨-, hm, hl, hret, -⟩ := h
  have hresp := State.returnMode_running hret hrun
  obtain ⟨hp, hw⟩ := State.held_false hh
  have hm := hm hrun
  have hl2 := hl hrun
  have happ : ∀ {t : Transaction} {om : OperatingMode}, BuilderOnly s (s.apply t .indirectWrite om) :=
    State.apply_only _ _ _ _ (by simp)
  have hpoll := State.waitUntilReady_shape (max := s.cfg.maxAttempts) hp
  have hpollR : (s.waitUntilReady s.cfg.maxAttempts).held = false →
      (s.waitUntilReady s.cfg.maxAttempts).seq.r = .ok ∨ (s.waitUntilReady s.cfg.maxAttempts).seq.r = .timeout := by
    intro hf
    rcases hpoll.done with hd | hd
    · rw [(State.held_false hf).2] at hd; simp at hd
    · exact hd.2.2
  have hpollW : (s.waitUntilReady s.cfg.maxAttempts).held = true →
      (s.waitUntilReady s.cfg.maxAttempts).seq.waiting.isSome = true := by
    intro hf
    rcases hpoll.done with hd | hd
    · exact hd
    · simp [State.held, hd.1, hd.2.1] at hf
  have hpollL : ∀ l, s.seq.step = l → (l = .m2 ∨ l = .s3 ∨ l = .w5) →
      (s.waitUntilReady s.cfg.maxAttempts).lineResult := by
    intro l hst hor hrun'
    rw [hpoll.step, hst]
    rcases hor with rfl | rfl | rfl
    · trivial
    · trivial
    · rw [hst] at hl2
      rcases hpoll.result with h | h | h
      · simp only [h]; exact hl2
      · exact Or.inl h
      · exact Or.inr h
  unfold State.line
  dsimp only
  cases hst : s.seq.step <;> simp only [hst] at hm hl2
  case i0 | i1 | i2 =>
    have hstart : s.startLine.seq = s.seq ∧ s.startLine.host = s.host ∧ s.startLine.fm = s.fm := by
      simp [State.startLine, hst, State.configureDevice, State.setAll_eq, State.setEnable]
    refine State.lineEnd_position hrun hresp (by rw [hstart.1]) (by rw [hstart.1]) hstart.2.1 ?_ ?_ ?_ ?_
    · intro hf; simp [State.held, hstart.1, hp, hw] at hf
    · exact State.lineResult_of_eq (by rw [hstart.1]) (by rw [hstart.1]) (by rw [hstart.1]) hl
    · simp only [hst]; rw [hstart.2.2]; exact hm.1
    · simp [hst]
  case i3 =>
    have hstart : BuilderOnly s s.startLine := by
      simp only [State.startLine, hst]
      split
      · exact happ
      · exact BuilderOnly.refl s
      · exact BuilderOnly.refl s
    refine State.lineEnd_position hrun hresp hstart.seqState hstart.seqStep hstart.host ?_ ?_ ?_ ?_
    · simp only [hst]; intro _; rw [hstart.seqWaiting]; exact hw
    · exact State.lineResult_of_eq hstart.seqState hstart.seqStep hstart.seqR hl
    · simp [hst]
    · simp [hst]
  case i4 | restore =>
    have hstart : s.startLine = s.enterMapped := by simp only [State.startLine, hst]
    rw [hstart, State.enterMapped_eq hp]
    refine State.lineEnd_position hrun hresp rfl rfl rfl ?_ ?_ ?_ ?_
    · intro hf; simp [State.held, hp, hw] at hf
    · exact State.lineResult_of_eq (s := s) rfl rfl rfl hl
    · simp [hst]
    · simp only [hst]; intro _; trivial
  case m0 | m1 | s1 | s2 | w3 | w4 =>
    have hstart : BuilderOnly s s.startLine := by simp only [State.startLine, hst]; exact happ
    refine State.lineEnd_position hrun hresp hstart.seqState hstart.seqStep hstart.host ?_ ?_ ?_ ?_
    · simp only [hst]; intro _; rw [hstart.seqWaiting]; exact hw
    · exact State.lineResult_of_eq hstart.seqState hstart.seqStep hstart.seqR hl
    · simp [hst]
    · simp only [hst]; intro _; first | trivial | (rw [hstart.seqR]; exact hl2)
  case m2 | s3 | w5 =>
    have hstart : s.startLine = s.waitUntilReady s.cfg.maxAttempts := by simp only [State.startLine, hst]
    rw [hstart]
    refine State.lineEnd_position hrun hresp hpoll.state hpoll.step hpoll.host ?_ (hpollL _ hst (by simp)) ?_ ?_
    · simp only [hst]; exact hpollW
    · simp [hst]
    · simp only [hst]; exact hpollR
  case i5 =>
    have hstart : s.startLine = { s with seq := { s.seq with r := .ok } } := by simp only [State.startLine, hst]
    rw [hstart]
    refine State.lineEnd_position hrun hresp rfl rfl rfl ?_ ?_ ?_ ?_
    · intro hf; simp [State.held, hp, hw] at hf
    · intro _; simp [hst]
    · simp only [hst]; exact hm.1
    · simp [hst]
  case w0 =>
    have hstart : s.startLine = { s with seq := { s.seq with off := 0, r := .ok } } := by
      simp only [State.startLine, hst]
    rw [hstart]
    refine State.lineEnd_position hrun hresp rfl rfl rfl ?_ ?_ ?_ ?_
    · intro hf; simp [State.held, hp, hw] at hf
    · intro _; simp [hst]
    · simp [hst]
    · simp [hst]
  case s0 | w1 | ret =>
    have hstart : s.startLine = s := by simp only [State.startLine, hst]
    rw [hstart]
    refine State.lineEnd_position hrun hresp rfl rfl rfl ?_ hl ?_ ?_
    · intro hf; simp [State.held, hp, hw] at hf
    · first | exact (by simp only [hst]; exact hm.1) | simp [hst]
    · first | exact fun _ => (by simp only [hst]; exact hl2) | simp [hst]
  case w2 =>
    have hstart : s.startLine = { s with seq := { s.seq with chunk := s.nextChunk } } := by
      simp only [State.startLine, hst]
    rw [hstart]
    refine State.lineEnd_position hrun hresp rfl rfl rfl ?_ (State.lineResult_of_eq (s := s) rfl rfl rfl hl) ?_ ?_
    · intro hf; simp [State.held, hp, hw] at hf
    · simp [hst]
    · simp only [hst]; intro _; exact hl2
  case w6 =>
    have hstart : s.startLine = { s with seq := { s.seq with off := s.seq.off + s.seq.chunk } } := by
      simp only [State.startLine, hst]
    rw [hstart]
    refine State.lineEnd_position hrun hresp rfl rfl rfl ?_ (State.lineResult_of_eq (s := s) rfl rfl rfl hl) ?_ ?_
    · intro hf; simp [State.held, hp, hw] at hf
    · simp [hst]
    · simp only [hst]; intro _; exact hl2

/-- Lines up to a wait or the return keep the position in order. -/
theorem State.run_position {k : Nat} {s : State} (h : s.position) : (State.run k s).position := by
  induction k generalizing s with
  | zero => exact h
  | succ k ih =>
    unfold State.run
    split
    next hr =>
      simp only [Bool.and_eq_true, Bool.not_eq_true', decide_eq_true_eq] at hr
      exact ih (State.line_position hr.1 hr.2 h)
    next => exact h

/-- The occupied block going on keeps the position in order. -/
theorem State.resume_position {s : State} (h : s.position) : s.resume.position := by
  unfold State.resume
  split
  next hheld =>
    obtain ⟨-, hm, hl, hret, hidle⟩ := h
    have hrun : s.seq.state = .running := by
      cases hs : s.seq.state
      · rw [hidle hs] at hheld; simp at hheld
      · rfl
    have hresp := State.returnMode_running hret hrun
    have hm := hm hrun
    have hl2 := hl hrun
    have key : (if s.resumeCall.held then s.resumeCall else s.resumeCall.finishLine).position := by
      cases hst : s.seq.step <;> simp only [hst] at hm hl2
      case i3 | m0 | m1 | s1 | s2 | w3 | w4 =>
        rw [State.resumeCall_apply hm]
        have hb := s.finishApply_only.builder
        refine State.lineEnd_position hrun hresp hb.seqState hb.seqStep hb.host ?_ ?_ ?_ ?_
        · simp only [hst]; intro _; rw [hb.seqWaiting]; exact hm
        · exact State.lineResult_of_eq hb.seqState hb.seqStep hb.seqR hl
        · simp [hst]
        · simp only [hst]; intro _; first | trivial | (rw [hb.seqR]; exact hl2)
      case m2 | s3 | w5 =>
        have hpoll := State.resumeCall_shape (hm hheld)
        refine State.lineEnd_position hrun hresp hpoll.state hpoll.step hpoll.host ?_ ?_ ?_ ?_
        · simp only [hst]
          intro hf
          rcases hpoll.done with hd | hd
          · exact hd
          · simp [State.held, hd.1, hd.2.1] at hf
        · intro _
          rw [hpoll.step, hst]
          first
            | trivial
            | (rcases hpoll.result with h | h | h
               · simp only [h]; exact hl2
               · exact Or.inl h
               · exact Or.inr h)
        · simp [hst]
        · simp only [hst]
          intro hf
          rcases hpoll.done with hd | hd
          · rw [(State.held_false hf).2] at hd; simp at hd
          · exact hd.2.2
      all_goals
        first
          | (rw [hm] at hheld; simp at hheld)
          | (rw [hm.2] at hheld; simp at hheld)
    dsimp only
    split
    next hf => rw [if_pos hf] at key; exact key
    next hf =>
      rw [if_neg hf] at key
      split
      · exact State.run_position key
      next hs =>
        exfalso
        apply hs
        cases hst : s.seq.step <;> simp only [hst] at hm
        case i3 | m0 | m1 | s1 | s2 | w3 | w4 =>
          rw [State.resumeCall_apply hm, s.finishApply_only.seqState]; exact hrun
        case m2 | s3 | w5 => rw [(State.resumeCall_shape (hm hheld)).state]; exact hrun
        all_goals
          first
            | (rw [hm] at hheld; simp at hheld)
            | (rw [hm.2] at hheld; simp at hheld)
  next => exact State.run_position h

/-- An accepted request stands in order. -/
theorem State.accept_position {s : State} {op : Op} {addr len : Word32} (hb : s.busy = false)
    (hm : op.modeAllowed s.fm = true) : (s.accept op addr len).position := by
  obtain ⟨-, hp, hw⟩ := State.busy_false hb
  refine State.position_running rfl rfl (fun _ => ?_) (fun _ => ?_)
  · cases op <;> simp [Op.first, Op.modeAllowed, State.held] at hm ⊢ <;> simp [hm, hp, hw]
  · cases op <;> simp [Op.first]

/-- A request keeps the position in order. -/
theorem State.request_position {s t : State} {op : Op} {addr len : Word32} (h : s.request op addr len = .next t) :
    t.position := by
  obtain ⟨-, hb, hm, -, -, rfl, -⟩ := State.request_next h
  exact State.run_position (State.accept_position hb hm)

end Sys2Proof.Machine
end

