-- ==== Sys2Proof/Laws/Exec.lean ====
section
/-! SUPPORT. What `exec` is for each constructor: the shared operation its meaning is, so that a proof never unfolds the
dispatch; and that the transactions of the commands meet the contract of `apply` (R129, R182). -/

namespace Sys2Proof.Machine

open Sys2Proof

theorem exec_init (s : State) : exec .init s = s.request .init s.host.reqAddr s.host.reqLen := rfl
theorem exec_merase (s : State) : exec .merase s = s.request .merase s.host.reqAddr s.host.reqLen := rfl
theorem exec_serase (a : Word32) (s : State) : exec (.serase a) s = s.request .serase a s.host.reqLen := rfl
theorem exec_write (d n : Word32) (s : State) : exec (.write d n) s = s.request .write d n := rfl
theorem exec_rdsr (s : State) :
    exec .rdsr s = s.directApply Transaction.readStatus .indirectRead s.cfg.omDefault := rfl
theorem exec_wren (s : State) :
    exec .wren s = s.directApply (Transaction.send .writeEnable) .indirectWrite s.cfg.omDefault := rfl
theorem exec_ce (s : State) :
    exec .ce s = s.directApply (Transaction.send .chipErase) .indirectWrite s.cfg.omDefault := rfl
theorem exec_se (a : Addr24) (s : State) :
    exec (.se a) s = s.directApply (Transaction.sectorErase a) .indirectWrite s.cfg.omDefault := rfl
theorem exec_pp (a : Addr24) (n : Word32) (s : State) :
    exec (.pp a n) s = s.directApply (Transaction.pageProgram a 0 n) .indirectWrite s.cfg.omDefault := rfl
theorem exec_read (s : State) :
    exec .read s = s.directApply (Transaction.readData s.cfg) .memoryMapped s.cfg.omDefault := rfl
theorem exec_eqpi (s : State) :
    exec .eqpi s = s.directApply (Transaction.send .enableQPI) .indirectWrite .single := rfl
theorem exec_widthFor (om : OperatingMode) (s : State) :
    exec (.widthFor om) s = .next { s with widths := widthFor om } := rfl
theorem exec_apply (t : Transaction) (fm : FunctionalMode) (om : OperatingMode) (s : State) :
    exec (.apply t fm om) s = s.directApply t fm om := rfl
theorem exec_waitUntilReady (max : Word32) (s : State) : exec (.waitUntilReady max) s = execWaitUntilReady max s := rfl
theorem exec_enterMemoryMapped (s : State) : exec .enterMemoryMapped s = execEnterMemoryMapped s := rfl

/-! ### The commands' transactions -/

theorem send_wf (c : Config) {cmd : Command} (h : cmd = .writeEnable ∨ cmd = .chipErase) :
    (Transaction.send cmd).wf c .indirectWrite c.omDefault = true := by
  rcases h with rfl | rfl <;>
    (show (true && true && true && (true && decide (c.omDefault = c.omDefault)) && true) = true; simp)

theorem enableQPI_wf (c : Config) : (Transaction.send .enableQPI).wf c .indirectWrite .single = true := rfl

theorem readStatus_wf (c : Config) : Transaction.readStatus.wf c .indirectRead c.omDefault = true := by
  show (true && true && true && (true && decide (c.omDefault = c.omDefault)) && true) = true
  simp

theorem readData_wf (c : Config) : (Transaction.readData c).wf c .memoryMapped c.omDefault = true := by
  show (true && true && true && (decide (c.dummyMM = c.dummyMM) && decide (c.omDefault = c.omDefault)) && true) = true
  simp

theorem sectorErase_wf {c : Config} {a : Addr24} (h : a.toNat < c.flashSize) :
    (Transaction.sectorErase a).wf c .indirectWrite c.omDefault = true := by
  show (decide (a.toNat < c.flashSize) && true && true && (true && decide (c.omDefault = c.omDefault)) && true) = true
  simp [h]

theorem pageProgram_wf {c : Config} {a : Addr24} {off n : Word32} (h : a.toNat < c.flashSize)
    (hp : Transaction.withinPage c a n = true) :
    (Transaction.pageProgram a off n).wf c .indirectWrite c.omDefault = true := by
  have hn : decide (n = 0) = false := by
    rw [decide_eq_false_iff_not]
    rintro rfl
    simp [Transaction.withinPage] at hp
  show (decide (a.toNat < c.flashSize) && (false == decide (n = 0)) && true
    && (true && decide (c.omDefault = c.omDefault)) && Transaction.withinPage c a n) = true
  rw [hp, hn]
  simp [h]

/-- The one indirect read of the table refers to `SEQ.status` or to the caller's own buffer and has one byte (R129). -/
theorem rowOfTable_read {t : Transaction} (h : t.rowOfTable .indirectRead = true) :
    (t.data = .status ∨ t.data = .caller) ∧ t.dataLength = 1 := by
  obtain ⟨cmd, ad, dc, d, n⟩ := t
  cases cmd <;> cases ad <;> cases d <;>
    first
      | exact ⟨.inl rfl, of_decide_eq_true h⟩
      | exact ⟨.inr rfl, of_decide_eq_true h⟩
      | exact absurd h Bool.false_ne_true

/-- The one memory-mapped row of the table has no data (R129). -/
theorem rowOfTable_mapped {t : Transaction} (h : t.rowOfTable .memoryMapped = true) : t.data = .absent := by
  obtain ⟨cmd, ad, dc, d, n⟩ := t
  cases cmd <;> cases ad <;> cases d <;>
    first
      | rfl
      | exact absurd h Bool.false_ne_true

end Sys2Proof.Machine
end

