-- ==== Sys2Proof/Laws/Pace.lean ====
section
/-! SUPPORT. The pace of the machine changes nothing but the number of gets of `CR.BUSY` that read 1: two states that
differ in how many lines SEQ takes at a stretch, in the moments CTRL takes its steps and in those gets go on to two such
states, line by line, and come to the same end (R12, R105, R181, R185, R361). -/

namespace Sys2Proof.Machine

open Sys2Proof

/-! ### Blind operations -/

/-- The state with another stretch, another list of CTRL's moments and another log. -/
def State.swap (k : Nat) (l : List Bool) (L : List Event) (s : State) : State :=
  { s with log := L, env := { s.env with slice := k, lift := l } }

@[simp] theorem State.swap_cfg (k : Nat) (l : List Bool) (L : List Event) (s : State) : (s.swap k l L).cfg = s.cfg := rfl
@[simp] theorem State.swap_fm (k : Nat) (l : List Bool) (L : List Event) (s : State) : (s.swap k l L).fm = s.fm := rfl
@[simp] theorem State.swap_tr (k : Nat) (l : List Bool) (L : List Event) (s : State) : (s.swap k l L).tr = s.tr := rfl
@[simp] theorem State.swap_seq (k : Nat) (l : List Bool) (L : List Event) (s : State) : (s.swap k l L).seq = s.seq := rfl
@[simp] theorem State.swap_cr (k : Nat) (l : List Bool) (L : List Event) (s : State) : (s.swap k l L).cr = s.cr := rfl
@[simp] theorem State.swap_ctrl (k : Nat) (l : List Bool) (L : List Event) (s : State) : (s.swap k l L).ctrl = s.ctrl := rfl
@[simp] theorem State.swap_flash (k : Nat) (l : List Bool) (L : List Event) (s : State) : (s.swap k l L).flash = s.flash := rfl
@[simp] theorem State.swap_host (k : Nat) (l : List Bool) (L : List Event) (s : State) : (s.swap k l L).host = s.host := rfl
@[simp] theorem State.swap_held (k : Nat) (l : List Bool) (L : List Event) (s : State) : (s.swap k l L).held = s.held := rfl
@[simp] theorem State.swap_lift (k : Nat) (l : List Bool) (L : List Event) (s : State) : (s.swap k l L).env.lift = l := rfl
@[simp] theorem State.swap_log (k : Nat) (l : List Bool) (L : List Event) (s : State) : (s.swap k l L).log = L := rfl
theorem State.swap_self (s : State) : s.swap s.env.slice s.env.lift s.log = s := rfl

/-- `F` at `s` looks neither at the pace nor at the log, to which it adds events. -/
def Blind (F : State → State) (s : State) : Prop :=
  (F s).env.lift = s.env.lift ∧ (F s).env.slice = s.env.slice ∧
    ∃ p, (F s).log = p ++ s.log ∧ ∀ k l L, F (s.swap k l L) = (F s).swap k l (p ++ L)

theorem Blind.comp {F G : State → State} {s : State} (hF : Blind F s) (hG : Blind G (F s)) : Blind (fun x => G (F x)) s := by
  obtain ⟨f1, f2, p, f3, f4⟩ := hF
  obtain ⟨g1, g2, q, g3, g4⟩ := hG
  refine ⟨g1.trans f1, g2.trans f2, q ++ p, by rw [g3, f3, List.append_assoc], fun k l L => ?_⟩
  show G (F (s.swap k l L)) = _
  rw [f4, g4, List.append_assoc]

/-- An update that leaves the pace and the log alone. -/
theorem Blind.of_rfl {F : State → State} {s : State} (h1 : (F s).env.lift = s.env.lift)
    (h2 : (F s).env.slice = s.env.slice) (h3 : (F s).log = s.log) (h4 : ∀ k l L, F (s.swap k l L) = (F s).swap k l L) :
    Blind F s := ⟨h1, h2, [], h3, h4⟩

/-- An operation that is another one at `s`, whatever the pace and the log. -/
theorem Blind.congr {F G : State → State} {s : State} (hG : Blind G s) (h : ∀ k l L, F (s.swap k l L) = G (s.swap k l L)) :
    Blind F s := by
  have h0 : F s = G s := h s.env.slice s.env.lift s.log
  obtain ⟨h1, h2, p, h3, h4⟩ := hG
  exact ⟨by rw [h0]; exact h1, by rw [h0]; exact h2, p, by rw [h0]; exact h3, fun k l L => by rw [h, h0]; exact h4 k l L⟩

theorem chipSettle_swap (s : State) (k : Nat) (l : List Bool) (L : List Event) : (s.swap k l L).chipSettle = s.chipSettle.swap k l L := by
  by_cases hw : s.flash.wip = true
  · cases hd : s.env.done with
    | nil =>
      by_cases hp : s.flash.pending = .unknown <;> by_cases hv : Config.freeDone s.env.n = true <;>
        simp [State.chipSettle, State.swap, hw, State.drawDone, drawFrom, hd, hv, State.chipComplete, hp, State.arrayUnknown]
    | cons b rest =>
      by_cases hp : s.flash.pending = .unknown <;> cases b <;>
        simp [State.chipSettle, State.swap, hw, State.drawDone, drawFrom, hd, State.chipComplete, hp, State.arrayUnknown]
  · simp [State.chipSettle, State.swap, hw]

theorem chipUnspecified_swap (f : Frame) (s : State) (k : Nat) (l : List Bool) (L : List Event) :
    (s.swap k l L).chipUnspecified f = ((s.chipUnspecified f).1, (s.chipUnspecified f).2.swap k l L) := by
  unfold State.chipUnspecified
  cases f.dir <;> rfl

theorem chipStart_swap (p : Pending) (s : State) (k : Nat) (l : List Bool) (L : List Event) :
    (s.swap k l L).chipStart p = (s.chipStart p).swap k l L := by
  unfold State.chipStart
  by_cases h : s.flash.wel = true <;> simp [State.swap, h]

theorem chipExecute_swap (f : Frame) (s : State) (k : Nat) (l : List Bool) (L : List Event) :
    (s.swap k l L).chipExecute f = ((s.chipExecute f).1, (s.chipExecute f).2.swap k l L) := by
  have hu := chipUnspecified_swap f s k l L
  have hs := fun p => chipStart_swap p s k l L
  unfold State.chipExecute
  simp only [State.swap_cfg, State.swap_flash]
  cases s.cfg.commandOfOpcode f.opcode with
  | none => exact hu
  | some cmd =>
    cases f.dir with
    | read => cases cmd <;> first | rfl | exact hu
    | write =>
      cases cmd with
      | readStatusRegister => exact hu
      | writeEnable => rfl
      | chipErase => simp only [hs]
      | readData => exact hu
      | enableQPI =>
        cases s.flash.framing with
        | single => rfl
        | quad => exact hu
      | sectorErase =>
        cases f.addr with
        | none => exact hu
        | some a =>
          by_cases ha : a < s.cfg.flashSize
          · simp only [ha, if_true, hs]
          · simp only [ha, if_false]; exact hu
      | pageProgram =>
        cases f.addr with
        | none => exact hu
        | some a =>
          by_cases ha : a < s.cfg.flashSize
          · simp only [ha, if_true, hs]
          · simp only [ha, if_false]; exact hu

theorem chipReceive_swap (f : Frame) (s : State) (k : Nat) (l : List Bool) (L : List Event) :
    (s.swap k l L).chipReceive f = ((s.chipReceive f).1, (s.chipReceive f).2.swap k l L) := by
  unfold State.chipReceive
  rw [chipSettle_swap]
  generalize s.chipSettle = u
  have hi : (u.swap k l L).isStatusRead f = u.isStatusRead f := rfl
  dsimp only
  rw [State.swap_flash, hi]
  cases (!(u.flash.framing.understands f.iw f.aw f.dw)) with
  | true => exact chipUnspecified_swap f u k l L
  | false =>
    cases (u.flash.wip && !(u.isStatusRead f)) with
    | true => exact chipUnspecified_swap f u k l L
    | false => exact chipExecute_swap f u k l L

theorem Blind.deliver (s : State) : Blind State.deliver s := by
  cases hi : s.ctrl.inflight with
  | none =>
    refine Blind.of_rfl ?_ ?_ ?_ (fun k l L => ?_) <;> simp [State.deliver, hi, State.swap]
  | some fl =>
    obtain ⟨⟨iw, op, aw, ab, ad, du, dw, dir, len, da⟩, del⟩ := fl
    cases dir with
    | write =>
      have key : ∀ u : State, u.ctrl = s.ctrl → u.deliver =
          { (u.chipReceive ⟨iw, op, aw, ab, ad, du, dw, .write, len, s.ctrl.fifo.take len⟩).2 with
            ctrl := { (u.chipReceive ⟨iw, op, aw, ab, ad, du, dw, .write, len, s.ctrl.fifo.take len⟩).2.ctrl with
                      fifo := s.ctrl.fifo.drop len
                      inflight := some { frame := ⟨iw, op, aw, ab, ad, du, dw, .write, len, s.ctrl.fifo.take len⟩, delivered := true } }
            log := .frame ⟨iw, op, aw, ab, ad, du, dw, .write, len, s.ctrl.fifo.take len⟩
              :: (u.chipReceive ⟨iw, op, aw, ab, ad, du, dw, .write, len, s.ctrl.fifo.take len⟩).2.log } := by
        intro u hu
        unfold State.deliver
        rw [hu, hi]
      generalize (⟨iw, op, aw, ab, ad, du, dw, .write, len, s.ctrl.fifo.take len⟩ : Frame) = f at key
      have hr := State.chipReceive_only f s
      refine ⟨by rw [key s rfl]; exact hr.lift, by rw [key s rfl]; exact hr.slice, [.frame f],
        by rw [key s rfl]; simp [hr.log], fun k l L => ?_⟩
      rw [key (s.swap k l L) rfl, key s rfl, chipReceive_swap f s k l L]
      rfl
    | read =>
      have key : ∀ u : State, u.ctrl = s.ctrl → u.deliver =
          { (u.chipReceive ⟨iw, op, aw, ab, ad, du, dw, .read, len, da⟩).2 with
            ctrl := { (u.chipReceive ⟨iw, op, aw, ab, ad, du, dw, .read, len, da⟩).2.ctrl with
                      fifo := s.ctrl.fifo ++ (u.chipReceive ⟨iw, op, aw, ab, ad, du, dw, .read, len, da⟩).1
                      inflight := some { frame := ⟨iw, op, aw, ab, ad, du, dw, .read, len,
                                           (u.chipReceive ⟨iw, op, aw, ab, ad, du, dw, .read, len, da⟩).1⟩, delivered := true } }
            log := .frame ⟨iw, op, aw, ab, ad, du, dw, .read, len, (u.chipReceive ⟨iw, op, aw, ab, ad, du, dw, .read, len, da⟩).1⟩
              :: (u.chipReceive ⟨iw, op, aw, ab, ad, du, dw, .read, len, da⟩).2.log } := by
        intro u hu
        unfold State.deliver
        rw [hu, hi]
      generalize (⟨iw, op, aw, ab, ad, du, dw, .read, len, da⟩ : Frame) = f at key
      have hr := State.chipReceive_only f s
      refine ⟨by rw [key s rfl]; exact hr.lift, by rw [key s rfl]; exact hr.slice, [.frame ⟨iw, op, aw, ab, ad, du, dw, .read, len, (s.chipReceive f).1⟩],
        by rw [key s rfl]; simp [hr.log], fun k l L => ?_⟩
      rw [key (s.swap k l L) rfl, key s rfl, chipReceive_swap f s k l L]
      rfl

theorem Blind.clearBusy (s : State) : Blind State.clearBusy s := Blind.of_rfl rfl rfl rfl (fun _ _ _ => rfl)

theorem Blind.controllerStep (s : State) : Blind State.controllerStep s := by
  cases h : s.undelivered with
  | true =>
    exact (Blind.deliver s).congr (fun k l L => by
      unfold State.controllerStep; rw [show (s.swap k l L).undelivered = s.undelivered from rfl, h]; rfl)
  | false =>
    exact (Blind.clearBusy s).congr (fun k l L => by
      unfold State.controllerStep; rw [show (s.swap k l L).undelivered = s.undelivered from rfl, h]; rfl)

/-! ### Two states at different paces -/

theorem State.Paced.refl (s : State) : s.Paced s := ⟨rfl, .refl _, rfl⟩

theorem State.Paced.swap {s t : State} (h : s.Paced t) : t = s.swap t.env.slice t.env.lift t.log := h.same

theorem State.Paced.cfg {s t : State} (h : s.Paced t) : t.cfg = s.cfg := by rw [h.swap]; rfl
theorem State.Paced.seq {s t : State} (h : s.Paced t) : t.seq = s.seq := by rw [h.swap]; rfl
theorem State.Paced.ctrl {s t : State} (h : s.Paced t) : t.ctrl = s.ctrl := by rw [h.swap]; rfl
theorem State.Paced.host {s t : State} (h : s.Paced t) : t.host = s.host := by rw [h.swap]; rfl
theorem State.Paced.held {s t : State} (h : s.Paced t) : t.held = s.held := by rw [h.swap]; rfl
theorem State.Paced.busy {s t : State} (h : s.Paced t) : t.busy = s.busy := by rw [h.swap]; rfl
theorem State.Paced.readsWindow {s t : State} (h : s.Paced t) : t.readsWindow = s.readsWindow := by rw [h.swap]; rfl

theorem State.Paced.coherent {s t : State} (h : s.Paced t) (hc : s.coherent) : t.coherent := by
  rw [h.swap]; exact hc

/-- A blind operation keeps two such states in step. -/
theorem State.Paced.map {s t : State} {F : State → State} (h : s.Paced t) (hF : Blind F s) : (F s).Paced (F t) := by
  obtain ⟨h1, -, p, h2, h3⟩ := hF
  have e := h3 t.env.slice t.env.lift t.log
  rw [← h.swap] at e
  refine ⟨by rw [e]; rfl, by rw [e, h1]; exact h.lift, by rw [e, h2]; simp [List.filter_append, h.log]⟩

theorem State.Paced.map_lift {s t : State} {F : State → State} (h : s.Paced t) (hF : Blind F s) :
    (F t).env.lift = t.env.lift := by
  obtain ⟨-, -, p, -, h3⟩ := hF
  have e := h3 t.env.slice t.env.lift t.log
  rw [← h.swap] at e
  rw [e]; rfl

/-- CTRL takes the step in both states, or only later in the second (R105, R185). -/
theorem State.Paced.drawLift {s t : State} (h : s.Paced t) (hd : s.drawLift.1 = true) :
    (t.drawLift.1 = true ∧ s.drawLift.2.Paced t.drawLift.2
        ∧ t.drawLift.2.env.lift.length ≤ t.env.lift.length)
      ∨ (t.drawLift.1 = false ∧ s.Paced t.drawLift.2 ∧ t.drawLift.2.env.lift.length < t.env.lift.length) := by
  obtain ⟨k, l, L, rfl⟩ : ∃ k l L, t = s.swap k l L := ⟨_, _, _, h.swap⟩
  have hl := h.lift
  have hg := h.log
  generalize hs : s.env.lift = ls at hl
  have hgoal : s.drawLift = (( drawFrom ls Config.freeLift s.env.n).1,
      { s with env := { s.env with lift := (drawFrom ls Config.freeLift s.env.n).2.1,
                                   n := (drawFrom ls Config.freeLift s.env.n).2.2 } }) := by
    simp only [State.drawLift, hs]
  cases hl with
  | refl =>
    refine Or.inl ⟨?_, ?_, ?_⟩
    · rw [← hd, hgoal]; rfl
    · rw [hgoal]; exact ⟨rfl, .refl _, hg⟩
    · show (drawFrom l Config.freeLift s.env.n).2.1.length ≤ l.length
      cases l <;> simp [drawFrom]
  | late hl' =>
    exact Or.inr ⟨rfl, ⟨rfl, by rw [hs]; exact hl', hg⟩, by simp [State.drawLift, drawFrom, State.swap]⟩
  | step hl' =>
    refine Or.inl ⟨?_, ?_, ?_⟩
    · rw [← hd, hgoal]; rfl
    · rw [hgoal]; exact ⟨rfl, hl', hg⟩
    · simp [State.drawLift, drawFrom, State.swap]

/-! ### The wait -/

theorem Blind.setPhase (p : ApplyPhase) (s : State) : Blind (State.setPhase p) s := Blind.of_rfl rfl rfl rfl (fun _ _ _ => rfl)

theorem Blind.fifoPush (i : Nat) (b : Byte) (s : State) : Blind (State.fifoPush i b) s :=
  ⟨rfl, rfl, [.push b], rfl, fun _ _ _ => rfl⟩

theorem Blind.fifoPop (i : Nat) (b : Byte) (rest : List Byte) (s : State) : Blind (State.fifoPop i b rest) s :=
  ⟨rfl, rfl, [.pop b], rfl, fun _ _ _ => rfl⟩

theorem Blind.emit (e : Event) (s : State) : Blind (State.emit e) s := ⟨rfl, rfl, [e], rfl, fun _ _ _ => rfl⟩

theorem State.controllerStep_phase (s : State) : s.controllerStep.seq.phase = s.seq.phase := by
  unfold State.controllerStep
  split
  · exact State.deliver_phase s
  · rfl

/-- The wait for the end of an indirect transaction (R105, R181). -/
theorem State.waitOnce_awaiting {s : State} (hp : s.seq.phase = .await) (hm : s.cr.fmode ≠ 3) :
    s.waitOnce =
      (if (if s.drawLift.1 then s.drawLift.2.controllerStep else s.drawLift.2).cr.busy then
        (s.drawLift.1, (if s.drawLift.1 then s.drawLift.2.controllerStep else s.drawLift.2).emit (.getBusy true))
      else (true, ((if s.drawLift.1 then s.drawLift.2.controllerStep else s.drawLift.2).emit (.getBusy false)).setPhase .idle)) := by
  have h2 : (if s.drawLift.1 then s.drawLift.2.controllerStep else s.drawLift.2).cr.fmode ≠ 3 := by
    split
    · rw [(State.controllerStep_only _).crFmode]; exact hm
    · exact hm
  unfold State.waitOnce
  rw [hp]
  dsimp only
  generalize (if s.drawLift.1 then s.drawLift.2.controllerStep else s.drawLift.2) = u at h2 ⊢
  rw [State.getBusy_indirect h2]
  dsimp only
  cases u.cr.busy <;> rfl

/-- A wait that is not lifted leaves `apply` where it stands. -/
theorem State.waitOnce_stuck {s : State} (hm : s.cr.fmode ≠ 3) (hp : s.seq.phase ≠ .idle) (h : s.waitOnce.1 = false) :
    s.waitOnce.2.seq.phase ≠ .idle := by
  by_cases h0 : s.seq.phase = .await
  · have hu : (if s.drawLift.1 then s.drawLift.2.controllerStep else s.drawLift.2).seq.phase = .await := by
      split
      · rw [State.controllerStep_phase]; exact h0
      · exact h0
    rw [State.waitOnce_awaiting h0 hm] at h ⊢
    generalize (if s.drawLift.1 then s.drawLift.2.controllerStep else s.drawLift.2) = u at h hu ⊢
    cases hb : u.cr.busy with
    | true => rw [if_pos rfl]; show u.seq.phase ≠ .idle; rw [hu]; simp
    | false => rw [hb] at h; cases h
  · revert h
    unfold State.waitOnce
    split
    next h1 => exact absurd h1 hp
    next i h1 =>
      split
      · intro _; exact hp
      · dsimp only; split <;> simp [h1]
    next i h1 =>
      split
      · simp
      · dsimp only
        split
        · simp
        · intro _; simp [h1]
    next h1 => exact absurd h1 h0

/-- One step of the wait, at the two paces. -/
theorem State.Paced.waitOnce {s t : State} (h : s.Paced t) (hc : s.coherent) (hp : s.seq.phase ≠ .idle)
    (ho : s.waitOnce.1 = true) :
    (t.waitOnce.1 = true ∧ s.waitOnce.2.Paced t.waitOnce.2 ∧ t.waitOnce.2.env.lift.length ≤ t.env.lift.length)
      ∨ (t.waitOnce.1 = false ∧ s.Paced t.waitOnce.2 ∧ t.waitOnce.2.env.lift.length < t.env.lift.length) := by
  have hseq := h.seq
  have hcoh := h.coherent hc
  have hm := State.coherent_fmode hc hp
  have hmt := State.coherent_fmode hcoh (by rw [hseq]; exact hp)
  cases hph : s.seq.phase with
  | idle => exact absurd hph hp
  | push i =>
    have hpt : t.seq.phase = .push i := by rw [hseq]; exact hph
    have hbt : t.tr.data.byte t i = s.tr.data.byte s i := by rw [h.swap]; rfl
    cases hb : s.tr.data.byte s i with
    | none => simp [State.waitOnce, hph, hb] at ho
    | some b =>
      rw [hb] at hbt
      simp only [State.waitOnce, hph, hb, hpt, hbt] at ho ⊢
      cases hd : s.drawLift.1 with
      | false => rw [hd] at ho; simp at ho
      | true =>
        rcases h.drawLift hd with ⟨h1, h2, h3⟩ | ⟨h1, h2, h3⟩
        · rw [h1]
          exact Or.inl ⟨rfl, h2.map (Blind.fifoPush i b _), h3⟩
        · rw [h1]
          exact Or.inr ⟨rfl, h2, h3⟩
  | pop i =>
    have hpt : t.seq.phase = .pop i := by rw [hseq]; exact hph
    have hft : t.ctrl.fifo = s.ctrl.fifo := by rw [h.ctrl]
    cases hf : s.ctrl.fifo with
    | cons b rest =>
      rw [hf] at hft
      simp only [State.waitOnce, hph, hf, hpt, hft]
      exact Or.inl ⟨trivial, h.map (Blind.fifoPop i b rest _), le_rfl⟩
    | nil =>
      rw [hf] at hft
      simp only [State.waitOnce, hph, hf, hpt, hft] at ho ⊢
      cases hd : s.drawLift.1 with
      | false => rw [hd] at ho; simp at ho
      | true =>
        cases hu : s.drawLift.2.undelivered with
        | false => rw [hd, hu] at ho; simp at ho
        | true =>
          rcases h.drawLift hd with ⟨h1, h2, h3⟩ | ⟨h1, h2, h3⟩
          · have hut : t.drawLift.2.undelivered = true := by
              rw [← hu]; unfold State.undelivered; rw [h2.ctrl]
            rw [h1, hut]
            refine Or.inl ⟨rfl, h2.map (Blind.deliver _), ?_⟩
            rw [if_pos (by rfl)]
            dsimp only
            rw [h2.map_lift (Blind.deliver _)]; exact h3
          · rw [h1]
            exact Or.inr ⟨rfl, h2, h3⟩
  | await =>
    have hpt : t.seq.phase = .await := by rw [hseq]; exact hph
    obtain ⟨hmo, hwm, ht, hfw⟩ := (State.coherent_iff s).mp hc
    obtain ⟨fl, -, hbusy, -⟩ := State.transferAgrees_await ht hph
    rw [State.waitOnce_awaiting hph hm] at ho ⊢
    rw [State.waitOnce_awaiting hpt hmt]
    cases hd : s.drawLift.1 with
    | false => rw [hd] at ho; simp [hbusy] at ho
    | true =>
      simp only [if_true]
      rcases h.drawLift hd with ⟨h1, h2, h3⟩ | ⟨h1, h2, h3⟩
      · rw [h1]
        simp only [if_true]
        have h4 := h2.map (Blind.controllerStep _)
        have h5 := h2.map_lift (Blind.controllerStep _)
        have h6 : t.drawLift.2.controllerStep.cr = s.drawLift.2.controllerStep.cr := by rw [h4.swap]; rfl
        rw [h6]
        cases s.drawLift.2.controllerStep.cr.busy with
        | true => exact Or.inl ⟨rfl, h4.map (Blind.emit _ _), by show (t.drawLift.2.controllerStep).env.lift.length ≤ _; rw [h5]; exact h3⟩
        | false =>
          exact Or.inl ⟨rfl, (h4.map (Blind.emit _ _)).map (Blind.setPhase _ _),
            by show (t.drawLift.2.controllerStep).env.lift.length ≤ _; rw [h5]; exact h3⟩
      · rw [h1]
        have h6 : t.drawLift.2.cr.busy = true := by rw [h2.swap]; exact hbusy
        simp only [Bool.false_eq_true, if_false, h6, if_true]
        refine Or.inr ⟨trivial, ⟨?_, h2.lift, ?_⟩, h3⟩
        · conv_lhs => rw [h2.swap]
          rfl
        · exact h2.log


/-- With more fuel the wait of a call that returns ends in the same state. -/
theorem State.waitMany_fuel {k j : Nat} {s : State} (hk : k ≤ j) (hi : (s.waitMany k).seq.phase = .idle) :
    s.waitMany j = s.waitMany k := by
  induction k generalizing j s with
  | zero => exact State.waitMany_idle hi
  | succ k ih =>
    obtain ⟨j, rfl⟩ : ∃ i, j = i + 1 := ⟨j - 1, by omega⟩
    by_cases hp : s.seq.phase = .idle
    · rw [State.waitMany_idle hp, State.waitMany_idle hp]
    · rw [State.waitMany_step hp] at hi ⊢
      rw [State.waitMany_step hp]
      cases ho : s.waitOnce.1 with
      | true => rw [ho, if_pos rfl] at hi; simp only [if_true]; exact ih (by omega) hi
      | false => rfl

/-- A call of `apply` that stands still at `v`, at a pace at which it has not returned; from the place `u` it would have
gone on to `w`. -/
structure Lagging (u v w : State) : Prop where
  paced    : u.Paced v
  conf     : u.cfg.wf = true
  coherent : u.coherent
  phase    : u.seq.phase ≠ .idle
  resumes  : u.resumeCall = w

/-- The wait, at the two paces. -/
theorem State.Paced.waitMany {k : Nat} {s t : State} (h : s.Paced t) (hcw : s.cfg.wf = true) (hc : s.coherent)
    (hi : (s.waitMany k).seq.phase = .idle) :
    ((s.waitMany k).Paced (t.waitMany k) ∧ (t.waitMany k).env.lift.length ≤ t.env.lift.length)
      ∨ ∃ u, u.Paced (t.waitMany k) ∧ (t.waitMany k).env.lift.length < t.env.lift.length ∧ WaitOnly s u ∧ u.coherent
          ∧ u.seq.phase ≠ .idle ∧ ∀ j, k ≤ j → u.waitMany j = s.waitMany k := by
  induction k generalizing s t with
  | zero => exact Or.inl ⟨h, le_rfl⟩
  | succ k ih =>
    by_cases hp : s.seq.phase = .idle
    · rw [State.waitMany_idle hp, State.waitMany_idle (by rw [h.seq]; exact hp)]
      exact Or.inl ⟨h, le_rfl⟩
    · have hpt : t.seq.phase ≠ .idle := by rw [h.seq]; exact hp
      have hm := State.coherent_fmode hc hp
      rw [State.waitMany_step hp] at hi
      rw [State.waitMany_step hp, State.waitMany_step hpt]
      cases ho : s.waitOnce.1 with
      | false => rw [ho, if_neg (by simp)] at hi; exact absurd hi (State.waitOnce_stuck hm hp ho)
      | true =>
        rw [ho, if_pos rfl] at hi
        simp only [if_true]
        have hon := s.waitOnce_only
        rcases h.waitOnce hc hp ho with ⟨h1, h2, h3⟩ | ⟨h1, h2, h3⟩
        · rw [h1]
          simp only [if_true]
          rcases ih h2 (by rw [hon.cfg]; exact hcw) (State.waitOnce_coherent hcw hc) hi with
            ⟨h4, h5⟩ | ⟨u, h4, h5, h6, h7, h8, h9⟩
          · exact Or.inl ⟨h4, h5.trans h3⟩
          · exact Or.inr ⟨u, h4, by omega, hon.trans h6, h7, h8, fun j hj => h9 j (by omega)⟩
        · rw [h1]
          simp only [Bool.false_eq_true, if_false]
          refine Or.inr ⟨s, h2, h3, WaitOnly.refl s, hc, hp, fun j hj => ?_⟩
          obtain ⟨j, rfl⟩ : ∃ i, j = i + 1 := ⟨j - 1, by omega⟩
          rw [State.waitMany_step hp, ho, if_pos rfl]
          exact State.waitMany_fuel (by omega) hi

theorem State.Paced.finishApply {s t : State} (h : s.Paced t) (hcw : s.cfg.wf = true) (hc : s.coherent)
    (hi : s.finishApply.seq.phase = .idle) :
    (s.finishApply.Paced t.finishApply ∧ t.finishApply.env.lift.length ≤ t.env.lift.length)
      ∨ ∃ u, u.Paced t.finishApply ∧ t.finishApply.env.lift.length < t.env.lift.length ∧ WaitOnly s u ∧ u.coherent
          ∧ u.seq.phase ≠ .idle ∧ u.finishApply = s.finishApply := by
  have htr : t.tr = s.tr := by rw [h.swap]; rfl
  unfold State.finishApply at hi ⊢
  rw [htr]
  rcases h.waitMany hcw hc hi with h1 | ⟨u, h1, h2, h3, h4, h5, h6⟩
  · exact Or.inl h1
  · exact Or.inr ⟨u, h1, h2, h3, h4, h5, by rw [h3.tr]; exact h6 _ le_rfl⟩

/-! ### `apply` -/

theorem Blind.configure (t : Transaction) (fm : FunctionalMode) (om : OperatingMode) (s : State) (hfm : fm ≠ .uninitialized) :
    Blind (State.configure t fm om) s := by
  obtain ⟨k, hk⟩ : ∃ k, fmodeCode fm = some k := by cases fm <;> first | exact absurd rfl hfm | exact ⟨_, rfl⟩
  refine ⟨by rw [State.configure_eq hk], by rw [State.configure_eq hk], configuredLog s.cfg t fm om k,
    by rw [State.configure_eq hk], fun a l L => ?_⟩
  rw [State.configure_eq hk, State.configure_eq hk]
  rfl

theorem Blind.launch (fm : FunctionalMode) (s : State) : Blind (State.launch fm) s := by
  cases fm with
  | uninitialized => exact Blind.of_rfl rfl rfl rfl (fun _ _ _ => rfl)
  | indirectWrite => exact ⟨rfl, rfl, [.launch], rfl, fun _ _ _ => rfl⟩
  | indirectRead => exact ⟨rfl, rfl, [.launch], rfl, fun _ _ _ => rfl⟩
  | memoryMapped => exact ⟨rfl, rfl, [.launch], rfl, fun _ _ _ => rfl⟩

/-- `apply`, at the two paces. -/
theorem State.Paced.apply {s t : State} (h : s.Paced t) (tr : Transaction) (fm : FunctionalMode) (om : OperatingMode)
    (hfm : fm ≠ .uninitialized) (hcw : s.cfg.wf = true) (hp : s.seq.phase = .idle) (hc : s.coherent)
    (hi : (s.apply tr fm om).seq.phase = .idle) :
    ((s.apply tr fm om).Paced (t.apply tr fm om) ∧ (t.apply tr fm om).env.lift.length ≤ t.env.lift.length)
      ∨ ∃ u, u.Paced (t.apply tr fm om) ∧ (t.apply tr fm om).env.lift.length < t.env.lift.length ∧ BuilderOnly s u
          ∧ u.coherent ∧ u.seq.phase ≠ .idle ∧ u.finishApply = s.apply tr fm om := by
  have hb : Blind (fun x => (x.configure tr fm om).launch fm) s := (Blind.configure tr fm om s hfm).comp (Blind.launch fm _)
  have h1 := h.map hb
  have h2 : ((t.configure tr fm om).launch fm).env.lift = t.env.lift := h.map_lift hb
  have hon := s.launched_only tr fm om hfm
  rcases h1.finishApply (by rw [hon.cfg]; exact hcw) (State.launched_coherent hfm hp hc) hi with
    ⟨h3, h4⟩ | ⟨u, h3, h4, h5, h6, h7, h8⟩
  · exact Or.inl ⟨h3, by rw [h2] at h4; exact h4⟩
  · exact Or.inr ⟨u, h3, by rw [h2] at h4; exact h4, hon.trans h5.builder, h6, h7, h8⟩

/-! ### The poll -/

theorem Blind.countPoll (s : State) : Blind State.countPoll s := by
  refine Blind.of_rfl ?_ ?_ ?_ (fun k l L => ?_)
  · rw [State.countPoll_eq]; split <;> rfl
  · rw [State.countPoll_eq]; split <;> rfl
  · rw [State.countPoll_eq]; split <;> rfl
  · rw [State.countPoll_eq, State.countPoll_eq, State.swap_cfg, State.swap_seq]
    split <;> rfl

theorem Blind.endWait (r : Result) (s : State) : Blind (State.endWait r) s := Blind.of_rfl rfl rfl rfl (fun _ _ _ => rfl)

/-- With more fuel the loop of a poll that returns ends in the same state. -/
theorem State.waitLoop_fuel {k j : Nat} {s : State} (hk : k ≤ j) (hi : (s.waitLoop k).seq.waiting = none) :
    s.waitLoop j = s.waitLoop k := by
  induction k generalizing j s with
  | zero => exact State.waitLoop_done hi
  | succ k ih =>
    obtain ⟨j, rfl⟩ : ∃ i, j = i + 1 := ⟨j - 1, by omega⟩
    cases hw : s.seq.waiting with
    | none => rw [State.waitLoop_done hw, State.waitLoop_done hw]
    | some max =>
      by_cases hlt : s.seq.attempts.toNat < max.toNat
      · by_cases hp : s.readStatus.seq.phase = .idle
        · rw [State.waitLoop_step hw hlt hp] at hi ⊢
          rw [State.waitLoop_step hw hlt hp]
          exact ih (by omega) hi
        · unfold State.waitLoop
          simp only [hw, if_neg hp]
      · rw [State.waitLoop_over hw hlt, State.waitLoop_over hw hlt]

theorem State.countPoll_waiting {s : State} : s.countPoll.seq.waiting = none ∨ s.countPoll.seq.waiting = s.seq.waiting := by
  rw [State.countPoll_eq]
  split
  · exact Or.inr rfl
  · exact Or.inl rfl

/-- The loop of a poll, at the two paces. -/
theorem State.Paced.waitLoop {k : Nat} {s t : State} (h : s.Paced t) (hcw : s.cfg.wf = true) (hc : s.coherent)
    (hp : s.seq.phase = .idle) (hk : ∀ max, s.seq.waiting = some max → k ≤ max.toNat + 1)
    (hi : (s.waitLoop k).held = false) :
    ((s.waitLoop k).Paced (t.waitLoop k) ∧ (t.waitLoop k).env.lift.length ≤ t.env.lift.length)
      ∨ ∃ u, Lagging u (t.waitLoop k) (s.waitLoop k) ∧ (t.waitLoop k).env.lift.length < t.env.lift.length := by
  induction k generalizing s t with
  | zero => exact Or.inl ⟨h, le_rfl⟩
  | succ k ih =>
    have hseq := h.seq
    cases hw : s.seq.waiting with
    | none =>
      rw [State.waitLoop_done hw, State.waitLoop_done (by rw [hseq]; exact hw)]
      exact Or.inl ⟨h, le_rfl⟩
    | some max =>
      have hwt : t.seq.waiting = some max := by rw [hseq]; exact hw
      by_cases hlt : s.seq.attempts.toNat < max.toNat
      · have hltt : t.seq.attempts.toNat < max.toNat := by rw [hseq]; exact hlt
        by_cases hpr : s.readStatus.seq.phase = .idle
        · rw [State.waitLoop_step hw hlt hpr] at hi
          have hb := s.readStatus_only
          have hconf : s.readStatus.countPoll.cfg.wf = true := by rw [State.countPoll_cfg, hb.cfg]; exact hcw
          have hcoh : s.readStatus.coherent := State.apply_coherent hcw (by simp) hp hc
          have hcfg : t.readStatus = t.apply Transaction.readStatus .indirectRead s.cfg.omDefault := by
            unfold State.readStatus; rw [h.cfg]
          rcases h.apply Transaction.readStatus .indirectRead s.cfg.omDefault (by simp) hcw hp hc hpr with
            ⟨h1, h2⟩ | ⟨u, h1, h2, h3, h4, h5, h6⟩
          · rw [← hcfg] at h1 h2
            have hprt : t.readStatus.seq.phase = .idle := by rw [h1.seq]; exact hpr
            have h7 := h1.map (Blind.countPoll _)
            have h8 := h1.map_lift (Blind.countPoll _)
            rw [State.waitLoop_step hw hlt hpr, State.waitLoop_step hwt hltt hprt]
            have hk2 : ∀ m, s.readStatus.countPoll.seq.waiting = some m → k ≤ m.toNat + 1 := by
              intro m hm
              rcases State.countPoll_waiting (s := s.readStatus) with h11 | h11
              · rw [h11] at hm; cases hm
              · have := hk m (by rw [← hb.seqWaiting, ← h11]; exact hm)
                omega
            rcases ih h7 hconf (State.countPoll_coherent hcoh) (by rw [State.countPoll_phase]; exact hpr) hk2 hi with
              ⟨h9, h10⟩ | ⟨u, h9, h10⟩
            · exact Or.inl ⟨h9, by rw [h8] at h10; exact h10.trans h2⟩
            · exact Or.inr ⟨u, h9, by rw [h8] at h10; exact lt_of_lt_of_le h10 h2⟩
          · rw [← hcfg] at h1 h2
            have hprt : ¬ t.readStatus.seq.phase = .idle := by rw [h1.seq]; exact h5
            have e1 : t.waitLoop (k + 1) = t.readStatus := by
              conv_lhs => unfold State.waitLoop
              simp only [hwt]
              rw [if_pos (by rw [BitVec.lt_def]; exact hltt), if_neg hprt]
            rw [e1, State.waitLoop_step hw hlt hpr]
            refine Or.inr ⟨u, ⟨h1, by rw [h3.cfg]; exact hcw, h4, h5, ?_⟩, h2⟩
            have hfin : u.finishApply = s.readStatus := h6
            unfold State.resumeCall
            rw [hfin, h3.seqWaiting, hw]
            dsimp only
            rw [if_neg (by simp [hpr]), if_neg h5]
            exact State.waitLoop_fuel (by have := hk max hw; omega) (State.held_false hi).2
        · exfalso
          revert hi
          unfold State.waitLoop
          simp only [hw]
          rw [if_pos (by rw [BitVec.lt_def]; exact hlt), if_neg hpr]
          simp [State.held, hpr]
      · rw [State.waitLoop_over hw hlt, State.waitLoop_over hwt (by rw [hseq]; exact hlt)]
        exact Or.inl ⟨h.map (Blind.endWait _ _), le_rfl⟩

theorem Blind.startWait (max : Word32) (s : State) :
    Blind (fun x => { x with seq := { x.seq with attempts := 0, waiting := some max } }) s :=
  Blind.of_rfl rfl rfl rfl (fun _ _ _ => rfl)

theorem State.Paced.waitUntilReady {s t : State} (h : s.Paced t) (max : Word32) (hcw : s.cfg.wf = true) (hc : s.coherent)
    (hp : s.seq.phase = .idle) (hi : (s.waitUntilReady max).held = false) :
    (s.waitUntilReady max).Paced (t.waitUntilReady max)
      ∨ ∃ u, Lagging u (t.waitUntilReady max) (s.waitUntilReady max) := by
  rcases (h.map (Blind.startWait max s)).waitLoop hcw (State.coherent_of_eq rfl rfl rfl rfl rfl rfl rfl rfl hc) hp
    (fun m hm => by cases hm; exact le_rfl) hi with ⟨h1, -⟩ | ⟨u, h1, -⟩
  · exact Or.inl h1
  · exact Or.inr ⟨u, h1⟩

/-- A waiting call that goes on, at the two paces. -/
theorem State.Paced.resumeCall {s t : State} (h : s.Paced t) (hcw : s.cfg.wf = true) (hc : s.coherent)
    (hi : s.resumeCall.held = false) :
    (s.resumeCall.Paced t.resumeCall)
      ∨ ∃ u, Lagging u t.resumeCall s.resumeCall ∧ t.resumeCall.env.lift.length < t.env.lift.length := by
  have hseq := h.seq
  have hon := s.finishApply_only
  have hcw1 : s.finishApply.cfg.wf = true := by rw [hon.cfg]; exact hcw
  have hc1 := State.finishApply_coherent hcw hc
  -- the `apply` in progress returns
  have hi1 : s.finishApply.seq.phase = .idle := by
    by_contra hne
    revert hi
    unfold State.resumeCall
    cases hw : s.seq.waiting with
    | none => simp [State.held, hne]
    | some max => simp [State.held, hne]
  rcases h.finishApply hcw hc hi1 with ⟨h1, h2⟩ | ⟨u, h1, h2, h3, h4, h5, h6⟩
  · -- in both
    have hit : t.finishApply.seq.phase = .idle := by rw [h1.seq]; exact hi1
    cases hw : s.seq.waiting with
    | none =>
      have e1 : s.resumeCall = s.finishApply := by unfold State.resumeCall; simp only [hw]
      have e2 : t.resumeCall = t.finishApply := by unfold State.resumeCall; simp only [hseq, hw]
      rw [e1, e2]
      exact Or.inl h1
    | some max =>
      by_cases hp : s.seq.phase = .idle
      · have e1 : s.resumeCall = s.finishApply.waitLoop (max.toNat + 1) := by
          unfold State.resumeCall; simp only [hw, hi1, hp]; rfl
        have e2 : t.resumeCall = t.finishApply.waitLoop (max.toNat + 1) := by
          unfold State.resumeCall; simp only [hseq, hw, hit, hp]; rfl
        rw [e1] at hi ⊢
        rw [e2]
        rcases h1.waitLoop hcw1 hc1 hi1 (fun m hm => by rw [hon.seqWaiting, hw] at hm; cases hm; exact le_rfl) hi with
          ⟨h7, -⟩ | ⟨u, h7, h8⟩
        · exact Or.inl h7
        · exact Or.inr ⟨u, h7, by omega⟩
      · have e1 : s.resumeCall = s.finishApply.countPoll.waitLoop (max.toNat + 1) := by
          unfold State.resumeCall; simp only [hw, hi1]; rw [if_neg (by simp), if_neg hp]
        have e2 : t.resumeCall = t.finishApply.countPoll.waitLoop (max.toNat + 1) := by
          unfold State.resumeCall; simp only [hseq, hw, hit]; rw [if_neg (by simp), if_neg hp]
        rw [e1] at hi ⊢
        rw [e2]
        have h9 := h1.map_lift (Blind.countPoll _)
        rcases (h1.map (Blind.countPoll _)).waitLoop (by rw [State.countPoll_cfg]; exact hcw1)
          (State.countPoll_coherent hc1) (by rw [State.countPoll_phase]; exact hi1) (fun m hm => by
            rcases State.countPoll_waiting (s := s.finishApply) with h11 | h11
            · rw [h11] at hm; cases hm
            · rw [h11, hon.seqWaiting, hw] at hm; cases hm; exact le_rfl) hi with ⟨h7, -⟩ | ⟨u, h7, h8⟩
        · exact Or.inl h7
        · exact Or.inr ⟨u, h7, by rw [h9] at h8; omega⟩
  · -- later in the second
    have hpt : ¬ t.finishApply.seq.phase = .idle := by rw [h1.seq]; exact h5
    have hps : s.seq.phase ≠ .idle := fun h0 => by
      have : t.finishApply = t := State.finishApply_idle (by rw [hseq]; exact h0)
      rw [this] at h2; omega
    have e2 : t.resumeCall = t.finishApply := by
      unfold State.resumeCall
      rw [hseq]
      cases s.seq.waiting with
      | none => rfl
      | some max => simp only [ne_eq, hpt, not_false_eq_true, if_true]
    have hres : u.resumeCall = s.resumeCall := by
      unfold State.resumeCall
      rw [h6, h3.seqWaiting]
      cases s.seq.waiting with
      | none => rfl
      | some max => dsimp only; rw [if_neg (not_not.mpr hi1), if_neg (not_not.mpr hi1), if_neg h5, if_neg hps]
    rw [e2]
    exact Or.inr ⟨u, ⟨h1, by rw [h3.cfg]; exact hcw, h4, h5, hres⟩, h2⟩

/-! ### The lines -/

theorem Blind.ite {F G : State → State} {s : State} (c : Prop) [Decidable c] (hF : Blind F s) (hG : Blind G s) :
    Blind (fun x => if c then F x else G x) s := by
  by_cases h : c
  · simpa only [h, if_true] using hF
  · simpa only [h, if_false] using hG

theorem Blind.finishLine (s : State) : Blind State.finishLine s := by
  have hg : ∀ l : Label, Blind (State.goto l) s := fun l => Blind.of_rfl rfl rfl rfl (fun _ _ _ => rfl)
  have hn : Blind State.nextLabel s := (hg s.seq.step.next).congr (fun _ _ _ => rfl)
  have hr : ∀ r, Blind (State.respond r) s := fun r => ⟨rfl, rfl, [.response r], rfl, fun _ _ _ => rfl⟩
  have hrr : Blind State.returnResult s := (hr s.seq.r).congr (fun _ _ _ => rfl)
  have hra : ∀ e, Blind (State.raise e) s := fun e => by
    cases e with
    | fatalError => exact hr _
    | alignmentError => exact hr _
    | timeout => exact Blind.of_rfl rfl rfl rfl (fun _ _ _ => rfl)
  have key : ∃ F : State → State, Blind F s ∧ ∀ k l L, (s.swap k l L).finishLine = F (s.swap k l L) := by
    have hto := Blind.ite (s.seq.r = .timeout) (hra .timeout) hn
    unfold State.finishLine
    simp only [State.swap_seq, State.swap_cr, State.swap_cfg]
    cases s.seq.step with
    | i2 => exact ⟨_, Blind.ite (s.cr.en = true) (Blind.ite (s.cfg.omDefault = .quad) hn (hg .i4)) (hra .fatalError), fun _ _ _ => rfl⟩
    | s0 => exact ⟨_, Blind.ite (s.seq.addr.toNat % s.cfg.sectorSize ≠ 0) (hra .alignmentError) hn, fun _ _ _ => rfl⟩
    | w1 => exact ⟨_, Blind.ite (s.seq.off = s.seq.len) (hg .restore) hn, fun _ _ _ => rfl⟩
    | m2 => exact ⟨_, hto, fun _ _ _ => rfl⟩
    | s3 => exact ⟨_, hto, fun _ _ _ => rfl⟩
    | w5 => exact ⟨_, hto, fun _ _ _ => rfl⟩
    | i5 => exact ⟨_, hrr, fun _ _ _ => rfl⟩
    | ret => exact ⟨_, hrr, fun _ _ _ => rfl⟩
    | _ => exact ⟨_, hn, fun _ _ _ => rfl⟩
  obtain ⟨F, h1, h2⟩ := key
  exact h1.congr h2

theorem Blind.setEnable (s : State) : Blind State.setEnable s := ⟨rfl, rfl, [.setEn], rfl, fun _ _ _ => rfl⟩

theorem Blind.configureDevice (s : State) : Blind State.configureDevice s :=
  ⟨rfl, rfl, [.set (.timing s.cfg.timingCfg), .set (.addrw (BitVec.ofNat 5 s.cfg.addrBits))], rfl, fun _ _ _ => rfl⟩

/-- The calls of a line, at the two paces. -/
theorem State.Paced.startLine {s t : State} (h : s.Paced t) (hcw : s.cfg.wf = true) (hc : s.coherent)
    (hh : s.held = false) (hi : s.startLine.held = false) :
    s.startLine.Paced t.startLine ∨ ∃ u, Lagging u t.startLine s.startLine := by
  obtain ⟨hp, hw⟩ := State.held_false hh
  have call : ∀ tr fm om, s.startLine = s.apply tr fm om → t.startLine = t.apply tr fm om → fm ≠ .uninitialized →
      s.startLine.Paced t.startLine ∨ ∃ u, Lagging u t.startLine s.startLine := by
    intro tr fm om e1 e2 hfm
    rw [e1] at hi ⊢
    rw [e2]
    rcases h.apply tr fm om hfm hcw hp hc (State.held_false hi).1 with ⟨h1, -⟩ | ⟨u, h1, -, h3, h4, h5, h6⟩
    · exact Or.inl h1
    · refine Or.inr ⟨u, h1, by rw [h3.cfg]; exact hcw, h4, h5, ?_⟩
      unfold State.resumeCall
      rw [h3.seqWaiting, hw]
      exact h6
  have poll : s.startLine = s.waitUntilReady s.cfg.maxAttempts → t.startLine = t.waitUntilReady s.cfg.maxAttempts →
      s.startLine.Paced t.startLine ∨ ∃ u, Lagging u t.startLine s.startLine := by
    intro e1 e2
    rw [e1] at hi ⊢
    rw [e2]
    exact h.waitUntilReady s.cfg.maxAttempts hcw hc hp hi
  have plain : ∀ F : State → State, Blind F s → s.startLine = F s → t.startLine = F t →
      s.startLine.Paced t.startLine ∨ ∃ u, Lagging u t.startLine s.startLine := by
    intro F hF e1 e2
    rw [e1, e2]
    exact Or.inl (h.map hF)
  have hst : t.seq.step = s.seq.step := by rw [h.seq]
  have hcfg := h.cfg
  have hcr : t.cr = s.cr := by rw [h.swap]; rfl
  have hid : Blind (fun x => x) s := Blind.of_rfl rfl rfl rfl (fun _ _ _ => rfl)
  have line : ∀ F : State → State, (∀ u : State, u.seq.step = s.seq.step → u.cfg = s.cfg → u.seq = s.seq → u.cr = s.cr →
      u.startLine = F u) → s.startLine = F s ∧ t.startLine = F t :=
    fun F hF => ⟨hF s rfl rfl rfl rfl, hF t hst hcfg h.seq hcr⟩
  have plain' : ∀ F : State → State, Blind F s → (∀ u : State, u.seq.step = s.seq.step → u.cfg = s.cfg → u.seq = s.seq →
      u.cr = s.cr → u.startLine = F u) → s.startLine.Paced t.startLine ∨ ∃ u, Lagging u t.startLine s.startLine :=
    fun F hB hF => plain F hB (line F hF).1 (line F hF).2
  have call' : ∀ tr fm om, fm ≠ .uninitialized → (∀ u : State, u.seq.step = s.seq.step → u.cfg = s.cfg → u.seq = s.seq →
      u.cr = s.cr → u.startLine = u.apply tr fm om) →
      s.startLine.Paced t.startLine ∨ ∃ u, Lagging u t.startLine s.startLine :=
    fun tr fm om hfm hF => call tr fm om (line _ hF).1 (line _ hF).2 hfm
  have poll' : (∀ u : State, u.seq.step = s.seq.step → u.cfg = s.cfg → u.seq = s.seq → u.cr = s.cr →
      u.startLine = u.waitUntilReady s.cfg.maxAttempts) →
      s.startLine.Paced t.startLine ∨ ∃ u, Lagging u t.startLine s.startLine :=
    fun hF => poll (line _ hF).1 (line _ hF).2
  cases hstep : s.seq.step with
  | i0 => exact plain' _ (Blind.configureDevice s) (fun u h1 _ _ _ => by simp only [State.startLine, h1, hstep])
  | i1 => exact plain' _ (Blind.setEnable s) (fun u h1 _ _ _ => by simp only [State.startLine, h1, hstep])
  | i2 => exact plain' _ (Blind.emit (.getEn s.cr.en) s) (fun u h1 _ _ h4 => by simp only [State.startLine, h1, hstep, h4])
  | i3 =>
    cases hom : s.cfg.omDefault with
    | quad =>
      exact call' (Transaction.send .enableQPI) .indirectWrite .single (by simp)
        (fun u h1 h2 _ _ => by simp only [State.startLine, h1, hstep, h2, hom])
    | single => exact plain' _ hid (fun u h1 h2 _ _ => by simp only [State.startLine, h1, hstep, h2, hom])
    | dual => exact plain' _ hid (fun u h1 h2 _ _ => by simp only [State.startLine, h1, hstep, h2, hom])
  | i4 =>
    exact call' (Transaction.readData s.cfg) .memoryMapped s.cfg.omDefault (by simp)
      (fun u h1 h2 _ _ => by simp only [State.startLine, h1, hstep, State.enterMapped, h2])
  | restore =>
    exact call' (Transaction.readData s.cfg) .memoryMapped s.cfg.omDefault (by simp)
      (fun u h1 h2 _ _ => by simp only [State.startLine, h1, hstep, State.enterMapped, h2])
  | i5 =>
    exact plain' (fun x => { x with seq := { x.seq with r := .ok } }) (Blind.of_rfl rfl rfl rfl (fun _ _ _ => rfl))
      (fun u h1 _ _ _ => by simp only [State.startLine, h1, hstep])
  | w0 =>
    exact plain' (fun x => { x with seq := { x.seq with off := 0, r := .ok } }) (Blind.of_rfl rfl rfl rfl (fun _ _ _ => rfl))
      (fun u h1 _ _ _ => by simp only [State.startLine, h1, hstep])
  | w2 =>
    exact plain' (fun x => { x with seq := { x.seq with chunk := s.nextChunk } })
      (Blind.of_rfl rfl rfl rfl (fun _ _ _ => rfl))
      (fun u _ h2 h3 _ => by simp only [State.startLine, h3, hstep, State.nextChunk, h2])
  | w6 =>
    exact plain' (fun x => { x with seq := { x.seq with off := x.seq.off + x.seq.chunk } })
      (Blind.of_rfl rfl rfl rfl (fun _ _ _ => rfl)) (fun u h1 _ _ _ => by simp only [State.startLine, h1, hstep])
  | m2 => exact poll' (fun u h1 h2 _ _ => by simp only [State.startLine, h1, hstep, h2])
  | s3 => exact poll' (fun u h1 h2 _ _ => by simp only [State.startLine, h1, hstep, h2])
  | w5 => exact poll' (fun u h1 h2 _ _ => by simp only [State.startLine, h1, hstep, h2])
  | s0 => exact plain' _ hid (fun u h1 _ _ _ => by simp only [State.startLine, h1, hstep])
  | w1 => exact plain' _ hid (fun u h1 _ _ _ => by simp only [State.startLine, h1, hstep])
  | ret => exact plain' _ hid (fun u h1 _ _ _ => by simp only [State.startLine, h1, hstep])
  | m0 =>
    exact call' (Transaction.send .writeEnable) .indirectWrite s.cfg.omDefault (by simp)
      (fun u h1 h2 _ _ => by simp only [State.startLine, h1, hstep, h2])
  | s1 =>
    exact call' (Transaction.send .writeEnable) .indirectWrite s.cfg.omDefault (by simp)
      (fun u h1 h2 _ _ => by simp only [State.startLine, h1, hstep, h2])
  | w3 =>
    exact call' (Transaction.send .writeEnable) .indirectWrite s.cfg.omDefault (by simp)
      (fun u h1 h2 _ _ => by simp only [State.startLine, h1, hstep, h2])
  | m1 =>
    exact call' (Transaction.send .chipErase) .indirectWrite s.cfg.omDefault (by simp)
      (fun u h1 h2 _ _ => by simp only [State.startLine, h1, hstep, h2])
  | s2 =>
    exact call' (Transaction.sectorErase (flashAddress s.seq.addr)) .indirectWrite s.cfg.omDefault (by simp)
      (fun u _ h2 h3 _ => by simp only [State.startLine, h3, hstep, h2])
  | w4 =>
    exact call' (Transaction.pageProgram (chunkAddress s.seq.addr s.seq.off) s.seq.off s.seq.chunk) .indirectWrite
      s.cfg.omDefault (by simp)
      (fun u _ h2 h3 _ => by simp only [State.startLine, h3, hstep, h2])

theorem State.finishLine_held (s : State) : s.finishLine.held = s.held := by
  unfold State.finishLine
  cases s.seq.step <;> dsimp only <;> first
    | rfl
    | (split <;> first | rfl | (split <;> rfl))

theorem State.startLine_state (s : State) : s.startLine.seq.state = s.seq.state := by
  have ha : ∀ t fm om, fm ≠ .uninitialized → (s.apply t fm om).seq.state = s.seq.state :=
    fun t fm om h => (s.apply_only t fm om h).seqState
  unfold State.startLine
  cases s.seq.step <;> dsimp only <;> first
    | rfl
    | exact ha _ _ _ (by simp)
    | exact (s.waitUntilReady_only _).seqState
    | simp [State.configureDevice, State.setAll_eq]
    | (split <;> first | rfl | exact ha _ _ _ (by simp))

/-! ### Whole operations -/

/-- The step led to a state, or goes on to it later. -/
def Reaches (o : Host.Outcome State Fault Refusal) (t : State) : Prop := ∃ n x, o = .next x ∧ x.goesOn n = .next t

theorem Reaches.of_step {s t : State} (hr : s.readsWindow = false) (h : Reaches (step s) t) : Reaches s.outcome t := by
  obtain ⟨n, x, h1, h2⟩ := h
  exact ⟨n + 1, s, State.outcome_clear hr, by simp only [State.goesOn, h1, h2]⟩

theorem step_occupied {s : State} (hcw : s.cfg.wf = true) (hport : s.host.port = none) (hb : s.busy = true) :
    step s = s.resume.outcome := by
  simp [step, hcw, hport, hb]

theorem State.readsWindow_stuck {s : State} (h : s.readsWindow = true) : s.finishApply = s := by
  unfold State.readsWindow at h
  split at h
  next i hp =>
    have hb : s.tr.data.byte s i = none := by
      revert h
      cases s.tr.data with
      | absent => simp [DataRef.inWindow]
      | status => simp [DataRef.inWindow]
      | caller => simp [DataRef.inWindow]
      | buffer off => intro h; simp only [DataRef.inWindow] at h; simp [DataRef.byte, h]
    unfold State.finishApply
    rw [State.waitMany_step (k := s.tr.dataLength.toNat + 3) (by rw [hp]; simp)]
    simp [State.waitOnce, hp, hb]
  next => cases h

/-- What follows a call that has returned: the move and the next lines, if an operation runs (R282). -/
def State.afterCall (s : State) : State :=
  if s.seq.state = .running then State.run s.env.slice s.finishLine else s

/-- A lagging call is lifted in the end, and then the machine goes on as after the call (R105, R185). -/
theorem Lagging.reaches {u v w t : State} (h : Lagging u v w) (hh : w.held = false) (hport : w.host.port = none)
    (hgo : ∀ w', w.Paced w' → ∃ t', Reaches w'.afterCall.outcome t' ∧ t.Paced t') :
    ∃ t', Reaches v.outcome t' ∧ t.Paced t' := by
  induction hn : v.env.lift.length using Nat.strong_induction_on generalizing u v with
  | _ n ih =>
  obtain ⟨h1, h2, h3, h4, h5⟩ := h
  have hheldv : v.held = true := by rw [h1.held]; simp [State.held, h4]
  have hportv : v.host.port = none := by rw [h1.host, ← u.resumeCall_only.host, h5]; exact hport
  have hcwv : v.cfg.wf = true := by rw [h1.cfg]; exact h2
  have hwin : v.readsWindow = false := by
    rw [h1.readsWindow]
    by_contra hne
    have := State.readsWindow_stuck (s := u) (by simpa using hne)
    have h6 : u.resumeCall.seq.phase = .idle := by rw [h5]; exact (State.held_false hh).1
    revert h6
    unfold State.resumeCall
    rw [this]
    cases u.seq.waiting with
    | none => exact h4
    | some max => simp [h4]
  have hstep : step v = v.resume.outcome := step_occupied hcwv hportv (by simp [State.busy, hheldv])
  have hres : v.resume = if v.resumeCall.held then v.resumeCall else v.resumeCall.afterCall := by
    unfold State.resume State.afterCall
    rw [if_pos hheldv]
  rw [← h5] at hh
  rcases h1.resumeCall h2 h3 hh with h6 | ⟨u2, h6, h7⟩
  · rw [h5] at h6 hh
    obtain ⟨t', h8, h9⟩ := hgo _ h6
    refine ⟨t', Reaches.of_step hwin ?_, h9⟩
    rw [hstep, hres, if_neg (by rw [h6.held, hh]; simp)]
    exact h8
  · rw [h5] at h6 hh
    have hheld2 : v.resumeCall.held = true := by rw [h6.paced.held]; simp [State.held, h6.phase]
    obtain ⟨t', h8, h9⟩ := ih _ (by omega) h6 rfl
    refine ⟨t', Reaches.of_step hwin ?_, h9⟩
    rw [hstep, hres, if_pos hheld2]
    exact h8

/-- An operation that runs to its end in one stretch reaches the same end at any pace (R12, R185). -/
theorem State.Paced.run {j : Nat} {s s' : State} (h : s.Paced s') (hcw : s.cfg.wf = true) (hc : s.coherent)
    (hh : s.held = false) (hport : s.host.port = none) (hb : (State.run j s).busy = false) (m : Nat) :
    ∃ t', Reaches (State.run m s').outcome t' ∧ (State.run j s).Paced t' := by
  induction j generalizing s s' m with
  | zero =>
    have hi : s.seq.state = .idle := (State.busy_false hb).1
    have hi' : s'.seq.state = .idle := by rw [h.seq]; exact hi
    rw [State.run_idle hi']
    exact ⟨s', ⟨0, s', State.outcome_clear (State.readsWindow_idle (by rw [h.seq]; exact (State.held_false hh).1)), rfl⟩, h⟩
  | succ j ih =>
    by_cases hr : s.seq.state = .running
    · have hhs : s.startLine.held = false := by
        by_contra hne
        have hne : s.startLine.held = true := by simpa using hne
        rw [State.run_succ hr hh] at hb
        have e : s.line = s.startLine := by unfold State.line; simp [hne]
        rw [e, State.run_held hne] at hb
        simp [State.busy, hne] at hb
      have e := State.line_finish hhs
      rw [State.run_succ hr hh, e] at hb ⊢
      have hon := s.startLine_only
      have hon2 := s.startLine.finishLine_only
      have hcw1 : s.startLine.finishLine.cfg.wf = true := by rw [hon2.cfg, hon.cfg]; exact hcw
      have hp := (State.held_false hh).1
      have hc1 : s.startLine.coherent := State.startLine_coherent hcw hp hc
      have hportL : s.startLine.host.port = none := by rw [hon.host]; exact hport
      have hport1 : s.startLine.finishLine.host.port = none := by rw [hon2.host]; exact hportL
      have hh1 : s.startLine.finishLine.held = false := by rw [State.finishLine_held]; exact hhs
      have hrun1 : s.startLine.seq.state = .running := by rw [State.startLine_state]; exact hr
      have key : ∀ m, ∃ t', Reaches (State.run (m + 1) s').outcome t' ∧ (State.run j s.startLine.finishLine).Paced t' := by
        intro m
        have hr' : s'.seq.state = .running := by rw [h.seq]; exact hr
        have hh' : s'.held = false := by rw [h.held]; exact hh
        rw [State.run_succ hr' hh']
        rcases h.startLine hcw hc hh hhs with h1 | ⟨u, h1⟩
        · rw [State.line_finish (by rw [h1.held]; exact hhs)]
          exact ih (h1.map (Blind.finishLine _)) hcw1 (State.finishLine_coherent hc1) hh1 hport1 hb m
        · have hheld : s'.startLine.held = true := by rw [h1.paced.held]; simp [State.held, h1.phase]
          have e2 : s'.line = s'.startLine := by unfold State.line; simp [hheld]
          rw [e2, State.run_held hheld]
          refine h1.reaches hhs hportL (fun w' hw' => ?_)
          unfold State.afterCall
          rw [if_pos (by rw [hw'.seq]; exact hrun1)]
          exact ih (hw'.map (Blind.finishLine _)) hcw1 (State.finishLine_coherent hc1) hh1 hport1 hb _
      cases m with
      | succ m => exact key m
      | zero =>
        have hwin : s'.readsWindow = false := State.readsWindow_idle (by rw [h.seq]; exact hp)
        obtain ⟨t', h1, h2⟩ := key s'.env.slice
        refine ⟨t', Reaches.of_step hwin ?_, h2⟩
        rw [step_occupied (by rw [State.run_cfg, h.cfg]; exact hcw) (by show s'.host.port = none; rw [h.host]; exact hport)
          (by show s'.busy = true; simp [State.busy, h.seq, hr])]
        have e3 : s'.resume = State.run (s'.env.slice + 1) s' := by
          unfold State.resume
          rw [if_neg (by rw [h.held, hh]; simp)]
        show Reaches s'.resume.outcome t'
        rw [e3]
        exact h1
    · have hi : s.seq.state = .idle := by cases hs : s.seq.state <;> simp_all
      have hi' : s'.seq.state = .idle := by rw [h.seq]; exact hi
      rw [State.run_idle hi, State.run_idle hi']
      exact ⟨s', ⟨0, s', State.outcome_clear (State.readsWindow_idle (by rw [h.seq]; exact (State.held_false hh).1)), rfl⟩, h⟩

theorem Reaches.next {s : State} : Reaches (.next s) s := ⟨0, s, rfl, rfl⟩

theorem Reaches.of_outcome {s t : State} (h : Reaches s.outcome t) : Reaches (.next s) t := by
  obtain ⟨n, x, h1, h2⟩ := h
  obtain ⟨-, rfl⟩ := State.outcome_next h1
  exact ⟨n, x, rfl, h2⟩

theorem State.afterCall_idle {s : State} (h : s.seq.state = .idle) : s.afterCall = s := by
  simp [State.afterCall, h]

/-- A direct call, at the two paces: once its wait is lifted it has returned to the same end. -/
theorem Lagging.returns {u v w : State} (h : Lagging u v w) (hb : w.busy = false) (hport : w.host.port = none) :
    ∃ t', Reaches v.outcome t' ∧ w.Paced t' := by
  obtain ⟨h1, h2, h3⟩ := State.busy_false hb
  have hh : w.held = false := by simp [State.held, h2, h3]
  refine h.reaches hh hport (fun w' hw' => ⟨w', ?_, hw'⟩)
  rw [State.afterCall_idle (by rw [hw'.seq]; exact h1),
    State.outcome_clear (State.readsWindow_idle (by rw [hw'.seq]; exact h2))]
  exact Reaches.next

theorem Blind.accept (op : Op) (addr len : Word32) (s : State) : Blind (State.accept op addr len) s :=
  Blind.of_rfl rfl rfl rfl (fun _ _ _ => rfl)

theorem State.Paced.request {s s' t : State} {op : Op} {addr len : Word32} (h : s.Paced s') (hc : s.coherent)
    (hport : s.host.port = none) (he : s.request op addr len = .next t) (hb : t.busy = false) :
    ∃ t', Reaches (s'.request op addr len) t' ∧ t.Paced t' := by
  obtain ⟨h1, h2, h3, h4, h5, rfl, -⟩ := State.request_next he
  obtain ⟨-, h6, h7⟩ := State.busy_false h2
  have e : s'.request op addr len = (State.run s'.env.slice (s'.accept op addr len)).outcome := by
    unfold State.request
    rw [h.cfg, h.busy, h.host, show s'.fm = s.fm by rw [h.swap]; rfl, h1, h2, h3, h4, h5]
    rfl
  rw [e]
  exact (h.map (Blind.accept op addr len s)).run h1 (State.coherent_of_eq rfl rfl rfl rfl rfl rfl rfl rfl hc)
    (by simp [State.held, State.accept, h6, h7]) hport hb _

theorem State.Paced.directApply {s s' t : State} {tr : Transaction} {fm : FunctionalMode} {om : OperatingMode}
    (h : s.Paced s') (hc : s.coherent) (hport : s.host.port = none) (he : s.directApply tr fm om = .next t)
    (hb : t.busy = false) : ∃ t', Reaches (s'.directApply tr fm om) t' ∧ t.Paced t' := by
  obtain ⟨h1, h2, h3, rfl, h5⟩ := State.directApply_next he
  obtain ⟨-, h6, h7⟩ := State.busy_false h2
  have hfm := State.mayApply_fm h3
  have hon := s.apply_only tr fm om hfm
  have e : s'.directApply tr fm om = (s'.apply tr fm om).outcome := by
    have h8 : s'.mayApply tr fm om = true := by
      rw [← h3]; unfold State.mayApply; rw [h.cfg, h.host, show s'.cr = s.cr by rw [h.swap]; rfl]
    unfold State.directApply State.direct
    rw [h.cfg, h.busy, h1, h2]
    simp only [Bool.not_true, Bool.false_eq_true, if_false, h8, if_true]
    exact State.apply_callOutcome hfm
  obtain ⟨hb1, hb2, hb3⟩ := State.busy_false hb
  rw [e]
  rcases h.apply tr fm om hfm h1 h6 hc hb2 with ⟨h9, -⟩ | ⟨u, h9, -, h10, h11, h12, h13⟩
  · refine ⟨_, ?_, h9⟩
    rw [State.outcome_clear (State.readsWindow_idle (by rw [h9.seq]; exact hb2))]
    exact Reaches.next
  · have hl : Lagging u (s'.apply tr fm om) (s.apply tr fm om) := by
      refine ⟨h9, by rw [h10.cfg]; exact h1, h11, h12, ?_⟩
      unfold State.resumeCall
      rw [h10.seqWaiting, h7]
      exact h13
    exact hl.returns hb (by rw [hon.host]; exact hport)

end Sys2Proof.Machine
end

