-- ==== Sys2Proof/Laws/PerInstr.lean ====
section
/-! SUPPORT. A family of facts proved instruction by instruction: the number of bytes of an instruction's encoding.
Format H has `OP` in one byte, `ADDR` and `LEN` in four each (R121); format T has the `CFG` word and the operand words
of R129; the internal operations have no encoding (R160, R170, R220, R246). -/

namespace Sys2Proof.Laws.EncodedLength

/-- The length of an instruction's encoding, under every configuration. -/
def Statement (i : Instr) : Prop :=
  ∀ c : Config, (encode c i).length
    = match i with
      | .init               => 9
      | .merase             => 9
      | .serase _           => 9
      | .write _ _          => 9
      | .rdsr               => 4
      | .wren               => 4
      | .ce                 => 4
      | .se _               => 8
      | .pp _ _             => 12
      | .read               => 4
      | .eqpi               => 4
      | .widthFor _         => 0
      | .apply _ _ _        => 0
      | .waitUntilReady _   => 0
      | .enterMemoryMapped  => 0

theorem init : Statement .init := fun _ => rfl
theorem merase : Statement .merase := fun _ => rfl
theorem serase (addr : Word32) : Statement (.serase addr) := fun _ => rfl
theorem write (dest len : Word32) : Statement (.write dest len) := fun _ => rfl
theorem rdsr : Statement .rdsr := fun _ => rfl
theorem wren : Statement .wren := fun _ => rfl
theorem ce : Statement .ce := fun _ => rfl
theorem se (a : Addr24) : Statement (.se a) := fun _ => rfl
theorem pp (a : Addr24) (n : Word32) : Statement (.pp a n) := fun _ => rfl
theorem read : Statement .read := fun _ => rfl
theorem eqpi : Statement .eqpi := fun _ => rfl
theorem widthFor (om : OperatingMode) : Statement (.widthFor om) := fun _ => rfl
theorem apply (t : Transaction) (fm : FunctionalMode) (om : OperatingMode) : Statement (.apply t fm om) :=
  fun _ => rfl
theorem waitUntilReady (maxAttempts : Word32) : Statement (.waitUntilReady maxAttempts) := fun _ => rfl
theorem enterMemoryMapped : Statement .enterMemoryMapped := fun _ => rfl

end Sys2Proof.Laws.EncodedLength
end

