-- ==== Sys2Proof/Laws/Window.lean ====
section
/-! SUPPORT. The block's own reads of the lent buffer (R61, R357): a call whose bytes lie outside the memory-mapped window
never comes to a read through it; one that sends a byte of the window comes to it and stays there. -/

namespace Sys2Proof.Machine

open Sys2Proof

/-- A call that streams bytes out stands at a byte of its transaction. -/
def State.pushesWithin (s : State) : Prop := ∀ i, s.seq.phase = .push i → i < s.tr.dataLength.toNat

theorem State.pushPhase_push {s : State} {i j : Nat} (h : s.pushPhase i = .push j) : i = j ∧ j < s.tr.dataLength.toNat := by
  unfold State.pushPhase at h
  split at h
  next hlt => cases h; exact ⟨rfl, hlt⟩
  · cases h

theorem State.popPhase_push {s : State} {i j : Nat} : s.popPhase i ≠ .push j := by
  unfold State.popPhase
  split <;> simp

theorem State.pushesWithin.waitOnce {s : State} (h : s.pushesWithin) : s.waitOnce.2.pushesWithin := by
  have hn : ∀ u : State, (∀ i, u.seq.phase ≠ .push i) → u.pushesWithin := fun u hu i hi => absurd hi (hu i)
  cases hp : s.seq.phase with
  | idle => simp only [State.waitOnce, hp]; exact h
  | push i =>
    simp only [State.waitOnce, hp]
    split
    · exact h
    · split
      · exact fun j hj => (State.pushPhase_push (s := s.drawLift.2) hj).2
      · exact fun j hj => h j hj
  | pop i =>
    refine hn _ (fun j => ?_)
    simp only [State.waitOnce, hp]
    split
    · exact State.popPhase_push
    · split
      · rw [State.deliver_phase]; show s.seq.phase ≠ _; rw [hp]; simp
      · show s.seq.phase ≠ _; rw [hp]; simp
  | await =>
    refine hn _ (fun j => ?_)
    have hx : (if s.drawLift.1 = true then s.drawLift.2.controllerStep else s.drawLift.2).getBusy.2.seq.phase = .await := by
      rw [State.getBusy_seq]
      split
      · unfold State.controllerStep
        split
        · rw [State.deliver_phase]; exact hp
        · exact hp
      · exact hp
    simp only [State.waitOnce, hp]
    generalize (if s.drawLift.1 = true then s.drawLift.2.controllerStep else s.drawLift.2).getBusy = g at hx ⊢
    split
    · rw [hx]; simp
    · simp

theorem State.pushesWithin.waitMany {k : Nat} {s : State} (h : s.pushesWithin) : (s.waitMany k).pushesWithin := by
  induction k generalizing s with
  | zero => exact h
  | succ k ih =>
    unfold State.waitMany
    split
    · exact h
    · dsimp only
      split
      · exact ih h.waitOnce
      · exact h.waitOnce

/-- A call none of whose bytes lies in the window never comes to a read through it (R357). -/
theorem State.apply_clear {s : State} {t : Transaction} {fm : FunctionalMode} {om : OperatingMode}
    (hp : s.seq.phase = .idle) (hfm : fm ≠ .uninitialized)
    (h : ∀ j, j < t.dataLength.toNat → t.data.inWindow s.cfg s.host j = false) :
    (s.apply t fm om).readsWindow = false := by
  have hb : (s.apply t fm om).pushesWithin := by
    unfold State.apply State.finishApply
    refine State.pushesWithin.waitMany (fun i hi => ?_)
    cases fm with
    | uninitialized => exact absurd rfl hfm
    | memoryMapped => rw [State.configure_eq rfl] at hi; exact absurd (hp.symm.trans hi) (by simp)
    | indirectWrite => rw [State.configure_eq rfl] at hi ⊢; exact (State.pushPhase_push hi).2
    | indirectRead => rw [State.configure_eq rfl] at hi; exact absurd hi State.popPhase_push
  have ho := s.apply_only t fm om hfm
  have htr := State.apply_tr (t := t) (om := om) (s := s) hfm
  unfold State.readsWindow
  split
  next i hi =>
    have := hb i hi
    rw [htr] at this ⊢
    rw [ho.cfg, ho.host]
    exact h i this
  · rfl

/-- The bytes before the first one of the window are streamed out, and the call stands at that one (R178, R357). -/
theorem State.waitMany_window {k n : Nat} : ∀ {s : State} {i : Nat}, s.seq.phase = .push i →
    i + n < s.tr.dataLength.toNat → s.tr.data.inWindow s.cfg s.host (i + n) = true →
    (∀ j, j < n → s.tr.data.byte s (i + j) ≠ none) → s.lets n →
    (s.waitMany (n + k)).readsWindow = true := by
  induction n with
  | zero =>
    intro s i hp _ hw _ _
    have hr : s.readsWindow = true := by simp only [State.readsWindow, hp]; exact hw
    have hb : s.tr.data.byte s i = none := by
      revert hw
      cases s.tr.data with
      | absent => simp [DataRef.inWindow]
      | status => simp [DataRef.inWindow]
      | caller => simp [DataRef.inWindow]
      | buffer off => intro h; simp only [DataRef.inWindow, Nat.add_zero] at h; simp [DataRef.byte, h]
    cases k with
    | zero => exact hr
    | succ k =>
      rw [Nat.zero_add, State.waitMany_step (by rw [hp]; simp)]
      simp [State.waitOnce, hp, hb, hr]
  | succ n ih =>
    intro s i hp hn hw hd hl
    obtain ⟨b, hb⟩ := Option.ne_none_iff_exists'.mp (hd 0 (Nat.succ_pos _))
    have hl1 := State.lets_succ (k := n) hl
    rw [show n + 1 + k = (n + k) + 1 by omega, State.waitMany_step (by rw [hp]; simp), State.waitOnce_push hp hb hl1.1,
      if_pos rfl, if_pos (by omega)]
    refine ih (i := i + 1) rfl (by dsimp only; omega) ?_ (fun j hj => ?_) hl1.2
    · rw [show i + 1 + n = i + (n + 1) by omega]; exact hw
    · rw [DataRef.byte_congr (s := s) (by rfl) (by rfl) (by rfl) (by rfl), show i + 1 + j = i + (j + 1) by omega]; exact hd (j + 1) (by omega)

/-- A write that sends a byte of the window comes to the first such byte and stays there (R178, R357). -/
theorem State.apply_window {s : State} {t : Transaction} {om : OperatingMode} {j : Nat}
    (hcov : t.data.covers s.host.buffer t.dataLength.toNat = true) (hl : s.lets t.dataLength.toNat)
    (hj : j < t.dataLength.toNat) (hw : t.data.inWindow s.cfg s.host j = true) :
    (s.apply t .indirectWrite om).readsWindow = true := by
  obtain ⟨off, ht⟩ : ∃ off, t.data = .buffer off := by
    cases ht : t.data with
    | absent => rw [ht] at hw; cases hw
    | status => rw [ht] at hw; cases hw
    | caller => rw [ht] at hw; cases hw
    | buffer off => exact ⟨off, rfl⟩
  have hex : ∃ m, t.data.inWindow s.cfg s.host m = true := ⟨j, hw⟩
  classical
  have hm := Nat.find_spec hex
  have hlt : ∀ m, m < Nat.find hex → t.data.inWindow s.cfg s.host m = false := fun m h => by
    simpa using Nat.find_min hex h
  have hle : Nat.find hex ≤ j := Nat.find_min' hex hw
  have hby : ∀ m, m < Nat.find hex → t.data.byte s m ≠ none := by
    intro m hmm
    have h0 := hlt m hmm
    have hmn : m < t.dataLength.toNat := by omega
    rw [ht] at h0 hcov ⊢
    simp only [DataRef.covers, decide_eq_true_eq] at hcov
    simp only [DataRef.inWindow] at h0
    simp only [DataRef.byte, h0, Bool.false_eq_true, if_false]
    rw [List.getElem?_eq_getElem (by omega)]
    simp
  have e : t.dataLength.toNat + 4 = Nat.find hex + (t.dataLength.toNat + 4 - Nat.find hex) := by omega
  unfold State.apply State.finishApply
  rw [State.configure_eq rfl]
  show (State.waitMany (t.dataLength.toNat + 4) _).readsWindow = true
  rw [e]
  refine State.waitMany_window (i := 0) ?_ ?_ ?_ ?_ ?_
  · show State.pushPhase _ _ = _
    unfold State.pushPhase
    exact if_pos (show 0 < t.dataLength.toNat by omega)
  · show 0 + Nat.find hex < t.dataLength.toNat
    omega
  · rw [Nat.zero_add]; exact hm
  · intro m hmm e0
    rw [Nat.zero_add] at e0
    exact hby m hmm (Eq.trans (DataRef.byte_congr (d := t.data) (s := s) rfl rfl rfl rfl).symm e0)
  · exact State.lets_mono (s := s) hl (by omega)

/-- The chunk of a write that holds a byte of the window: its PageProgram comes to the read of it (R277, R357). -/
theorem State.run_windowChunk {k i : Nat} {s : State} (h : WriteGoing s) (hlt : s.seq.off.toNat < s.seq.len.toNat)
    (hi : s.seq.off.toNat ≤ i ∧ i < s.seq.off.toNat + s.chunkNow) (hw : s.host.inWindow s.cfg i = true)
    (hl : s.lets (s.chunkNow + 2)) : (State.run (k + 4) s).readsWindow = true := by
  rw [show k + 4 = (k + 2) + 2 by rfl, State.run_toChunk h.running h.waiting h.calm.1 h.step
    (by intro he; rw [he] at hlt; exact absurd hlt (lt_irrefl _))]
  obtain ⟨a1, a2, a3, -⟩ := State.line_write_any (s := s.atChunk) (t := Transaction.send .writeEnable)
    (om := s.cfg.omDefault) (d := []) h.waiting h.calm rfl
    (fun v hv => by unfold State.finishLine; rw [hv]; rfl) rfl (by simp) (State.lets_mono (s := s) hl (by simp))
  rw [State.run_succ (s := s.atChunk) h.running (State.held_of_calm h.calm h.waiting)]
  generalize s.atChunk.line = u at a1 a2 a3
  have hul : u.lets s.chunkNow := by
    unfold State.lets
    rw [a3]
    exact take_drop_replicate (j := 2) (k := s.chunkNow) (by rw [Nat.add_comm]; exact hl)
  have huw : u.seq.waiting = none := by rw [a2]; exact h.waiting
  have hur : u.seq.state = .running := by rw [a2]; exact h.running
  have hstart : u.startLine
      = u.apply (Transaction.pageProgram (chunkAddress s.seq.addr s.seq.off) s.seq.off s.nextChunk) .indirectWrite
          u.cfg.omDefault := by
    unfold State.startLine
    rw [a2]
    rfl
  have hchunk : s.nextChunk.toNat = s.chunkNow := State.nextChunk_toNat hlt
  have hle : s.chunkNow ≤ s.seq.len.toNat - s.seq.off.toNat := chunkLength_le
  have hbuf := h.buffer
  have hread : u.startLine.readsWindow = true := by
    rw [hstart]
    refine State.apply_window (j := i - s.seq.off.toNat) ?_ ?_ ?_ ?_
    · rw [a1.host]
      exact decide_eq_true (show s.seq.off.toNat + s.nextChunk.toNat ≤ s.host.buffer.length by omega)
    · show u.lets s.nextChunk.toNat
      rw [hchunk]; exact hul
    · show i - s.seq.off.toNat < s.nextChunk.toNat
      omega
    · rw [a1.host, a1.cfg]
      show s.host.inWindow s.cfg (s.seq.off.toNat + (i - s.seq.off.toNat)) = true
      rw [Nat.add_sub_cancel' hi.1]; exact hw
  have hheld : u.startLine.held = true := by
    unfold State.readsWindow at hread
    split at hread
    next hp => simp [State.held, hp]
    · cases hread
  have hline : u.line = u.startLine := by unfold State.line; dsimp only; rw [if_pos hheld]
  rw [State.run_succ hur (State.held_of_calm (a1.calm h.calm) huw), hline, State.run_held hheld]
  exact hread

/-- A write that comes to a byte of the window in the end, every chunk before it ready at its first poll (R277, R357). -/
theorem State.run_writeWindow {n : Nat} : ∀ {k i : Nat} {s : State}, WriteReady s → 1 ≤ s.cfg.maxAttempts.toNat →
    s.seq.len.toNat - s.seq.off.toNat = n → s.seq.off.toNat ≤ i → i < s.seq.len.toNat →
    s.host.inWindow s.cfg i = true → (∀ j, j < i → s.host.inWindow s.cfg j = false) →
    s.lets (7 * n) → s.env.done.take n = List.replicate n true → (State.run (k + 6 * n) s).readsWindow = true := by
  induction n using Nat.strong_induction_on with
  | _ n ih =>
    intro k i s h hmax hn hoi hil hw hfirst hl hdone
    have hpc := Config.wf_pageChunk h.conf
    have hcn : s.chunkNow = chunkLength s.cfg.pageChunk (s.seq.addr.toNat + s.seq.off.toNat) n := by
      unfold State.chunkNow; rw [hn]
    have hpos : 0 < s.chunkNow := by rw [hcn]; exact chunkLength_pos hpc (by omega)
    have hle : s.chunkNow ≤ n := by rw [hcn]; exact chunkLength_le
    have hlt : s.seq.off.toNat < s.seq.len.toNat := by omega
    by_cases hin : i < s.seq.off.toNat + s.chunkNow
    · rw [show k + 6 * n = (k + 6 * n - 4) + 4 by omega]
      exact State.run_windowChunk h.toWriteGoing hlt ⟨hoi, hin⟩ hw (State.lets_mono hl (by omega))
    · obtain ⟨u, b, e, hwo, hst, hr, huoff, -, hflash, hlift, hdone', -, -⟩ :=
        State.run_chunk (k := k + 6 * s.chunkNow - 6 + 6 * (n - s.chunkNow)) h hmax hlt (fun j hj => hfirst j (by omega))
          (State.lets_mono hl (by omega)) (take_replicate_mono hdone (by omega))
      have hlen' : u.seq.len = s.seq.len := by rw [hwo.seq]
      have hready : WriteReady u := by
        refine ⟨h.toWriteGoing.of_only hwo hst (by omega), by rw [hflash]; rfl, ?_⟩
        unfold State.framed
        rw [hflash, hwo.cfg]
        exact h.ready.2
      have hgo := ih (n - s.chunkNow) (by omega) (k := k + 6 * s.chunkNow - 6) (i := i) hready (by rw [hwo.cfg]; exact hmax)
        (by rw [huoff, hlen']; omega) (by omega) (by rw [hlen']; exact hil) (by rw [hwo.host, hwo.cfg]; exact hw)
        (fun j hj => by rw [hwo.host, hwo.cfg]; exact hfirst j hj)
        (by unfold State.lets; rw [hlift]; exact take_drop_replicate (State.lets_mono hl (by omega)))
        (by rw [hdone']; exact take_drop_replicate (take_replicate_mono hdone (by omega)))
      rw [show k + 6 * n = (k + 6 * s.chunkNow - 6 + 6 * (n - s.chunkNow)) + 6 by omega, e]
      exact hgo

end Sys2Proof.Machine
end

