-- ==== Sys2Proof/Tests/Slice0.lean ====
section
/-! SUPPORT. Tests. The expected values are those of spec/95_test_vectors.md (each test names its vector) or are worked
out by hand from the rule a test names; then, for every statement of Certificates/Slice0/Obligations.lean that has
hypotheses, a concrete state and operands that meet them. -/

namespace Sys2Proof.Tests

open Sys2Proof Sys2Proof.Machine

/-! ## Configurations and states -/

/-- P0 with another default operating mode. -/
def withMode (om : OperatingMode) : Config := { Config.illustrative with omDefault := om }

/-- P0 with another address width, and a geometry that fits it (V-X6). -/
def withBits (n : Nat) : Config := { Config.illustrative with addrBits := n, pageChunk := 16, sectorSize := 32 }

/-- An environment that lets everything through: `k` lines, `k` waits, `k` looks at a chip that is done. -/
def easy (k : Nat) : Env :=
  { slice := k, n := 0, enable := [true], lift := List.replicate k true, done := List.replicate k true,
    status := List.replicate k 0 }

/-- The block right after reset, with an environment and a lent buffer. -/
def fresh (e : Env) (d : List Byte) : State :=
  { State.reset with env := e, host := { State.reset.host with buffer := d } }

/-- The block idle in memory-mapped mode after a successful `INIT` under P0, the chip in four-line framing. -/
def mapped (e : Env) (d : List Byte) : State :=
  { State.reset with
    fm    := .memoryMapped
    cr    := { State.reset.cr.configured Config.illustrative (Transaction.readData Config.illustrative) .memoryMapped
                 .quad 3 with en := true, addrw := 24 }
    ctrl  := { Ctrl.reset with readCmd := some (tableCfg Config.illustrative .readData) }
    flash := { Flash.powerUp with framing := .quad }
    env   := e
    host  := { State.reset.host with buffer := d } }

/-- The same with a chip that has an array. -/
def holding (m : Memory) (e : Env) (d : List Byte) : State :=
  { mapped e d with flash := { Flash.powerUp with framing := .quad, array := m } }

/-- The next state of an outcome. -/
def after (o : Host.Outcome State Fault Refusal) : Option State :=
  match o with
  | .next t => some t
  | _       => none

/-- The `CFG` words an operation committed, oldest first: one for each value of `FM` the observer saw. -/
def modes (s : State) : List FunctionalMode :=
  (s.log.filterMap (fun e => match e with | .mode fm => some fm | _ => none)).reverse

/-- The opcodes of the frames, oldest first. -/
def opcodesSent (s : State) : List Byte := (s.frames.map Frame.opcode).reverse

/-! ## Well-formedness: an ill-formed term for each check -/

theorem test_wf_se_inside : (Instr.se 0xFF).wf (withBits 8) = true := by decide
theorem test_wf_se_outside : (Instr.se 0x100).wf (withBits 8) = false := by decide
theorem test_wf_pp_inside : (Instr.pp 0xF0 16).wf (withBits 8) = true := by decide
theorem test_wf_pp_outside : (Instr.pp 0x100 1).wf (withBits 8) = false := by decide
theorem test_wf_pp_empty : (Instr.pp 0 0).wf Config.illustrative = false := by decide
theorem test_wf_pp_too_long : (Instr.pp 0 257).wf Config.illustrative = false := by decide
theorem test_wf_pp_crosses_page : (Instr.pp 0xFF 2).wf Config.illustrative = false := by decide
theorem test_wf_apply_address :
    (Transaction.sectorErase 0x100).addressInRange (withBits 8) = false
      ∧ (Instr.apply (Transaction.sectorErase 0x100) .indirectWrite .quad).wf (withBits 8) = false := by decide
theorem test_wf_apply_length_without_data :
    ({ Transaction.send .writeEnable with dataLength := 1 }).dataMatchesLength = false := by decide
theorem test_wf_apply_data_without_length :
    ({ Transaction.readStatus with dataLength := 0 }).dataMatchesLength = false := by decide
theorem test_wf_apply_row_direction :
    (Instr.apply (Transaction.send .writeEnable) .indirectRead .quad).wf Config.illustrative = false := by decide
theorem test_wf_apply_row_read_indirect :
    (Instr.apply (Transaction.readData Config.illustrative) .indirectRead .quad).wf Config.illustrative = false := by
  decide
theorem test_wf_apply_uninitialized :
    (Instr.apply (Transaction.send .writeEnable) .uninitialized .quad).wf Config.illustrative = false := by decide
theorem test_wf_apply_row_lent_read :
    ({ Transaction.readStatus with data := .buffer 0 }).rowOfTable .indirectRead = false := by decide
/-- R131 h: dummy cycles or a width that the command's row does not have. -/
theorem test_wf_apply_shape :
    (Instr.apply { Transaction.send .writeEnable with dummyCycles := 5 } .indirectWrite .quad).wf Config.illustrative = false
      ∧ (Instr.apply (Transaction.send .enableQPI) .indirectWrite .quad).wf Config.illustrative = false
      ∧ (Instr.apply (Transaction.send .enableQPI) .indirectWrite .single).wf Config.illustrative = true := by decide
theorem test_wf_apply_page :
    (Instr.apply (Transaction.pageProgram 0xFF 0 2) .indirectWrite .quad).wf Config.illustrative = false := by decide
theorem test_wf_config : Config.illustrative.wf = true ∧ (withBits 8).wf = true := by decide
theorem test_wf_config_pageChunk : ({ Config.illustrative with pageChunk := 0 }).wf = false := by decide
theorem test_wf_config_sectorSize : ({ Config.illustrative with sectorSize := 0 }).wf = false := by decide
theorem test_wf_config_addrBits_low :
    ({ Config.illustrative with addrBits := 0, pageChunk := 1, sectorSize := 1 }).wf = false := by decide
theorem test_wf_config_addrBits_high : ({ Config.illustrative with addrBits := 25 }).wf = false := by decide
theorem test_wf_config_opcodes : ({ Config.illustrative with opcSe := 0x05 }).wf = false := by decide
theorem test_wf_config_sectors : ({ Config.illustrative with sectorSize := 3 }).wf = false := by decide
theorem test_wf_config_pages : ({ Config.illustrative with pageChunk := 3 }).wf = false := by decide

/-! ## Decoding: words written out from the spec's encodings (R121, R123, V-P1, V-X4) -/

/-- `{0, -, -, -}`. -/
theorem test_decode_init : decodeRequest [0x00, 0, 0, 0, 0, 0, 0, 0, 0] = .ok (.init, []) := by rfl
/-- `{1, -, -, -}`, with the ignored operands set. -/
theorem test_decode_merase : decodeRequest [0x01, 0xFF, 2, 3, 4, 5, 6, 7, 8] = .ok (.merase, []) := by rfl
/-- R260: the fields acceptance latches, whatever the operation makes of them. -/
theorem test_request_fields :
    requestFields [0x01, 0xFF, 2, 3, 4, 5, 6, 7, 8] = some (0x040302FF, 0x08070605) := by rfl
/-- V-P1, 2: `{2, 0x00001000, -, -}`. -/
theorem test_decode_serase :
    decodeRequest [0x02, 0x00, 0x10, 0x00, 0x00, 0, 0, 0, 0] = .ok (.serase 0x00001000, []) := by rfl
/-- V-P1, 3: `{3, 0x000010F0, 0x00000020, …}`. -/
theorem test_decode_write :
    decodeRequest [0x03, 0xF0, 0x10, 0x00, 0x00, 0x20, 0x00, 0x00, 0x00] = .ok (.write 0x000010F0 0x00000020, []) := by
  rfl
/-- V-X4, the column `om = Quad`: `0x07000305`, and what follows is left. -/
theorem test_decode_rdsr :
    decodeTransaction Config.illustrative [0x05, 0x03, 0x00, 0x07, 0xAA] = .ok (.rdsr, [0xAA]) := by rfl
theorem test_decode_wren : decodeTransaction Config.illustrative [0x06, 0x03, 0x00, 0x00] = .ok (.wren, []) := by rfl
theorem test_decode_ce : decodeTransaction Config.illustrative [0xC7, 0x03, 0x00, 0x00] = .ok (.ce, []) := by rfl
theorem test_decode_se :
    decodeTransaction Config.illustrative [0x20, 0x2F, 0x00, 0x00, 0x00, 0xA0, 0x00, 0x00] = .ok (.se 0x00A000, []) := by
  rfl
theorem test_decode_pp :
    decodeTransaction Config.illustrative [0x02, 0x2F, 0x00, 0x03, 0x10, 0, 0, 0, 0xF0, 0x10, 0, 0]
      = .ok (.pp 0x0010F0 16, []) := by rfl
theorem test_decode_read : decodeTransaction Config.illustrative [0x03, 0x2F, 0x00, 0x0F] = .ok (.read, []) := by rfl
theorem test_decode_eqpi : decodeTransaction Config.illustrative [0x38, 0x01, 0x00, 0x00] = .ok (.eqpi, []) := by rfl
/-- R131 c: reserved bit 23, and bit 28. -/
theorem test_decode_reserved :
    commandOfCfg Config.illustrative 0x00800306 = none ∧ commandOfCfg Config.illustrative 0x10000306 = none := by decide
/-- R131 b, g, h: `FMODE` code 2, an opcode of no command, an address phase with WriteEnable. -/
theorem test_decode_no_row :
    commandOfCfg Config.illustrative 0x08000306 = none ∧ commandOfCfg Config.illustrative 0x00000399 = none
      ∧ commandOfCfg Config.illustrative 0x00002F06 = none := by decide
theorem test_decode_truncated :
    decodeTransaction Config.illustrative [0x20, 0x2F, 0x00, 0x00, 0x00] = .error .truncated
      ∧ decodeRequest [0x02, 0x00] = .error .truncated := by exact ⟨rfl, rfl⟩
/-- A 32-bit address operand beyond the 24 bits of `TR.address`. -/
theorem test_decode_wide_address :
    decodeTransaction Config.illustrative [0x20, 0x2F, 0x00, 0x00, 0x00, 0x00, 0x00, 0x01] = .error .addressTooWide := by
  rfl

/-- V-X4, the columns `Single` and `Dual`. -/
theorem test_cfg_single :
    packCfg (tableCfg (withMode .single) .readStatusRegister) = 0x05000105
      ∧ packCfg (tableCfg (withMode .single) .pageProgram) = 0x01002502
      ∧ packCfg (tableCfg (withMode .single) .readData) = 0x0D002503
      ∧ packCfg (tableCfg (withMode .single) .enableQPI) = 0x00000138 := by decide
theorem test_cfg_dual :
    packCfg (tableCfg (withMode .dual) .sectorErase) = 0x00002A20
      ∧ packCfg (tableCfg (withMode .dual) .readData) = 0x0E002A03
      ∧ packCfg (tableCfg (withMode .dual) .chipErase) = 0x000002C7 := by decide
/-- V-X6: the address-size field. -/
theorem test_cfg_adsize :
    packCfg (tableCfg (withBits 8) .sectorErase) = 0x00000F20 ∧ packCfg (tableCfg (withBits 9) .sectorErase) = 0x00001F20
      ∧ packCfg (tableCfg (withBits 16) .readData) = 0x0F001F03 ∧ packCfg (tableCfg (withBits 17) .readData) = 0x0F002F03
      ∧ packCfg (tableCfg (withBits 23) .sectorErase) = 0x00002F20 := by decide
/-- V-X7: dummy cycles. -/
theorem test_cfg_dummy :
    packCfg (tableCfg { Config.illustrative with opcRead := 0xEB, dummyMM := 6 } .readData) = 0x0F182FEB
      ∧ packCfg (tableCfg { withMode .single with opcRead := 0x0B, dummyMM := 8 } .readData) = 0x0D20250B
      ∧ packCfg (tableCfg { Config.illustrative with dummyMM := 31 } .readData) = 0x0F7C2F03
      ∧ packCfg (tableCfg { Config.illustrative with dummyMM := 31 } .sectorErase) = 0x00002F20 := by decide
/-- V-X13: decoding words back into frames. -/
theorem test_frame_of_word :
    decodeFrame (unpackCfg 0x00002520) 0 0x00ABC000
      = some { iw := .one, opcode := 0x20, aw := some .one, abytes := 3, addr := some 0xABC000, dummy := 0, dw := none,
               dir := .write, len := 0, data := [] } := by decide
theorem test_frame_of_status_word :
    decodeFrame (unpackCfg 0x07000305) 1 0
      = some { iw := .four, opcode := 0x05, aw := none, abytes := 1, addr := none, dummy := 0, dw := some .four,
               dir := .read, len := 1, data := [] } := by decide
theorem test_frame_of_short_address :
    (decodeFrame (unpackCfg 0x00001F20) 0 0x0012F000).bind Frame.addr = some 0xF000
      ∧ (decodeFrame (unpackCfg 0x00001F20) 0 0x0012F000).map Frame.addressBytes = some [0xF0, 0x00] := by decide

/-! ## The Mode Table and the Transaction Builder -/

/-- V-X1 to V-X3. -/
theorem test_widthFor :
    (widthFor .single).data.count = 1 ∧ (widthFor .dual).addr.count = 2 ∧ (widthFor .quad).instr.count = 4
      ∧ enc (widthFor .single).instr = 1 ∧ enc (widthFor .dual).instr = 2 ∧ enc (widthFor .quad).instr = 3 := by decide

/-- V-X8: address zero is an address. -/
theorem test_apply_address_zero :
    ((after (exec (.apply (Transaction.sectorErase 0) .indirectWrite .quad) (mapped (easy 2) []))).map
        (fun t => (packCfg t.cr.cfg, t.log.contains (.set (.ar 0))))) = some (0x00002F20, true) := by rfl

/-- V-X9: nothing survives from one call to the next, but `CR.AR`. -/
theorem test_apply_forgets :
    (after (exec (.pp 0x000100 3) (mapped (easy 9) [0xDE, 0xAD, 0xBE]))).bind
        (fun t => (after (exec .wren t)).map (fun u => (packCfg u.cr.cfg, u.cr.dl, u.cr.ar)))
      = some (0x00000306, 0, 0x00000100) := by rfl

/-- V-X10: the accesses of one call in order, and the frame. -/
theorem test_apply_order :
    (after (exec (.apply (Transaction.pageProgram 0x000200 0 3) .indirectWrite .quad)
        (mapped (easy 5) [0xDE, 0xAD, 0xBE]))).map (fun t => t.log.reverse)
      = some [ .set (.dl 3), .set (.dcyc 0), .set (.admode 3), .set (.adsize 2), .set (.abmode 0), .set (.absize 0),
               .set (.dmode 3), .set (.imode 3), .set (.instr 0x02), .set (.fmode 0), .mode .indirectWrite,
               .set (.ar 0x00000200), .launch, .push 0xDE, .push 0xAD, .push 0xBE,
               .frame { iw := .four, opcode := 0x02, aw := some .four, abytes := 3, addr := some 0x000200, dummy := 0,
                        dw := some .four, dir := .write, len := 3, data := [0xDE, 0xAD, 0xBE] },
               .getBusy true, .getBusy false ] := by rfl

/-- V-X11: the status read, the chip answering `0x02` beside its busy bit. -/
theorem test_apply_status_read :
    (after (exec .rdsr (mapped { easy 2 with status := [0x03] } []))).map
        (fun t => (t.seq.status, t.fm, packCfg t.cr.cfg, t.cr.dl))
      = some (0x02, .indirectRead, 0x07000305, 1) := by rfl

/-- R178, R182: a page program of the one byte in `SEQ.status`. -/
theorem test_apply_program_status :
    (after (exec (.apply { Transaction.pageProgram 0x000200 0 1 with data := .status } .indirectWrite .quad)
        { mapped (easy 3) [] with seq := { Seq.reset with status := 0x5A } })).map (fun t => t.frames.map Frame.data)
      = some [[0x5A]] := by rfl

/-- R179: a status read into the caller's own byte leaves `SEQ.status`. -/
theorem test_apply_read_caller :
    (after (exec (.apply { Transaction.readStatus with data := .caller } .indirectRead .quad)
        { mapped { easy 2 with status := [0x03] } [] with seq := { Seq.reset with status := 0x5A } })).map
        (fun t => (t.caller, t.seq.status, t.held)) = some (0x02, 0x5A, false) := by rfl

/-- V-X12: a memory-mapped call: no access of `DR`, no get of `BUSY`, no frame. -/
theorem test_apply_mapped :
    (after (exec .enterMemoryMapped (mapped (easy 0) []))).map
        (fun t => (packCfg t.cr.cfg, t.fm, t.frames, t.log.head?))
      = some (0x0F002F03, .memoryMapped, [], some .launch) := by rfl

/-- V-X14: a controller that never acts: the call does not return. -/
theorem test_apply_hangs :
    (after (exec .wren (mapped { easy 0 with lift := [false] } []))).map
        (fun t => (t.held, t.fm, t.cr.busy, t.frames)) = some (true, .indirectWrite, true, []) := by rfl

/-- V-X29: `BUSY_BIT = 7`, status `7F`. -/
theorem test_busy_bit : statusBusy 7 0x7F = false ∧ statusBusy 7 0x80 = true ∧ statusBusy 0 0xFE = false := by decide

/-! ## The poll (V-X20 to V-X28: the chip at work, ready at the read its script says) -/

/-- A chip erasing a sector, and what it answers about its work. -/
def working (d : List Bool) (st : List Byte) : State :=
  { mapped { easy 8 with done := d, status := st } [] with
    flash := { Flash.powerUp with framing := .quad, wip := true, wel := true, pending := .sectorErase 0x1000 } }

/-- What a poll leaves: result, count, mode, and the number of frames. -/
def polled (o : Host.Outcome State Fault Refusal) : Option (Result × Word32 × FunctionalMode × Nat) :=
  (after o).map (fun t => (t.seq.r, t.seq.attempts, t.fm, t.frames.length))

theorem test_poll_first : polled (exec (.waitUntilReady 3) (mapped (easy 8) [])) = some (.ok, 1, .indirectRead, 1) := by rfl
theorem test_poll_third :
    polled (exec (.waitUntilReady 3) (working [false, false, true] [0, 0, 0])) = some (.ok, 3, .indirectRead, 3) := by rfl
theorem test_poll_timeout :
    polled (exec (.waitUntilReady 3) (working [false, false, false, true] [0x02, 0, 0, 0]))
      = some (.timeout, 3, .indirectRead, 3) := by rfl
theorem test_poll_once : polled (exec (.waitUntilReady 1) (working [false] [0])) = some (.timeout, 1, .indirectRead, 1) := by
  rfl
theorem test_poll_zero : polled (exec (.waitUntilReady 0) (working [] [])) = some (.timeout, 0, .memoryMapped, 0) := by rfl
theorem test_poll_other_bits :
    polled (exec (.waitUntilReady 3) (mapped { easy 8 with status := [0xFE] } [])) = some (.ok, 1, .indirectRead, 1) := by
  rfl

/-! ## Chunks (V-X30 to V-X39f) -/

theorem test_chunks_aligned : chunks 256 0 640 = [(0x000, 256), (0x100, 256), (0x200, 128)] := by decide
theorem test_chunks_half : chunks 256 0x80 640 = [(0x080, 128), (0x100, 256), (0x200, 256)] := by decide
theorem test_chunks_past_half : chunks 256 0x81 640 = [(0x081, 127), (0x100, 256), (0x200, 256), (0x300, 1)] := by decide
theorem test_chunks_none : chunks 256 0 0 = [] ∧ chunks 256 0xFF 1 = [(0xFF, 1)] := by decide
theorem test_chunks_two : chunks 256 0xFF 2 = [(0xFF, 1), (0x100, 1)] ∧ chunks 256 0x100 257 = [(0x100, 256), (0x200, 1)] := by
  decide
theorem test_chunks_last_page : chunks 256 0xFFFF00 256 = [(0xFFFF00, 256)] := by decide
theorem test_chunks_small_page : chunks 8 6 20 = [(6, 2), (8, 8), (16, 8), (24, 2)] := by decide
theorem test_chunks_byte_page : (chunks 1 5 10).length = 10 ∧ (chunks 1 5 10).getLast? = some (14, 1) := by decide

/-! ## Acceptance and the operations (V-X40 to V-X57) -/

theorem test_uninitialized_refused :
    exec .merase (fresh (easy 4) [0x01]) = .refused .wrongMode
      ∧ exec (.serase 0x1000) (fresh (easy 4) [0x01]) = .refused .wrongMode
      ∧ exec (.write 0 1) (fresh (easy 4) [0x01]) = .refused .wrongMode := by exact ⟨rfl, rfl, rfl⟩
theorem test_init_twice_refused : exec .init (mapped (easy 4) []) = .refused .wrongMode := by rfl
theorem test_running_refused :
    exec .merase { mapped (easy 4) [] with seq := { Seq.reset with state := .running } } = .refused .sequencerRunning := by
  rfl
theorem test_serase_beyond : exec (.serase 0x01000000) (mapped (easy 4) []) = .refused .outOfRange := by rfl
theorem test_serase_misaligned_beyond :
    (after (exec (.serase 0x01000001) (mapped (easy 4) []))).map (fun t => (t.host.response, t.fm, t.cr.cfg, t.frames))
      = some (some .alignmentError, .memoryMapped, tableCfg Config.illustrative .readData, []) := by rfl
theorem test_write_beyond : exec (.write 0xFFFFFF 2) (mapped (easy 4) [1, 2]) = .refused .outOfRange := by rfl

/-- V-P1, 1: response, enable, one frame. -/
theorem test_init :
    (after (exec .init (fresh (easy 6) []))).map
        (fun t => (t.host.response, t.cr.en, t.cr.addrw, t.flash.framing, modes t, opcodesSent t))
      = some (some .ok, true, 24, .quad, [.indirectWrite, .memoryMapped], [0x38]) := by rfl
/-- V-P5, 1: the peripheral does not enable. -/
theorem test_init_fatal :
    (after (exec .init (fresh { easy 6 with enable := [false] } []))).map
        (fun t => (t.host.response, t.fm, t.cr.en, t.cr.addrw, t.frames))
      = some (some .fatalError, .uninitialized, false, 24, []) := by rfl
/-- R272: chip answers `01`, `00`. -/
theorem test_merase :
    (after (exec .merase (holding [(7, 0x5A)] { easy 8 with done := [false, true] } []))).map
        (fun t => (t.host.response, t.flash.array, opcodesSent t, t.fm))
      = some (some .ok, [], [0x06, 0xC7, 0x05, 0x05], .memoryMapped) := by rfl
/-- V-P3: a chip that never becomes ready. -/
theorem test_merase_timeout :
    (after (exec .merase (mapped { easy 10 with done := [false, false, false] } []))).map
        (fun t => (t.host.response, t.seq.attempts, t.fm, t.flash.wip, t.flash.wel, opcodesSent t))
      = some (some .timeout, 3, .memoryMapped, true, true, [0x06, 0xC7, 0x05, 0x05, 0x05]) := by rfl
/-- V-P1, 2, and V-X57. -/
theorem test_serase :
    (after (exec (.serase 0x1000)
        (holding [(0x0FFF, 0x11), (0x1000, 0x5A), (0x1FFF, 0x5A), (0x2000, 0x22)] { easy 8 with done := [false, true] } []))).map
        (fun t => (t.host.response, t.flash.array, modes t))
      = some (some .ok, [(0x0FFF, 0x11), (0x2000, 0x22)],
          [.indirectWrite, .indirectWrite, .indirectRead, .indirectRead, .memoryMapped]) := by rfl
theorem test_serase_misaligned :
    (after (exec (.serase 0x1001) (mapped (easy 8) []))).map (fun t => (t.host.response, t.frames))
      = some (some .alignmentError, []) := by rfl
/-- Two chunks of one byte, over a byte that was not erased (V-X35, R281). -/
theorem test_write :
    (after (exec (.write 0xFF 2) (holding [(0xFF, 0xF0)] (easy 20) [0x3C, 0xA5]))).map
        (fun t => (t.host.response, t.flash.array, t.seq.off, opcodesSent t))
      = some (some .ok, [(0xFF, 0x30), (0x100, 0xA5)], 2, [0x06, 0x02, 0x05, 0x06, 0x02, 0x05]) := by rfl
/-- V-P6: the second chunk times out; what the chip found when it began it is the first chunk's effect. -/
theorem test_write_timeout :
    (after (exec (.write 0xFF 2) (mapped { easy 20 with done := [true, false, false, false] } [0x3C, 0xA5]))).map
        (fun t => (t.host.response, t.flash.found, t.seq.off, t.flash.pending, t.fm))
      = some (some .timeout, [(0xFF, 0x3C)], 1, .program 0x100 [0xA5], .memoryMapped) := by rfl

/-! ## The reference chip (V-X60 to V-X66) and the window (V-X58) -/

/-- V-X60: a page program without the latch is ignored. -/
theorem test_chip_latch_clear :
    (after (exec (.pp 0x10 1) (mapped (easy 3) [0x00]))).map (fun t => (t.flash.array, t.flash.wip)) = some ([], false) := by
  rfl
/-- V-X61: old AND new. -/
theorem test_chip_and : Memory.read (Memory.program [(0x10, 0xF0)] 256 0x10 [0x3C]) 0x10 = 0x30 := by decide
/-- V-X62: the wrap inside the page. -/
theorem test_chip_wrap :
    Memory.program [] 256 0x1FE [0xA1, 0xA2, 0xA3, 0xA4] = [(0x100, 0xA3), (0x101, 0xA4), (0x1FE, 0xA1), (0x1FF, 0xA2)] := by
  decide
/-- V-X64: the frame of `EQPI`. -/
theorem test_chip_eqpi :
    (after (exec .eqpi { fresh (easy 2) [] with cr := { CR.reset with en := true } })).map
        (fun t => (t.flash.framing, packCfg t.cr.cfg)) = some (.quad, 0x00000138) := by rfl
/-- V-X66: the busy bit of a chip at work. -/
theorem test_chip_status :
    (after (exec .rdsr (working [false] [0xFE]))).map (fun t => (t.seq.status, t.flash.wip)) = some (0xFF, true) := by rfl
/-- A direct `SE` with the latch set starts the work and ends nothing (R203). -/
theorem test_chip_se :
    (after (exec (.se 0x1234) { mapped (easy 2) [] with flash := { Flash.powerUp with framing := .quad, wel := true } })).map
        (fun t => (t.flash.wip, t.flash.pending)) = some (true, .sectorErase 0x1234) := by rfl
theorem test_chip_ce :
    (after (exec .ce { mapped (easy 2) [] with flash := { Flash.powerUp with framing := .quad, wel := true } })).map
        (fun t => (t.flash.wip, t.flash.pending)) = some (true, .chipErase) := by rfl
/-- V-X58: a mapped read, at the last byte of the window too, and where it is a fault. -/
theorem test_window_read :
    (after (step { holding [(0x001234, 0x7E)] (easy 0) [] with
        host := { State.reset.host with port := some (.mappedRead 0x90001234 2) } })).map (fun t => t.host.readData)
      = some [0x7E, 0xFF] := by rfl
theorem test_window_fault :
    step { fresh (easy 0) [] with host := { State.reset.host with port := some (.mappedRead 0x90001234 1) } }
      = .fault .mappedReadOutsideMode := by rfl
/-- R357: a page program from a buffer that begins one byte below the end of the window, and one just past it. -/
theorem test_window_buffer :
    exec (.pp 0 1) { mapped (easy 9) [] with host := { State.reset.host with buffer := [1], bufferAt := 0x90FFFFFF } }
        = .fault .mappedReadOutsideMode
      ∧ (after (exec (.pp 0 1) { mapped (easy 9) [] with
          host := { State.reset.host with buffer := [1], bufferAt := 0x91000000 } })).isSome = true := by exact ⟨rfl, rfl⟩
theorem test_window_write :
    step { mapped (easy 0) [] with host := { State.reset.host with port := some (.mappedWrite 0x90001234 0) } }
      = .refused .windowWrite := by rfl

/-! ## The first instruction after reset -/

theorem test_table_words :
    decodeTableWord 8 0 = some .init ∧ decodeTableWord 8 1 = some .merase ∧ decodeTableWord 8 2 = some (.serase 0)
      ∧ decodeTableWord 8 3 = some (.write 0 0) ∧ decodeTableWord 32 0x07000305 = some .rdsr
      ∧ decodeTableWord 32 0x00002F20 = some (.se 0) ∧ decodeTableWord 32 0x00000138 = some .eqpi
      ∧ decodeTableWord 32 0xFFFFFFFF = none := by decide
theorem test_first_init :
    (after (step (State.reset.withFetchWord 8 0))).map (fun t => (t.seq.state, t.seq.step)) = some (.running, .i0) := by rfl
/-- A transaction is taken and run; how far it gets is the environment's. -/
theorem test_first_wren :
    ∃ t, step (State.reset.withFetchWord 32 0x00000306) = .next t
      ∧ step (State.reset.withFetchWord 32 0x00000306) = exec .wren { State.reset with cr := { CR.reset with en := true } } :=
  ⟨_, rfl, rfl⟩
/-- R282: with another default operating mode than `Quad`, I3 is skipped. -/
theorem test_init_skips :
    (after (exec .init { fresh { easy 3 with slice := 3 } [] with cfg := withMode .dual })).map
        (fun t => (t.seq.step, t.seq.state)) = some (.i4, .running) := by rfl
/-- R260: the ignored operands of an `MERASE` are latched too. -/
theorem test_request_latches :
    (after (step { mapped (easy 0) [] with
        host := { State.reset.host with port := some (.request (encodeRequest 1 0x1234 0x56)) } })).map
      (fun t => (t.seq.op, t.seq.addr, t.seq.len)) = some (.merase, 0x1234, 0x56) := by rfl
/-- A line of a listing is a step (R12): `INIT`, then `I0`, then `I1`. -/
theorem test_lines :
    ((after (step (State.reset.withFetchWord 8 0))).bind (fun t => after (step t))).map
        (fun t => (t.seq.step, t.cr.addrw, t.cr.en)) = some (.i1, 24, false) := by rfl

/-! ## Witnesses: for each statement with hypotheses, a concrete state and operands that meet them together -/

/-- The block in memory-mapped mode, two bytes lent, everything let through. -/
def calmState : State := mapped (easy 40) [0x3C, 0xA5]

/-- The same with a chip at work whose work is seen done at the third look. -/
def busyState : State :=
  { mapped { easy 40 with done := [false, false, true] } [] with
    flash := { Flash.powerUp with framing := .quad, wip := true, wel := true, pending := .sectorErase 0x1000 } }

/-- A chip that is never done. -/
def stuckState : State := mapped { easy 60 with done := List.replicate 20 false } [0x3C, 0xA5]

/-- Nothing more than a page program needs: one waiting `apply` in mid-write. -/
def waitingState : State :=
  { calmState with
    fm   := .indirectWrite
    tr   := Transaction.pageProgram 0 0 2
    seq  := { Seq.reset with phase := .push 1 }
    cr   := { calmState.cr with fmode := 0, busy := true }
    ctrl := { Ctrl.reset with
              fifo     := [0x3C]
              inflight := some { frame := launchedFrame Config.illustrative (Transaction.pageProgram 0 0 2) .quad .write
                                 delivered := false } }
    env  := { easy 0 with lift := [false] } }

/-- The same as the first with the chip's latch set. -/
def latchedState : State := { calmState with flash := { calmState.flash with wel := true } }

/-- The default operating mode `Dual`, with a chip in single-line framing, which understands nothing of it. -/
def dualState : State := { calmState with cfg := withMode .dual, flash := Flash.powerUp }

/-- A lent buffer whose second byte is the first of the memory-mapped window. -/
def overlapping : State := { calmState with host := { calmState.host with bufferAt := 0x8FFFFFFF } }

theorem latchedState_receptive : latchedState.receptive := ⟨by decide, rfl, rfl, rfl, rfl⟩
theorem dualState_receptive : dualState.receptive := ⟨by decide, rfl, rfl, rfl, rfl⟩
theorem overlapping_receptive : overlapping.receptive := ⟨by decide, rfl, rfl, rfl, rfl⟩
theorem calmState_receptive : calmState.receptive := ⟨by decide, rfl, rfl, rfl, rfl⟩
theorem busyState_receptive : busyState.receptive := ⟨by decide, rfl, rfl, rfl, rfl⟩
theorem stuckState_receptive : stuckState.receptive := ⟨by decide, rfl, rfl, rfl, rfl⟩
theorem calmState_framed : calmState.framed := Or.inr ⟨rfl, rfl⟩

theorem witness_TransactionRoundTrip : Config.illustrative.wf = true ∧ (withBits 8).wf = true := by decide

theorem witness_OpcodeRowsDisjoint :
    Config.illustrative.wf = true
      ∧ ∃ r ∈ opcodeRows, r.command = .writeEnable ∧ r.holds Config.illustrative 0x00000306 = true := by decide

theorem witness_ReservedWordsRefused :
    (0x00800306 : BitVec 32).getLsbD 23 = true ∧ (0x80000306 : BitVec 32).extractLsb' 28 4 ≠ 0
      ∧ (0x08000306 : BitVec 32).extractLsb' 26 2 = 2 ∧ (0x00004306 : BitVec 32).extractLsb' 14 4 ≠ 0 := by decide

theorem witness_WidthForTable : widthFor .dual = widthFor .dual := rfl

theorem witness_ApplyProgramsInstruction :
    ∃ u, exec (.apply Transaction.readStatus .indirectRead .quad) calmState = .next u := ⟨_, rfl⟩

/-- With an address, in memory-mapped mode, and with neither. -/
theorem witness_ApplyProgramsRegisters :
    (∃ u, exec (.apply (Transaction.pageProgram 0 0 2) .indirectWrite .quad) calmState = .next u)
      ∧ (∃ u, exec (.apply (Transaction.readData Config.illustrative) .memoryMapped .quad) calmState = .next u)
      ∧ (∃ u, exec (.apply (Transaction.send .enableQPI) .indirectWrite .single) calmState = .next u) :=
  ⟨⟨_, rfl⟩, ⟨_, rfl⟩, ⟨_, rfl⟩⟩

theorem witness_CommandsProgramTheirRow :
    (∃ t, exec .rdsr calmState = .next t) ∧ (∃ t, exec .wren calmState = .next t) ∧ (∃ t, exec .ce calmState = .next t)
      ∧ (∃ t, exec (.se 0xFFFFFF) calmState = .next t) ∧ (∃ t, exec (.pp 0xFE 2) calmState = .next t)
      ∧ (∃ t, exec .read calmState = .next t) ∧ (∃ t, exec .eqpi calmState = .next t) :=
  ⟨⟨_, rfl⟩, ⟨_, rfl⟩, ⟨_, rfl⟩, ⟨_, rfl⟩, ⟨_, rfl⟩, ⟨_, rfl⟩, ⟨_, rfl⟩⟩

/-- A configuration that breaks R8; an occupied block; each way a call is outside its contract, at its boundary; and a
call inside it. -/
theorem witness_ApplyContract :
    ({ Config.illustrative with addrBits := 25 }).wf = false
      ∧ waitingState.busy = true ∧ waitingState.cfg.wf = true
      ∧ calmState.cfg.wf = true ∧ calmState.busy = false
      ∧ (fresh (easy 0) []).cr.en = false
      ∧ 2 ^ (withBits 8).addrBits ≤ (0x100 : Addr24).toNat
      ∧ ¬ ((Transaction.pageProgram 0 0 0).data = .absent ↔ (Transaction.pageProgram 0 0 0).dataLength = 0)
      ∧ Transaction.readStatus.dataLength ≠ 0
      ∧ (Transaction.send .writeEnable).rowOfTable .indirectRead = false
      ∧ ({ Transaction.send .writeEnable with dummyCycles := 1 }).dummyCycles ≠ 0
      ∧ OperatingMode.quad ≠ (if (Transaction.send .enableQPI).command = .enableQPI then .single
          else calmState.cfg.omDefault)
      ∧ Config.illustrative.pageChunk < (0xFF : Addr24).toNat % Config.illustrative.pageChunk + (2 : Word32).toNat
      ∧ calmState.host.buffer.length < (1 : Word32).toNat + (2 : Word32).toNat
      ∧ 1 < ({ Transaction.pageProgram 0 0 2 with data := .status } : Transaction).dataLength.toNat
      ∧ calmState.cr.en = true ∧ (Transaction.pageProgram 0xFE 0 2).wf calmState.cfg .indirectWrite .quad = true
      ∧ (Transaction.pageProgram 0xFE 0 2).data.covers calmState.host.buffer 2 = true
      ∧ (∀ j, j < 2 → (Transaction.pageProgram 0xFE 0 2).data.inWindow calmState.cfg calmState.host j = false) := by decide

/-- A write of the lent bytes and a status read, with a chip that understands them and one that does not. -/
theorem witness_IndirectCallsComplete :
    (calmState.receptive ∧ calmState.cr.en = true
      ∧ (Transaction.pageProgram 0xFE 0 2).wf calmState.cfg .indirectWrite .quad = true
      ∧ ([0x3C, 0xA5] : List Byte).length = (Transaction.pageProgram 0xFE 0 2).dataLength.toNat
      ∧ (∀ (j : Nat) (h : j < ([0x3C, 0xA5] : List Byte).length),
          (Transaction.pageProgram 0xFE 0 2).data.byte calmState j
            = some ([0x3C, 0xA5] : List Byte)[j])
      ∧ calmState.lets (([0x3C, 0xA5] : List Byte).length + 2))
      ∧ (dualState.receptive ∧ dualState.cr.en = true
        ∧ Transaction.readStatus.wf dualState.cfg .indirectRead .dual = true ∧ dualState.lets 2
        ∧ ({ Transaction.readStatus with data := .caller } : Transaction).wf dualState.cfg .indirectRead .dual = true
        ∧ ({ Transaction.pageProgram 0 0 1 with data := .caller } : Transaction).data.byte dualState 0 = some dualState.caller) :=
  ⟨⟨calmState_receptive, rfl, by decide, rfl, by decide, rfl⟩, dualState_receptive, rfl, by decide, rfl, by decide, rfl⟩

theorem witness_MappedCallsComplete :
    calmState.cfg.wf = true ∧ calmState.busy = false ∧ calmState.cr.en = true
      ∧ (Transaction.readData calmState.cfg).wf calmState.cfg .memoryMapped .quad = true := by decide

theorem witness_WriteEnableCompletes :
    calmState.receptive ∧ calmState.cr.en = true ∧ calmState.chipReady ∧ calmState.lets 2 :=
  ⟨calmState_receptive, rfl, ⟨rfl, calmState_framed⟩, rfl⟩

/-- The last address of the device, the latch clear and set. -/
theorem witness_EraseCommandsComplete :
    (calmState.receptive ∧ calmState.cr.en = true ∧ calmState.chipReady ∧ calmState.lets 2 ∧ calmState.flash.wel = false
        ∧ (0xFFFFFF : Addr24).toNat < 2 ^ calmState.cfg.addrBits)
      ∧ (latchedState.receptive ∧ latchedState.cr.en = true ∧ latchedState.chipReady ∧ latchedState.lets 2
        ∧ latchedState.flash.wel = true) :=
  ⟨⟨calmState_receptive, rfl, ⟨rfl, calmState_framed⟩, rfl, rfl, by decide⟩,
   latchedState_receptive, rfl, ⟨rfl, Or.inr ⟨rfl, rfl⟩⟩, rfl, rfl⟩

/-- The last two bytes of the device's first page. -/
theorem witness_PageProgramCompletes :
    calmState.receptive ∧ calmState.cr.en = true ∧ calmState.chipReady ∧ calmState.lets ((2 : Word32).toNat + 2)
      ∧ (0xFE : Addr24).toNat < 2 ^ calmState.cfg.addrBits ∧ 1 ≤ (2 : Word32).toNat
      ∧ (2 : Word32).toNat ≤ calmState.cfg.pageChunk
      ∧ (0xFE : Addr24).toNat % calmState.cfg.pageChunk + (2 : Word32).toNat ≤ calmState.cfg.pageChunk
      ∧ (2 : Word32).toNat ≤ calmState.host.buffer.length ∧ calmState.clearOfWindow (2 : Word32).toNat
      ∧ latchedState.flash.wel = true :=
  ⟨calmState_receptive, rfl, ⟨rfl, calmState_framed⟩, rfl, by decide, by decide, by decide, by decide, by decide,
   by unfold State.clearOfWindow; decide, rfl⟩

/-- The chip right after power-up, the block enabled. -/
def poweredUp : State := { fresh (easy 40) [0x3C] with cr := { CR.reset with en := true } }

theorem witness_EnableQPICompletes :
    poweredUp.receptive ∧ poweredUp.cr.en = true ∧ poweredUp.flash.wip = false ∧ poweredUp.flash.framing = .single
      ∧ poweredUp.lets 2 := ⟨⟨by decide, rfl, rfl, rfl, rfl⟩, rfl, rfl, rfl, rfl⟩

/-- A ready chip, a chip that is done at this look, and one that is not. -/
theorem witness_ReadStatusCompletes :
    (calmState.receptive ∧ calmState.cr.en = true ∧ calmState.lets 2 ∧ calmState.framed ∧ calmState.readyAfter 0)
      ∧ (busyState.receptive ∧ busyState.cr.en = true ∧ busyState.lets 2 ∧ busyState.framed ∧ busyState.busyThrough 1) :=
  ⟨⟨calmState_receptive, rfl, rfl, calmState_framed, Or.inl ⟨rfl, rfl⟩⟩,
   ⟨busyState_receptive, rfl, rfl, Or.inr ⟨rfl, rfl⟩, ⟨rfl, rfl⟩⟩⟩

theorem witness_BuilderCallsFrame :
    (∃ t, exec .rdsr calmState = .next t) ∧ (∃ t, exec (.waitUntilReady 1) calmState = .next t)
      ∧ (∃ t, exec (.apply Transaction.readStatus .indirectRead .quad) calmState = .next t)
      ∧ (∃ t, exec .enterMemoryMapped calmState = .next t) := ⟨⟨_, rfl⟩, ⟨_, rfl⟩, ⟨_, rfl⟩, ⟨_, rfl⟩⟩

theorem witness_CommandsLeaveArray :
    (calmState.cfg.wf = true ∧ calmState.calm ∧ calmState.flash.wip = false ∧ calmState.framed
        ∧ ∃ t, exec (.pp 0xFE 2) calmState = .next t)
      ∧ (poweredUp.flash.framing = .single ∧ ∃ t, exec .eqpi poweredUp = .next t) :=
  ⟨⟨by decide, ⟨rfl, rfl, rfl⟩, rfl, calmState_framed, _, rfl⟩, rfl, _, rfl⟩

/-- The chip seen done at the third of three reads. -/
theorem witness_WaitUntilReadyOk :
    busyState.receptive ∧ busyState.cr.en = true ∧ busyState.framed ∧ busyState.lets (2 * (2 + 1))
      ∧ 2 + 1 ≤ (3 : Word32).toNat ∧ busyState.readyAfter 2 :=
  ⟨busyState_receptive, rfl, Or.inr ⟨rfl, rfl⟩, rfl, by decide, Or.inr ⟨rfl, by decide, rfl⟩⟩

theorem witness_WaitUntilReadyTimeout :
    busyState.receptive ∧ 0 < (2 : Word32).toNat ∧ busyState.cr.en = true ∧ busyState.framed
      ∧ busyState.lets (2 * (2 : Word32).toNat) ∧ busyState.busyThrough (2 : Word32).toNat :=
  ⟨busyState_receptive, by decide, rfl, Or.inr ⟨rfl, rfl⟩, rfl, ⟨rfl, rfl⟩⟩

theorem waitingState_coherent : waitingState.coherent :=
  ⟨Or.inr rfl, fun _ => Or.inl rfl, ⟨rfl, rfl, rfl, rfl, by decide, rfl⟩, ⟨⟨rfl, rfl⟩, rfl, rfl⟩, trivial⟩

/-- A byte to send outside the window, and one in it. -/
theorem witness_WaitsHoldUntilControllerSteps :
    (waitingState.cfg.wf = true ∧ waitingState.coherent ∧ waitingState.seq.phase ≠ .idle ∧ waitingState.host.port = none
        ∧ waitingState.readsWindow = false ∧ waitingState.env.lift = false :: []
        ∧ (∀ i, waitingState.seq.phase = .push i →
            waitingState.tr.data.byte waitingState i ≠ none)
        ∧ (∀ i, waitingState.seq.phase = .pop i → waitingState.ctrl.fifo = []))
      ∧ ({ waitingState with host := overlapping.host }).readsWindow = true :=
  ⟨⟨by decide, waitingState_coherent, by decide, rfl, by decide, rfl, fun i h => by cases h; decide,
    fun i h => by simp [waitingState] at h⟩, by decide⟩

/-- A block that takes one line at a step: just after reset, and in memory-mapped mode with the last sector and the last
byte of the device. -/
theorem witness_RequestsAccepted :
    ((fresh (easy 0) []).cfg.wf = true ∧ (fresh (easy 0) []).busy = false ∧ (fresh (easy 0) []).env.slice = 0
        ∧ (fresh (easy 0) []).fm = .uninitialized)
      ∧ ((mapped (easy 0) [1]).cfg.wf = true ∧ (mapped (easy 0) [1]).busy = false ∧ (mapped (easy 0) [1]).env.slice = 0
        ∧ (mapped (easy 0) [1]).fm = .memoryMapped
        ∧ (0xFFF000 : Word32).toNat < 2 ^ (mapped (easy 0) [1]).cfg.addrBits
        ∧ (0xFFFFFF : Word32).toNat + (1 : Word32).toNat ≤ 2 ^ (mapped (easy 0) [1]).cfg.addrBits
        ∧ (1 : Word32).toNat ≤ (mapped (easy 0) [1]).host.buffer.length) := by decide

theorem witness_RequestsRefused :
    ({ Config.illustrative with pageChunk := 0 }).wf = false
      ∧ (waitingState.cfg.wf = true ∧ waitingState.busy = true)
      ∧ (calmState.cfg.wf = true ∧ calmState.busy = false ∧ calmState.fm ≠ .uninitialized)
      ∧ ((fresh (easy 0) []).busy = false ∧ (fresh (easy 0) []).fm ≠ .memoryMapped)
      ∧ calmState.fm = .memoryMapped
      ∧ ((0x1000000 : Word32).toNat % calmState.cfg.sectorSize = 0
          ∧ 2 ^ calmState.cfg.addrBits ≤ (0x1000000 : Word32).toNat)
      ∧ 2 ^ calmState.cfg.addrBits < (0xFFFFFF : Word32).toNat + (2 : Word32).toNat
      ∧ ((0xFFFFFD : Word32).toNat + (3 : Word32).toNat ≤ 2 ^ calmState.cfg.addrBits
          ∧ calmState.host.buffer.length < (3 : Word32).toNat) := by decide

/-- `Quad`, and a default operating mode that needs no EnableQPI and no step of CTRL. -/
theorem witness_InitCompletes :
    ((fresh (easy 6) []).receptive ∧ (fresh (easy 6) []).fm = .uninitialized ∧ 6 ≤ (fresh (easy 6) []).env.slice
        ∧ (fresh (easy 6) []).env.enable = true :: []
        ∧ ((fresh (easy 6) []).cfg.omDefault = .quad → (fresh (easy 6) []).lets 2)
        ∧ ((fresh (easy 6) []).flash.wip = false ∧ (fresh (easy 6) []).flash.framing = .single))
      ∧ ({ fresh (easy 6) [] with cfg := withMode .dual }).cfg.omDefault ≠ .quad :=
  ⟨⟨⟨by decide, rfl, rfl, rfl, rfl⟩, rfl, by decide, rfl, fun _ => rfl, rfl, rfl⟩, by decide⟩

theorem witness_InitFatalError :
    (fresh { easy 3 with enable := [false] } []).receptive
      ∧ (fresh { easy 3 with enable := [false] } []).fm = .uninitialized
      ∧ 3 ≤ (fresh { easy 3 with enable := [false] } []).env.slice
      ∧ (fresh { easy 3 with enable := [false] } []).env.enable = false :: [] :=
  ⟨⟨by decide, rfl, rfl, rfl, rfl⟩, rfl, by decide, rfl⟩

/-- A chip whose work is seen done at the third look. -/
def thirdLook : State := mapped { easy 40 with done := [false, false, true] } [0x3C, 0xA5]

theorem witness_MassEraseCompletes :
    thirdLook.receptive ∧ thirdLook.fm = .memoryMapped ∧ thirdLook.chipReady ∧ 5 ≤ thirdLook.env.slice
      ∧ thirdLook.lets (4 + 2 * (2 + 1)) ∧ 2 + 1 ≤ thirdLook.cfg.maxAttempts.toNat
      ∧ thirdLook.env.done.take (2 + 1) = List.replicate 2 false ++ [true] :=
  ⟨⟨by decide, rfl, rfl, rfl, rfl⟩, rfl, ⟨rfl, Or.inr ⟨rfl, rfl⟩⟩, by decide, rfl, by decide, rfl⟩

/-- The last sector. -/
theorem witness_EraseSectorCompletes :
    thirdLook.receptive ∧ thirdLook.fm = .memoryMapped ∧ thirdLook.chipReady ∧ 6 ≤ thirdLook.env.slice
      ∧ (0xFFF000 : Word32).toNat % thirdLook.cfg.sectorSize = 0
      ∧ (0xFFF000 : Word32).toNat < 2 ^ thirdLook.cfg.addrBits
      ∧ thirdLook.lets (4 + 2 * (2 + 1)) ∧ 2 + 1 ≤ thirdLook.cfg.maxAttempts.toNat
      ∧ thirdLook.env.done.take (2 + 1) = List.replicate 2 false ++ [true] :=
  ⟨⟨by decide, rfl, rfl, rfl, rfl⟩, rfl, ⟨rfl, Or.inr ⟨rfl, rfl⟩⟩, by decide, by decide, by decide, rfl, by decide, rfl⟩

theorem witness_EraseTimesOut :
    stuckState.receptive ∧ stuckState.fm = .memoryMapped ∧ stuckState.chipReady ∧ 6 ≤ stuckState.env.slice
      ∧ stuckState.lets (4 + 2 * stuckState.cfg.maxAttempts.toNat)
      ∧ stuckState.env.done.take stuckState.cfg.maxAttempts.toNat
          = List.replicate stuckState.cfg.maxAttempts.toNat false
      ∧ (0xFFF000 : Word32).toNat % stuckState.cfg.sectorSize = 0
      ∧ (0xFFF000 : Word32).toNat < 2 ^ stuckState.cfg.addrBits :=
  ⟨stuckState_receptive, rfl, ⟨rfl, Or.inr ⟨rfl, rfl⟩⟩, by decide, rfl, rfl, by decide, by decide⟩

/-- One byte below a sector, inside the device and beyond it. -/
theorem witness_EraseSectorMisaligned :
    calmState.cfg.wf = true ∧ calmState.busy = false ∧ calmState.fm = .memoryMapped ∧ 1 ≤ calmState.env.slice
      ∧ (0x0FFF : Word32).toNat % calmState.cfg.sectorSize ≠ 0
      ∧ (0x01000001 : Word32).toNat % calmState.cfg.sectorSize ≠ 0 := by decide

/-- Two chunks of one byte; and the last byte of the device. -/
theorem witness_WriteMemoryCompletes :
    (calmState.receptive ∧ calmState.fm = .memoryMapped ∧ calmState.chipReady
        ∧ Memory.wf calmState.flash.array = true
        ∧ (0xFF : Word32).toNat + (2 : Word32).toNat ≤ 2 ^ calmState.cfg.addrBits
        ∧ (2 : Word32).toNat ≤ calmState.host.buffer.length ∧ calmState.clearOfWindow (2 : Word32).toNat
        ∧ ((2 : Word32) ≠ 0 → 1 ≤ calmState.cfg.maxAttempts.toNat) ∧ calmState.smooth (7 * (2 : Word32).toNat + 4))
      ∧ (0xFFFFFF : Word32).toNat + (1 : Word32).toNat ≤ 2 ^ calmState.cfg.addrBits :=
  ⟨⟨calmState_receptive, rfl, ⟨rfl, calmState_framed⟩, rfl, by decide, by decide,
    by unfold State.clearOfWindow; decide, fun _ => by decide, ⟨rfl, rfl, by decide⟩⟩, by decide⟩

/-- The second of two chunks times out. -/
def secondTimesOut : State := mapped { easy 60 with done := [true, false, false, false] } [0x3C, 0xA5]

theorem witness_WriteMemoryTimeout :
    secondTimesOut.receptive ∧ secondTimesOut.fm = .memoryMapped ∧ secondTimesOut.chipReady
      ∧ Memory.wf secondTimesOut.flash.array = true
      ∧ (0xFF : Word32).toNat + (2 : Word32).toNat ≤ 2 ^ secondTimesOut.cfg.addrBits
      ∧ (2 : Word32).toNat ≤ secondTimesOut.host.buffer.length ∧ secondTimesOut.clearOfWindow (2 : Word32).toNat
      ∧ (chunks secondTimesOut.cfg.pageChunk (0xFF : Word32).toNat (2 : Word32).toNat)[1]? = some (0x100, 1)
      ∧ (0 < 1 → 1 ≤ secondTimesOut.cfg.maxAttempts.toNat)
      ∧ secondTimesOut.lets (7 * (2 : Word32).toNat + 2 * secondTimesOut.cfg.maxAttempts.toNat)
      ∧ secondTimesOut.env.done.take (1 + secondTimesOut.cfg.maxAttempts.toNat)
          = List.replicate 1 true ++ List.replicate secondTimesOut.cfg.maxAttempts.toNat false
      ∧ 6 * 1 + 8 ≤ secondTimesOut.env.slice :=
  ⟨⟨by decide, rfl, rfl, rfl, rfl⟩, rfl, ⟨rfl, Or.inr ⟨rfl, rfl⟩⟩, rfl, by decide, by decide,
    by unfold State.clearOfWindow; decide, by decide, fun _ => by decide, rfl, rfl, by decide⟩

theorem witness_HostOperationsFrame :
    (∃ t, exec .init (fresh (easy 6) []) = .next t) ∧ (∃ t, exec .merase calmState = .next t)
      ∧ (∃ t, exec (.serase 0x1000) calmState = .next t) ∧ (∃ t, exec (.write 0xFF 2) calmState = .next t) :=
  ⟨⟨_, rfl⟩, ⟨_, rfl⟩, ⟨_, rfl⟩, ⟨_, rfl⟩⟩

theorem calmState_coherent : calmState.coherent :=
  ⟨Or.inr rfl, fun h => absurd rfl h, ⟨rfl, rfl⟩, ⟨⟨rfl, rfl⟩, rfl, rfl⟩, trivial⟩

theorem witness_MaintenanceStartsInItsRange :
    (calmState.coherent ∧ calmState.receptive ∧ calmState.flash.wip = false ∧ calmState.framed
        ∧ (∃ t, exec .merase calmState = .next t)
        ∧ (∃ t, exec (.serase 0x1000) calmState = .next t) ∧ (∃ t, exec (.write 0xFF 2) calmState = .next t)
        ∧ ((0xFFF : Nat) < (0x1000 : Word32).toNat ∧ (0x1000 : Word32).toNat + calmState.cfg.sectorSize ≤ 0x2000)
        ∧ ((0xFE : Nat) < (0xFF : Word32).toNat ∧ (0xFF : Word32).toNat + (2 : Word32).toNat ≤ 0x101))
      ∧ ((fresh (easy 6) []).coherent ∧ (fresh (easy 6) []).receptive ∧ (fresh (easy 6) []).flash.wip = false
        ∧ ((fresh (easy 6) []).cfg.omDefault = .quad → (fresh (easy 6) []).flash.framing = .single)
        ∧ ∃ t, exec .init (fresh (easy 6) []) = .next t) :=
  ⟨⟨calmState_coherent, calmState_receptive, rfl, calmState_framed, ⟨_, rfl⟩, ⟨_, rfl⟩, ⟨_, rfl⟩, by decide, by decide⟩,
   ⟨Or.inl rfl, fun h => absurd rfl h, ⟨rfl, rfl⟩, ⟨⟨rfl, rfl⟩, rfl, rfl⟩, trivial⟩, ⟨by decide, rfl, rfl, rfl, rfl⟩, rfl,
   fun _ => rfl, _, rfl⟩

/-- An erase about to send WriteEnable, and a write whose page program waits with one byte of two in the FIFO. -/
def erasing : State :=
  { calmState with seq := { Seq.reset with state := .running, op := .serase, step := .s1, addr := 0x1000 } }

def programming : State :=
  { waitingState with
    seq := { waitingState.seq with state := .running, op := .write, step := .w4, addr := 0, len := 2, off := 0, chunk := 2 }
    env := { waitingState.env with lift := [true, true, true] } }

theorem witness_MaintenanceStaysInItsRange :
    (erasing.InRange ∧ erasing.host.port = none ∧ erasing.outsideRange 0xFFF ∧ erasing.outsideRange 0x2000
        ∧ ∃ t, step erasing = .next t)
      ∧ programming.InRange ∧ programming.host.port = none ∧ programming.outsideRange 2
        ∧ ∃ t, step programming = .next t := by
  refine ⟨⟨?_, rfl, Or.inl (by decide), Or.inr (by decide), _, rfl⟩, ?_, rfl, Or.inr (by decide), _, rfl⟩
  · refine ⟨by decide, ⟨Or.inr rfl, fun h => absurd rfl h, ⟨rfl, rfl⟩, ⟨⟨rfl, rfl⟩, rfl, rfl⟩, trivial⟩, rfl, rfl,
      ⟨by decide, by decide⟩, fun h => by simp [erasing, State.held, Seq.reset] at h, fun x h => ?_,
      fun _ => Or.inr ⟨rfl, rfl⟩, fun h => by simp [erasing, Label.beforeMapped] at h, fun _ _ => rfl,
      fun h => ?_,
      fun h => by simp [erasing, Seq.reset] at h, fun h => by simp [erasing, Seq.reset] at h⟩
    · simp [erasing, calmState, mapped, Ctrl.reset] at h
    · simp [erasing, calmState, mapped, Flash.powerUp] at h
  · refine ⟨by decide, ⟨Or.inr rfl, fun _ => Or.inl rfl, ⟨rfl, rfl, rfl, rfl, by decide, rfl⟩, ⟨⟨rfl, rfl⟩, rfl, rfl⟩,
      trivial⟩, rfl, rfl, ⟨by decide, by decide, by decide⟩, fun _ => ⟨by decide, rfl⟩, fun x h => ?_,
      fun _ => Or.inr ⟨rfl, rfl⟩, fun h => by simp [programming, Label.beforeMapped] at h, fun _ _ => rfl,
      fun h => ?_,
      fun h => by simp [programming, waitingState, Seq.reset] at h, fun h => by simp [programming, waitingState, Seq.reset] at h⟩
    · cases h; exact ⟨_, rfl, rfl, fun _ => rfl⟩
    · simp [programming, waitingState, calmState, mapped, Flash.powerUp] at h

/-- `Dual` and a chip in another framing: a poll, and the last sector and the last two bytes of the device. -/
theorem witness_AnyChipReturns :
    dualState.receptive ∧ (dualState.cr.en = true ∧ dualState.lets (2 * (3 : Word32).toNat))
      ∧ (dualState.fm = .memoryMapped ∧ 6 ≤ dualState.env.slice
        ∧ dualState.lets (4 + 2 * dualState.cfg.maxAttempts.toNat)
        ∧ (0xFFF000 : Word32).toNat % dualState.cfg.sectorSize = 0
        ∧ (0xFFF000 : Word32).toNat < 2 ^ dualState.cfg.addrBits)
      ∧ (6 * (2 : Word32).toNat + 4 ≤ dualState.env.slice
        ∧ dualState.lets ((5 + 2 * dualState.cfg.maxAttempts.toNat) * (2 : Word32).toNat)
        ∧ (0xFFFFFE : Word32).toNat + (2 : Word32).toNat ≤ 2 ^ dualState.cfg.addrBits
        ∧ (2 : Word32).toNat ≤ dualState.host.buffer.length ∧ dualState.clearOfWindow (2 : Word32).toNat) :=
  ⟨dualState_receptive, ⟨rfl, rfl⟩, ⟨rfl, by decide, rfl, by decide, by decide⟩, by decide, rfl, by decide, by decide,
   by unfold State.clearOfWindow; decide⟩

/-- `INIT` at its second line. -/
def enabling : State :=
  { fresh (easy 6) [] with seq := { Seq.reset with state := .running, op := .init, step := .i1 } }

/-- A block that takes one line a step, at a label, with a misaligned address. -/
def lineAt (l : Label) : State :=
  { mapped (easy 0) [] with seq := { Seq.reset with state := .running, op := .serase, step := l, addr := 0x1001, len := 2 } }

/-- At M0 with a CTRL that does not act. -/
def stalled : State := { lineAt .m0 with env := { easy 0 with lift := [false] } }

/-- The same state one line a step, with CTRL late twice. -/
def latePace : State :=
  { calmState with env := { calmState.env with slice := 0, lift := false :: false :: calmState.env.lift } }

theorem latePace_paced : calmState.Paced latePace := ⟨rfl, .late (.late (.refl _)), rfl⟩

/-- An instruction, and a block whose `INIT` is at its second line. -/
theorem witness_PaceDoesNotMatter :
    (calmState.cfg.wf = true ∧ calmState.coherent ∧ calmState.host.port = none ∧ calmState.Paced latePace
        ∧ ∃ t, exec (.serase 0x1000) calmState = .next t ∧ t.busy = false)
      ∧ (enabling.cfg.wf = true ∧ enabling.coherent ∧ enabling.host.port = none
        ∧ enabling.Paced { enabling with env := { enabling.env with slice := 0 } } ∧ enabling.busy = true
        ∧ ∃ t, step enabling = .next t ∧ t.busy = false) :=
  ⟨⟨by decide, calmState_coherent, rfl, latePace_paced, _, rfl, rfl⟩,
   by decide, ⟨Or.inl rfl, fun h => absurd rfl h, ⟨rfl, rfl⟩, ⟨⟨rfl, rfl⟩, rfl, rfl⟩, trivial⟩, rfl, ⟨rfl, .refl _, rfl⟩,
   rfl, _, rfl, rfl⟩

/-- A line whose call waits, and lines that move on: the test of I2, the misaligned S0, the end of W1, and a `RET`. -/
theorem witness_SequencerMoves :
    (stalled.cfg.wf = true ∧ stalled.lineMode ∧ stalled.seq.state = .running ∧ stalled.host.port = none
        ∧ stalled.env.slice = 0 ∧ ∃ t, step stalled = .next t ∧ t.held = true)
      ∧ (∀ l ∈ [Label.s0, .w1, .ret], (lineAt l).cfg.wf = true ∧ (lineAt l).seq.state = .running
        ∧ (lineAt l).host.port = none ∧ (lineAt l).env.slice = 0)
      ∧ ((lineAt .s0).lineMode ∧ (lineAt .w1).lineMode ∧ (lineAt .ret).lineMode)
      ∧ (∃ t, step (lineAt .s0) = .next t ∧ t.held = false ∧ t.seq.result = .alignmentError)
      ∧ (∃ t, step (lineAt .w1) = .next t ∧ t.held = false ∧ t.seq.step = .w2)
      ∧ (∃ t, step (lineAt .ret) = .next t ∧ t.held = false ∧ t.seq.state = .idle) :=
  ⟨⟨by decide, fun _ => rfl, rfl, rfl, rfl, _, rfl, rfl⟩, by decide, ⟨fun _ => ⟨rfl, rfl⟩, fun _ => rfl, fun _ => ⟨rfl, rfl⟩⟩,
   ⟨_, rfl, rfl, rfl⟩, ⟨_, rfl, rfl, rfl⟩, _, rfl, rfl, rfl⟩

/-- Pages of one byte, a write that starts in mid-page, and both sides of the half page. -/
theorem witness_ChunkingRule :
    1 ≤ 1 ∧ chunks 8 6 20 = [(6, 2)] ++ (8, 8) :: (16, 8) :: [(24, 2)]
      ∧ 1 ≤ 128 ∧ 0x80 % (2 * 128) ≤ 128 ∧ 128 < 0x81 % (2 * 128) := by decide

/-- A word and a request at the port, and a call in HOST's program. -/
theorem witness_StepRunsDecodedInstruction :
    calmState.cfg.wf = true
      ∧ (HostAction.transaction [0x06, 0x03, 0x00, 0x00]).instr calmState.cfg = some (.ok .wren)
      ∧ (HostAction.call (.waitUntilReady 1)).instr calmState.cfg = some (.ok (.waitUntilReady 1))
      ∧ (HostAction.request (encodeRequest 1 2 3)).instr calmState.cfg = some (.ok .merase)
      ∧ Instr.wren.wf calmState.cfg = true ∧ (Instr.waitUntilReady 1).wf calmState.cfg = true
      ∧ ({ calmState with host := { calmState.host with port := some (.transaction [0x06, 0x03, 0x00, 0x00]) } }).host.port
          = some (.transaction [0x06, 0x03, 0x00, 0x00])
      ∧ ({ calmState with host := { calmState.host with program := [.call (.waitUntilReady 1)] } }).busy = false :=
  ⟨by decide, rfl, rfl, rfl, rfl, rfl, rfl, rfl⟩

theorem witness_IdleBlockWaits :
    (waitingState.cfg.wf = true ∧ waitingState.host.port = none ∧ waitingState.busy = true
        ∧ waitingState.resume.readsWindow = false)
      ∧ (calmState.cfg.wf = true ∧ calmState.host.port = none ∧ calmState.busy = false
          ∧ calmState.host.program = []) := by decide

/-- The last byte of the window, and a read of no byte just past it. -/
theorem witness_MappedReadReturnsArray :
    calmState.cfg.wf = true ∧ calmState.busy = false ∧ calmState.fm = .memoryMapped ∧ calmState.flash.wip = false
      ∧ calmState.mappedUnderstood = true ∧ calmState.cfg.mmBase ≤ 0x90FFFFFF
      ∧ 0x90FFFFFF + 1 ≤ calmState.cfg.mmBase + 2 ^ calmState.cfg.addrBits
      ∧ ({ calmState with host := { calmState.host with port := some (.mappedRead 0x90FFFFFF 1) } }).host.port
          = some (.mappedRead 0x90FFFFFF 1) :=
  ⟨by decide, rfl, rfl, rfl, rfl, by decide, by decide, rfl⟩

/-- One byte below the window, and one beyond it. -/
theorem witness_MappedReadReturnsArray_outside :
    0x8FFFFFFF < calmState.cfg.mmBase
      ∧ calmState.cfg.mmBase + 2 ^ calmState.cfg.addrBits < 0x90FFFFFF + 2 := by decide

/-- A mapped read outside the mode, and on an occupied block; a lent buffer whose second byte is the window's first. -/
theorem witness_WindowReadsFault :
    ({ fresh (easy 0) [] with host := { State.reset.host with port := some (.mappedRead 0x90000000 1) } }).takes
        (.mappedRead 0x90000000 1)
      ∧ (fresh (easy 0) []).fm ≠ .memoryMapped
      ∧ ({ waitingState with host := { calmState.host with port := some (.mappedRead 0x90000000 1) } }).takes
        (.mappedRead 0x90000000 1)
      ∧ (waitingState.seq.state = .running ∨ waitingState.held = true)
      ∧ (overlapping.receptive ∧ overlapping.cr.en = true
        ∧ (Transaction.pageProgram 0xFE 0 2).wf overlapping.cfg .indirectWrite .quad = true
        ∧ (Transaction.pageProgram 0xFE 0 2).data.covers overlapping.host.buffer 2 = true ∧ overlapping.lets 2
        ∧ (Transaction.pageProgram 0xFE 0 2).data.inWindow overlapping.cfg overlapping.host 1 = true)
      ∧ ((Instr.pp 0xFE 2).wf overlapping.cfg = true ∧ (2 : Word32).toNat ≤ overlapping.host.buffer.length
        ∧ overlapping.host.inWindow overlapping.cfg 1 = true ∧ overlapping.host.inWindow overlapping.cfg 0 = false)
      ∧ (overlapping.fm = .memoryMapped ∧ overlapping.chipReady
        ∧ (0xFF : Word32).toNat + (2 : Word32).toNat ≤ 2 ^ overlapping.cfg.addrBits
        ∧ 1 ≤ overlapping.cfg.maxAttempts.toNat ∧ overlapping.smooth (7 * (2 : Word32).toNat + 4)) :=
  ⟨Or.inl rfl, by decide, Or.inl rfl, by decide,
   ⟨overlapping_receptive, rfl, by decide, by decide, rfl, by decide⟩, by decide,
   rfl, ⟨rfl, Or.inr ⟨rfl, rfl⟩⟩, by decide, by decide, rfl, rfl, by decide⟩

theorem witness_MappedWriteRefused :
    ({ waitingState with host := { calmState.host with port := some (.mappedWrite 0x90000000 1) } }).takes
        (.mappedWrite 0x90000000 1)
      ∧ ({ calmState with host := { calmState.host with program := [.mappedWrite 0x90000000 1] } }).takes
        (.mappedWrite 0x90000000 1)
      ∧ waitingState.cfg.wf = true := ⟨Or.inl rfl, Or.inr ⟨rfl, rfl, rfl⟩, by decide⟩

theorem witness_BufferIsOnlyBorrowed :
    ∃ t, step { calmState with host := { calmState.host with port := some (.lend 0x20000000 [7]) } } = .next t
      ∧ t.host.buffer = [7] ∧ t.host.bufferAt = 0x20000000 := ⟨_, rfl, rfl, rfl⟩

theorem witness_ArrayWriteThenRead : Memory.wf [(3, 0), (9, 0x7F)] = true ∧ Memory.wf [] = true := by decide

theorem witness_EraseEffect :
    1 ≤ busyState.cfg.sectorSize ∧ busyState.flash.pending = .sectorErase 0x1000
      ∧ ({ busyState with flash := { busyState.flash with pending := .chipErase } }).flash.pending = .chipErase := by decide

/-- Data that wraps onto its own first byte: index 2 is the last to fall on it, index 0 is not. -/
theorem witness_ProgramEffect :
    1 ≤ 2 ∧ Memory.wf [(4, 0x0F)] = true
      ∧ (∀ j, 2 < j → j < ([1, 2, 3] : List Byte).length → (4 + j) % 2 ≠ (4 + 2) % 2)
      ∧ (∀ i, i < ([1, 2, 3] : List Byte).length → 4 - 4 % 2 + (4 + i) % 2 ≠ 6) :=
  ⟨by decide, by decide, fun j h1 h2 => absurd h2 (by simp; omega), fun i _ => by omega⟩

/-- A write frame in four-line framing for each of the four commands, at the last address of the device. -/
def quadFrame (o : Byte) (a : Option Nat) : Frame :=
  { iw := .four, opcode := o, aw := a.map (fun _ => .four), abytes := 3, addr := a, dummy := 0, dw := none, dir := .write,
    len := 0, data := [] }

theorem witness_WriteEnableLatch :
    calmState.cfg.wf = true ∧ calmState.flash.wip = false
      ∧ calmState.flash.framing.understands .four none none = true
      ∧ calmState.flash.framing.understands .four (some .four) none = true
      ∧ (quadFrame 0x06 none).opcode = calmState.cfg.opcWren ∧ (quadFrame 0xC7 none).opcode = calmState.cfg.opcCe
      ∧ (quadFrame 0x20 (some 0xFFFFFF)).opcode = calmState.cfg.opcSe ∧ 0xFFFFFF < calmState.cfg.flashSize
      ∧ (quadFrame 0x02 (some 0xFFFFFF)).opcode = calmState.cfg.opcPp
      ∧ (quadFrame 0x06 none).dir = .write ∧ (Pending.sectorErase 0xFFFFFF).touches calmState.cfg 0xFFEFFF = false
      ∧ calmState.flash.wel = false ∧ latchedState.flash.wel = true ∧ latchedState.flash.wip = false := by decide

theorem witness_StatusByteOfTheChip :
    busyState.cfg.wf = true
      ∧ busyState.flash.framing.understands .four none (some .four) = true
      ∧ (statusFrame busyState.cfg 0).opcode = busyState.cfg.opcRdsr ∧ (statusFrame busyState.cfg 0).dir = .read
      ∧ (statusFrame busyState.cfg 0).len = 1 ∧ busyState.env.status.head? = some 0 := by decide

theorem witness_FramingOfTheChip :
    poweredUp.cfg.wf = true ∧ poweredUp.flash.wip = false
      ∧ (launchedFrame poweredUp.cfg (Transaction.send .enableQPI) .single .write).opcode = poweredUp.cfg.opcEqpi
      ∧ (launchedFrame poweredUp.cfg (Transaction.send .enableQPI) .single .write).dir = .write
      ∧ (launchedFrame poweredUp.cfg (Transaction.send .enableQPI) .single .write).iw = .one
      ∧ poweredUp.flash.framing = .single := by decide

/-- In mid-write, before the frame has reached the chip, and with nothing in flight. -/
theorem witness_BlockReset :
    ({ waitingState with host := { waitingState.host with port := some .resetBlock } }).cfg.wf = true
      ∧ waitingState.ctrl.inflight ≠ none ∧ (∀ fl, calmState.ctrl.inflight = some fl → fl.delivered = true) :=
  ⟨by decide, by decide, fun fl h => by simp [calmState, mapped, Ctrl.reset] at h⟩

theorem witness_ChipPowerCycle :
    calmState.cfg.wf = true ∧ calmState.flash.wip = false ∧ busyState.flash.wip = true
      ∧ ({ busyState with host := { busyState.host with port := some .powerCycleChip } }).host.port
          = some .powerCycleChip := ⟨by decide, rfl, rfl, rfl⟩

theorem witness_ConfigurationNeverChanges :
    ∃ t, step { calmState with host := { calmState.host with port := some (.call .merase) } } = .next t := ⟨_, rfl⟩

theorem witness_OnlyResetUnconfigures :
    ∃ t, step { calmState with host := { calmState.host with port := some .resetBlock } } = .next t
      ∧ t.fm = .uninitialized := ⟨_, rfl, rfl⟩

/-- In mid-write, and a request of HOST. -/
theorem witness_EveryStepKeepsCoherence : waitingState.coherent ∧ ∃ t, step waitingState = .next t :=
  ⟨waitingState_coherent, _, rfl⟩

/-- The reset state with `INIT` at the port. -/
def firstInit : State := State.reset.withFetchWord 8 0

theorem witness_EveryStepKeepsDiscipline : firstInit.disciplined ∧ ∃ t, step firstInit = .next t :=
  ⟨⟨⟨Or.inl rfl, fun h => absurd rfl h, ⟨rfl, rfl⟩, ⟨⟨rfl, rfl⟩, rfl, rfl⟩, trivial⟩, fun _ => Or.inl rfl,
    fun h => by simp [firstInit, State.withFetchWord, State.placeWord, State.reset, Seq.reset] at h,
    fun h => by simp [firstInit, State.withFetchWord, State.placeWord, State.reset, Seq.reset] at h, trivial,
    ⟨fun a h => by cases h; rfl, fun a h => by cases h⟩, fun _ => rfl⟩, _, rfl⟩

end Sys2Proof.Tests
end

/-! SUPPORT. The scope's statements: a step and the instruction it runs (R11), and the end a call or an occupied block comes
to at every pace (R12, R105, R185, R361). -/

namespace Sys2Proof.Machine

open Sys2Proof

/-! ### A step and the action it takes (R11) -/

/-- An action that carries an instruction runs it, the fields of a request presented first (R121, R260). -/
theorem perform_instr {a : HostAction} {i : Instr} {s : State} (h : a.instr s.cfg = some (.ok i)) :
    perform a s = exec i (s.present a) := by
  simp only [perform, h]

/-- What stands at the port is taken first, whatever the block is doing (log entry 9). -/
theorem step_port {s : State} {a : HostAction} (hcw : s.cfg.wf = true) (hp : s.host.port = some a) :
    step s = perform a s.takePort := by
  simp [step, hcw, hp]

/-- A block that is not occupied takes the first action of HOST's program where nothing stands at the port. -/
theorem step_program {s : State} {a : HostAction} {rest : List HostAction} (hcw : s.cfg.wf = true)
    (hp : s.host.port = none) (hb : s.busy = false) (hprog : s.host.program = a :: rest) :
    step s = perform a (s.takeProgram rest) := by
  simp [step, hcw, hp, hb, hprog]

/-- The four bytes of a word, put together again, are the word (log entry 3). -/
theorem bytesWord_extract (w : Word32) :
    bytesWord (w.extractLsb' 0 8) (w.extractLsb' 8 8) (w.extractLsb' 16 8) (w.extractLsb' 24 8) = w := by
  unfold bytesWord
  rw [BitVec.extractLsb'_append_extractLsb'_eq_extractLsb' (by omega),
    BitVec.extractLsb'_append_extractLsb'_eq_extractLsb' (by omega),
    BitVec.extractLsb'_append_extractLsb'_eq_extractLsb' (by omega)]
  simp

/-- The fields of an encoded request are those it was made of (R121). -/
theorem requestFields_encodeRequest (op : Byte) (addr len : Word32) :
    requestFields (encodeRequest op addr len) = some (addr, len) := by
  simp only [encodeRequest, wordBytes, List.cons_append, List.nil_append, requestFields, bytesWord_extract]

/-- Settles O41: the three branches of `step` that perform an action, and the fields of a request read back. -/
theorem stepRunsDecodedInstruction : Obligations.StepRunsDecodedInstruction := by
  intro s a i hcw hi _
  refine ⟨fun hp => ?_, fun rest hp hb hprog => ?_, fun u op addr len ha => ?_⟩
  · rw [step_port hcw hp]
    exact perform_instr hi
  · rw [step_program hcw hp hb hprog]
    exact perform_instr hi
  · subst ha
    simp only [State.present, requestFields_encodeRequest]

/-! ### A block that goes on, at another pace -/

/-- A waiting block goes on with its call, and with what follows it once the call has returned (R185, R282). -/
theorem State.resume_held {s : State} (h : s.held = true) :
    s.resume = if s.resumeCall.held then s.resumeCall else s.resumeCall.afterCall := by
  unfold State.resume
  rw [if_pos h]
  rfl

/-- A block that does not wait goes on with its lines (R12, R282). -/
theorem State.resume_free {s : State} (h : s.held = false) : s.resume = State.run (s.env.slice + 1) s := by
  unfold State.resume
  rw [if_neg (by simp [h])]

/-- What follows a call that has returned comes to the same end at any pace (R12, R282). -/
theorem State.Paced.afterCall {s s' : State} (h : s.Paced s') (hcw : s.cfg.wf = true) (hc : s.coherent)
    (hh : s.held = false) (hport : s.host.port = none) (hb : s.afterCall.busy = false) :
    ∃ t', Reaches s'.afterCall.outcome t' ∧ s.afterCall.Paced t' := by
  cases hs : s.seq.state with
  | idle =>
    have hwin : s'.readsWindow = false := State.readsWindow_idle (by rw [h.seq]; exact (State.held_false hh).1)
    rw [State.afterCall_idle hs, State.afterCall_idle (by rw [h.seq]; exact hs), State.outcome_clear hwin]
    exact ⟨s', Reaches.next, h⟩
  | running =>
    have hon := s.finishLine_only
    unfold State.afterCall at hb ⊢
    rw [if_pos hs] at hb ⊢
    rw [if_pos (by rw [h.seq]; exact hs)]
    exact (h.map (Blind.finishLine s)).run (by rw [hon.cfg]; exact hcw) (State.finishLine_coherent hc)
      (by rw [State.finishLine_held]; exact hh) (by rw [hon.host]; exact hport) hb _

/-- An occupied block that comes to its end in one step at one pace comes to it at every other (R12, R105, R185). -/
theorem State.Paced.resume {s s' : State} (h : s.Paced s') (hcw : s.cfg.wf = true) (hc : s.coherent)
    (hport : s.host.port = none) (hb : s.resume.busy = false) :
    ∃ t', Reaches s'.resume.outcome t' ∧ s.resume.Paced t' := by
  cases hh : s.held with
  | false =>
    rw [State.resume_free hh] at hb ⊢
    rw [State.resume_free (by rw [h.held]; exact hh)]
    exact h.run hcw hc hh hport hb _
  | true =>
    have hres : s.resumeCall.held = false := by
      by_contra hne
      have hheld : s.resumeCall.held = true := by simpa using hne
      rw [State.resume_held hh, if_pos hheld] at hb
      simp [State.busy, hheld] at hb
    have hon := s.resumeCall_only
    have hportR : s.resumeCall.host.port = none := by rw [hon.host]; exact hport
    have hgo : s.resume = s.resumeCall.afterCall := by rw [State.resume_held hh, hres]; rfl
    rw [hgo] at hb ⊢
    rw [State.resume_held (by rw [h.held]; exact hh)]
    have hafter : ∀ w', s.resumeCall.Paced w' → ∃ t', Reaches w'.afterCall.outcome t' ∧ s.resumeCall.afterCall.Paced t' :=
      fun w' hw => hw.afterCall (by rw [hon.cfg]; exact hcw) (State.resumeCall_coherent hcw hc) hres hportR hb
    rcases h.resumeCall hcw hc hres with h1 | ⟨u, h1, -⟩
    · rw [if_neg (by simp [h1.held, hres])]
      exact hafter _ h1
    · rw [if_pos (by rw [h1.paced.held]; simp [State.held, h1.phase])]
      exact h1.reaches hres hportR hafter

/-! ### An instruction, at another pace -/

/-- `apply` where nothing waits: it returns at both paces, or lags at the second (R170, R185). -/
theorem State.Paced.applyFree {s s' : State} (h : s.Paced s') {tr : Transaction} {fm : FunctionalMode}
    {om : OperatingMode} (hfm : fm ≠ .uninitialized) (hcw : s.cfg.wf = true) (hc : s.coherent) (hh : s.held = false)
    (hi : (s.apply tr fm om).held = false) :
    (s.apply tr fm om).Paced (s'.apply tr fm om) ∨ ∃ u, Lagging u (s'.apply tr fm om) (s.apply tr fm om) := by
  obtain ⟨hp, hw⟩ := State.held_false hh
  rcases h.apply tr fm om hfm hcw hp hc (State.held_false hi).1 with ⟨h1, -⟩ | ⟨u, h1, -, hon, hcu, hpu, hfin⟩
  · exact Or.inl h1
  · refine Or.inr ⟨u, h1, by rw [hon.cfg]; exact hcw, hcu, hpu, ?_⟩
    unfold State.resumeCall
    rw [hon.seqWaiting, hw]
    exact hfin

/-- A call that has returned at one pace comes to its end at the other, where it has returned or lags. -/
theorem reaches_of_call {w v : State} (h : w.Paced v ∨ ∃ u, Lagging u v w) (hb : w.busy = false)
    (hport : w.host.port = none) : ∃ t', Reaches (.next v) t' ∧ w.Paced t' := by
  rcases h with h | ⟨u, h⟩
  · exact ⟨v, Reaches.next, h⟩
  · obtain ⟨t', h1, h2⟩ := h.returns hb hport
    exact ⟨t', Reaches.of_outcome h1, h2⟩

/-- A block that is not occupied does not wait. -/
theorem State.held_of_busy {s : State} (h : s.busy = false) : s.held = false := by
  obtain ⟨-, hp, hw⟩ := State.busy_false h
  simp [State.held, hp, hw]

/-- A direct call behind a test of the registers: the shape of the internal operations that wait or launch (R182). -/
def State.directIf (may : CR → Bool) (run : State → State) (s : State) : Host.Outcome State Fault Refusal :=
  s.direct (fun x => if may x.cr then .next (run x) else .refused .contractViolation)

theorem exec_waitUntilReady_directIf (max : Word32) (s : State) :
    exec (.waitUntilReady max) s = s.directIf (fun cr => cr.en || decide (max = 0)) (State.waitUntilReady max) := rfl

theorem exec_enterMemoryMapped_directIf (s : State) :
    exec .enterMemoryMapped s = s.directIf CR.en State.enterMapped := rfl

/-- A direct call that answers a next state found the block free, passed its test and is that call. -/
theorem State.directIf_next {may : CR → Bool} {run : State → State} {s t : State} (h : s.directIf may run = .next t) :
    s.cfg.wf = true ∧ s.busy = false ∧ may s.cr = true ∧ t = run s := by
  obtain ⟨hcw, hs, hgo⟩ := State.direct_next h
  by_cases hmay : may s.cr = true
  · rw [if_pos hmay] at hgo
    cases hgo
    exact ⟨hcw, hs, hmay, rfl⟩
  · rw [if_neg hmay] at hgo
    cases hgo

/-- A block that can take a call whose test passes makes it (R8, R182). -/
theorem State.directIf_runs {may : CR → Bool} {run : State → State} {s : State} (hcw : s.cfg.wf = true)
    (hb : s.busy = false) (hmay : may s.cr = true) : s.directIf may run = .next (run s) := by
  simp [State.directIf, State.direct, hcw, hb, hmay]

/-- Where the call behind the test returns or lags, the direct call comes to the same end (R182, R185). -/
theorem State.Paced.directIf {s s' t : State} {may : CR → Bool} {run : State → State} (h : s.Paced s')
    (he : s.directIf may run = .next t) (hb : t.busy = false) (hport : (run s).host.port = none)
    (hrun : s.cfg.wf = true → s.held = false → (run s).held = false →
      (run s).Paced (run s') ∨ ∃ u, Lagging u (run s') (run s)) :
    ∃ t', Reaches (s'.directIf may run) t' ∧ t.Paced t' := by
  obtain ⟨hcw, hs, hmay, rfl⟩ := State.directIf_next he
  have hcr : s'.cr = s.cr := by rw [h.swap]; rfl
  rw [State.directIf_runs (by rw [h.cfg]; exact hcw) (by rw [h.busy]; exact hs) (by rw [hcr]; exact hmay)]
  exact reaches_of_call (hrun hcw (State.held_of_busy hs) (State.held_of_busy hb)) hb hport

/-- Every instruction that comes to its end in one step at one pace comes to it at every other (R12, R105, R185). -/
theorem State.Paced.exec {s s' t : State} {i : Instr} (h : s.Paced s') (hc : s.coherent) (hport : s.host.port = none)
    (he : exec i s = .next t) (hb : t.busy = false) : ∃ t', Reaches (exec i s') t' ∧ t.Paced t' := by
  have hcfg := h.cfg
  have hhost := h.host
  cases i with
  | init => rw [exec_init, hhost]; exact h.request hc hport he hb
  | merase => rw [exec_merase, hhost]; exact h.request hc hport he hb
  | serase a => rw [exec_serase, hhost]; exact h.request hc hport he hb
  | write d n => exact h.request hc hport he hb
  | rdsr => rw [exec_rdsr, hcfg]; exact h.directApply hc hport he hb
  | wren => rw [exec_wren, hcfg]; exact h.directApply hc hport he hb
  | ce => rw [exec_ce, hcfg]; exact h.directApply hc hport he hb
  | se a => rw [exec_se, hcfg]; exact h.directApply hc hport he hb
  | pp a n => rw [exec_pp, hcfg]; exact h.directApply hc hport he hb
  | read => rw [exec_read, hcfg]; exact h.directApply hc hport he hb
  | eqpi => exact h.directApply hc hport he hb
  | apply tr fm om => exact h.directApply hc hport he hb
  | widthFor om =>
    cases he
    exact ⟨_, Reaches.next, h.map (F := fun x => { x with widths := Sys2Proof.Machine.widthFor om })
      (Blind.of_rfl rfl rfl rfl (fun _ _ _ => rfl))⟩
  | waitUntilReady max =>
    rw [exec_waitUntilReady_directIf] at he ⊢
    exact h.directIf he hb (by rw [(s.waitUntilReady_only max).host]; exact hport)
      (fun hcw hh hi => h.waitUntilReady max hcw hc (State.held_false hh).1 hi)
  | enterMemoryMapped =>
    rw [exec_enterMemoryMapped_directIf] at he ⊢
    refine h.directIf he hb (by rw [State.enterMapped, (s.apply_only _ _ _ (by simp)).host]; exact hport)
      (fun hcw hh hi => ?_)
    unfold State.enterMapped at hi ⊢
    rw [hcfg]
    exact h.applyFree (by simp) hcw hc hh hi

/-- Settles O38: an instruction by `State.Paced.exec`, and an occupied block by `State.Paced.resume`, whose first step is
counted with those that follow it. -/
theorem paceDoesNotMatter : Obligations.PaceDoesNotMatter := by
  intro s s' t hcw hc hport h hb
  refine ⟨fun i he => ?_, fun hbusy he => ?_⟩
  · obtain ⟨t', ⟨n, u, hu, hn⟩, ht⟩ := h.exec hc hport he hb
    exact ⟨u, n, t', hu, hn, ht⟩
  · rw [step_occupied hcw hport hbusy] at he
    obtain ⟨-, rfl⟩ := State.outcome_next he
    obtain ⟨t', ⟨n, u, hu, hn⟩, ht⟩ := h.resume hcw hc hport hb
    have hstep : step s' = .next u := by
      rw [step_occupied (by rw [h.cfg]; exact hcw) (by rw [h.host]; exact hport) (by rw [h.busy]; exact hbusy)]
      exact hu
    exact ⟨n + 1, t', by simp only [State.goesOn, hstep, hn], ht⟩

end Sys2Proof.Machine

/-! SUPPORT. The family `10_state.md`: what no step changes (R60, R61), a power cycle of the chip (R59, R103, R342), and
the machine right after reset and the invariant `coherent` through every step (R32, R59, R80, R93). -/

namespace Sys2Proof.Machine

open Sys2Proof

/-! ### What the block never changes: the configuration and the lent buffer (R60, R61) -/

/-- `t` has the configuration of `s`, and the buffer HOST lends lies where it did and holds what it held (R60, R61). -/
structure Fixed (s t : State) : Prop where
  cfg      : t.cfg = s.cfg
  buffer   : t.host.buffer = s.host.buffer
  bufferAt : t.host.bufferAt = s.host.bufferAt

theorem Fixed.trans {s t u : State} (h1 : Fixed s t) (h2 : Fixed t u) : Fixed s u :=
  ⟨h2.cfg.trans h1.cfg, h2.buffer.trans h1.buffer, h2.bufferAt.trans h1.bufferAt⟩

theorem Fixed.of_host {s t : State} (hc : t.cfg = s.cfg) (hh : t.host = s.host) : Fixed s t :=
  ⟨hc, by rw [hh], by rw [hh]⟩

theorem ChipOnly.fixed {s t : State} (h : ChipOnly s t) : Fixed s t := .of_host h.cfg h.host

theorem PollOnly.fixed {s t : State} (h : PollOnly s t) : Fixed s t := .of_host h.cfg h.host

theorem LinesOnly.fixed {s t : State} (h : LinesOnly s t) : Fixed s t := ⟨h.cfg, by rw [h.host], by rw [h.host]⟩

theorem State.apply_fixed {tr : Transaction} {fm : FunctionalMode} {om : OperatingMode} {s : State}
    (hfm : fm ≠ .uninitialized) : Fixed s (s.apply tr fm om) := (s.apply_only tr fm om hfm).poll.fixed

theorem State.enterMapped_fixed (s : State) : Fixed s s.enterMapped := by
  unfold State.enterMapped
  exact State.apply_fixed (by simp)

theorem State.present_fixed (a : HostAction) (s : State) : Fixed s (s.present a) := by
  obtain ⟨x, n, e⟩ := s.present_eq a
  rw [e]
  exact ⟨rfl, rfl, rfl⟩

theorem State.request_fixed {op : Op} {addr len : Word32} {s t : State} (h : s.request op addr len = .next t) :
    Fixed s t := by
  obtain ⟨-, -, -, -, -, rfl, -⟩ := State.request_next h
  exact Fixed.trans (t := s.accept op addr len) ⟨rfl, rfl, rfl⟩ State.run_only.fixed

theorem State.directApply_fixed {tr : Transaction} {fm : FunctionalMode} {om : OperatingMode} {s t : State}
    (h : s.directApply tr fm om = .next t) : Fixed s t := by
  obtain ⟨-, -, hmay, rfl, -⟩ := State.directApply_next h
  exact State.apply_fixed (State.mayApply_fm hmay)

theorem State.directIf_fixed {may : CR → Bool} {run : State → State} {s t : State} (hrun : Fixed s (run s))
    (h : s.directIf may run = .next t) : Fixed s t := by
  obtain ⟨-, -, -, rfl⟩ := State.directIf_next h
  exact hrun

/-- No instruction changes the configuration or the lent buffer. -/
theorem exec_fixed {i : Instr} {s t : State} (h : exec i s = .next t) : Fixed s t := by
  cases i with
  | init => exact State.request_fixed h
  | merase => exact State.request_fixed h
  | serase a => exact State.request_fixed h
  | write d n => exact State.request_fixed h
  | rdsr => exact State.directApply_fixed h
  | wren => exact State.directApply_fixed h
  | ce => exact State.directApply_fixed h
  | se a => exact State.directApply_fixed h
  | pp a n => exact State.directApply_fixed h
  | read => exact State.directApply_fixed h
  | eqpi => exact State.directApply_fixed h
  | apply tr fm om => exact State.directApply_fixed h
  | widthFor om =>
    cases h
    exact ⟨rfl, rfl, rfl⟩
  | waitUntilReady max =>
    rw [exec_waitUntilReady_directIf] at h
    exact State.directIf_fixed (s.waitUntilReady_only max).fixed h
  | enterMemoryMapped =>
    rw [exec_enterMemoryMapped_directIf] at h
    exact State.directIf_fixed s.enterMapped_fixed h

/-- Where a mapped read leads: the chip looked at, with free values where it does not answer, and the bytes delivered to
HOST (R83). -/
theorem State.mappedRead_delivers {a n : Nat} {s t : State} (h : s.mappedRead a n = .next t) :
    ∃ u o d, ChipOnly s u ∧ t = u.deliverMapped o d := by
  unfold State.mappedRead at h
  split at h
  · cases h
  · split at h
    · cases h
    · dsimp only at h
      split at h
      · cases h
        exact ⟨_, _, _, (s.chipSettle_only.trans (State.chipUnknown_only _)).trans (State.drawBytes_only _ _), rfl⟩
      · cases h
        exact ⟨_, _, _, s.chipSettle_only, rfl⟩

theorem State.mappedRead_fixed {a n : Nat} {s t : State} (h : s.mappedRead a n = .next t) : Fixed s t := by
  obtain ⟨u, o, d, hu, rfl⟩ := State.mappedRead_delivers h
  exact hu.fixed.trans ⟨rfl, rfl, rfl⟩

theorem State.resetBlock_fixed (s : State) : Fixed s s.resetBlock := by
  unfold State.resetBlock
  dsimp only
  split <;> exact ⟨rfl, rfl, rfl⟩

/-- A power cycle of the chip changes the chip, and the draws where it was at work (R342). -/
theorem State.powerCycleChip_only (s : State) : ChipOnly s s.powerCycleChip := by
  unfold State.powerCycleChip
  dsimp only
  split <;> exact ⟨rfl, rfl, rfl, rfl⟩

/-- A buffer is lent to a block that is not occupied, and nothing else changes (R61). -/
theorem State.lend_next {ad : Nat} {d : List Byte} {s t : State} (h : s.lend ad d = .next t) :
    s.busy = false ∧ t = { s with host := { s.host with buffer := d, bufferAt := ad } } := by
  unfold State.lend at h
  split at h
  · cases h
  next hb =>
    cases h
    exact ⟨by simpa using hb, rfl⟩

/-- An action changes neither the configuration nor the lent buffer, but where it lends another to a block that is not
occupied (R60, R61). -/
theorem perform_fixed {a : HostAction} {s t : State} (h : perform a s = .next t) :
    Fixed s t ∨ (s.busy = false ∧ t.cfg = s.cfg ∧ a = .lend t.host.bufferAt t.host.buffer) := by
  unfold perform at h
  split at h
  · cases a with
    | lend ad d =>
      obtain ⟨hb, rfl⟩ := State.lend_next h
      exact Or.inr ⟨hb, rfl, rfl⟩
    | mappedRead ad n => exact Or.inl (State.mappedRead_fixed h)
    | mappedWrite ad v => cases h
    | resetBlock => cases h; exact Or.inl s.resetBlock_fixed
    | powerCycleChip => cases h; exact Or.inl s.powerCycleChip_only.fixed
    | request bs => cases h; exact Or.inl ⟨rfl, rfl, rfl⟩
    | transaction bs => cases h; exact Or.inl ⟨rfl, rfl, rfl⟩
    | call i => cases h; exact Or.inl ⟨rfl, rfl, rfl⟩
  · exact Or.inl ((s.present_fixed a).trans (exec_fixed h))
  · cases h

/-- A step changes neither the configuration nor the lent buffer, but where HOST's action lends another to a block that is
not occupied (R60, R61). -/
theorem step_fixed {s t : State} (h : step s = .next t) :
    Fixed s t ∨ (s.busy = false ∧ t.cfg = s.cfg ∧ s.takes (.lend t.host.bufferAt t.host.buffer)) := by
  obtain ⟨-, ⟨a, hport, hgo⟩ | ⟨-, -, rfl, -⟩ | ⟨a, rest, hport, hb, hprog, hgo⟩ | ⟨-, -, -, rfl⟩⟩ := step_cases h
  · rcases perform_fixed hgo with hf | ⟨hb, hc, rfl⟩
    · exact Or.inl (Fixed.trans (t := s.takePort) ⟨rfl, rfl, rfl⟩ hf)
    · exact Or.inr ⟨hb, hc, Or.inl hport⟩
  · exact Or.inl s.resume_only.fixed
  · rcases perform_fixed hgo with hf | ⟨-, hc, rfl⟩
    · exact Or.inl (Fixed.trans (t := s.takeProgram rest) ⟨rfl, rfl, rfl⟩ hf)
    · exact Or.inr ⟨hb, hc, Or.inr ⟨hport, hb, by rw [hprog]; rfl⟩⟩
  · exact Or.inl ⟨rfl, rfl, rfl⟩

/-- Settles O46: the lent buffer's part of `step_fixed`. -/
theorem bufferIsOnlyBorrowed : Obligations.BufferIsOnlyBorrowed := by
  intro s t h
  rcases step_fixed h with hf | ⟨hb, -, htakes⟩
  · exact Or.inl ⟨hf.buffer, hf.bufferAt⟩
  · exact Or.inr ⟨hb, htakes⟩

/-- Settles O56: the configuration's part of `step_fixed`. -/
theorem configurationNeverChanges : Obligations.ConfigurationNeverChanges := by
  intro s t h
  rcases step_fixed h with hf | ⟨-, hc, -⟩
  · exact hf.cfg
  · exact hc

/-! ### A power cycle of the chip (R59, R103, R342) -/

/-- The chip after a power cycle: as after power-up, with the array it held, and that array a free value where an
operation was cut short (R59, R103, U17). -/
theorem State.powerCycleChip_flash (s : State) :
    s.powerCycleChip.flash =
      { Flash.powerUp with
        array := if s.flash.wip then Memory.ofCells s.cfg.flashSize (Config.freeCells s.env.n) else s.flash.array
        work  := s.flash.work } := by
  unfold State.powerCycleChip
  dsimp only
  split <;> rfl

/-- Settles O55: the step is the power cycle; `powerCycleChip_flash` says what it makes of the chip, and
`powerCycleChip_only` that it leaves everything else. -/
theorem chipPowerCycle : Obligations.ChipPowerCycle := by
  intro s hcw hport
  have honly := s.takePort.powerCycleChip_only
  have hflash := s.takePort.powerCycleChip_flash
  refine ⟨s.takePort.powerCycleChip, step_port hcw hport, by rw [hflash]; rfl, by rw [hflash]; rfl, by rw [hflash]; rfl,
    by rw [hflash]; rfl, fun hwip => ?_, honly.fm, honly.seq, honly.cr, honly.ctrl, honly.tr, honly.cfg, honly.host⟩
  rw [hflash]
  exact if_neg (by rw [State.takePort_flash, hwip]; simp)

/-! ### Reset (R59, R340) -/

/-- Settles O53: the reset values as the model writes them. -/
theorem resetValues : Obligations.ResetValues := ⟨rfl, rfl, rfl, rfl, rfl, rfl⟩

/-- Right after reset nothing is under way and the array lists no cell (R32, R59, R80, R93). -/
theorem State.reset_coherent : State.reset.coherent :=
  (State.coherent_iff _).mpr ⟨Or.inl rfl, fun hp => absurd rfl hp, State.transferAgrees_of_idle rfl rfl rfl rfl,
    ⟨⟨rfl, rfl⟩, rfl, rfl⟩, trivial⟩

/-- Right after reset the sequencer is idle and `FM` is `Uninitialized`, with no response (R59, R244). -/
theorem State.reset_position : State.reset.position := State.position_idle rfl rfl (Or.inl rfl) trivial

/-- Right after reset HOST has nothing to do (R341). -/
theorem State.reset_hostOnly : State.reset.hostOnly :=
  ⟨fun _ h => absurd h (by simp [State.reset]), fun _ h => absurd h (by simp [State.reset])⟩

/-- Settles O58: `disciplined` is `coherent`, the position, and HOST's restraint, each of which holds at reset. -/
theorem resetMeetsTheInvariants : Obligations.ResetMeetsTheInvariants := by
  obtain ⟨hidle, hline, hresult, hreturn, hheld⟩ := State.reset_position
  exact ⟨State.reset_coherent, State.reset_coherent, hidle, hline, hresult, hreturn, State.reset_hostOnly, hheld⟩

/-! ### The invariant `coherent` through every step (R32, R80, R93, R98, R105) -/

theorem State.takePort_coherent {s : State} (h : s.coherent) : s.takePort.coherent :=
  State.coherent_of_eq rfl rfl rfl rfl rfl rfl rfl rfl h

theorem State.takeProgram_coherent {s : State} (rest : List HostAction) (h : s.coherent) :
    (s.takeProgram rest).coherent :=
  State.coherent_of_eq rfl rfl rfl rfl rfl rfl rfl rfl h

/-- Settles O59: an action of HOST's keeps the invariant by `perform_coherent`, the block going on by
`State.resume_coherent`; those are the ways a step can lead anywhere. -/
theorem everyStepKeepsCoherence : Obligations.EveryStepKeepsCoherence := by
  intro s t h hstep
  obtain ⟨hcw, ⟨a, -, hgo⟩ | ⟨-, -, rfl, -⟩ | ⟨a, rest, -, -, -, hgo⟩ | ⟨-, -, -, rfl⟩⟩ := step_cases hstep
  · exact perform_coherent (s := s.takePort) hcw (State.takePort_coherent h) hgo
  · exact State.resume_coherent hcw h
  · exact perform_coherent (s := s.takeProgram rest) hcw (State.takeProgram_coherent rest h) hgo
  · exact h

end Sys2Proof.Machine

/-! SUPPORT. The family `20_memory.md`: the array under a write, an erase and a program (R80, R101, R102), the chip and the
frames it understands (R99 to R104), what the flash commands leave of the array, the waits inside `apply` (R105, R185), and
the memory-mapped window (R82 to R85, R357). -/

namespace Sys2Proof.Machine

open Sys2Proof

/-! ### The array (R80, R81, R101, R102) -/

/-- Settles O47: `read_write_same` where the byte was stored, `read_write_other` elsewhere. -/
theorem arrayWriteThenRead : Obligations.ArrayWriteThenRead := by
  intro m a b v hm
  refine ⟨?_, Memory.wf_write hm⟩
  split
  next hb => rw [hb]; exact Memory.read_write_same hm
  next hb => exact Memory.read_write_other hb

/-- The offsets of the sector that contains `a` are those with the same sector number (R81). -/
theorem sector_offsets {n a b : Nat} (hn : 1 ≤ n) : (a - a % n ≤ b ∧ b < a - a % n + n) ↔ b / n = a / n := by
  have hstart : a - a % n = a / n * n := by have := Nat.div_add_mod' a n; omega
  rw [hstart, Nat.div_eq_iff hn]
  omega

/-- A finished operation that is known leaves its result on the array it found (R101, R102). -/
theorem State.chipComplete_array {s : State} {p : Pending} (hp : s.flash.pending = p) (hn : p ≠ .nothing)
    (hu : p ≠ .unknown) : s.chipComplete.flash.array = p.result s.cfg s.flash.found := by
  rw [State.chipComplete_known (by rw [hp]; exact hu)]
  show s.flash.outcome s.cfg = _
  unfold Flash.outcome
  rw [hp]
  cases p with
  | nothing => exact absurd rfl hn
  | unknown => exact absurd rfl hu
  | chipErase => rfl
  | sectorErase a => rfl
  | program a d => rfl

/-- Settles O48: `chipComplete_array` with `read_eraseRange` for a sector, and with the empty array for the whole chip. -/
theorem eraseEffect : Obligations.EraseEffect := by
  intro s a b hs
  obtain ⟨hwel, hwip⟩ := s.chipComplete_clear
  refine ⟨fun hp => ?_, fun hp => ?_, hwip, hwel⟩
  · rw [State.chipComplete_array hp (by simp) (by simp)]
    show Memory.read (Memory.eraseRange _ _ _) b = _
    rw [Memory.read_eraseRange]
    exact if_congr (sector_offsets hs) rfl rfl
  · rw [State.chipComplete_array hp (by simp) (by simp)]
    rfl

/-- Settles O49: `read_programFrom_at` at the offsets the program reaches, `read_programFrom_other` elsewhere. -/
theorem programEffect : Obligations.ProgramEffect := by
  intro m p a d _ hm
  refine ⟨fun i hi hlast => ?_, fun b hb => ?_, Memory.wf_program hm⟩
  · have hat := Memory.read_programFrom_at (old := m) (p := p) (a := a) (i := 0) hm hi (fun j h1 h2 => by
      have := hlast j h1 h2
      simp only [pageOffset, Nat.zero_add]
      omega)
    rwa [Nat.zero_add] at hat
  · exact Memory.read_programFrom_other (fun j _ hj => hb j (by omega))

/-! ### What the chip does with a frame (R99 to R104) -/

/-- The frame carries the destructive command whose work is `p`, at an address inside the device where it has one (R99,
R101, R102). -/
def Frame.orders (c : Config) (f : Frame) (p : Pending) : Prop :=
  (f.opcode = c.opcCe ∧ p = .chipErase)
    ∨ ∃ a, f.addr = some a ∧ a < c.flashSize
        ∧ ((f.opcode = c.opcSe ∧ p = .sectorErase a) ∨ (f.opcode = c.opcPp ∧ p = .program a f.data))

/-- What a destructive frame orders is an operation, and a known one. -/
theorem Frame.orders.known {c : Config} {f : Frame} {p : Pending} (h : Frame.orders c f p) :
    p ≠ .nothing ∧ p ≠ .unknown := by
  obtain ⟨-, rfl⟩ | ⟨a, -, -, ⟨-, rfl⟩ | ⟨-, rfl⟩⟩ := h <;> simp

/-- The opcode of a command selects it (R8, R128). -/
theorem Config.commandOfOpcode_of_eq {c : Config} {o : Byte} {cmd : Command} (hcw : c.wf = true) (ho : o = c.opcode cmd) :
    c.commandOfOpcode o = some cmd := by
  rw [ho]
  exact Config.commandOfOpcode_opcode hcw cmd

section Ready

variable {s : State} {f : Frame} (hcw : s.cfg.wf = true) (hw : s.flash.wip = false)
  (hu : s.flash.framing.understands f.iw f.aw f.dw = true) (hdir : f.dir = .write)
include hcw hw hu hdir

/-- A ready chip sets its latch on a WriteEnable frame it understands (R99). -/
theorem State.chipReceive_writeEnable (ho : f.opcode = s.cfg.opcWren) :
    s.chipReceive f = ([], { s with flash := { s.flash with wel := true } }) := by
  have hcmd := Config.commandOfOpcode_of_eq (cmd := .writeEnable) hcw ho
  rw [State.chipReceive_ready hw hu]
  simp only [State.chipExecute, hcmd, hdir]

/-- A ready chip starts the work a destructive frame orders, where its latch is set (R99, R100). -/
theorem State.chipReceive_orders {p : Pending} (h : Frame.orders s.cfg f p) :
    s.chipReceive f = ([], { s with flash := s.flash.started s.cfg p }) := by
  rw [State.chipReceive_ready hw hu]
  obtain ⟨ho, rfl⟩ | ⟨a, ha, hlt, ⟨ho, rfl⟩ | ⟨ho, rfl⟩⟩ := h
  · have hcmd := Config.commandOfOpcode_of_eq (cmd := .chipErase) hcw ho
    simp only [State.chipExecute, hcmd, hdir, State.chipStart_eq]
  · have hcmd := Config.commandOfOpcode_of_eq (cmd := .sectorErase) hcw ho
    simp only [State.chipExecute, hcmd, hdir, ha, hlt, if_true, State.chipStart_eq]
  · have hcmd := Config.commandOfOpcode_of_eq (cmd := .pageProgram) hcw ho
    simp only [State.chipExecute, hcmd, hdir, ha, hlt, if_true, State.chipStart_eq]

/-- A ready chip in single-line framing enters four-line framing on an EnableQPI frame it understands (R103). -/
theorem State.chipReceive_enableQPI (ho : f.opcode = s.cfg.opcEqpi) (hs : s.flash.framing = .single) :
    s.chipReceive f = ([], { s with flash := { s.flash with framing := .quad } }) := by
  have hcmd := Config.commandOfOpcode_of_eq (cmd := .enableQPI) hcw ho
  rw [State.chipReceive_ready hw hu]
  simp only [State.chipExecute, hcmd, hdir, hs]

end Ready

/-- A destructive frame leaves a chip alone whose latch is clear (R99). -/
theorem Flash.started_clear {c : Config} {p : Pending} {fl : Flash} (h : fl.wel = false) : fl.started c p = fl := by
  simp [Flash.started, h]

/-- A destructive frame sets a chip to work whose latch is set (R99, R100). -/
theorem Flash.started_set {c : Config} {p : Pending} {fl : Flash} (h : fl.wel = true) :
    fl.started c p = fl.startWork c p := by
  simp [Flash.started, h]

/-- Settles O50: `chipReceive_writeEnable` sets the latch, `chipReceive_orders` says what the destructive commands make of
the chip, and `chipComplete_array` what the end of the work leaves. -/
theorem writeEnableLatch : Obligations.WriteEnableLatch := by
  intro s f hcw hw hu hdir
  refine ⟨State.chipReceive_writeEnable hcw hw hu hdir, fun p hp => ?_⟩
  have hp : Frame.orders s.cfg f p := hp
  rw [State.chipReceive_orders hcw hw hu hdir hp]
  refine ⟨fun hwel => by rw [Flash.started_clear hwel], fun hwel => ?_⟩
  rw [Flash.started_set hwel]
  obtain ⟨hn, hk⟩ := hp.known
  exact ⟨rfl, rfl, rfl, fun b hb => Flash.startWork_read hb,
    State.chipComplete_array (s := { s with flash := s.flash.startWork s.cfg p }) rfl hn hk, State.chipComplete_clear _⟩

/-- Looking at the chip takes none of the answers for its status bits. -/
theorem State.chipSettle_status (s : State) : s.chipSettle.env.status = s.env.status := by
  unfold State.chipSettle
  split
  · dsimp only
    split
    · unfold State.chipComplete
      dsimp only
      split <;> rfl
    · rfl
  · rfl

/-- The bits of a status byte other than `BUSY_BIT` are those of the draw (R104). -/
theorem statusByte_getLsbD_other {k : Fin 8} {w : Bool} {x : Byte} {i : Nat} (h : i ≠ k.val) :
    (statusByte k w x).getLsbD i = x.getLsbD i := by
  have hbit : (BitVec.twoPow 8 k.val).getLsbD i = false := by
    rw [BitVec.getLsbD_twoPow]
    simp [h.symm]
  cases w with
  | true => simp [statusByte, hbit]
  | false =>
    have hout : 8 ≤ i → x.getLsbD i = false := x.getLsbD_of_ge i
    by_cases hi : i < 8
    · simp only [statusByte, Bool.false_eq_true, if_false, BitVec.getLsbD_and, BitVec.getLsbD_not, hbit, hi, decide_true,
        Bool.not_false, Bool.and_true]
    · simp [statusByte, hout (by omega)]

/-- A status read is answered by a chip that understands it, busy or not (R100, R104). -/
theorem State.chipReceive_status {s : State} {f : Frame} (hcw : s.cfg.wf = true)
    (hu : s.flash.framing.understands f.iw f.aw f.dw = true) (ho : f.opcode = s.cfg.opcRdsr) (hdir : f.dir = .read) :
    s.chipReceive f = s.chipSettle.chipStatus f := by
  have hcfg := s.chipSettle_only.cfg
  have hcmd := Config.commandOfOpcode_of_eq (cmd := .readStatusRegister) hcw ho
  have hread : s.chipSettle.isStatusRead f = true := by simp [State.isStatusRead, hcfg, ho, hdir]
  have hexec : s.chipSettle.chipExecute f = s.chipSettle.chipStatus f := by
    simp only [State.chipExecute, hcfg, hcmd, hdir]
  simp [State.chipReceive, State.chipSettle_framing, hu, hread, hexec]

/-- Settles O51: the answer is `chipStatus` of the chip as looked at, whose byte `statusBusy_statusByte` and
`statusByte_getLsbD_other` read bit by bit. -/
theorem statusByteOfTheChip : Obligations.StatusByteOfTheChip := by
  intro s f o os hcw hu ho hdir hlen hst
  have hcfg := s.chipSettle_only.cfg
  have hdraw : s.chipSettle.drawStatus.1 = o := by
    simp [State.drawStatus, drawFrom, State.chipSettle_status, hst]
  rw [State.chipReceive_status hcw hu ho hdir]
  refine ⟨statusByte s.cfg.busyBit s.chipSettle.flash.wip o, ?_, statusBusy_statusByte _ _ _,
    fun k hk => statusByte_getLsbD_other hk, rfl⟩
  simp only [State.chipStatus, hlen, hdraw, hcfg, List.replicate_one]

/-- Settles O52: the two framings by their definition, EnableQPI by `chipReceive_enableQPI`. -/
theorem framingOfTheChip : Obligations.FramingOfTheChip := by
  intro s f hcw hw
  refine ⟨fun aw dw => ?_, fun aw dw => ?_, fun ho hdir hiw hs => ?_⟩
  · simp [Framing.understands]
  · simp [Framing.understands, and_assoc]
  · exact State.chipReceive_enableQPI hcw hw (by simp [hs, hiw, Framing.understands]) hdir ho hs

/-! ### What the flash commands leave of the array (R99 to R104, R200 to R206) -/

/-- A destructive frame leaves a byte alone where the latch is clear or the work is not at that byte (R99 to R102). -/
theorem Flash.started_read {c : Config} {p : Pending} {fl : Flash} {a : Nat}
    (h : fl.wel = false ∨ p.touches c a = false) : Memory.read (fl.started c p).array a = Memory.read fl.array a := by
  unfold Flash.started
  split
  next hwel => exact Flash.startWork_read (h.resolve_left (by simp [hwel]))
  next => rfl

/-- A SectorErase does not work in another sector (R101). -/
theorem touches_sectorErase {c : Config} {a x : Nat} (hs : 1 ≤ c.sectorSize) (h : a / c.sectorSize ≠ x / c.sectorSize) :
    (Pending.sectorErase x).touches c a = false := by
  rw [Ne, ← sector_offsets hs] at h
  simp only [Pending.touches, Bool.and_eq_false_iff, decide_eq_false_iff_not]
  omega

/-- The frame of an indirect write changes no byte at `a` of the chip the call finds. -/
def State.FrameSpares (s : State) (t : Transaction) (om : OperatingMode) (a : Nat) : Prop :=
  ∀ (u : State) (d : List Byte), u.cfg = s.cfg → u.flash = s.flash → d.length ≤ t.dataLength.toNat →
    Memory.read (u.chipReceive { launchedFrame s.cfg t om .write with data := d }).2.flash.array a
      = Memory.read s.flash.array a

/-- A byte that the frame of an indirect write spares, the call spares, whether or not it has returned (R98, R105). -/
theorem State.FrameSpares.apply {s : State} {t : Transaction} {om : OperatingMode} {a : Nat} (h : s.FrameSpares t om a)
    (hcalm : s.calm) : Memory.read (s.apply t .indirectWrite om).flash.array a = Memory.read s.flash.array a := by
  have hF : Carries s.cfg (launchedFrame s.cfg t om .write) (· = s.flash)
      (fun fl _ => Memory.read fl.array a = Memory.read s.flash.array a) :=
    ⟨rfl, fun e => absurd e (by simp [launchedFrame]), fun u d hcfg hfl hd _ _ _ => h u d hcfg hfl hd⟩
  exact (State.apply_write_underway hcalm hF rfl).1.flash
    (R := fun fl => Memory.read fl.array a = Memory.read s.flash.array a) (fun _ e => by rw [e]) (fun _ _ e => e)

theorem State.FrameSpares.writeEnable {s : State} {a : Nat} (hcw : s.cfg.wf = true) (hr : s.chipReady) :
    s.FrameSpares (Transaction.send .writeEnable) s.cfg.omDefault a := by
  intro u d hcfg hfl _
  rw [State.receive_writeEnable hcw hr hcfg hfl d]

theorem State.FrameSpares.enableQPI {s : State} {a : Nat} (hcw : s.cfg.wf = true) (hw : s.flash.wip = false)
    (hs : s.flash.framing = .single) : s.FrameSpares (Transaction.send .enableQPI) .single a := by
  intro u d hcfg hfl _
  rw [State.receive_enableQPI hcw hw hs hcfg hfl d]

theorem State.FrameSpares.chipErase {s : State} {a : Nat} (hcw : s.cfg.wf = true) (hr : s.chipReady)
    (hwel : s.flash.wel = false) : s.FrameSpares (Transaction.send .chipErase) s.cfg.omDefault a := by
  intro u d hcfg hfl _
  rw [State.receive_chipErase hcw hr hcfg hfl d]
  exact Flash.started_read (Or.inl hwel)

theorem State.FrameSpares.sectorErase {s : State} {x : Addr24} {a : Nat} (hcw : s.cfg.wf = true) (hr : s.chipReady)
    (hx : x.toNat < s.cfg.flashSize)
    (h : s.flash.wel = false ∨ a / s.cfg.sectorSize ≠ x.toNat / s.cfg.sectorSize) :
    s.FrameSpares (Transaction.sectorErase x) s.cfg.omDefault a := by
  intro u d hcfg hfl _
  rw [State.receive_sectorErase hcw hr hx hcfg hfl d]
  exact Flash.started_read (h.imp_right (touches_sectorErase (Config.wf_sectorSize hcw)))

theorem State.FrameSpares.pageProgram {s : State} {x : Addr24} {off n : Word32} {a : Nat} (hcw : s.cfg.wf = true)
    (hr : s.chipReady) (hx : x.toNat < s.cfg.flashSize) (hpage : x.toNat % s.cfg.pageChunk + n.toNat ≤ s.cfg.pageChunk)
    (h : s.flash.wel = false ∨ a < x.toNat ∨ x.toNat + n.toNat ≤ a) :
    s.FrameSpares (Transaction.pageProgram x off n) s.cfg.omDefault a := by
  intro u d hcfg hfl hd
  rw [State.receive_pageProgram hcw hr hx hcfg hfl d]
  exact Flash.started_read (h.imp_right (touches_program hd hpage))

/-- A status read leaves a ready chip alone, whether or not it has returned (R104). -/
theorem State.readStatus_flash {s : State} (hcw : s.cfg.wf = true) (hcalm : s.calm) (hr : s.chipReady) :
    s.readStatus.flash = s.flash := by
  obtain ⟨hw, hframed⟩ := hr
  have hF : Carries s.cfg (launchedFrame s.cfg Transaction.readStatus s.cfg.omDefault .read) (· = s.flash)
      (fun fl _ => fl = s.flash) := by
    refine ⟨rfl, fun _ => rfl, fun u d hcfg hfl _ _ _ _ => ?_⟩
    rw [State.chipReceive_status (by rw [hcfg]; exact hcw)
      (by rw [hfl]; exact State.framed_understands hframed Transaction.readStatus .read) (by rw [hcfg]; rfl) rfl,
      State.chipSettle_ready (by rw [hfl]; exact hw)]
    exact hfl
  exact (State.apply_read_underway rfl hcalm hF rfl).1.flash (R := (· = s.flash)) (fun _ e => e) (fun _ _ e => e)

/-- The restoration step sends no frame, and leaves the chip alone (R108, R246). -/
theorem State.enterMapped_flash {s : State} (hp : s.seq.phase = .idle) : s.enterMapped.flash = s.flash := by
  rw [State.enterMapped_eq hp]

/-- A sector erase in its contract is at an address inside the device (R182). -/
theorem sectorErase_inside {c : Config} {x : Addr24} {om : OperatingMode}
    (h : (Transaction.sectorErase x).wf c .indirectWrite om = true) : x.toNat < c.flashSize := by
  simp only [Transaction.wf, Bool.and_eq_true] at h
  obtain ⟨⟨⟨⟨hin, -⟩, -⟩, -⟩, -⟩ := h
  exact of_decide_eq_true hin

/-- A page program in its contract is at an address inside the device and within one page (R88, R182). -/
theorem pageProgram_inside {c : Config} {x : Addr24} {off n : Word32} {om : OperatingMode}
    (h : (Transaction.pageProgram x off n).wf c .indirectWrite om = true) :
    x.toNat < c.flashSize ∧ x.toNat % c.pageChunk + n.toNat ≤ c.pageChunk := by
  simp only [Transaction.wf, Bool.and_eq_true] at h
  obtain ⟨⟨⟨⟨hin, -⟩, -⟩, -⟩, hpage⟩ := h
  have hpage : Transaction.withinPage c x n = true := hpage
  simp only [Transaction.withinPage, Bool.and_eq_true] at hpage
  obtain ⟨-, hfits⟩ := hpage
  exact ⟨of_decide_eq_true hin, of_decide_eq_true hfits⟩

/-- A direct call of `apply` that answers a next state is that `apply`, of a transaction in its contract (R182). -/
theorem State.directApply_wf {tr : Transaction} {fm : FunctionalMode} {om : OperatingMode} {s t : State}
    (h : s.directApply tr fm om = .next t) : tr.wf s.cfg fm om = true ∧ t = s.apply tr fm om := by
  obtain ⟨-, -, hmay, rfl, -⟩ := State.directApply_next h
  simp only [State.mayApply, Bool.and_eq_true] at hmay
  obtain ⟨⟨hwf, -⟩, -⟩ := hmay
  exact ⟨hwf, rfl⟩

/-- Settles O20: each command is one call of `apply`; its frame spares the byte, or it sends none. -/
theorem commandsLeaveArray : Obligations.CommandsLeaveArray := by
  intro i s t a hcw hcalm hw hchip he hrange
  cases i with
  | rdsr =>
    obtain ⟨-, rfl⟩ := State.directApply_wf he
    exact congrArg (fun fl => Memory.read fl.array a) (State.readStatus_flash hcw hcalm ⟨hw, hchip⟩)
  | wren =>
    obtain ⟨-, rfl⟩ := State.directApply_wf he
    exact (State.FrameSpares.writeEnable hcw ⟨hw, hchip⟩).apply hcalm
  | ce =>
    obtain ⟨-, rfl⟩ := State.directApply_wf he
    exact (State.FrameSpares.chipErase hcw ⟨hw, hchip⟩ hrange).apply hcalm
  | se x =>
    obtain ⟨hwf, rfl⟩ := State.directApply_wf he
    exact (State.FrameSpares.sectorErase hcw ⟨hw, hchip⟩ (sectorErase_inside hwf) hrange).apply hcalm
  | pp x n =>
    obtain ⟨hwf, rfl⟩ := State.directApply_wf he
    obtain ⟨hx, hpage⟩ := pageProgram_inside hwf
    exact (State.FrameSpares.pageProgram hcw ⟨hw, hchip⟩ hx hpage hrange).apply hcalm
  | eqpi =>
    obtain ⟨-, rfl⟩ := State.directApply_wf he
    exact (State.FrameSpares.enableQPI hcw hw hchip).apply hcalm
  | read =>
    obtain ⟨-, rfl⟩ := State.directApply_wf he
    exact congrArg (fun fl => Memory.read fl.array a) (State.enterMapped_flash hcalm.1)
  | enterMemoryMapped =>
    rw [exec_enterMemoryMapped_directIf] at he
    obtain ⟨-, -, -, rfl⟩ := State.directIf_next he
    rw [State.enterMapped_flash hcalm.1]
  | init => exact hchip.elim
  | merase => exact hchip.elim
  | serase x => exact hchip.elim
  | write d n => exact hchip.elim
  | widthFor om => exact hchip.elim
  | apply tr fm om => exact hchip.elim
  | waitUntilReady max => exact hchip.elim

/-! ### The waits inside `apply` (R105, R106, R185, R361) -/

/-- A call that its wait does not lift stays where it is, and so does the block (R185, R361). -/
theorem State.resume_waiting {s u : State} (hu : s.finishApply = u) (hp : s.seq.phase ≠ .idle)
    (hpu : u.seq.phase ≠ .idle) : s.resume = u := by
  have hcall : s.resumeCall = u := by
    unfold State.resumeCall
    rw [hu]
    cases s.seq.waiting with
    | none => rfl
    | some max => exact if_pos hpu
  rw [State.resume_held (by simp [State.held, hp]), hcall, if_pos (by simp [State.held, hpu])]

/-- What a wait leaves that CTRL does not lift: an answer drawn, and at step 7 one more get of `CR.BUSY` (R181, R185). -/
def State.unlifted (s : State) (rest : List Bool) : State :=
  { s with
    env := { s.env with lift := rest }
    log := if s.seq.phase = .await then .getBusy true :: s.log else s.log }

/-- A wait is passed only by a step of CTRL (R185, R361). -/
theorem State.waitOnce_unlifted {s : State} {rest : List Bool} (hc : s.coherent) (hl : s.env.lift = false :: rest)
    (hpush : ∀ i, s.seq.phase = .push i → s.tr.data.byte s i ≠ none)
    (hpop : ∀ i, s.seq.phase = .pop i → s.ctrl.fifo = []) (hp : s.seq.phase ≠ .idle) : s.waitOnce = (false, s.unlifted rest) := by
  have hdraw : s.drawLift = (false, { s with env := { s.env with lift := rest } }) := by
    simp [State.drawLift, drawFrom, hl]
  cases hphase : s.seq.phase with
  | idle => exact absurd hphase hp
  | push i =>
    obtain ⟨b, hb⟩ := Option.ne_none_iff_exists'.mp (hpush i hphase)
    simp [State.waitOnce, hphase, hb, hdraw, State.unlifted]
  | pop i => simp [State.waitOnce, hphase, hpop i hphase, hdraw, State.unlifted]
  | await =>
    have hfmode := State.coherent_fmode hc hp
    obtain ⟨-, -, ht, -⟩ := hc
    obtain ⟨-, -, hbusy, -⟩ := State.transferAgrees_await ht hphase
    rw [State.waitOnce_awaiting hphase hfmode, hdraw]
    simp [hbusy, State.unlifted, hphase, State.emit]

/-- Settles O23: `finishApply` makes one step of the wait, which `readsWindow_stuck` and `waitOnce_unlifted` say leads
nowhere. -/
theorem waitsHoldUntilControllerSteps : Obligations.WaitsHoldUntilControllerSteps := by
  intro s rest hcw hc hp hport
  have hstep := step_occupied hcw hport (by simp [State.busy, State.held, hp])
  refine ⟨fun hwin => ?_, fun hwin hl hpush hpop => ?_⟩
  · rw [hstep, State.resume_waiting (State.readsWindow_stuck hwin) hp hp]
    exact State.outcome_window hwin
  · have hfin : s.finishApply = s.unlifted rest := by
      unfold State.finishApply
      rw [State.waitMany_step (k := s.tr.dataLength.toNat + 3) hp, State.waitOnce_unlifted hc hl hpush hpop hp]
      rfl
    rw [hstep, State.resume_waiting hfin hp hp]
    exact State.outcome_clear (s := s.unlifted rest) hwin

/-! ### The memory-mapped window (R82 to R85, R357) -/

/-- An action HOST takes is performed, from the port or from the program, on a state that differs in HOST alone (R11). -/
theorem step_takes {s : State} {a : HostAction} (hcw : s.cfg.wf = true) (h : s.takes a) :
    ∃ x : HostAgent, step s = perform a { s with host := x } := by
  obtain hport | ⟨hport, hb, hprog⟩ := h
  · exact ⟨_, step_port hcw hport⟩
  · obtain ⟨rest, hprog⟩ : ∃ rest, s.host.program = a :: rest := by
      cases hl : s.host.program with
      | nil => simp [hl] at hprog
      | cons b rest => rw [hl] at hprog; cases hprog; exact ⟨rest, rfl⟩
    exact ⟨_, step_program hcw hport hb hprog⟩

/-- Settles O45: the action is refused, wherever HOST takes it from. -/
theorem mappedWriteRefused : Obligations.MappedWriteRefused := by
  intro s addr v hcw h
  obtain ⟨x, hstep⟩ := step_takes hcw h
  rw [hstep]
  rfl

/-- A mapped read outside memory-mapped mode, or of an occupied block, is a fault (R84). -/
theorem State.mappedRead_outsideMode {s : State} {addr n : Nat} (h : s.fm ≠ .memoryMapped ∨ s.busy = true) :
    s.mappedRead addr n = .fault .mappedReadOutsideMode := by
  unfold State.mappedRead
  exact if_pos (by simpa using h)

section Served

variable {s : State} {addr n : Nat} (hfm : s.fm = .memoryMapped) (hb : s.busy = false)
include hfm hb

/-- A mapped read that leaves the window is a fault of its own (R82, R83). -/
theorem State.mappedRead_outsideWindow (h : addr < s.cfg.mmBase ∨ s.cfg.mmBase + s.cfg.flashSize < addr + n) :
    s.mappedRead addr n = .fault .mappedReadOutsideWindow := by
  simp [State.mappedRead, hfm, hb, h]

/-- A mapped read inside the window, of a chip that is ready and understands the read command, is served from the array
(R83, R108). -/
theorem State.mappedRead_served (hw : s.flash.wip = false) (hu : s.mappedUnderstood = true) (hlo : s.cfg.mmBase ≤ addr)
    (hhi : addr + n ≤ s.cfg.mmBase + s.cfg.flashSize) :
    s.mappedRead addr n
      = .next (s.deliverMapped (addr - s.cfg.mmBase) (Memory.readMany s.flash.array (addr - s.cfg.mmBase) n)) := by
  have hin : ¬(addr < s.cfg.mmBase ∨ s.cfg.mmBase + s.cfg.flashSize < addr + n) := by omega
  simp [State.mappedRead, hfm, hb, hin, State.chipSettle_ready hw, hw, hu]

end Served

/-- Settles O43: the action at the port is a mapped read, which `mappedRead_served` and `mappedRead_outsideWindow` give. -/
theorem mappedReadReturnsArray : Obligations.MappedReadReturnsArray := by
  intro s addr n hcw hb hfm hport
  rw [step_port hcw hport]
  refine ⟨fun hw hu hlo hhi => ?_, fun hout => ?_⟩
  · exact ⟨_, State.mappedRead_served (s := s.takePort) hfm hb hw hu hlo hhi, rfl, rfl, rfl, rfl, rfl, rfl, rfl, rfl, rfl⟩
  · exact State.mappedRead_outsideWindow (s := s.takePort) hfm hb hout

/-- An `apply` in `IndirectWrite` that sends a byte of the window is the fault of R84 (R357). -/
theorem State.directApply_window {s : State} {t : Transaction} {om : OperatingMode} {j : Nat} (h : s.receptive)
    (hen : s.cr.en = true) (hwf : t.wf s.cfg .indirectWrite om = true)
    (hcov : t.data.covers s.host.buffer t.dataLength.toNat = true) (hl : s.lets t.dataLength.toNat)
    (hj : j < t.dataLength.toNat) (hw : t.data.inWindow s.cfg s.host j = true) :
    s.directApply t .indirectWrite om = .fault .mappedReadOutsideMode := by
  obtain ⟨hcw, hb, -⟩ := h
  rw [State.directApply_runs hcw hb hen hwf hcov]
  exact State.outcome_window (State.apply_window hcov hl hj hw)

/-- A request whose preconditions hold is accepted and runs (R260, R261). -/
theorem State.request_runs {s : State} {op : Op} {addr len : Word32} (hcw : s.cfg.wf = true) (hb : s.busy = false)
    (hm : op.modeAllowed s.fm = true) (hr : op.inRange s.cfg addr len = true)
    (hd : op.dataPresent s.host.buffer len = true) :
    s.request op addr len = (State.run s.env.slice (s.accept op addr len)).outcome := by
  simp [State.request, hcw, hb, hm, hr, hd]

/-- The state at `W1` of an accepted write, before its first chunk (R277). -/
def State.writeBegun (s : State) (dest len : Word32) : State :=
  { s.accept .write dest len with
    seq := { (s.accept .write dest len).seq with off := 0, r := .ok, step := .w1 } }

/-- The first line of a write leads to `W1` (R277, R282). -/
theorem State.run_writeBegun {s : State} {dest len : Word32} {k : Nat} (hb : s.busy = false) :
    State.run (k + 1) (s.accept .write dest len) = State.run k (s.writeBegun dest len) := by
  obtain ⟨-, hp, hwait⟩ := State.busy_false hb
  have hheld : (s.accept .write dest len).held = false := by simp [State.held, hp, hwait]
  rw [State.run_succ rfl hheld, State.line_plain (s := s.accept .write dest len) hwait hp ⟨rfl, rfl⟩]
  rfl

/-- An accepted write stands ready for its first chunk, where the chip is (R61, R261, R277). -/
theorem State.writeBegun_ready {s : State} {dest len : Word32} (h : s.receptive) (hready : s.chipReady)
    (hrange : dest.toNat + len.toNat ≤ s.cfg.flashSize) (hbuf : len.toNat ≤ s.host.buffer.length) :
    WriteReady (s.writeBegun dest len) := by
  obtain ⟨hcw, hb, hcalm⟩ := h
  obtain ⟨-, -, hwait⟩ := State.busy_false hb
  exact ⟨⟨hcw, rfl, hwait, hcalm, rfl, hrange, hbuf, Nat.zero_le _⟩, hready⟩

/-- A write that comes to a byte of the window is the fault of R84, the chunks before it written (R277, R357). -/
theorem State.request_writeWindow {s : State} {dest len : Word32} {j : Nat} (h : s.receptive) (hfm : s.fm = .memoryMapped)
    (hready : s.chipReady) (hrange : dest.toNat + len.toNat ≤ s.cfg.flashSize) (hbuf : len.toNat ≤ s.host.buffer.length)
    (hmax : 1 ≤ s.cfg.maxAttempts.toNat) (hsmooth : s.smooth (7 * len.toNat + 4)) (hj : j < len.toNat)
    (hw : s.host.inWindow s.cfg j = true) : s.request .write dest len = .fault .mappedReadOutsideMode := by
  obtain ⟨hl, hdone, hslice⟩ := hsmooth
  have hbegun := State.writeBegun_ready h hready hrange hbuf
  obtain ⟨hcw, hb, -⟩ := h
  classical
  have hex : ∃ m, s.host.inWindow s.cfg m = true := ⟨j, hw⟩
  have hle : Nat.find hex ≤ j := Nat.find_min' hex hw
  have hbefore : ∀ m, m < Nat.find hex → s.host.inWindow s.cfg m = false := fun m hm => by
    simpa using Nat.find_min hex hm
  rw [State.request_runs (op := .write) hcw hb (decide_eq_true hfm) (decide_eq_true hrange) (decide_eq_true hbuf)]
  refine State.outcome_window ?_
  rw [show s.env.slice = (s.env.slice - 1 - 6 * len.toNat + 6 * len.toNat) + 1 by omega, State.run_writeBegun hb]
  exact State.run_writeWindow hbegun hmax (Nat.sub_zero _) (Nat.zero_le _)
    (lt_of_le_of_lt hle hj) (Nat.find_spec hex) hbefore (State.lets_mono (s := s) hl (by omega))
    (take_replicate_mono hdone (by omega))

/-- Settles O44: HOST's mapped read by `mappedRead_outsideMode`; the block's own read by `directApply_window` in a call
and by `request_writeWindow` in a write. -/
theorem windowReadsFault : Obligations.WindowReadsFault := by
  intro s
  refine ⟨fun addr n hcw htakes hout => ?_, fun t om j hrec hen hwf hcov hl hj hw => ?_,
    fun a n j hrec hen hwf hbuf hl hj hw => ?_, fun dest len j hrec hfm hready hrange hbuf hmax hsmooth hj hw => ?_⟩
  · obtain ⟨x, hstep⟩ := step_takes hcw htakes
    have hbusy : s.seq.state = .running ∨ s.held = true → s.busy = true := by
      rintro (h | h) <;> simp [State.busy, h]
    rw [hstep]
    exact State.mappedRead_outsideMode (s := { s with host := x }) (hout.imp_right hbusy)
  · exact State.directApply_window hrec hen hwf hcov hl hj hw
  · simp only [Instr.wf, Bool.and_eq_true, decide_eq_true_eq] at hwf
    obtain ⟨hin, hpage⟩ := hwf
    refine State.directApply_window (j := j) hrec hen (pageProgram_wf hin hpage) (decide_eq_true ?_) hl hj ?_
    · show (0 : Word32).toNat + n.toNat ≤ s.host.buffer.length
      simpa using hbuf
    · show s.host.inWindow s.cfg ((0 : Word32).toNat + j) = true
      simpa using hw
  · exact State.request_writeWindow hrec hfm hready hrange hbuf hmax hsmooth hj hw

end Sys2Proof.Machine

/-! SUPPORT. The family `30_encoding.md`: the bytes of a host request and of a transaction read back (R121, R123), the
parts of the packed word `CFG` and the rows of the opcode table (R123, R128, R129, R131), and the row of the table that a
flash command leaves in the registers (R129, R200 to R206). -/

namespace Sys2Proof.Machine

open Sys2Proof

/-! ### The host request (R121) -/

/-- The operation that a request's code `OP` selects, with the operands it uses (R121). -/
def requestInstr (code : BitVec 2) (addr len : Word32) : Instr :=
  match code with
  | 0 => .init
  | 1 => .merase
  | 2 => .serase addr
  | _ => .write addr len

/-- The decoder's tests of the code are the four operations of R121. -/
theorem requestInstr_eq (code : BitVec 2) (addr len : Word32) :
    requestInstr code addr len
      = if code = 0 then .init else if code = 1 then .merase else if code = 2 then .serase addr else .write addr len := by
  have hcode : code = 0 ∨ code = 1 ∨ code = 2 ∨ code = 3 := by revert code; decide
  obtain rfl | rfl | rfl | rfl := hcode <;> rfl

theorem decodeRequest_encodeRequest (op : Byte) (addr len : Word32) (rest : List Byte) :
    decodeRequest (encodeRequest op addr len ++ rest) = .ok (requestInstr (op.extractLsb' 0 2) addr len, rest) := by
  simp only [encodeRequest, wordBytes, List.cons_append, List.nil_append, decodeRequest, bytesWord_extract,
    requestInstr_eq]
  split_ifs <;> rfl

theorem requestFields_encodeRequest_append (op : Byte) (addr len : Word32) (rest : List Byte) :
    requestFields (encodeRequest op addr len ++ rest) = some (addr, len) := by
  simp only [encodeRequest, wordBytes, List.cons_append, List.nil_append, requestFields, bytesWord_extract]

/-- Settles O1: the words of a request are read back byte by byte; the four operations are the four codes of `OP`. -/
theorem hostRequestRoundTrip : Obligations.HostRequestRoundTrip := fun _ op addr len rest =>
  ⟨decodeRequest_encodeRequest op addr len rest, requestFields_encodeRequest_append op addr len rest,
    decodeRequest_encodeRequest 0 0 0 rest, decodeRequest_encodeRequest 1 0 0 rest,
    decodeRequest_encodeRequest 2 addr 0 rest, decodeRequest_encodeRequest 3 addr len rest⟩

/-! ### The packed word `CFG` (R123) -/

/-- `packCfg` with the sum of its parts' widths in sight, which the library's lemmas about `++` need. -/
theorem packCfg_eq_cast (f : CfgFields) :
    packCfg f = (0#4 ++ f.fmode ++ f.dmode ++ 0#1 ++ f.dcyc ++ f.absize ++ f.abmode ++ f.adsize ++ f.admode
      ++ f.imode ++ f.instr).cast rfl := rfl

/-- What stands in each part of a packed word, the reserved parts 23 and 31:28 included (R123). -/
theorem packCfg_parts (f : CfgFields) :
    (packCfg f).extractLsb' 0 8 = f.instr ∧ (packCfg f).extractLsb' 8 2 = f.imode
      ∧ (packCfg f).extractLsb' 10 2 = f.admode ∧ (packCfg f).extractLsb' 12 2 = f.adsize
      ∧ (packCfg f).extractLsb' 14 2 = f.abmode ∧ (packCfg f).extractLsb' 16 2 = f.absize
      ∧ (packCfg f).extractLsb' 18 5 = f.dcyc ∧ (packCfg f).extractLsb' 23 1 = 0#1
      ∧ (packCfg f).extractLsb' 24 2 = f.dmode ∧ (packCfg f).extractLsb' 26 2 = f.fmode
      ∧ (packCfg f).extractLsb' 28 4 = 0#4 := by
  simp (disch := omega) only [packCfg_eq_cast, BitVec.extractLsb'_cast, BitVec.extractLsb'_append_eq_of_le,
    BitVec.extractLsb'_append_eq_of_add_le, Nat.reduceSub, BitVec.extractLsb'_eq_self, and_self]

theorem unpackCfg_packCfg (f : CfgFields) : unpackCfg (packCfg f) = f := by
  simp only [unpackCfg, packCfg_parts]

/-- Bit `i` of a word is its one-bit part at `i`. -/
theorem getLsbD_eq_extractLsb' (w : BitVec 32) (i : Nat) : w.getLsbD i = (w.extractLsb' i 1).getLsbD 0 := by
  simp

/-- Settles O5: `unpackCfg` reads the parts of `packCfg_parts`. -/
theorem packedWordHoldsFields : Obligations.PackedWordHoldsFields := fun f => by
  refine ⟨unpackCfg_packCfg f, ?_, ?_⟩
  · rw [getLsbD_eq_extractLsb']
    simp only [packCfg_parts]
    rfl
  · simp only [packCfg_parts]
    rfl

/-- A word is its eleven parts, one after the other. -/
theorem word_eq_append (w : BitVec 32) :
    w = w.extractLsb' 28 4 ++ w.extractLsb' 26 2 ++ w.extractLsb' 24 2 ++ w.extractLsb' 23 1 ++ w.extractLsb' 18 5
      ++ w.extractLsb' 16 2 ++ w.extractLsb' 14 2 ++ w.extractLsb' 12 2 ++ w.extractLsb' 10 2 ++ w.extractLsb' 8 2
      ++ w.extractLsb' 0 8 := by
  simp (disch := omega) only [BitVec.extractLsb'_append_extractLsb'_eq_extractLsb']
  simp

/-- Two words with the same fields and the same reserved parts are the same word (R123). -/
theorem word_ext {v w : BitVec 32} (hfields : unpackCfg v = unpackCfg w)
    (h23 : v.extractLsb' 23 1 = w.extractLsb' 23 1) (h28 : v.extractLsb' 28 4 = w.extractLsb' 28 4) : v = w := by
  simp only [unpackCfg, CfgFields.mk.injEq] at hfields
  rw [word_eq_append v, word_eq_append w]
  simp only [hfields, h23, h28]

/-! ### The rows of the opcode table (R128, R129) -/

/-- A row fixes its opcode, the reserved bits 23 and 31:28, `FMODE` and the alternate-bytes fields; the opcode's place in
its pattern is empty, the reserved and alternate-bytes bits are 0, and `FMODE` is not code 2 (R129, R131). -/
theorem opcodeRows_fixed : ∀ r ∈ opcodeRows,
    (r.mask.extractLsb' 0 8 = BitVec.allOnes 8 ∧ r.pattern.extractLsb' 0 8 = 0)
      ∧ (r.mask.extractLsb' 23 1 = BitVec.allOnes 1 ∧ r.pattern.extractLsb' 23 1 = 0)
      ∧ (r.mask.extractLsb' 28 4 = BitVec.allOnes 4 ∧ r.pattern.extractLsb' 28 4 = 0)
      ∧ (r.mask.extractLsb' 26 2 = BitVec.allOnes 2 ∧ r.pattern.extractLsb' 26 2 ≠ 2)
      ∧ (r.mask.extractLsb' 14 4 = BitVec.allOnes 4 ∧ r.pattern.extractLsb' 14 4 = 0) := by decide

/-- Each command has one row. -/
theorem opcodeRows_command_inj : ∀ r1 ∈ opcodeRows, ∀ r2 ∈ opcodeRows, r1.command = r2.command → r1 = r2 := by decide

theorem exists_opcodeRow (cmd : Command) : ∃ r ∈ opcodeRows, r.command = cmd := by
  cases cmd <;> decide

/-- An opcode byte widened to a word has nothing above its eight bits. -/
theorem extractLsb'_opcode_high (o : Byte) {start len : Nat} (h : 8 ≤ start) :
    (o.setWidth 32).extractLsb' start len = 0#len := by
  ext i hi
  simp [BitVec.getLsbD_of_ge o (start + i) (by omega)]

theorem extractLsb'_opcode_low (o : Byte) : (o.setWidth 32).extractLsb' 0 8 = o := by
  simp [BitVec.extractLsb'_setWidth_of_le]

section
variable {c : Config} {r : OpcodeRow} {w : BitVec 32}

/-- A part above the opcode that a row fixes stands in every word of the row as in the row's pattern. -/
theorem OpcodeRow.holds_part {start len : Nat} (h : r.holds c w = true) (hs : 8 ≤ start)
    (hm : r.mask.extractLsb' start len = BitVec.allOnes len) :
    w.extractLsb' start len = r.pattern.extractLsb' start len := by
  have hpart := congrArg (BitVec.extractLsb' start len) (of_decide_eq_true h)
  simpa only [BitVec.extractLsb'_and, BitVec.extractLsb'_or, hm, extractLsb'_opcode_high _ hs, BitVec.and_allOnes,
    BitVec.or_zero] using hpart

/-- The low byte of a word of a row is the opcode parameter of the row's command (R128). -/
theorem OpcodeRow.holds_opcode (h : r.holds c w = true) (hr : r ∈ opcodeRows) :
    w.extractLsb' 0 8 = c.opcode r.command := by
  obtain ⟨⟨hm, hp⟩, -⟩ := opcodeRows_fixed r hr
  have hpart := congrArg (BitVec.extractLsb' 0 8) (of_decide_eq_true h)
  simpa only [BitVec.extractLsb'_and, BitVec.extractLsb'_or, hm, hp, extractLsb'_opcode_low, BitVec.and_allOnes,
    BitVec.ofNat_eq_ofNat, BitVec.zero_or] using hpart

/-- A packed word belongs to a row when its fields under the row's mask are the pattern's, with the opcode parameter in
`INSTR`. -/
theorem OpcodeRow.holds_of_fields {f : CfgFields} (hr : r ∈ opcodeRows)
    (h : unpackCfg (packCfg f &&& r.mask) = { unpackCfg r.pattern with instr := c.opcode r.command }) :
    r.holds c (packCfg f) = true := by
  obtain ⟨⟨-, hp0⟩, ⟨-, hp23⟩, ⟨-, hp28⟩, -⟩ := opcodeRows_fixed r hr
  refine decide_eq_true (word_ext (h.trans ?_) ?_ ?_)
  · simp [unpackCfg, BitVec.extractLsb'_or, extractLsb'_opcode_high, extractLsb'_opcode_low, hp0]
  · simp [BitVec.extractLsb'_and, BitVec.extractLsb'_or, extractLsb'_opcode_high, packCfg_parts, hp23]
  · simp [BitVec.extractLsb'_and, BitVec.extractLsb'_or, extractLsb'_opcode_high, packCfg_parts, hp28]

end

/-- Two commands with the same opcode parameter are the same command (R8, R128). -/
theorem Config.opcode_injective {c : Config} (hc : c.wf = true) {cmd1 cmd2 : Command}
    (h : c.opcode cmd1 = c.opcode cmd2) : cmd1 = cmd2 := by
  have h1 := Config.commandOfOpcode_opcode hc cmd1
  rw [h, Config.commandOfOpcode_opcode hc cmd2] at h1
  exact (Option.some.inj h1).symm

/-- Settles O3: a word's low byte is the opcode of its row, and the opcodes tell the commands apart. -/
theorem opcodeRowsDisjoint : Obligations.OpcodeRowsDisjoint := fun _ _ r1 r2 hc hr1 hr2 h1 h2 =>
  opcodeRows_command_inj r1 hr1 r2 hr2
    (Config.opcode_injective hc ((OpcodeRow.holds_opcode h1 hr1).symm.trans (OpcodeRow.holds_opcode h2 hr2)))

/-- Settles O4: every row fixes the reserved bits, `FMODE` and the alternate-bytes fields, so that a word of a row has them
as the row's pattern does. -/
theorem reservedWordsRefused : Obligations.ReservedWordsRefused := by
  intro c w hw
  simp only [commandOfCfg, Option.map_eq_none_iff, List.find?_eq_none]
  intro r hr h
  obtain ⟨-, ⟨hm23, hp23⟩, ⟨hm28, hp28⟩, ⟨hm26, hp26⟩, ⟨hm14, hp14⟩⟩ := opcodeRows_fixed r hr
  rcases hw with h23 | h28 | h26 | h14
  · rw [getLsbD_eq_extractLsb', OpcodeRow.holds_part h (by omega) hm23, hp23] at h23
    exact absurd h23 (by decide)
  · exact h28 ((OpcodeRow.holds_part h (by omega) hm28).trans hp28)
  · exact hp26 ((OpcodeRow.holds_part h (by omega) hm26).symm.trans h26)
  · exact h14 ((OpcodeRow.holds_part h (by omega) hm14).trans hp14)

/-! ### Transactions (R123, R129) -/

/-- Under the mask of its command's row, a row of R129 has the pattern's fields and the opcode: the widths, the address
size and the dummy cycles that depend on the configuration stand where the mask is 0. -/
theorem unpackCfg_tableCfg_masked (c : Config) : ∀ r ∈ opcodeRows,
    unpackCfg (packCfg (tableCfg c r.command) &&& r.mask)
      = { unpackCfg r.pattern with instr := c.opcode r.command } := by
  have hinstr : ∀ o : Byte, o &&& 255#8 = o := fun _ => BitVec.and_allOnes
  simp only [opcodeRows, List.forall_mem_cons]
  simp [unpackCfg, BitVec.extractLsb'_and, packCfg_parts, tableCfg, hinstr]

/-- The packed row of R129 of a command belongs to the command's row of the opcode table. -/
theorem OpcodeRow.holds_tableCfg (c : Config) {r : OpcodeRow} (hr : r ∈ opcodeRows) :
    r.holds c (packCfg (tableCfg c r.command)) = true :=
  OpcodeRow.holds_of_fields hr (unpackCfg_tableCfg_masked c r hr)

/-- The packed row of R129 selects its command: its own row of the opcode table holds, and no other does. -/
theorem commandOfCfg_tableCfg {c : Config} (hc : c.wf = true) (cmd : Command) :
    commandOfCfg c (packCfg (tableCfg c cmd)) = some cmd := by
  obtain ⟨r, hr, rfl⟩ := exists_opcodeRow cmd
  have hheld := OpcodeRow.holds_tableCfg c hr
  unfold commandOfCfg
  cases hfind : opcodeRows.find? (fun r' => r'.holds c (packCfg (tableCfg c r.command))) with
  | none => exact absurd hheld (List.find?_eq_none.mp hfind r hr)
  | some r' =>
    have hfound := List.find?_some hfind
    rw [opcodeRowsDisjoint c _ r' r hc (List.mem_of_find?_eq_some hfind) hr hfound hheld]
    rfl

theorem decodeTransaction_encodeCfg {c : Config} (hc : c.wf = true) (cmd : Command) (rest : List Byte) :
    decodeTransaction c (encodeCfg c cmd ++ rest) = decodeOperands cmd rest := by
  simp only [encodeCfg, wordBytes, List.cons_append, List.nil_append, decodeTransaction, bytesWord_extract,
    commandOfCfg_tableCfg hc]

/-- A 24-bit address comes back from its 32-bit operand word (R36, R130). -/
theorem addressOfWord_setWidth (a : Addr24) : addressOfWord (a.setWidth 32) = .ok a := by
  rw [addressOfWord, address_toNat, if_pos a.isLt, BitVec.setWidth_setWidth_of_le a (by omega), BitVec.setWidth_eq]

theorem decodeOperands_sectorErase (a : Addr24) (rest : List Byte) :
    decodeOperands .sectorErase (wordBytes (a.setWidth 32) ++ rest) = .ok (.se a, rest) := by
  simp only [decodeOperands, wordBytes, List.cons_append, List.nil_append, bytesWord_extract, addressOfWord_setWidth]
  rfl

theorem decodeOperands_pageProgram (a : Addr24) (n : Word32) (rest : List Byte) :
    decodeOperands .pageProgram (wordBytes n ++ wordBytes (a.setWidth 32) ++ rest) = .ok (.pp a n, rest) := by
  simp only [decodeOperands, wordBytes, List.cons_append, List.nil_append, bytesWord_extract, addressOfWord_setWidth]
  rfl

/-- Settles O2: the `CFG` word selects its command (`decodeTransaction_encodeCfg`), whose operand words are read back. -/
theorem transactionRoundTrip : Obligations.TransactionRoundTrip := by
  intro c a n rest hc
  have hcfg := decodeTransaction_encodeCfg hc
  refine ⟨hcfg .readStatusRegister rest, hcfg .writeEnable rest, hcfg .chipErase rest, ?_, ?_, hcfg .readData rest,
    hcfg .enableQPI rest⟩
  · rw [encode, List.append_assoc, hcfg, decodeOperands_sectorErase]
  · rw [encode, List.append_assoc, hcfg, decodeOperands_pageProgram]

/-- Settles O6: the words of P0 are packed and read back by evaluation. -/
theorem wordsOfTheTable : Obligations.WordsOfTheTable := by
  refine ⟨by decide, by decide, by decide, by decide, by decide, by decide, by decide, ?_, ?_, ?_, ?_, ?_⟩ <;> rfl

/-! ### The row a flash command leaves in the registers (R129, R200 to R206) -/

/-- The launch and steps 6 and 7 leave the register fields but `CR.BUSY` as steps 1 to 5 wrote them (R170). -/
theorem State.apply_registers {t : Transaction} {fm : FunctionalMode} {k : BitVec 2} (hk : fmodeCode fm = some k)
    (om : OperatingMode) (s : State) :
    (s.apply t fm om).cr.cfg = (s.cr.configured s.cfg t fm om k).cfg
      ∧ (s.apply t fm om).cr.dl = t.dataLength
      ∧ (s.apply t fm om).cr.ar = (s.cr.configured s.cfg t fm om k).ar := by
  have hwait := State.finishApply_only ((s.configure t fm om).launch fm)
  unfold State.apply
  rw [hwait.crCfg, hwait.crDl, hwait.crAr, State.configure_eq hk]
  cases fm with
  | uninitialized => exact absurd hk (by simp [fmodeCode])
  | indirectWrite => exact ⟨rfl, rfl, rfl⟩
  | indirectRead => exact ⟨rfl, rfl, rfl⟩
  | memoryMapped => exact ⟨rfl, rfl, rfl⟩

/-- A direct call that answers leaves the registers of its `apply`, whether it has returned or waits (R182). -/
theorem State.directApply_registers {tr : Transaction} {fm : FunctionalMode} {om : OperatingMode} {k : BitVec 2}
    {s t : State} (hk : fmodeCode fm = some k) (h : s.directApply tr fm om = .next t) :
    t.cr.cfg = (s.cr.configured s.cfg tr fm om k).cfg ∧ t.cr.dl = tr.dataLength
      ∧ t.cr.ar = (s.cr.configured s.cfg tr fm om k).ar := by
  obtain ⟨-, -, -, rfl, -⟩ := State.directApply_next h
  exact State.apply_registers hk om s

/-- A PageProgram that runs has a byte to send (R182, R204). -/
theorem State.pageProgram_length_pos {a : Addr24} {off n : Word32} {fm : FunctionalMode} {om : OperatingMode}
    {s t : State} (h : s.directApply (Transaction.pageProgram a off n) fm om = .next t) : 0 < n.toNat := by
  obtain ⟨-, -, hmay, -, -⟩ := State.directApply_next h
  have hpage : Transaction.withinPage s.cfg a n = true := by
    simp only [State.mayApply, Transaction.wf, Bool.and_eq_true] at hmay
    obtain ⟨⟨⟨-, hpage⟩, -⟩, -⟩ := hmay
    exact hpage
  simp only [Transaction.withinPage, Bool.and_eq_true, decide_eq_true_eq] at hpage
  omega

/-- The fields a PageProgram with a byte to send leaves are its row, the data phase included (R129). -/
theorem CR.configured_pageProgram (cr : CR) (c : Config) (a : Addr24) (off : Word32) {n : Word32} (hn : 0 < n.toNat) :
    (cr.configured c (Transaction.pageProgram a off n) .indirectWrite c.omDefault 0).cfg = tableCfg c .pageProgram := by
  simp [CR.configured, CR.cfg, tableCfg, Transaction.pageProgram, hn]

/-- Settles O10: the registers of the command's own transaction (`directApply_registers`), which are its row. -/
theorem commandsProgramTheirRow : Obligations.CommandsProgramTheirRow := by
  intro s t a n
  refine ⟨State.directApply_registers rfl, State.directApply_registers rfl, State.directApply_registers rfl,
    State.directApply_registers rfl, fun h => ?_, State.directApply_registers rfl, State.directApply_registers rfl⟩
  rw [exec_pp] at h
  rw [← s.cr.configured_pageProgram s.cfg a 0 (State.pageProgram_length_pos h)]
  exact State.directApply_registers rfl h

end Sys2Proof.Machine

/-! SUPPORT. The family `40_mode_table.md`: the rows of the Mode Table and what a call of `widthFor` leaves (R160 to R162). -/

namespace Sys2Proof.Machine

open Sys2Proof

/-- The Mode Table read backwards: the mode whose row has this line count (R161). -/
def modeOfLines : Lines → OperatingMode
  | .one  => .single
  | .two  => .dual
  | .four => .quad

theorem modeOfLines_widthFor (om : OperatingMode) : modeOfLines (widthFor om).instr = om := by
  cases om with
  | single => rfl
  | dual => rfl
  | quad => rfl

/-- No two modes have the same row: the row's instruction phase gives the mode back (R161). -/
theorem widthFor_injective : Function.Injective widthFor :=
  Function.LeftInverse.injective (g := fun w : PhaseWidths => modeOfLines w.instr) modeOfLines_widthFor

/-- Settles O7: the row delivered is `widthFor om` (`exec_widthFor`), with its line count read off mode by mode. -/
theorem widthForTable : Obligations.WidthForTable := by
  intro om s
  refine ⟨⟨widthFor om, exec_widthFor om s, ?count, widthFor_addr om, widthFor_data om, enc_widthFor_instr om⟩,
    fun _ heq => widthFor_injective heq⟩
  cases om with
  | single => rfl
  | dual => rfl
  | quad => rfl

end Sys2Proof.Machine

/-! SUPPORT. The family `41_transaction_builder.md`: the registers a call of `apply` leaves (R170 to R177), the contract of
a direct call and its refusals (R131, R182), the indirect calls that return (R178, R179, R181), and what the flash commands,
the internal operations and the host operations leave alone (R183, R260). -/

namespace Sys2Proof.Machine

open Sys2Proof

/-! ### The registers a call leaves (R170 to R177) -/

/-- The launch and steps 6 and 7 leave the register interface as steps 1 to 5 wrote it, but for CTRL's busy bit (R170). -/
theorem State.apply_cr {t : Transaction} {fm : FunctionalMode} {k : BitVec 2} (hk : fmodeCode fm = some k)
    (om : OperatingMode) (s : State) :
    (s.apply t fm om).cr = { s.cr.configured s.cfg t fm om k with busy := (s.apply t fm om).cr.busy } := by
  have hlaunch : ∃ b, ((s.configure t fm om).launch fm).cr = { s.cr.configured s.cfg t fm om k with busy := b } := by
    rw [State.configure_eq hk]
    cases fm with
    | uninitialized => exact absurd hk (by simp [fmodeCode])
    | indirectWrite => exact ⟨true, rfl⟩
    | indirectRead => exact ⟨true, rfl⟩
    | memoryMapped => exact ⟨s.cr.busy, rfl⟩
  obtain ⟨b, hb⟩ := hlaunch
  unfold State.apply
  rw [(State.finishApply_only _).same, hb]

/-- The mode of a call that has a meaning has a code in `CR.FMODE` (R125, D8). -/
theorem fmodeCode_of_ne {fm : FunctionalMode} (h : fm ≠ .uninitialized) : ∃ k, fmodeCode fm = some k := by
  cases fm with
  | uninitialized => exact absurd rfl h
  | indirectWrite => exact ⟨0, rfl⟩
  | indirectRead => exact ⟨1, rfl⟩
  | memoryMapped => exact ⟨3, rfl⟩

/-- A direct call that answers leaves the registers of its `apply`, with some code of its mode and some busy bit. -/
theorem State.directApply_cr {t : Transaction} {fm : FunctionalMode} {om : OperatingMode} {s u : State}
    (h : s.directApply t fm om = .next u) :
    ∃ k b, fmodeCode fm = some k ∧ u.cr = { s.cr.configured s.cfg t fm om k with busy := b } := by
  obtain ⟨-, -, hmay, rfl, -⟩ := State.directApply_next h
  obtain ⟨k, hk⟩ := fmodeCode_of_ne (State.mayApply_fm hmay)
  exact ⟨k, _, hk, State.apply_cr hk om s⟩

/-- The width code of a mode is never that of an absent phase (R46, R161). -/
theorem modeCode_ne_zero (om : OperatingMode) : modeCode om ≠ 0 := by
  cases om with
  | single => decide
  | dual => decide
  | quad => decide

/-- Settles O8: the instruction fields of `directApply_cr`. -/
theorem applyProgramsInstruction : Obligations.ApplyProgramsInstruction := by
  intro t fm om s u h
  obtain ⟨k, b, -, hcr⟩ := State.directApply_cr h
  rw [hcr, enc_widthFor_instr]
  exact ⟨rfl, rfl, modeCode_ne_zero om⟩

/-- Settles O9: every field by `directApply_cr`; `TR` and `FM` by `apply_tr` and `apply_fm`. -/
theorem applyProgramsRegisters : Obligations.ApplyProgramsRegisters := by
  intro t fm om s u h
  obtain ⟨k, b, hk, hcr⟩ := State.directApply_cr h
  obtain ⟨-, -, hmay, rfl, -⟩ := State.directApply_next h
  have hfm := State.mayApply_fm hmay
  have hlen : t.dataLength ≠ 0 ↔ 0 < t.dataLength.toNat := by
    rw [Nat.pos_iff_ne_zero, Ne, Ne, BitVec.toNat_eq]
    rfl
  rw [hcr]
  refine ⟨State.apply_tr hfm, State.apply_fm hfm, rfl, rfl, ?addressPhase, rfl, rfl, ?dataPhase,
    (enc_widthFor_instr om).symm, rfl, ?mode, ?address, rfl, rfl, rfl⟩
  case addressPhase =>
    cases ha : t.address with
    | none => by_cases hm : fm = .memoryMapped <;> simp [CR.configured, ha, hm, adsizeCode]
    | some a => simp [CR.configured, ha, adsizeCode]
  case dataPhase =>
    by_cases hm : fm = .memoryMapped
    · simp [CR.configured, hm]
    · by_cases hn : 0 < t.dataLength.toNat
      · rw [if_pos (Or.inl (hlen.mpr hn))]
        simp [CR.configured, hn]
      · rw [if_neg fun hphase => hphase.elim (fun h0 => hn (hlen.mp h0)) hm]
        simp [CR.configured, hn, hm]
  case mode =>
    cases fm with
    | uninitialized => exact hfm rfl
    | indirectWrite => exact (Option.some.inj hk).symm
    | indirectRead => exact (Option.some.inj hk).symm
    | memoryMapped => exact (Option.some.inj hk).symm
  case address =>
    cases ha : t.address with
    | none => simp [CR.configured, ha]
    | some a => simp [CR.configured, ha]

/-! ### The contract of a direct call (R131, R182) -/

/-- The five parts of the contract that need no state (R182). -/
theorem Transaction.wf_parts {c : Config} {t : Transaction} {fm : FunctionalMode} {om : OperatingMode}
    (h : t.wf c fm om = true) :
    t.addressInRange c = true ∧ t.dataMatchesLength = true ∧ t.rowOfTable fm = true ∧ t.shapeOfTable c om = true
      ∧ t.pageRespected c = true := by
  simpa only [Transaction.wf, Bool.and_eq_true, and_assoc] using h

theorem Transaction.dataMatchesLength_iff {t : Transaction} :
    t.dataMatchesLength = true ↔ (t.data = .absent ↔ t.dataLength = 0) := by
  simp [Transaction.dataMatchesLength]

/-- An address inside the contract is inside the device (R182). -/
theorem Transaction.addressInRange_lt {c : Config} {t : Transaction} {a : Addr24} (h : t.addressInRange c = true)
    (ha : t.address = some a) : a.toNat < 2 ^ c.addrBits := by
  unfold Transaction.addressInRange at h
  rw [ha] at h
  exact of_decide_eq_true h

/-- The dummy cycles and the width are those of the command's row (R129, R131 h). -/
theorem Transaction.shapeOfTable_iff {c : Config} {t : Transaction} {om : OperatingMode} :
    t.shapeOfTable c om = true ↔
      t.dummyCycles = (if t.command = .readData then c.dummyMM else 0)
        ∧ om = (if t.command = .enableQPI then .single else c.omDefault) := by
  cases ht : t.command <;> simp [Transaction.shapeOfTable, ht]

/-- A PageProgram inside the contract stays in its page (R88, R182). -/
theorem Transaction.pageRespected_le {c : Config} {t : Transaction} {a : Addr24} (h : t.pageRespected c = true)
    (hcmd : t.command = .pageProgram) (ha : t.address = some a) :
    a.toNat % c.pageChunk + t.dataLength.toNat ≤ c.pageChunk := by
  simp only [Transaction.pageRespected, hcmd, ha, Transaction.withinPage, Bool.and_eq_true, decide_eq_true_eq] at h
  exact h.2

/-- What holds of a direct call that is inside its contract (R182). -/
theorem State.mayApply_parts {t : Transaction} {fm : FunctionalMode} {om : OperatingMode} {s : State}
    (h : s.mayApply t fm om = true) :
    t.wf s.cfg fm om = true ∧ s.cr.en = true ∧ t.data.covers s.host.buffer t.dataLength.toNat = true := by
  simpa only [State.mayApply, Bool.and_eq_true, and_assoc] using h

/-- A call that finds the block free and is outside its contract is refused (R182, U3). -/
theorem State.directApply_violation {t : Transaction} {fm : FunctionalMode} {om : OperatingMode} {s : State}
    (hcw : s.cfg.wf = true) (hb : s.busy = false) (h : s.mayApply t fm om ≠ true) :
    s.directApply t fm om = .refused .contractViolation := by
  simp [State.directApply, State.direct, hcw, hb, h]

/-- Settles O11: `State.direct` refuses a configuration and an occupied block; each way out of the contract contradicts one
part of it; inside it the call runs and comes to no read through the window (`apply_clear`). -/
theorem applyContract : Obligations.ApplyContract := by
  intro t fm om s
  refine ⟨fun hcw => ?_, fun hcw hb => ?_, fun hcw hb hout => ?_, fun hcw hb hen hwf hcov hwin => ?_⟩
  · simp [exec_apply, State.directApply, State.direct, hcw]
  · simp [exec_apply, State.directApply, State.direct, hcw, hb]
  · refine State.directApply_violation hcw hb fun hmay => ?_
    obtain ⟨hwf, hen, hcov⟩ := State.mayApply_parts hmay
    obtain ⟨hin, hdata, hrow, hshape, hpage⟩ := Transaction.wf_parts hwf
    rw [Transaction.dataMatchesLength_iff] at hdata
    obtain ⟨hcycles, hom⟩ := Transaction.shapeOfTable_iff.mp hshape
    obtain hoff | hfm | ⟨a, ha, hge⟩ | hne | ⟨rfl, hne⟩ | hnorow | hdummy | hwidth | ⟨a, hcmd, ha, hgt⟩ | ⟨off, ho, hgt⟩
      | ⟨hone, hgt⟩ := hout
    · simp [hen] at hoff
    · exact Transaction.wf_fm hwf hfm
    · exact absurd (Transaction.addressInRange_lt hin ha) (by omega)
    · exact hne hdata
    · exact hne (hdata.mp (rowOfTable_mapped hrow))
    · simp [hrow] at hnorow
    · exact hdummy hcycles
    · exact hwidth hom
    · exact absurd (Transaction.pageRespected_le hpage hcmd ha) (by omega)
    · simp only [ho, DataRef.covers, decide_eq_true_eq] at hcov
      omega
    · obtain ho | ho := hone <;>
        (simp only [ho, DataRef.covers, decide_eq_true_eq] at hcov; omega)
  · obtain ⟨-, hidle, -⟩ := State.busy_false hb
    have hclear := State.apply_clear (om := om) hidle (Transaction.wf_fm hwf) hwin
    exact ⟨_, (State.directApply_runs hcw hb hen hwf hcov).trans (State.outcome_clear hclear)⟩

/-! ### The indirect calls that return (R178, R179, R181) -/

/-- A reference whose first `n` bytes are all there covers them, where one to no byte is absent (R182). -/
theorem DataRef.covers_of_bytes {r : DataRef} {s : State} {n : Nat} (h0 : n = 0 → r = .absent)
    (h : ∀ j, j < n → r.byte s j ≠ none) : r.covers s.host.buffer n = true := by
  cases r with
  | absent => rfl
  | status =>
    exact decide_eq_true (Nat.le_of_not_lt fun hn => h 1 hn rfl)
  | caller =>
    exact decide_eq_true (Nat.le_of_not_lt fun hn => h 1 hn rfl)
  | buffer off =>
    have hpos : 0 < n := Nat.pos_of_ne_zero fun hn => by simpa using h0 hn
    have hlast := h (n - 1) (by omega)
    simp only [DataRef.byte, ne_eq, ite_eq_left_iff, not_forall, List.getElem?_eq_none_iff] at hlast
    obtain ⟨-, hlt⟩ := hlast
    exact decide_eq_true (by omega)

/-- A direct call of `apply` inside its contract that returns answers the state it has come to (R182). -/
theorem State.directApply_returns {s u : State} {t : Transaction} {fm : FunctionalMode} {om : OperatingMode}
    (hcw : s.cfg.wf = true) (hb : s.busy = false) (hen : s.cr.en = true) (hwf : t.wf s.cfg fm om = true)
    (hcov : t.data.covers s.host.buffer t.dataLength.toNat = true) (hu : s.apply t fm om = u) (hp : u.seq.phase = .idle) :
    s.directApply t fm om = .next u := by
  rw [State.directApply_runs hcw hb hen hwf hcov, hu, State.outcome_clear (State.readsWindow_idle hp)]

/-- Settles O12: the `apply` by `apply_write_any` and `apply_read_any`; its bytes are there, so that its reference covers
them. -/
theorem indirectCallsComplete : Obligations.IndirectCallsComplete := by
  intro s t om d ⟨hcw, hb, hcalm⟩ hen
  obtain ⟨-, hidle, -⟩ := State.busy_false hb
  refine ⟨fun hwf hlen hd hl => ?_, fun hwf hl => ?_⟩
  · obtain ⟨-, hdata, -⟩ := Transaction.wf_parts hwf
    have hcov : t.data.covers s.host.buffer t.dataLength.toNat = true := by
      refine DataRef.covers_of_bytes (fun h0 => ?_) (fun j hj => ?_)
      · exact (Transaction.dataMatchesLength_iff.mp hdata).mpr (BitVec.eq_of_toNat_eq h0)
      · rw [hd j (by omega)]
        simp
    obtain ⟨fl, e, hslice, henable, hlift, hu⟩ := State.apply_write_any (om := om) hcalm hlen.symm hd hl
    exact ⟨fl, e, hslice, henable, hlift, State.directApply_returns hcw hb hen hwf hcov hu hidle⟩
  · obtain ⟨-, -, hrow, -⟩ := Transaction.wf_parts hwf
    obtain ⟨href, hone⟩ := rowOfTable_read hrow
    have hcov : t.data.covers s.host.buffer t.dataLength.toNat = true := by
      obtain ho | ho := href <;> rw [ho, hone] <;> rfl
    obtain ⟨b, fl, e, hslice, henable, hu⟩ := State.apply_read_any (om := om) hcalm (by rw [hone]; rfl) hl
    exact ⟨b, fl, e, hslice, henable, State.directApply_returns hcw hb hen hwf hcov hu hidle⟩

/-! ### What a call that streams no byte in leaves alone (R178, R183) -/

/-- No byte is being streamed in (R179). -/
def State.popsNothing (s : State) : Prop := ∀ i, s.seq.phase ≠ .pop i

/-- `t` streams no byte in, and holds in `SEQ.status` and in the caller's own byte what `s` holds. -/
structure Unread (s t : State) : Prop where
  pops   : t.popsNothing
  status : t.seq.status = s.seq.status
  caller : t.caller = s.caller

theorem Unread.trans {s t u : State} (h1 : Unread s t) (h2 : Unread t u) : Unread s u :=
  ⟨h2.pops, h2.status.trans h1.status, h2.caller.trans h1.caller⟩

theorem State.popsNothing.unread {s t : State} (h : s.popsNothing) (hseq : t.seq = s.seq) (hcaller : t.caller = s.caller) :
    Unread s t :=
  ⟨fun i => by rw [hseq]; exact h i, by rw [hseq], hcaller⟩

/-- A delivery leaves the sequencer position and the caller's own byte alone (R98, R105). -/
theorem State.deliver_latches (s : State) : s.deliver.seq = s.seq ∧ s.deliver.caller = s.caller := by
  have hchip : ∀ f, (s.chipReceive f).2.seq = s.seq ∧ (s.chipReceive f).2.caller = s.caller := fun f => by
    rw [(State.chipReceive_only f s).same]
    exact ⟨rfl, rfl⟩
  unfold State.deliver
  split
  · exact ⟨rfl, rfl⟩
  · split
    · exact hchip _
    · exact hchip _

/-- A step of CTRL at step 7 leaves the sequencer position and the caller's own byte alone (R105). -/
theorem State.controllerStep_latches (s : State) :
    s.controllerStep.seq = s.seq ∧ s.controllerStep.caller = s.caller := by
  unfold State.controllerStep
  split
  · exact s.deliver_latches
  · exact ⟨rfl, rfl⟩

theorem State.getBusy_latches (s : State) : s.getBusy.2.seq = s.seq ∧ s.getBusy.2.caller = s.caller := by
  unfold State.getBusy
  split <;> exact ⟨rfl, rfl⟩

theorem State.pushPhase_ne_pop {s : State} {i j : Nat} : s.pushPhase i ≠ .pop j := by
  unfold State.pushPhase
  split <;> simp

theorem State.popsNothing.waitOnce {s : State} (h : s.popsNothing) : Unread s s.waitOnce.2 := by
  cases hp : s.seq.phase with
  | idle =>
    simp only [State.waitOnce, hp]
    exact h.unread rfl rfl
  | push i =>
    simp only [State.waitOnce, hp]
    split
    · exact h.unread rfl rfl
    · split
      · exact ⟨fun _ => State.pushPhase_ne_pop, rfl, rfl⟩
      · exact h.unread rfl rfl
  | pop i => exact absurd hp (h i)
  | await =>
    have hget : Unread s (if s.drawLift.1 then s.drawLift.2.controllerStep else s.drawLift.2).getBusy.2 := by
      obtain ⟨hseq, hcaller⟩ := State.getBusy_latches (if s.drawLift.1 then s.drawLift.2.controllerStep else s.drawLift.2)
      obtain ⟨hseq1, hcaller1⟩ := s.drawLift.2.controllerStep_latches
      refine h.unread (hseq.trans ?_) (hcaller.trans ?_)
      · split
        · exact hseq1
        · rfl
      · split
        · exact hcaller1
        · rfl
    simp only [State.waitOnce, hp]
    generalize (if s.drawLift.1 = true then s.drawLift.2.controllerStep else s.drawLift.2).getBusy = g at hget ⊢
    split
    · exact hget
    · exact ⟨fun _ => by simp, hget.status, hget.caller⟩

theorem State.popsNothing.waitMany {k : Nat} {s : State} (h : s.popsNothing) : Unread s (s.waitMany k) := by
  induction k generalizing s with
  | zero => exact h.unread rfl rfl
  | succ k ih =>
    unfold State.waitMany
    split
    · exact h.unread rfl rfl
    · dsimp only
      split
      · exact h.waitOnce.trans (ih h.waitOnce.pops)
      · exact h.waitOnce

/-- A call of `apply` in another mode than `IndirectRead` stores no byte (R178, R180). -/
theorem State.apply_unread {t : Transaction} {fm : FunctionalMode} {om : OperatingMode} {s : State}
    (hp : s.seq.phase = .idle) (hfm : fm ≠ .uninitialized) (hr : fm ≠ .indirectRead) :
    (s.apply t fm om).seq.status = s.seq.status ∧ (s.apply t fm om).caller = s.caller := by
  have hlaunch : Unread s ((s.configure t fm om).launch fm) := by
    refine ⟨fun i => ?_, ?_, State.launched_caller⟩
    · cases fm with
      | uninitialized => exact absurd rfl hfm
      | indirectRead => exact absurd rfl hr
      | indirectWrite => rw [State.configure_eq rfl]; exact State.pushPhase_ne_pop
      | memoryMapped =>
        rw [State.configure_eq rfl]
        show s.seq.phase ≠ _
        rw [hp]
        simp
    · cases fm with
      | uninitialized => exact absurd rfl hfm
      | indirectRead => exact absurd rfl hr
      | indirectWrite => rw [State.configure_eq rfl]; rfl
      | memoryMapped => rw [State.configure_eq rfl]; rfl
  have hend : Unread s (s.apply t fm om) := hlaunch.trans hlaunch.pops.waitMany
  exact ⟨hend.status, hend.caller⟩

/-! ### What the builder's calls leave alone (R42, R183) -/

/-- The instructions that are calls of the builder: the flash commands and the internal operations but `widthFor`. -/
def callsBuilder (i : Instr) : Prop :=
  match i with
  | .init => False | .merase => False | .serase _ => False | .write _ _ => False | .widthFor _ => False
  | _ => True

theorem State.directApply_only {t : Transaction} {fm : FunctionalMode} {om : OperatingMode} {s u : State}
    (h : s.directApply t fm om = .next u) : BuilderOnly s u := by
  obtain ⟨-, -, hmay, rfl, -⟩ := State.directApply_next h
  exact s.apply_only t fm om (State.mayApply_fm hmay)

/-- A direct call changes no field of the position but the place inside the call and the status latch (R182). -/
theorem State.directApply_seq {t : Transaction} {fm : FunctionalMode} {om : OperatingMode} {s u : State}
    (h : s.directApply t fm om = .next u) :
    u.seq = { s.seq with status := u.seq.status, phase := u.seq.phase } :=
  congrArg State.seq (State.directApply_only h).same

/-- A direct call that streams no byte in changes only the place inside the call, and leaves the caller's own byte. -/
theorem State.directApply_unread {t : Transaction} {fm : FunctionalMode} {om : OperatingMode} {s u : State}
    (hr : fm ≠ .indirectRead) (h : s.directApply t fm om = .next u) :
    u.caller = s.caller ∧ u.seq = { s.seq with phase := u.seq.phase } := by
  have hseq := State.directApply_seq h
  obtain ⟨-, hb, hmay, rfl, -⟩ := State.directApply_next h
  obtain ⟨-, hp, -⟩ := State.busy_false hb
  obtain ⟨hstatus, hcaller⟩ := State.apply_unread (t := t) (om := om) hp (State.mayApply_fm hmay) hr
  rw [hstatus] at hseq
  exact ⟨hcaller, hseq⟩

/-- `RDSR` stores its byte in `SEQ.status`, and so leaves the caller's own (R200). -/
theorem exec_rdsr_caller {s t : State} (h : exec .rdsr s = .next t) : t.caller = s.caller := by
  obtain ⟨-, -, -, rfl, -⟩ := State.directApply_next h
  exact State.apply_caller (by simp) (by simp [Transaction.readStatus])

theorem exec_enterMemoryMapped_next {s t : State} (h : exec .enterMemoryMapped s = .next t) :
    s.seq.phase = .idle ∧ t = s.enterMapped := by
  rw [exec_enterMemoryMapped_directIf] at h
  obtain ⟨-, hb, -, rfl⟩ := State.directIf_next h
  exact ⟨(State.busy_false hb).2.1, rfl⟩

theorem exec_waitUntilReady_next {max : Word32} {s t : State} (h : exec (.waitUntilReady max) s = .next t) :
    t = s.waitUntilReady max := by
  rw [exec_waitUntilReady_directIf] at h
  obtain ⟨-, -, -, ht⟩ := State.directIf_next h
  exact ht

/-- The calls of the builder change what the poll may change, and nothing else. -/
theorem exec_pollOnly {i : Instr} {s t : State} (hi : callsBuilder i) (h : exec i s = .next t) : PollOnly s t := by
  cases i with
  | init => exact hi.elim
  | merase => exact hi.elim
  | serase a => exact hi.elim
  | write d n => exact hi.elim
  | widthFor om => exact hi.elim
  | rdsr => exact (State.directApply_only h).poll
  | wren => exact (State.directApply_only h).poll
  | ce => exact (State.directApply_only h).poll
  | se a => exact (State.directApply_only h).poll
  | pp a n => exact (State.directApply_only h).poll
  | read => exact (State.directApply_only h).poll
  | eqpi => exact (State.directApply_only h).poll
  | apply tr fm om => exact (State.directApply_only h).poll
  | waitUntilReady max =>
    obtain rfl := exec_waitUntilReady_next h
    exact s.waitUntilReady_only max
  | enterMemoryMapped =>
    obtain ⟨-, rfl⟩ := exec_enterMemoryMapped_next h
    exact (s.apply_only _ _ _ (by simp)).poll

/-- Settles O19: what every call of the builder leaves by `exec_pollOnly`; the latches, which only a read and a poll write,
command by command. -/
theorem builderCallsFrame : Obligations.BuilderCallsFrame := by
  intro i s t hi h
  have hpoll : PollOnly s t := exec_pollOnly hi h
  refine ⟨hpoll.cfg, hpoll.host, hpoll.widths, hpoll.en, hpoll.addrw, hpoll.timing, hpoll.slice, hpoll.enable, ?_⟩
  cases i with
  | init => exact hi.elim
  | merase => exact hi.elim
  | serase a => exact hi.elim
  | write d n => exact hi.elim
  | widthFor om => exact hi.elim
  | rdsr => exact ⟨exec_rdsr_caller h, State.directApply_seq h⟩
  | wren => exact State.directApply_unread (by simp) h
  | ce => exact State.directApply_unread (by simp) h
  | se a => exact State.directApply_unread (by simp) h
  | pp a n => exact State.directApply_unread (by simp) h
  | read => exact State.directApply_unread (by simp) h
  | eqpi => exact State.directApply_unread (by simp) h
  | apply tr fm om =>
    cases fm with
    | indirectRead => exact ⟨trivial, State.directApply_seq h⟩
    | uninitialized => exact State.directApply_unread (by simp) h
    | indirectWrite => exact State.directApply_unread (by simp) h
    | memoryMapped => exact State.directApply_unread (by simp) h
  | waitUntilReady max =>
    obtain rfl := exec_waitUntilReady_next h
    exact ⟨s.waitUntilReady_caller max, congrArg State.seq hpoll.same⟩
  | enterMemoryMapped =>
    obtain ⟨hp, rfl⟩ := exec_enterMemoryMapped_next h
    rw [State.enterMapped_eq hp]
    exact ⟨rfl, rfl⟩

/-! ### What a host operation leaves alone (R60, R61, R183, R260) -/

/-- A request that is accepted leads, by lines of its operation, from the state of acceptance (R260). -/
theorem State.request_lines {op : Op} {addr len : Word32} {s t : State} (h : s.request op addr len = .next t) :
    LinesOnly (s.accept op addr len) t ∧ t.caller = s.caller := by
  obtain ⟨-, -, -, -, -, rfl, -⟩ := State.request_next h
  exact ⟨State.run_only, State.run_caller⟩

/-- An accepted request keeps its operands, and the caller's own byte; HOST changes in its response alone (R260). -/
theorem State.request_frame {op : Op} {addr len : Word32} {s t : State} (h : s.request op addr len = .next t) :
    (t.seq.op = op ∧ t.seq.addr = addr ∧ t.seq.len = len)
      ∧ t.cfg = s.cfg ∧ t.host = { s.host with response := t.host.response } ∧ t.env.slice = s.env.slice
      ∧ t.caller = s.caller := by
  obtain ⟨hl, hcaller⟩ := State.request_lines h
  exact ⟨⟨hl.op, hl.addr, hl.len⟩, hl.cfg, hl.host, hl.slice, hcaller⟩

/-- Outside `INIT` an operation leaves the enable and the device configuration alone as well (R183, R266). -/
theorem State.request_frame_device {op : Op} {addr len : Word32} {s t : State} (hop : op.first.ofInit = false)
    (h : s.request op addr len = .next t) :
    (t.seq.op = op ∧ t.seq.addr = addr ∧ t.seq.len = len
        ∧ t.cr.en = s.cr.en ∧ t.cr.addrw = s.cr.addrw ∧ t.cr.timing = s.cr.timing)
      ∧ t.cfg = s.cfg ∧ t.host = { s.host with response := t.host.response } ∧ t.env.slice = s.env.slice
      ∧ t.caller = s.caller := by
  obtain ⟨⟨hcode, haddr, hlen⟩, hrest⟩ := State.request_frame h
  obtain ⟨hlines, -⟩ := State.request_lines h
  obtain ⟨-, hdevice⟩ := hlines.device hop
  exact ⟨⟨hcode, haddr, hlen, hdevice⟩, hrest⟩

/-- Settles O34: the host operations by `request_frame` and `request_frame_device`; the calls of the builder, of which the
configuration and HOST alone are asked, by `exec_pollOnly`. -/
theorem hostOperationsFrame : Obligations.HostOperationsFrame := by
  intro i s t h
  have hcall : callsBuilder i →
      True ∧ t.cfg = s.cfg ∧ t.host = { s.host with response := t.host.response } ∧ t.env.slice = s.env.slice ∧ True := by
    intro hi
    have hpoll := exec_pollOnly hi h
    exact ⟨trivial, hpoll.cfg, by rw [hpoll.host], hpoll.slice, trivial⟩
  cases i with
  | init => exact State.request_frame h
  | merase => exact State.request_frame_device rfl h
  | serase a => exact State.request_frame_device rfl h
  | write d n => exact State.request_frame_device rfl h
  | widthFor om =>
    cases h
    exact ⟨trivial, rfl, rfl, rfl, trivial⟩
  | rdsr => exact hcall trivial
  | wren => exact hcall trivial
  | ce => exact hcall trivial
  | se a => exact hcall trivial
  | pp a n => exact hcall trivial
  | read => exact hcall trivial
  | eqpi => exact hcall trivial
  | apply tr fm om => exact hcall trivial
  | waitUntilReady max => exact hcall trivial
  | enterMemoryMapped => exact hcall trivial

end Sys2Proof.Machine

/-! SUPPORT. The family `42_flash_commands.md`: what a flash command leaves that returns (R200 to R206), the frame on the
wire, the registers and the chip's answer together (R99 to R104). -/

namespace Sys2Proof.Machine

open Sys2Proof

/-! ### The commands that write (R201 to R206) -/

/-- A direct write inside its contract answers the end of its transaction (R178, R181, R182). -/
theorem State.directApply_written {s : State} {t : Transaction} {om : OperatingMode} {d : List Byte} {fl : Flash}
    (h : s.receptive) (hen : s.cr.en = true) (hwf : t.wf s.cfg .indirectWrite om = true)
    (hcov : t.data.covers s.host.buffer t.dataLength.toNat = true)
    (hu : s.apply t .indirectWrite om = s.written t om d fl) :
    s.directApply t .indirectWrite om = .next (s.written t om d fl) := by
  obtain ⟨hcw, hb, hcalm⟩ := h
  exact State.directApply_returns hcw hb hen hwf hcov hu hcalm.1

/-- Settles O14: the transaction by `apply_writeEnable`. -/
theorem writeEnableCompletes : Obligations.WriteEnableCompletes := by
  intro s h hen hready hl
  have ⟨hcw, _, hcalm⟩ := h
  exact State.directApply_written h hen (send_wf s.cfg (.inl rfl)) rfl (State.apply_writeEnable hcw hcalm hready hl)

/-- What a destructive frame makes of a chip whose latch is set: it is at work, from the array it found (R99, R100). -/
theorem Flash.started_atWork {c : Config} {p : Pending} {fl : Flash} (h : fl.wel = true) :
    (fl.started c p).wip = true ∧ (fl.started c p).wel = true ∧ (fl.started c p).framing = fl.framing
      ∧ (fl.started c p).pending = p ∧ (fl.started c p).found = fl.array := by
  rw [Flash.started_set h]
  exact ⟨rfl, h, rfl, rfl, rfl⟩

/-- A direct `CE` returns, with the chip as its frame leaves it (R202). -/
theorem exec_ce_written {s : State} (h : s.receptive) (hen : s.cr.en = true) (hready : s.chipReady) (hl : s.lets 2) :
    exec .ce s
      = .next (s.written (Transaction.send .chipErase) s.cfg.omDefault [] (s.flash.started s.cfg .chipErase)) := by
  have ⟨hcw, _, hcalm⟩ := h
  exact State.directApply_written h hen (send_wf s.cfg (.inr rfl)) rfl (State.apply_chipErase hcw hcalm hready hl)

/-- A direct `SE` inside the device returns, with the chip as its frame leaves it (R203). -/
theorem exec_se_written {s : State} {a : Addr24} (h : s.receptive) (hen : s.cr.en = true) (hready : s.chipReady)
    (hl : s.lets 2) (ha : a.toNat < s.cfg.flashSize) :
    exec (.se a) s
      = .next (s.written (Transaction.sectorErase a) s.cfg.omDefault []
          (s.flash.started s.cfg (.sectorErase a.toNat))) := by
  have ⟨hcw, _, hcalm⟩ := h
  exact State.directApply_written h hen (sectorErase_wf ha) rfl (State.apply_sectorErase hcw hcalm hready ha hl)

/-- Settles O15: the ends by `exec_ce_written` and `exec_se_written`; the chip by `Flash.started_clear` and
`Flash.started_atWork`, the bytes outside the sector by `touches_sectorErase`. -/
theorem eraseCommandsComplete : Obligations.EraseCommandsComplete := by
  intro s a h hen hready hl
  have hsector : 1 ≤ s.cfg.sectorSize := Config.wf_sectorSize h.1
  refine ⟨⟨_, exec_ce_written h hen hready hl, Flash.started_clear, Flash.started_atWork⟩,
    fun ha => ⟨_, exec_se_written h hen hready hl ha, Flash.started_clear, fun hwel => ?_⟩⟩
  obtain ⟨hwip, hlatch, hframing, hpending, hfound⟩ :=
    Flash.started_atWork (c := s.cfg) (p := .sectorErase a.toNat) hwel
  exact ⟨hwip, hlatch, hframing, hpending, hfound,
    fun b hb => Flash.started_read (Or.inr (touches_sectorErase hsector hb))⟩

/-- A direct `PP` within one page returns, the first bytes of the lent buffer sent and the chip as its frame leaves
it (R178, R204). -/
theorem exec_pp_written {s : State} {a : Addr24} {n : Word32} (h : s.receptive) (hen : s.cr.en = true)
    (hready : s.chipReady) (hl : s.lets (n.toNat + 2)) (ha : a.toNat < s.cfg.flashSize)
    (hpage : Transaction.withinPage s.cfg a n = true) (hbuf : n.toNat ≤ s.host.buffer.length)
    (hwin : s.clearOfWindow n.toNat) :
    exec (.pp a n) s
      = .next (s.written (Transaction.pageProgram a 0 n) s.cfg.omDefault (s.host.buffer.take n.toNat)
          (s.flash.started s.cfg (.program a.toNat (s.host.buffer.take n.toNat)))) := by
  have ⟨hcw, _, hcalm⟩ := h
  have hstart : (0 : Word32).toNat + n.toNat = n.toNat := Nat.zero_add _
  rw [← hstart] at hbuf hwin
  exact State.directApply_written h hen (pageProgram_wf ha hpage) (decide_eq_true hbuf)
    (State.apply_pageProgram hcw hcalm hready ha hbuf hwin hl)

/-- Settles O16: the end by `exec_pp_written`; the chip by `Flash.started_clear` and `Flash.started_atWork`, the bytes
outside the program by `touches_program`. -/
theorem pageProgramCompletes : Obligations.PageProgramCompletes := by
  intro s a n h hen hready hl ha hpos hle hpage hbuf hwin
  have hwithin : Transaction.withinPage s.cfg a n = true := by
    simp [Transaction.withinPage, hpos, hle, hpage]
  refine ⟨_, exec_pp_written h hen hready hl ha hwithin hbuf hwin, Flash.started_clear, fun hwel => ?_⟩
  obtain ⟨hwip, hlatch, hframing, hpending, hfound⟩ :=
    Flash.started_atWork (c := s.cfg) (p := .program a.toNat (s.host.buffer.take n.toNat)) hwel
  exact ⟨hwip, hlatch, hframing, hpending, hfound,
    fun b hb => Flash.started_read (Or.inr (touches_program (List.length_take_le _ _) hpage hb))⟩

/-- Settles O17: the transaction by `apply_enableQPI`; the width of its frame is that of `Single` (R161). -/
theorem enableQPICompletes : Obligations.EnableQPICompletes := by
  intro s h hen hw hs hl
  have ⟨hcw, _, hcalm⟩ := h
  exact ⟨State.directApply_written h hen (enableQPI_wf s.cfg) rfl (State.apply_enableQPI hcw hcalm hw hs hl), rfl⟩

/-! ### The status read (R200) -/

/-- The end of a status read tells the byte and the chip it came to (R200). -/
theorem State.statusRead_inj {s : State} {b b2 : Byte} {fl fl2 : Flash} {e e2 : Env}
    (h : s.statusRead b fl e = s.statusRead b2 fl2 e2) : b = b2 ∧ fl = fl2 :=
  ⟨congrArg (fun t : State => t.seq.status) h, congrArg State.flash h⟩

/-- A chip that is still busy at the next look answers it so (R100). -/
theorem State.busyThrough_one {s : State} (h : s.busyThrough 1) :
    s.flash.wip = true ∧ ∃ ds, s.env.done = false :: ds := by
  obtain ⟨hw, hdone⟩ := h
  cases hd : s.env.done with
  | nil => simp [hd] at hdone
  | cons b ds =>
    obtain rfl : b = false := by simpa [hd] using hdone
    exact ⟨hw, ds, rfl⟩

/-- Settles O18: the end by `apply_read_any`, whatever the chip; where the chip understands the frame it is also that of
`readStatus_ready` or of `readStatus_busy`, and `statusRead_inj` compares them. -/
theorem readStatusCompletes : Obligations.ReadStatusCompletes := by
  intro s ⟨hcw, hb, hcalm⟩ hen hl
  obtain ⟨b, fl, e, hslice, henable, hu⟩ :=
    State.apply_read_any (t := Transaction.readStatus) (om := s.cfg.omDefault) hcalm rfl hl
  have hend : s.readStatus = s.statusRead b fl e := hu
  refine ⟨b, fl, e, hslice, henable,
    State.directApply_returns hcw hb hen (readStatus_wf s.cfg) rfl hu hcalm.1, fun hframed hr => ?_,
    fun hframed hbusy => ?_⟩
  · obtain ⟨b2, st, n, hbit, hready⟩ := State.readStatus_ready hcw hcalm hframed hl hr
    obtain ⟨rfl, rfl⟩ := State.statusRead_inj (hend.symm.trans hready)
    exact ⟨hbit, rfl⟩
  · obtain ⟨hw, ds, hd⟩ := State.busyThrough_one hbusy
    obtain ⟨b2, st, n, hbit, hstill⟩ := State.readStatus_busy hcw hcalm hframed hl hw hd
    obtain ⟨rfl, rfl⟩ := State.statusRead_inj (hend.symm.trans hstill)
    exact ⟨hbit, rfl⟩

end Sys2Proof.Machine

/-! SUPPORT. The family `43_busy_wait.md`: the poll called on its own, with a chip that becomes ready in time, with one that
stays busy, and with one of any kind (R221 to R225); and the maintenance operations with a chip of any kind, which all
return through the restoration step (R262, R304, R307). -/

namespace Sys2Proof.Machine

open Sys2Proof

/-! ### The poll called on its own (R221 to R225) -/

/-- A direct call of the poll that the block can take is that poll, where the peripheral is enabled or the bound is 0
(R182, R225 a). -/
theorem exec_waitUntilReady_runs {s : State} {max : Word32} (h : s.receptive) (hmay : s.cr.en = true ∨ max = 0) :
    exec (.waitUntilReady max) s = .next (s.waitUntilReady max) := by
  obtain ⟨hcw, hb, -⟩ := h
  rw [exec_waitUntilReady_directIf]
  exact State.directIf_runs hcw hb (by simpa using hmay)

/-- A counter that started at 0 and has counted `k` is the word of `k`. -/
theorem counter_eq_ofNat {a : Word32} {k : Nat} (h : a.toNat = (0 : Word32).toNat + k) : a = BitVec.ofNat 32 k := by
  have hk : a.toNat = k := h.trans (Nat.zero_add k)
  rw [← hk, BitVec.ofNat_toNat, BitVec.setWidth_eq]

/-- What the caller of a poll with a chip in the block's framing finds when it has returned after `k` reads (R221, R222). -/
theorem Polled.returned {s t : State} {max : Word32} {k d : Nat} {r : Result} {fl : Flash} (h : s.receptive)
    (hp : Polled { s with seq := { s.seq with attempts := 0, waiting := some max } } t k r fl d) :
    t.seq = { s.seq with attempts := BitVec.ofNat 32 k, status := t.seq.status, r := r }
      ∧ t.fm = .indirectRead ∧ t.flash = fl ∧ t.host = s.host ∧ t.cfg = s.cfg ∧ t.calm
      ∧ t.cr = { s.cr.configured s.cfg Transaction.readStatus .indirectRead s.cfg.omDefault 1 with busy := false }
      ∧ ∃ bs : List Byte, bs.length = k ∧ t.frames = bs.map (statusFrame s.cfg) ++ s.frames
          ∧ bs.head? = some t.seq.status ∧ (∀ b ∈ bs.tail, b.getLsbD s.cfg.busyBit.val = true)
          ∧ t.seq.status.getLsbD s.cfg.busyBit.val = decide (r = .timeout) := by
  obtain ⟨-, hb, hphase, -, -⟩ := h
  obtain ⟨-, -, hwait⟩ := State.busy_false hb
  obtain ⟨hsame, hatt, hframes⟩ := hp
  have hseq := congrArg State.seq hsame
  rw [counter_eq_ofNat hatt] at hseq
  refine ⟨?_, congrArg State.fm hsame, congrArg State.flash hsame, (congrArg State.host hsame :),
    (congrArg State.cfg hsame :), ⟨?_, ?_, ?_⟩, congrArg State.cr hsame, hframes⟩
  · rw [← hwait] at hseq
    exact hseq
  · rw [hseq]; exact hphase
  · exact congrArg (fun x : State => x.ctrl.inflight) hsame
  · exact congrArg (fun x : State => x.ctrl.fifo) hsame

/-- Settles O21: the poll by `waitUntilReady_ok`, what its caller finds by `Polled.returned`. -/
theorem waitUntilReadyOk : Obligations.WaitUntilReadyOk := by
  intro s max j h hen hframed hl hmax hready
  have ⟨hcw, _, hcalm⟩ := h
  obtain ⟨hseq, hfm, hflash, hhost, hcfg, hcalmEnd, hcr, bs, hlen, hframes, hhead, htail, hbit⟩ :=
    Polled.returned h (State.waitUntilReady_ok hcw hcalm hframed hl hmax hready)
  exact ⟨_, exec_waitUntilReady_runs h (.inl hen), hseq, hbit, hfm, hflash, hhost, hcfg, hcalmEnd, hcr, bs, hlen, hframes,
    hhead, htail⟩

/-- Settles O22: a bound of 0 by `waitUntilReady_zero`, any other by `waitUntilReady_timeout` and `Polled.returned`. -/
theorem waitUntilReadyTimeout : Obligations.WaitUntilReadyTimeout := by
  intro s max h
  have ⟨hcw, hb, hcalm⟩ := h
  refine ⟨fun hzero => ?_, fun hpos hen hframed hl hbusy => ?_⟩
  · obtain ⟨-, -, hwait⟩ := State.busy_false hb
    rw [exec_waitUntilReady_runs h (.inr hzero), hzero, State.waitUntilReady_zero, ← hwait]
  · obtain ⟨hseq, hfm, hflash, hhost, hcfg, hcalmEnd, hcr, bs, hlen, hframes, hhead, htail, hbit⟩ :=
      Polled.returned h (State.waitUntilReady_timeout hcw hcalm hframed hl hpos hbusy)
    rw [BitVec.ofNat_toNat, BitVec.setWidth_eq] at hseq
    have hall : ∀ b ∈ bs, b.getLsbD s.cfg.busyBit.val = true := by
      rw [← List.cons_head?_tail hhead]
      exact List.forall_mem_cons.mpr ⟨hbit, htail⟩
    exact ⟨_, exec_waitUntilReady_runs h (.inl hen), hseq, hfm, hflash, hhost, hcfg, hcalmEnd, hcr, bs, hlen, hframes, hall⟩

/-! ### A poll with a chip of any kind (R221) -/

/-- What the caller of a poll finds when it has returned, whatever the chip answered (R221). -/
theorem State.waitUntilReady_returns {s : State} {max : Word32} (h : s.receptive) (hl : s.lets (2 * max.toNat)) :
    ∃ bs : List Byte,
      (s.waitUntilReady max).seq = { s.seq with attempts := BitVec.ofNat 32 bs.length
                                                status := (s.waitUntilReady max).seq.status
                                                r := (s.waitUntilReady max).seq.r }
        ∧ (s.waitUntilReady max).frames = bs.map (statusFrame s.cfg) ++ s.frames
        ∧ (s.waitUntilReady max).host = s.host ∧ (s.waitUntilReady max).cfg = s.cfg ∧ (s.waitUntilReady max).calm
        ∧ (∀ b ∈ bs.tail, b.getLsbD s.cfg.busyBit.val = true)
        ∧ (((s.waitUntilReady max).seq.r = .ok ∧ bs.length ≤ max.toNat
              ∧ bs.head? = some (s.waitUntilReady max).seq.status
              ∧ (s.waitUntilReady max).seq.status.getLsbD s.cfg.busyBit.val = false)
            ∨ ((s.waitUntilReady max).seq.r = .timeout ∧ bs.length = max.toNat
              ∧ ∀ b ∈ bs, b.getLsbD s.cfg.busyBit.val = true)) := by
  obtain ⟨-, hb, hcalm⟩ := h
  obtain ⟨-, -, hwait⟩ := State.busy_false hb
  obtain ⟨k, r, hr, hp⟩ := State.waitUntilReady_any (max := max) hcalm hl
  generalize s.waitUntilReady max = t at hp ⊢
  obtain ⟨bs, hlen, hframes, hhead, htail, hok, hto⟩ := hp.frames
  have hatt : t.seq.attempts = BitVec.ofNat 32 bs.length := by rw [hlen]; exact counter_eq_ofNat hp.attempts
  have hbound : bs.length ≤ max.toNat := by rw [hlen]; exact hp.bound
  refine ⟨bs, ?_, hframes, hp.poll.host, hp.poll.cfg, hp.calm, htail, ?_⟩
  · have hseq := congrArg State.seq hp.poll.same
    rw [hatt, hp.waiting, hp.calm.1, ← hcalm.1, ← hwait] at hseq
    exact hseq
  · rcases hr with rfl | rfl
    · obtain ⟨hpos, hready⟩ := hok rfl
      exact .inl ⟨hp.result, hbound, hhead hpos, hready⟩
    · obtain ⟨hused, hbusy⟩ := hto rfl
      have hcount : t.seq.attempts.toNat = bs.length := by rw [hlen]; exact hp.attempts.trans (Nat.zero_add k)
      exact .inr ⟨hp.result, by omega, hbusy⟩

/-! ### The return through the restoration step (R246, R307) -/

/-- The read command of the restoration step is the row of ReadData (R129, R246). -/
theorem CR.configured_readData (cr : CR) (c : Config) :
    (cr.configured c (Transaction.readData c) .memoryMapped c.omDefault 3).cfg = tableCfg c .readData := rfl

/-- A move of `SEQ.step` leaves alone what a stretch of lines does (R282). -/
theorem State.goto_only (l : Label) (s : State) : WriteOnly s (s.goto l) :=
  ⟨rfl, rfl, rfl, rfl, rfl, rfl, rfl, rfl, rfl, id, id⟩

/-- A request whose lines have come to `RESTORE` returns two lines later, with the result it carries in `r` and no
further frame (R246, R262, R307). -/
theorem State.request_returned {s v : State} {op : Op} {addr len : Word32} {k : Nat} (h : s.receptive)
    (hm : op.modeAllowed s.fm = true) (hin : op.inRange s.cfg addr len = true)
    (hd : op.dataPresent s.host.buffer len = true)
    (hrun : State.run s.env.slice (s.accept op addr len) = State.run (k + 2) v)
    (hw : WriteOnly (s.accept op addr len) v) (hstep : v.seq.step = .restore) :
    ∃ t, s.request op addr len = .next t ∧ s.Returned t v.seq.r ∧ t.frames = v.frames := by
  obtain ⟨hcw, hb, hcalm⟩ := h
  obtain ⟨-, -, hwait⟩ := State.busy_false hb
  obtain ⟨hphase, hinflight, hfifo⟩ := hw.calm hcalm
  have hvrun : v.seq.state = .running := by rw [hw.seq]; rfl
  have hvwait : v.seq.waiting = none := by rw [hw.seq]; exact hwait
  refine ⟨(v.mapped.goto .ret).respond v.seq.r, ?_, ?_, ?_⟩
  · rw [State.request_runs hcw hb hm hin hd, hrun, State.run_restore hvrun hvwait hphase hstep]
    exact State.outcome_clear (State.readsWindow_idle hphase)
  · have hcmd : v.mapped.cr.cfg = tableCfg s.cfg .readData := (CR.configured_readData v.cr v.cfg).trans (by rw [hw.cfg]; rfl)
    have hhost : (v.mapped.goto .ret).host = { s.host with response := none } := hw.host
    exact {
      cfg := hw.cfg
      mode := rfl
      state := rfl
      result := rfl
      host := by rw [State.respond_host, hhost]
      regs := hcmd
      en := hw.en
      addrw := hw.addrw
      timing := hw.timing
      calm := ⟨hphase, hinflight, hfifo⟩
      readCmd := congrArg some hcmd
      held := State.held_of_calm (s := (v.mapped.goto .ret).respond v.seq.r) ⟨hphase, hinflight, hfifo⟩ hvwait
      widths := hw.widths
      slice := hw.slice
      enable := hw.enable
      log := rfl }
  · exact (State.respond_frames _ _).trans v.mapped_frames

/-! ### The erases with a chip of any kind (R262, R270, R274) -/

/-- The answers `bs` of a poll, newest first, that ended with `r` within the bound of the configuration: all but the
newest are busy, and the newest decides (R221, R222). -/
def PollEnds (c : Config) (r : Result) (bs : List Byte) : Prop :=
  (∀ b ∈ bs.tail, b.getLsbD c.busyBit.val = true)
    ∧ ((r = .ok ∧ ∃ b, bs.head? = some b ∧ b.getLsbD c.busyBit.val = false)
        ∨ (r = .timeout ∧ bs.length = c.maxAttempts.toNat ∧ ∀ b ∈ bs, b.getLsbD c.busyBit.val = true))

/-- The three lines of an erase that follow its acceptance, or the test of its address, lead to `RESTORE` (R262, R307). -/
theorem State.run_erase {s : State} (hrun : s.seq.state = .running) (hwait : s.seq.waiting = none) (hcalm : s.calm)
    (hstep : s.seq.step = .m0 ∨ s.seq.step = .s1) (hl : s.lets (4 + 2 * s.cfg.maxAttempts.toNat)) :
    ∃ (v : State) (bs : List Byte), (∀ k, State.run (k + 3) s = State.run k v) ∧ WriteOnly s v ∧ v.seq.step = .restore
      ∧ v.frames = bs.map (statusFrame s.cfg) ++ launchedFrame s.cfg s.destructive.1 s.cfg.omDefault .write
          :: launchedFrame s.cfg (Transaction.send .writeEnable) s.cfg.omDefault .write :: s.frames
      ∧ PollEnds s.cfg v.seq.r bs := by
  have hdata : s.destructive.2.1 = [] := by
    rcases hstep with h | h <;> simp [State.destructive, h]
  have hnext : s.seq.step.next.next.next = .restore := by
    rcases hstep with h | h <;> rw [h] <;> rfl
  have hne : s.seq.step ≠ .w3 := by
    rcases hstep with h | h <;> rw [h] <;> simp
  obtain ⟨v, m, r, hr, -, hgo, hw, hres, hto, -, -, -, bs, hlen, hframes, htail, hok, hout⟩ :=
    State.run_skeleton_any hrun hwait hcalm (fun h => absurd h hne) (hstep.imp_right .inl)
      (by rw [hdata]; simpa using hl)
  rw [hdata] at hframes
  rw [hnext, ite_self] at hto
  refine ⟨v, bs, hgo, hw, hto, hframes, htail, ?_⟩
  rw [hres]
  rcases hr with rfl | rfl
  · obtain ⟨b, rest, rfl, hb⟩ := hok rfl
    exact .inl ⟨rfl, b, rfl, hb⟩
  · obtain ⟨hm, hbusy⟩ := hout rfl
    exact .inr ⟨rfl, hlen.trans hm, hbusy⟩

/-- An erase that is accepted and comes to its WriteEnable after `j` lines returns, whatever the chip does (R262, R307). -/
theorem State.request_erases {s : State} {op : Op} {addr len : Word32} {l : Label} {j : Nat} (h : s.receptive)
    (hm : op.modeAllowed s.fm = true) (hin : op.inRange s.cfg addr len = true)
    (hd : op.dataPresent s.host.buffer len = true) (hlabel : l = .m0 ∨ l = .s1)
    (hto : ∀ k, State.run (k + j) (s.accept op addr len) = State.run k ((s.accept op addr len).goto l))
    (hslice : j + 5 ≤ s.env.slice) (hl : s.lets (4 + 2 * s.cfg.maxAttempts.toNat)) :
    ∃ (t : State) (r : Result) (bs : List Byte), s.request op addr len = .next t ∧ s.Returned t r
      ∧ t.frames = bs.map (statusFrame s.cfg)
          ++ launchedFrame s.cfg ((s.accept op addr len).goto l).destructive.1 s.cfg.omDefault .write
          :: launchedFrame s.cfg (Transaction.send .writeEnable) s.cfg.omDefault .write :: s.frames
      ∧ PollEnds s.cfg r bs := by
  have ⟨_, hb, hcalm⟩ := h
  obtain ⟨-, -, hwait⟩ := State.busy_false hb
  obtain ⟨v, bs, hgo, hw, hstep, hframes, hend⟩ :=
    State.run_erase (s := (s.accept op addr len).goto l) rfl hwait hcalm hlabel hl
  obtain ⟨k, hk⟩ := Nat.exists_eq_add_of_le' hslice
  have hrun : State.run s.env.slice (s.accept op addr len) = State.run (k + 2) v := by
    rw [hk, show k + (j + 5) = k + 2 + 3 + j by omega, hto, hgo]
  obtain ⟨t, ht, hret, htf⟩ := State.request_returned h hm hin hd hrun ((State.goto_only l _).trans hw) hstep
  exact ⟨t, v.seq.r, bs, ht, hret, htf.trans hframes, hend⟩

/-- The test of an aligned address leads `SERASE` to its WriteEnable (R273, R274). -/
theorem State.run_aligned {s : State} {addr len : Word32} (hb : s.busy = false) (hal : addr.toNat % s.cfg.sectorSize = 0)
    (k : Nat) :
    State.run (k + 1) (s.accept .serase addr len) = State.run k ((s.accept .serase addr len).goto .s1) := by
  obtain ⟨-, hp, hwait⟩ := State.busy_false hb
  have hheld : (s.accept .serase addr len).held = false := by simp [State.held, hp, hwait]
  have hmove : (s.accept .serase addr len).finishLine = (s.accept .serase addr len).goto .s1 :=
    if_neg (not_not.mpr hal)
  rw [State.run_succ rfl hheld, State.line_plain (s := s.accept .serase addr len) hwait hp ⟨rfl, rfl⟩]
  exact congrArg (State.run k) hmove

/-! ### The write with a chip of any kind (R277, R281) -/

/-- An accepted write stands before its first chunk, whatever the chip is (R61, R261, R277). -/
theorem State.writeBegun_going {s : State} {dest len : Word32} (h : s.receptive)
    (hrange : dest.toNat + len.toNat ≤ s.cfg.flashSize) (hbuf : len.toNat ≤ s.host.buffer.length) :
    WriteGoing (s.writeBegun dest len) := by
  obtain ⟨hcw, hb, hcalm⟩ := h
  obtain ⟨-, -, hwait⟩ := State.busy_false hb
  exact ⟨hcw, rfl, hwait, hcalm, rfl, hrange, hbuf, Nat.zero_le _⟩

/-- The first line of a write changes the position alone (R277). -/
theorem State.writeBegun_only (s : State) (dest len : Word32) :
    WriteOnly (s.accept .write dest len) (s.writeBegun dest len) :=
  ⟨rfl, rfl, rfl, rfl, rfl, rfl, rfl, rfl, rfl, id, id⟩

/-- The answers `ps` of the polls of a write of the chunks `chs`, chunk by chunk, that ended with `r`: `Ok` where each
chunk was seen ready, `Timeout` where the last one attempted used up the bound (R277, R281). -/
def WriteEnds (c : Config) (chs : List (Nat × Nat)) (r : Result) (ps : List (List Byte)) : Prop :=
  ps.length ≤ chs.length
    ∧ ((r = .ok ∧ ps.length = chs.length ∧ ∀ bs ∈ ps, ∃ b, bs.head? = some b ∧ b.getLsbD c.busyBit.val = false)
        ∨ (r = .timeout ∧ ∃ bs, ps.getLast? = some bs ∧ bs.length = c.maxAttempts.toNat
            ∧ ∀ b ∈ bs, b.getLsbD c.busyBit.val = true))

/-- The loop of a write from its first chunk to `RESTORE`, whatever the chip does (R277, R281, R282). -/
theorem State.run_writeBegun_any {s : State} {dest len : Word32} (h : s.receptive)
    (hrange : dest.toNat + len.toNat ≤ s.cfg.flashSize) (hbuf : len.toNat ≤ s.host.buffer.length)
    (hwin : s.clearOfWindow len.toNat) (hl : s.lets ((5 + 2 * s.cfg.maxAttempts.toNat) * len.toNat)) :
    ∃ (v : State) (j : Nat) (ps : List (List Byte)), j ≤ 6 * len.toNat + 1
      ∧ (∀ k, State.run (k + j) (s.writeBegun dest len) = State.run k v) ∧ WriteOnly (s.writeBegun dest len) v
      ∧ v.seq.step = .restore
      ∧ v.frames = attemptFrames s.cfg s.host.buffer dest.toNat (chunks s.cfg.pageChunk dest.toNat len.toNat) ps
          ++ s.frames
      ∧ WriteEnds s.cfg (chunks s.cfg.pageChunk dest.toNat len.toNat) v.seq.r ps := by
  obtain ⟨v, j, r, hr, hj, hgo, hw, hstep, hresOk, hresTo, ps, hframes, hlen, hok, hto⟩ :=
    State.run_writeAny (s := s.writeBegun dest len) (State.writeBegun_going h hrange hbuf) hwin (Nat.sub_zero _) hl
  refine ⟨v, j, ps, hj, hgo, hw, hstep, hframes, hlen, ?_⟩
  rcases hr with rfl | rfl
  · obtain ⟨hall, hready⟩ := hok rfl
    refine .inl ⟨hresOk rfl rfl, hall, fun bs hbs => ?_⟩
    obtain ⟨b, rest, rfl, hb⟩ := hready bs hbs
    exact ⟨b, rfl, hb⟩
  · exact .inr ⟨hresTo rfl, hto rfl⟩

/-- A write of bytes outside the window returns, whatever the chip does (R277, R281, R307). -/
theorem State.request_writes {s : State} {dest len : Word32} (h : s.receptive) (hfm : s.fm = .memoryMapped)
    (hslice : 6 * len.toNat + 4 ≤ s.env.slice) (hl : s.lets ((5 + 2 * s.cfg.maxAttempts.toNat) * len.toNat))
    (hrange : dest.toNat + len.toNat ≤ s.cfg.flashSize) (hbuf : len.toNat ≤ s.host.buffer.length)
    (hwin : s.clearOfWindow len.toNat) :
    ∃ (t : State) (r : Result) (ps : List (List Byte)), s.request .write dest len = .next t ∧ s.Returned t r
      ∧ t.frames = attemptFrames s.cfg s.host.buffer dest.toNat (chunks s.cfg.pageChunk dest.toNat len.toNat) ps
          ++ s.frames
      ∧ WriteEnds s.cfg (chunks s.cfg.pageChunk dest.toNat len.toNat) r ps := by
  obtain ⟨v, j, ps, hj, hgo, hw, hstep, hframes, hend⟩ := State.run_writeBegun_any h hrange hbuf hwin hl
  have ⟨_, hb, _⟩ := h
  obtain ⟨k, hk⟩ := Nat.exists_eq_add_of_le' (show j + 3 ≤ s.env.slice by omega)
  have hrun : State.run s.env.slice (s.accept .write dest len) = State.run (k + 2) v := by
    rw [hk, show k + (j + 3) = k + 2 + j + 1 by omega, State.run_writeBegun hb, hgo]
  obtain ⟨t, ht, hret, htf⟩ := State.request_returned (op := .write) h (decide_eq_true hfm) (decide_eq_true hrange)
    (decide_eq_true hbuf) hrun ((s.writeBegun_only dest len).trans hw) hstep
  exact ⟨t, v.seq.r, ps, ht, hret, htf.trans hframes, hend⟩

/-- Settles O37: the poll by `waitUntilReady_returns`, the erases by `request_erases`, the write by `request_writes`. -/
theorem anyChipReturns : Obligations.AnyChipReturns := by
  intro s addr len h
  have ⟨_, hb, _⟩ := h
  refine ⟨fun max hen hl => ?_, fun hfm hslice hl => ⟨?_, fun hal hlt => ?_⟩,
    fun hfm hslice hl hrange hbuf hwin => State.request_writes h hfm hslice hl hrange hbuf hwin⟩
  · obtain ⟨bs, hend⟩ := State.waitUntilReady_returns h hl
    exact ⟨_, bs, exec_waitUntilReady_runs h (.inl hen), hend⟩
  · exact State.request_erases (op := .merase) (j := 0) h (decide_eq_true hfm) rfl rfl (.inl rfl) (fun _ => rfl) (by omega) hl
  · have hin : Op.serase.inRange s.cfg addr s.host.reqLen = true := by
      simp [Op.inRange, hal, show addr.toNat < s.cfg.flashSize from hlt]
    rw [BitVec.ofNat_toNat]
    exact State.request_erases (op := .serase) (j := 1) h (decide_eq_true hfm) hin rfl (.inr rfl)
      (State.run_aligned hb hal) (by omega) hl

end Sys2Proof.Machine

/-! SUPPORT. The family `44_functional_mode.md`: where an action of HOST's leads, the mode discipline of a machine used
through its four host operations (R243, R244, R247, R248, R308), the calls that end in memory-mapped mode (R180, R181,
R205, R246), the misaligned erase (R247, R273), and that only a reset unconfigures the block (R242). -/

namespace Sys2Proof.Machine

open Sys2Proof

/-! ### Where an action leads (R11) -/

/-- `t` has the configuration, the mode and the sequencer of `s`, and HOST's port, program and response (R61, R83,
R121, R342). -/
structure Undisturbed (s t : State) : Prop where
  cfg      : t.cfg = s.cfg
  fm       : t.fm = s.fm
  seq      : t.seq = s.seq
  port     : t.host.port = s.host.port
  program  : t.host.program = s.host.program
  response : t.host.response = s.host.response

theorem Undisturbed.refl (s : State) : Undisturbed s s := ⟨rfl, rfl, rfl, rfl, rfl, rfl⟩

theorem Undisturbed.trans {s t u : State} (h1 : Undisturbed s t) (h2 : Undisturbed t u) : Undisturbed s u :=
  ⟨h2.cfg.trans h1.cfg, h2.fm.trans h1.fm, h2.seq.trans h1.seq, h2.port.trans h1.port, h2.program.trans h1.program,
    h2.response.trans h1.response⟩

theorem ChipOnly.undisturbed {s t : State} (h : ChipOnly s t) : Undisturbed s t :=
  ⟨h.cfg, h.fm, h.seq, by rw [h.host], by rw [h.host], by rw [h.host]⟩

/-- Presenting a request writes the fields of its operands alone (R121). -/
theorem State.present_undisturbed (s : State) (a : HostAction) : Undisturbed s (s.present a) := by
  obtain ⟨x, n, e⟩ := s.present_eq a
  rw [e]
  exact ⟨rfl, rfl, rfl, rfl, rfl, rfl⟩

/-- Bytes delivered to HOST leave the block as it is (R83). -/
theorem State.deliverMapped_undisturbed (o : Nat) (d : List Byte) (s : State) : Undisturbed s (s.deliverMapped o d) :=
  ⟨rfl, rfl, rfl, rfl, rfl, rfl⟩

/-- Where an action leads: its instruction is run, the block is reset, or the block is left as it is. -/
theorem perform_cases {a : HostAction} {s t : State} (h : perform a s = .next t) :
    (∃ i, a.instr s.cfg = some (.ok i) ∧ exec i (s.present a) = .next t)
      ∨ (a = .resetBlock ∧ t = s.resetBlock) ∨ Undisturbed s t := by
  unfold perform at h
  split at h
  next =>
    refine Or.inr ?_
    cases a with
    | lend ad d =>
      obtain ⟨-, rfl⟩ := State.lend_next h
      exact Or.inr ⟨rfl, rfl, rfl, rfl, rfl, rfl⟩
    | mappedRead ad n =>
      obtain ⟨u, o, d, hu, rfl⟩ := State.mappedRead_delivers h
      exact Or.inr (hu.undisturbed.trans (u.deliverMapped_undisturbed o d))
    | mappedWrite ad v => cases h
    | resetBlock => cases h; exact Or.inl ⟨rfl, rfl⟩
    | powerCycleChip => cases h; exact Or.inr s.powerCycleChip_only.undisturbed
    | request bs => cases h; exact Or.inr (.refl s)
    | transaction bs => cases h; exact Or.inr (.refl s)
    | call i => cases h; exact Or.inr (.refl s)
  next i hi => exact Or.inl ⟨i, hi, h⟩
  next => cases h

/-! ### The mode discipline through every step (R243, R244, R245, R247, R248, R308) -/

theorem State.disciplined_iff (s : State) : s.disciplined ↔ s.coherent ∧ s.position ∧ s.hostOnly := by
  unfold State.disciplined State.position
  tauto

/-- The position speaks of the mode, the sequencer and the response alone. -/
theorem State.position_of_eq {s t : State} (hfm : t.fm = s.fm) (hseq : t.seq = s.seq)
    (hresp : t.host.response = s.host.response) (h : s.position) : t.position := by
  unfold State.position State.idleMode State.lineMode State.lineResult State.returnMode State.held at *
  rw [hfm, hseq, hresp]
  exact h

/-- HOST's restraint is kept where its queue only loses actions. -/
theorem State.hostOnly_of_queue {s t : State} (hcfg : t.cfg = s.cfg)
    (hport : t.host.port = none ∨ t.host.port = s.host.port) (hprog : t.host.program ⊆ s.host.program)
    (h : s.hostOnly) : t.hostOnly := by
  obtain ⟨hp, hq⟩ := h
  unfold State.hostOnly
  rw [hcfg]
  refine ⟨fun a ha => ?_, fun a ha => hq a (hprog ha)⟩
  obtain hnone | hsame := hport
  · rw [hnone] at ha; cases ha
  · exact hp a (hsame ▸ ha)

theorem Undisturbed.position {s t : State} (h : Undisturbed s t) (hs : s.position) : t.position :=
  State.position_of_eq h.fm h.seq h.response hs

theorem Undisturbed.hostOnly {s t : State} (h : Undisturbed s t) (hs : s.hostOnly) : t.hostOnly :=
  State.hostOnly_of_queue h.cfg (Or.inr h.port) (by rw [h.program]; exact List.Subset.refl _) hs

/-- The lines of an operation change HOST in its response alone, and so in none of its actions (R260). -/
theorem LinesOnly.hostOnly {s t : State} (h : LinesOnly s t) (hs : s.hostOnly) : t.hostOnly :=
  State.hostOnly_of_queue h.cfg (Or.inr (by rw [h.host])) (by rw [h.host]; exact List.Subset.refl _) hs

/-- A reset leaves the block idle, `Uninitialized` and without a response (R340). -/
theorem State.resetBlock_position (s : State) : s.resetBlock.position := State.position_idle rfl rfl (Or.inl rfl) trivial

/-- A reset leaves HOST's actions (R342). -/
theorem State.resetBlock_hostOnly {s : State} (h : s.hostOnly) : s.resetBlock.hostOnly := by
  have hqueue : s.resetBlock.host.port = s.host.port ∧ s.resetBlock.host.program = s.host.program := by
    unfold State.resetBlock
    dsimp only
    split <;> exact ⟨rfl, rfl⟩
  exact State.hostOnly_of_queue s.resetBlock_fixed.cfg (Or.inr hqueue.1) (by rw [hqueue.2]; exact List.Subset.refl _) h

/-- An instruction that is no direct call is a host operation's request or a call of `widthFor` (R121, R160). -/
theorem exec_of_notDirect {a : HostAction} {c : Config} {i : Instr} (hi : a.instr c = some (.ok i))
    (ha : a.isDirect c = false) (s : State) :
    (∃ op addr len, exec i s = s.request op addr len) ∨ ∃ om, exec i s = .next { s with widths := widthFor om } := by
  unfold HostAction.isDirect at ha
  rw [hi] at ha
  cases i with
  | init => exact Or.inl ⟨_, _, _, exec_init s⟩
  | merase => exact Or.inl ⟨_, _, _, exec_merase s⟩
  | serase addr => exact Or.inl ⟨_, _, _, exec_serase addr s⟩
  | write dest len => exact Or.inl ⟨_, _, _, exec_write dest len s⟩
  | widthFor om => exact Or.inr ⟨om, exec_widthFor om s⟩
  | rdsr => cases ha
  | wren => cases ha
  | ce => cases ha
  | se addr => cases ha
  | pp addr n => cases ha
  | read => cases ha
  | eqpi => cases ha
  | apply tr fm om => cases ha
  | waitUntilReady max => cases ha
  | enterMemoryMapped => cases ha

/-- A host operation's request keeps HOST's restraint: it leads on from its acceptance by lines alone (R260). -/
theorem State.request_hostOnly {op : Op} {addr len : Word32} {s t : State} (h : s.request op addr len = .next t)
    (hs : s.hostOnly) : t.hostOnly := by
  obtain ⟨hlines, -⟩ := State.request_lines h
  exact hlines.hostOnly hs

/-- An action that is no direct call keeps the discipline. -/
theorem perform_disciplined {a : HostAction} {s t : State} (hcw : s.cfg.wf = true) (ha : a.isDirect s.cfg = false)
    (h : s.disciplined) (he : perform a s = .next t) : t.disciplined := by
  obtain ⟨hc, hpos, hhost⟩ := (State.disciplined_iff s).mp h
  refine (State.disciplined_iff t).mpr ⟨perform_coherent hcw hc he, ?_⟩
  obtain ⟨i, hi, hgo⟩ | ⟨-, rfl⟩ | hu := perform_cases he
  · have hp := s.present_undisturbed a
    obtain ⟨op, addr, len, hreq⟩ | ⟨om, hwidths⟩ := exec_of_notDirect hi ha (s.present a)
    · rw [hreq] at hgo
      exact ⟨State.request_position hgo, State.request_hostOnly hgo (hp.hostOnly hhost)⟩
    · rw [hwidths] at hgo
      cases hgo
      exact ⟨hp.position hpos, hp.hostOnly hhost⟩
  · exact ⟨s.resetBlock_position, State.resetBlock_hostOnly hhost⟩
  · exact ⟨hu.position hpos, hu.hostOnly hhost⟩

theorem State.takePort_disciplined {s : State} (h : s.disciplined) : s.takePort.disciplined := by
  obtain ⟨hc, hpos, hhost⟩ := (State.disciplined_iff s).mp h
  exact (State.disciplined_iff _).mpr ⟨State.takePort_coherent hc, State.position_of_eq rfl rfl rfl hpos,
    State.hostOnly_of_queue (s := s) rfl (Or.inl rfl) (List.Subset.refl _) hhost⟩

theorem State.takeProgram_disciplined {s : State} {a : HostAction} {rest : List HostAction}
    (hprog : s.host.program = a :: rest) (h : s.disciplined) : (s.takeProgram rest).disciplined := by
  obtain ⟨hc, hpos, hhost⟩ := (State.disciplined_iff s).mp h
  exact (State.disciplined_iff _).mpr ⟨State.takeProgram_coherent rest hc, State.position_of_eq rfl rfl rfl hpos,
    State.hostOnly_of_queue (s := s) rfl (Or.inr rfl) (by rw [hprog]; exact List.subset_cons_self a rest) hhost⟩

theorem State.resume_disciplined {s : State} (hcw : s.cfg.wf = true) (h : s.disciplined) : s.resume.disciplined := by
  obtain ⟨hc, hpos, hhost⟩ := (State.disciplined_iff s).mp h
  exact (State.disciplined_iff _).mpr
    ⟨State.resume_coherent hcw hc, State.resume_position hpos, s.resume_only.hostOnly hhost⟩

/-- Settles O60: HOST's action, which is no direct call, keeps the discipline by `perform_disciplined`, and the block going
on by `State.resume_disciplined`. -/
theorem everyStepKeepsDiscipline : Obligations.EveryStepKeepsDiscipline := by
  intro s t h hstep
  have ⟨_, _, hhost⟩ := (State.disciplined_iff s).mp h
  obtain ⟨hport, hqueue⟩ := hhost
  obtain ⟨hcw, ⟨a, ha, hgo⟩ | ⟨-, -, rfl, -⟩ | ⟨a, rest, -, -, hprog, hgo⟩ | ⟨-, -, -, rfl⟩⟩ := step_cases hstep
  · exact perform_disciplined (s := s.takePort) hcw (hport a ha) (State.takePort_disciplined h) hgo
  · exact State.resume_disciplined hcw h
  · exact perform_disciplined (s := s.takeProgram rest) hcw (hqueue a (by rw [hprog]; exact List.mem_cons_self))
      (State.takeProgram_disciplined hprog h) hgo
  · exact h

/-! ### The calls that end in memory-mapped mode (R180, R181, R205, R246) -/

/-- `apply` in memory-mapped mode neither streams nor waits: what it leaves, exactly (R180, R181). -/
theorem State.apply_memoryMapped {s : State} (t : Transaction) (om : OperatingMode) (hp : s.seq.phase = .idle) :
    s.apply t .memoryMapped om = s.mappedWith t om := by
  unfold State.apply
  rw [State.configure_eq rfl]
  exact State.finishApply_idle hp

/-- A direct call of `apply` in memory-mapped mode inside its contract returns at once (R180, R181, R182). -/
theorem State.directApply_memoryMapped {s : State} {t : Transaction} {om : OperatingMode} (hcw : s.cfg.wf = true)
    (hb : s.busy = false) (hen : s.cr.en = true) (hwf : t.wf s.cfg .memoryMapped om = true) :
    s.directApply t .memoryMapped om = .next (s.mappedWith t om) := by
  obtain ⟨-, hp, -⟩ := State.busy_false hb
  obtain ⟨-, -, hrow, -, -⟩ := Transaction.wf_parts hwf
  have hcov : t.data.covers s.host.buffer t.dataLength.toNat = true := by rw [rowOfTable_mapped hrow]; rfl
  exact State.directApply_returns hcw hb hen hwf hcov (State.apply_memoryMapped t om hp) hp

/-- Settles O13: `READ` and `apply` by `directApply_memoryMapped`, the restoration step as the same `apply`, and its `CFG`
under P0 as the word of `READ` in the table. -/
theorem mappedCallsComplete : Obligations.MappedCallsComplete := by
  intro s t om hcw hb hen
  obtain ⟨-, hp, -⟩ := State.busy_false hb
  refine ⟨?read, ?enter, fun hP0 => ?word, fun hwf => ?call⟩
  case read =>
    rw [exec_read]
    exact State.directApply_memoryMapped hcw hb hen (readData_wf s.cfg)
  case enter =>
    rw [exec_enterMemoryMapped_directIf, State.directIf_runs hcw hb hen]
    exact congrArg _ (State.apply_memoryMapped (Transaction.readData s.cfg) s.cfg.omDefault hp)
  case word =>
    obtain ⟨-, -, -, -, -, hword, -⟩ := wordsOfTheTable
    have hregs : (s.mappedWith (Transaction.readData s.cfg) s.cfg.omDefault).cr.cfg = tableCfg s.cfg .readData :=
      CR.configured_readData s.cr s.cfg
    rw [hregs, hP0]
    exact hword
  case call =>
    rw [exec_apply]
    exact State.directApply_memoryMapped hcw hb hen hwf

/-! ### The misaligned erase (R247, R273, R308) -/

/-- The first line of an accepted `SERASE` of a misaligned address ends the operation (R273, R307). -/
theorem State.run_misaligned {s : State} {addr len : Word32} (hb : s.busy = false)
    (hmis : addr.toNat % s.cfg.sectorSize ≠ 0) (k : Nat) :
    State.run (k + 1) (s.accept .serase addr len) = (s.accept .serase addr len).respond .alignmentError := by
  obtain ⟨-, hp, hwait⟩ := State.busy_false hb
  have hheld : (s.accept .serase addr len).held = false := by simp [State.held, hp, hwait]
  have hend : (s.accept .serase addr len).finishLine = (s.accept .serase addr len).respond .alignmentError := if_pos hmis
  rw [State.run_succ rfl hheld, State.line_plain (s := s.accept .serase addr len) hwait hp ⟨rfl, rfl⟩]
  exact (congrArg (State.run k) hend).trans (State.run_idle rfl)

/-- Settles O31: the request is accepted, in range by its misalignment (R261), and ends at its first line. -/
theorem eraseSectorMisaligned : Obligations.EraseSectorMisaligned := by
  intro s addr hcw hb hfm hslice hmis
  obtain ⟨-, hp, -⟩ := State.busy_false hb
  obtain ⟨k, hk⟩ := Nat.exists_eq_add_of_le' hslice
  have hin : Op.serase.inRange s.cfg addr s.host.reqLen = true := by simp [Op.inRange, hmis]
  rw [exec_serase, State.request_runs (op := .serase) hcw hb (decide_eq_true hfm) hin rfl, hk, State.run_misaligned hb hmis]
  exact State.outcome_clear (State.readsWindow_idle hp)

/-! ### Only a reset unconfigures the block (R242) -/

/-- `t` is `Uninitialized` only where `s` is. -/
def StaysConfigured (s t : State) : Prop := t.fm = .uninitialized → s.fm = .uninitialized

theorem StaysConfigured.of_fm {s t : State} (h : t.fm = s.fm) : StaysConfigured s t := fun ht => h ▸ ht

theorem StaysConfigured.trans {s t u : State} (h1 : StaysConfigured s t) (h2 : StaysConfigured t u) :
    StaysConfigured s u := fun h => h1 (h2 h)

/-- `apply` leaves a mode that CTRL has a code for (R177, D8). -/
theorem State.apply_configured {s : State} {t : Transaction} {fm : FunctionalMode} {om : OperatingMode}
    (hfm : fm ≠ .uninitialized) : StaysConfigured s (s.apply t fm om) :=
  fun h => absurd ((State.apply_fm hfm).symm.trans h) hfm

theorem State.enterMapped_configured (s : State) : StaysConfigured s s.enterMapped := State.apply_configured (by simp)

theorem State.countPoll_configured (s : State) : StaysConfigured s s.countPoll := by
  rw [State.countPoll_eq]
  split <;> exact .of_fm rfl

theorem State.waitLoop_configured (k : Nat) (s : State) : StaysConfigured s (s.waitLoop k) := by
  induction k generalizing s with
  | zero => exact .of_fm rfl
  | succ k ih =>
    have hread : StaysConfigured s s.readStatus := State.apply_configured (by simp)
    unfold State.waitLoop
    split
    · exact .of_fm rfl
    · split
      · dsimp only
        split
        · exact (hread.trans (State.countPoll_configured _)).trans (ih _)
        · exact hread
      · exact .of_fm rfl

theorem State.waitUntilReady_configured (max : Word32) (s : State) : StaysConfigured s (s.waitUntilReady max) :=
  State.waitLoop_configured (max.toNat + 1) { s with seq := { s.seq with attempts := 0, waiting := some max } }

theorem State.resumeCall_configured (s : State) : StaysConfigured s s.resumeCall := by
  have hfin : StaysConfigured s s.finishApply := .of_fm s.finishApply_only.fm
  unfold State.resumeCall
  dsimp only
  split
  · exact hfin
  · split
    · exact hfin
    · split
      · exact hfin.trans (State.waitLoop_configured _ _)
      · exact (hfin.trans (State.countPoll_configured _)).trans (State.waitLoop_configured _ _)

/-- The mode is left to the calls of a line, none of which unconfigures the block. -/
theorem State.startLine_configured (s : State) : StaysConfigured s s.startLine := by
  unfold State.startLine
  cases s.seq.step
  case i0 => exact .of_fm (by simp [State.configureDevice, State.setAll_eq])
  case i3 =>
    cases s.cfg.omDefault
    case quad => exact State.apply_configured (by simp)
    case single | dual => exact .of_fm rfl
  case i4 | restore => exact s.enterMapped_configured
  case m0 | m1 | s1 | s2 | w3 | w4 => exact State.apply_configured (by simp)
  case m2 | s3 | w5 => exact s.waitUntilReady_configured _
  case i1 | i2 | i5 | s0 | w0 | w1 | w2 | w6 | ret => exact .of_fm rfl

/-- Where a line leads is a matter of the position and the response: the mode is as its calls left it (R282). -/
theorem State.finishLine_fm (s : State) : s.finishLine.fm = s.fm := by
  unfold State.finishLine
  cases s.seq.step
  case i2 =>
    dsimp only
    split
    · split <;> rfl
    · rfl
  case s0 | m2 | s3 | w5 | w1 =>
    dsimp only
    split <;> rfl
  all_goals rfl

theorem State.line_configured (s : State) : StaysConfigured s s.line := by
  unfold State.line
  dsimp only
  split
  · exact s.startLine_configured
  · exact s.startLine_configured.trans (.of_fm (State.finishLine_fm _))

theorem State.run_configured (k : Nat) (s : State) : StaysConfigured s (State.run k s) := by
  induction k generalizing s with
  | zero => exact .of_fm rfl
  | succ k ih =>
    unfold State.run
    split
    · exact s.line_configured.trans (ih _)
    · exact .of_fm rfl

theorem State.resume_configured (s : State) : StaysConfigured s s.resume := by
  have hcall := s.resumeCall_configured
  unfold State.resume
  split
  · dsimp only
    split
    · exact hcall
    · split
      · exact (hcall.trans (.of_fm (State.finishLine_fm _))).trans (State.run_configured _ _)
      · exact hcall
  · exact State.run_configured _ s

theorem State.request_configured {op : Op} {addr len : Word32} {s t : State} (h : s.request op addr len = .next t) :
    StaysConfigured s t := by
  obtain ⟨-, -, -, -, -, rfl, -⟩ := State.request_next h
  exact State.run_configured _ (s.accept op addr len)

theorem State.directApply_configured {tr : Transaction} {fm : FunctionalMode} {om : OperatingMode} {s t : State}
    (h : s.directApply tr fm om = .next t) : StaysConfigured s t := by
  obtain ⟨-, -, hmay, rfl, -⟩ := State.directApply_next h
  exact State.apply_configured (State.mayApply_fm hmay)

/-- No instruction leads a configured block back to `Uninitialized`. -/
theorem exec_configured {i : Instr} {s t : State} (h : exec i s = .next t) : StaysConfigured s t := by
  cases i with
  | init => exact State.request_configured h
  | merase => exact State.request_configured h
  | serase a => exact State.request_configured h
  | write d n => exact State.request_configured h
  | rdsr => exact State.directApply_configured h
  | wren => exact State.directApply_configured h
  | ce => exact State.directApply_configured h
  | se a => exact State.directApply_configured h
  | pp a n => exact State.directApply_configured h
  | read => exact State.directApply_configured h
  | eqpi => exact State.directApply_configured h
  | apply tr fm om => exact State.directApply_configured h
  | widthFor om => cases h; exact .of_fm rfl
  | waitUntilReady max => exact exec_waitUntilReady_next h ▸ s.waitUntilReady_configured max
  | enterMemoryMapped =>
    obtain ⟨-, rfl⟩ := exec_enterMemoryMapped_next h
    exact s.enterMapped_configured

/-- An action other than a reset leads no configured block back to `Uninitialized`. -/
theorem perform_configured {a : HostAction} {s t : State} (h : perform a s = .next t) :
    a = .resetBlock ∨ StaysConfigured s t := by
  obtain ⟨i, -, hgo⟩ | ⟨ha, -⟩ | hu := perform_cases h
  · exact Or.inr (StaysConfigured.trans (.of_fm (s.present_undisturbed a).fm) (exec_configured hgo))
  · exact Or.inl ha
  · exact Or.inr (.of_fm hu.fm)

/-- Settles O57: an action HOST takes by `perform_configured`, the block going on by `State.resume_configured`. -/
theorem onlyResetUnconfigures : Obligations.OnlyResetUnconfigures := by
  intro s t hstep ht
  obtain ⟨-, ⟨a, hport, hgo⟩ | ⟨-, -, rfl, -⟩ | ⟨a, rest, hport, hb, hprog, hgo⟩ | ⟨-, -, -, rfl⟩⟩ := step_cases hstep
  · obtain rfl | hs := perform_configured hgo
    · exact Or.inr (Or.inl hport)
    · exact Or.inl (hs ht)
  · exact Or.inl (s.resume_configured ht)
  · obtain rfl | hs := perform_configured hgo
    · exact Or.inr (Or.inr ⟨hport, hb, by rw [hprog]; rfl⟩)
    · exact Or.inl (hs ht)
  · exact Or.inl ht

end Sys2Proof.Machine

/-! SUPPORT. The family `45_operation_sequencer.md`: the range of a running operation (R271, R275, R281), acceptance and
refusal (R260, R261), the completion of the four host operations in each of their ends (R265 to R281), the moves of
`SEQ.step` (R282), and the chunking rule (R279, R280). -/

namespace Sys2Proof.Machine

open Sys2Proof

/-! ### A running operation stays in its range (R271, R275, R281) -/

/-- The lines change no operand, so that the range of the operation is the one it had (R183). -/
theorem LinesOnly.outsideRange {s t : State} (h : LinesOnly s t) : t.outsideRange = s.outsideRange := by
  funext a
  simp only [State.outsideRange, h.op, h.addr, h.len, h.cfg]

/-- Where lines that keep to the range of `s` have come: in range while the operation runs, and no byte outside the range
changed. -/
theorem OnTrack.keepsRange {s t : State} (h : OnTrack (s.seq.op ≠ .init) s.outsideRange s.flash.array t)
    (hlines : LinesOnly s t) (hc : t.coherent) (hl : t.seq.op.owns t.seq.step = true) :
    (t.seq.state = .running → t.InRange)
      ∧ ∀ a, s.outsideRange a → Memory.read t.flash.array a = Memory.read s.flash.array a := by
  refine ⟨fun hr => OnTrack.inRange (m := s.flash.array) ?_ hc hr hl, h.1.array⟩
  rw [hlines.op, hlines.outsideRange]
  exact h

/-- An operation in its range that goes on keeps to it (R185, R282). -/
theorem State.InRange.resume {s : State} (h : s.InRange) :
    (s.resume.seq.state = .running → s.resume.InRange)
      ∧ ∀ a, s.outsideRange a → Memory.read s.resume.flash.array a = Memory.read s.flash.array a :=
  (h.onTrack.resume h.running).keepsRange s.resume_only (State.resume_coherent h.conf h.coherent)
    (State.resume_owns h.label)

/-- An operation in its range keeps to it over any stretch of lines (R12, R282). -/
theorem State.InRange.run {s : State} (h : s.InRange) (k : Nat) :
    ((State.run k s).seq.state = .running → (State.run k s).InRange)
      ∧ ∀ a, s.outsideRange a → Memory.read (State.run k s).flash.array a = Memory.read s.flash.array a :=
  h.onTrack.run.keepsRange State.run_only (State.run_coherent h.conf h.coherent) (State.run_owns h.label)

/-- A running block with nothing at its port goes on (R185, R282). -/
theorem step_running {s t : State} (hr : s.seq.state = .running) (hport : s.host.port = none) (hstep : step s = .next t) :
    t = s.resume := by
  have hb : s.busy = true := by simp [State.busy, hr]
  obtain ⟨-, ⟨a, ha, -⟩ | ⟨-, -, rfl, -⟩ | ⟨a, rest, -, hidle, -⟩ | ⟨-, hidle, -⟩⟩ := step_cases hstep
  · exact absurd (hport.symm.trans ha) (by simp)
  · rfl
  · exact absurd (hb.symm.trans hidle) (by decide)
  · exact absurd (hb.symm.trans hidle) (by decide)

/-- Settles O36: a running block goes on, and keeps to its range by `InRange.resume`. -/
theorem maintenanceStaysInItsRange : Obligations.MaintenanceStaysInItsRange := by
  intro s t h hport hstep
  obtain rfl := step_running h.running hport hstep
  obtain ⟨hin, hread⟩ := h.resume
  have hlines := s.resume_only
  exact ⟨hin, hread, hlines.op, hlines.addr, hlines.len, hlines.cfg⟩

/-! ### A host operation starts in its range (R260, R261) -/

/-- The framing a host operation relies on: `INIT` sends EnableQPI to a chip in single-line framing, the others speak in
the block's own (R103, R164). -/
def State.framedFor (s : State) (op : Op) : Prop :=
  match op with
  | .init => s.cfg.omDefault = .quad → s.flash.framing = .single
  | _     => s.framed

/-- The operands a request is accepted with fit its first line (R261). -/
theorem State.accept_operandsFit {s : State} {op : Op} {addr len : Word32} (hin : op.inRange s.cfg addr len = true) :
    (s.accept op addr len).operandsFit := by
  cases op with
  | init => exact trivial
  | merase => exact trivial
  | serase =>
    intro (hal : addr.toNat % s.cfg.sectorSize = 0)
    simpa [Op.inRange, hal] using hin
  | write => exact of_decide_eq_true (p := addr.toNat + len.toNat ≤ s.cfg.flashSize) hin

/-- A request that is accepted while the chip is ready starts an operation in its range (R260, R261). -/
theorem State.accept_inRange {s : State} {op : Op} {addr len : Word32} (h : s.coherent) (hrec : s.receptive)
    (hw : s.flash.wip = false) (hf : s.framedFor op) (hin : op.inRange s.cfg addr len = true) :
    (s.accept op addr len).InRange := by
  obtain ⟨hcw, hb, hcalm⟩ := hrec
  obtain ⟨hp, hi, -⟩ := hcalm
  obtain ⟨-, -, hwait⟩ := State.busy_false hb
  have hnot {p : Prop} (hq : s.seq.waiting.isSome = true) : p := by simp [hwait] at hq
  exact {
    conf := hcw
    coherent := State.coherent_of_eq rfl rfl rfl rfl rfl rfl rfl rfl h
    running := rfl
    label := by cases op <;> rfl
    operands := State.accept_operandsFit hin
    call := fun hh => absurd hp (by simpa [State.held, State.accept, hwait] using hh)
    frame := fun x hx => absurd (hi.symm.trans hx) (by simp)
    framed := fun hop => by
      cases op with
      | init => exact absurd rfl hop
      | merase => exact hf
      | serase => exact hf
      | write => exact hf
    single := fun hl hq _ => by
      cases op with
      | init => exact hf hq
      | merase => cases hl
      | serase => cases hl
      | write => cases hl
    ready := fun _ _ => hw
    work := fun hwork => absurd (hw.symm.trans hwork) (by decide)
    dest := fun hq => hnot hq
    answer := fun hq => hnot hq }

/-- A request that finds the chip ready keeps to its range, however far its lines get (R12, R271, R275, R281). -/
theorem State.request_keepsRange {s t : State} {op : Op} {addr len : Word32} (h : s.coherent) (hrec : s.receptive)
    (hw : s.flash.wip = false) (hf : s.framedFor op) (he : s.request op addr len = .next t) :
    (t.seq.state = .running → t.InRange)
      ∧ ∀ a, (s.accept op addr len).outsideRange a → Memory.read t.flash.array a = Memory.read s.flash.array a := by
  obtain ⟨-, -, -, hin, -, rfl, -⟩ := State.request_next he
  exact (State.accept_inRange h hrec hw hf hin).run _

/-- Settles O35: each host operation is its request; the bytes outside what it was asked to do are those outside the range
of the accepted operation. -/
theorem maintenanceStartsInItsRange : Obligations.MaintenanceStartsInItsRange := by
  intro i s t hc hrec hw hf he
  cases i with
  | init => exact State.request_keepsRange (op := .init) hc hrec hw hf he
  | merase => exact State.request_keepsRange (op := .merase) hc hrec hw hf he
  | serase addr => exact State.request_keepsRange (op := .serase) hc hrec hw hf he
  | write dest len => exact State.request_keepsRange (op := .write) hc hrec hw hf he
  | _ => exact hf.elim

/-! ### Acceptance and refusal (R260, R261) -/

/-- An accepted request stands at its first line where SEQ takes no further line at once (R12, R260). -/
theorem State.request_accepted {s : State} {op : Op} {addr len : Word32} (hcw : s.cfg.wf = true) (hb : s.busy = false)
    (hslice : s.env.slice = 0) (hm : op.modeAllowed s.fm = true) (hin : op.inRange s.cfg addr len = true)
    (hd : op.dataPresent s.host.buffer len = true) : s.request op addr len = .next (s.accept op addr len) := by
  obtain ⟨-, hp, -⟩ := State.busy_false hb
  rw [State.request_runs hcw hb hm hin hd, hslice]
  exact State.outcome_clear (State.readsWindow_idle hp)

/-- An aligned address is in the range of `SERASE` where it is inside the device (R261). -/
theorem Op.inRange_serase_iff {c : Config} {addr len : Word32} :
    Op.serase.inRange c addr len = true ↔ addr.toNat % c.sectorSize ≠ 0 ∨ addr.toNat < 2 ^ c.addrBits := by
  rw [Op.inRange, Bool.or_eq_true, decide_eq_true_iff, decide_eq_true_iff]
  exact Iff.rfl

/-- Settles O24: each operation by `request_accepted`. -/
theorem requestsAccepted : Obligations.RequestsAccepted := by
  intro s addr len hcw hb hslice
  refine ⟨fun hfm => ?_, fun hfm => ?_, fun hfm hin => ?_, fun hfm hin hd => ?_⟩
  · exact State.request_accepted (op := .init) hcw hb hslice (decide_eq_true hfm) rfl rfl
  · exact State.request_accepted (op := .merase) hcw hb hslice (decide_eq_true hfm) rfl rfl
  · exact State.request_accepted (op := .serase) hcw hb hslice (decide_eq_true hfm) (Op.inRange_serase_iff.mpr hin) rfl
  · exact State.request_accepted (op := .write) hcw hb hslice (decide_eq_true hfm) (decide_eq_true hin) (decide_eq_true hd)

section Refused

variable {s : State} {op : Op} {addr len : Word32}

theorem State.request_badConfiguration (hcw : s.cfg.wf = false) :
    s.request op addr len = .refused .badConfiguration := by
  simp [State.request, hcw]

theorem State.request_sequencerRunning (hcw : s.cfg.wf = true) (hb : s.busy = true) :
    s.request op addr len = .refused .sequencerRunning := by
  simp [State.request, hcw, hb]

theorem State.request_wrongMode (hcw : s.cfg.wf = true) (hb : s.busy = false) (hm : op.modeAllowed s.fm = false) :
    s.request op addr len = .refused .wrongMode := by
  simp [State.request, hcw, hb, hm]

theorem State.request_outOfRange (hcw : s.cfg.wf = true) (hb : s.busy = false) (hm : op.modeAllowed s.fm = true)
    (hin : op.inRange s.cfg addr len = false) : s.request op addr len = .refused .outOfRange := by
  simp [State.request, hcw, hb, hm, hin]

theorem State.request_dataMissing (hcw : s.cfg.wf = true) (hb : s.busy = false) (hm : op.modeAllowed s.fm = true)
    (hin : op.inRange s.cfg addr len = true) (hd : op.dataPresent s.host.buffer len = false) :
    s.request op addr len = .refused .dataMissing := by
  simp [State.request, hcw, hb, hm, hin, hd]

end Refused

/-- Settles O25: one lemma for each reason of a refusal. -/
theorem requestsRefused : Obligations.RequestsRefused := by
  intro s addr len
  refine ⟨fun hcw => ?_, fun hcw hb => ?_, fun hcw hb hfm => ?_, fun hcw hb hfm => ?_, fun hcw hb hfm => ?_⟩
  · have href {op a n} : s.request op a n = .refused .badConfiguration := State.request_badConfiguration hcw
    exact ⟨href, href, href, href⟩
  · have href {op a n} : s.request op a n = .refused .sequencerRunning := State.request_sequencerRunning hcw hb
    exact ⟨href, href, href, href⟩
  · exact State.request_wrongMode (op := .init) hcw hb (decide_eq_false hfm)
  · exact ⟨State.request_wrongMode (op := .merase) hcw hb (decide_eq_false hfm),
      State.request_wrongMode (op := .serase) hcw hb (decide_eq_false hfm),
      State.request_wrongMode (op := .write) hcw hb (decide_eq_false hfm)⟩
  · refine ⟨fun hal hout => ?_, fun hout => ?_, fun hin hshort => ?_⟩
    · refine State.request_outOfRange (op := .serase) hcw hb (decide_eq_true hfm) (Bool.eq_false_iff.mpr fun hin => ?_)
      have := Op.inRange_serase_iff.mp hin
      omega
    · exact State.request_outOfRange (op := .write) hcw hb (decide_eq_true hfm) (decide_eq_false (Nat.not_le.mpr hout))
    · exact State.request_dataMissing (op := .write) hcw hb (decide_eq_true hfm) (decide_eq_true hin)
        (decide_eq_false (Nat.not_le.mpr hshort))

/-! ### The initialization (R265 to R269) -/

/-- The line `I3` with a chip of any kind: EnableQPI is sent, once and at single width (R206, R268). -/
theorem State.line_init_qpi_any {s : State} (hw : s.seq.waiting = none) (hcalm : s.calm) (hstep : s.seq.step = .i3)
    (hom : s.cfg.omDefault = .quad) (hl : s.lets 2) :
    WriteOnly s s.line ∧ s.line.seq.step = .i4
      ∧ s.line.frames = launchedFrame s.cfg (Transaction.send .enableQPI) .single .write :: s.frames := by
  have hstart : s.startLine = s.apply (Transaction.send .enableQPI) .indirectWrite .single := by
    simp [State.startLine, hstep, hom]
  obtain ⟨honly, hseq, -, hframes⟩ := State.line_write_any (d := []) hw hcalm hstart
    (fun v hv => State.finishLine_straight (hv.trans hstep) rfl) rfl (fun j hj => absurd hj (Nat.not_lt_zero j)) hl
  exact ⟨honly, by rw [hseq, hstep]; rfl, hframes⟩

/-- From an enabled peripheral to `I4`: EnableQPI exactly when the default operating mode is `Quad` (R268, R282). -/
theorem State.run_init_toMapped {s : State} (hcw : s.cfg.wf = true) (hr : s.seq.state = .running)
    (hw : s.seq.waiting = none) (hcalm : s.calm) (hstep : s.seq.step = if s.cfg.omDefault = .quad then .i3 else .i4)
    (hl : s.cfg.omDefault = .quad → s.lets 2) :
    ∃ (v : State) (j : Nat), j ≤ 1 ∧ (∀ k, State.run (k + j) s = State.run k v) ∧ WriteOnly s v ∧ v.seq.step = .i4
      ∧ v.frames = (if s.cfg.omDefault = .quad
          then [launchedFrame s.cfg (Transaction.send .enableQPI) .single .write] else []) ++ s.frames
      ∧ (s.cfg.omDefault ≠ .quad → v.flash = s.flash)
      ∧ (s.cfg.omDefault = .quad → s.flash.wip = false → s.flash.framing = .single →
          v.flash = { s.flash with framing := .quad }) := by
  by_cases hom : s.cfg.omDefault = .quad
  · rw [if_pos hom] at hstep
    obtain ⟨honly, hto, hframes⟩ := State.line_init_qpi_any hw hcalm hstep hom (hl hom)
    refine ⟨s.line, 1, le_rfl, fun k => State.run_succ hr (State.held_of_calm hcalm hw), honly, hto, ?_,
      fun hne => absurd hom hne, fun _ hwip hfr => ?_⟩
    · rw [hframes, if_pos hom]; rfl
    · rw [State.line_init_qpi hcw hw hcalm hstep hom hwip hfr (hl hom)]; rfl
  · rw [if_neg hom] at hstep
    exact ⟨s, 0, Nat.zero_le _, fun _ => rfl, WriteOnly.refl s, hstep, by rw [if_neg hom]; rfl, fun _ => rfl,
      fun hq => absurd hq hom⟩

/-- The state after `I4` and `I5` from a state at `I4` (R269). -/
def State.initReturned (s : State) : State :=
  State.respond .ok { s.mapped with seq := { s.seq with step := .i5, r := .ok } }

theorem State.initReturned_frames (s : State) : s.initReturned.frames = s.frames :=
  (State.respond_frames _ _).trans s.mapped_frames

/-- Settles O26: I0 to I2 by `run_init_enable`, I3 by `run_init_toMapped`, I4 and I5 by `run_init_finish`. -/
theorem initCompletes : Obligations.InitCompletes := by
  intro s es h hfm hslice hen hlets
  obtain ⟨hcw, hb, hcalm⟩ := h
  obtain ⟨-, hphase, hwait⟩ := State.busy_false hb
  obtain ⟨v, j, hj, hgo, hv, hstep, hframes, hother, hquad⟩ := State.run_init_toMapped
    (s := (s.accept .init s.host.reqAddr s.host.reqLen).initEnabled es) hcw rfl hwait hcalm rfl hlets
  obtain ⟨hp, hi, hfifo⟩ := hv.calm hcalm
  have hvrun : v.seq.state = .running := by rw [hv.seq]; rfl
  have hvwait : v.seq.waiting = none := by rw [hv.seq]; exact hwait
  obtain ⟨k, hk⟩ := Nat.exists_eq_add_of_le' (show j + 5 ≤ s.env.slice by omega)
  have hrun : State.run s.env.slice (s.accept .init s.host.reqAddr s.host.reqLen) = v.initReturned := by
    rw [hk, show k + (j + 5) = k + 2 + j + 3 by omega,
      State.run_init_enable (s := s.accept .init _ _) rfl hwait hphase rfl hen, hgo]
    exact State.run_init_finish hvrun hvwait hp hstep
  have hexec : exec .init s = .next v.initReturned := by
    rw [exec_init, State.request_runs (op := .init) hcw hb (decide_eq_true hfm) rfl rfl, hrun]
    exact State.outcome_clear (State.readsWindow_idle hp)
  have hcmd : v.mapped.cr.cfg = tableCfg s.cfg .readData := (CR.configured_readData v.cr v.cfg).trans (by rw [hv.cfg]; rfl)
  have hhost : v.host = { s.host with response := none } := hv.host
  refine ⟨v.initReturned, hexec, ?_, rfl, rfl, rfl, hv.cfg, hv.widths, ?_, hv.en, hv.addrw, hv.timing, hcmd,
    congrArg some hcmd, ⟨hp, hi, hfifo⟩, hother, hquad, v.initReturned_frames.trans hframes, hv.enable⟩
  · exact congrArg (fun x : HostAgent => { x with response := some .ok }) hhost
  · exact State.held_of_calm (s := v.initReturned) ⟨hp, hi, hfifo⟩ hvwait

/-! ### The erases (R262, R270, R274) -/

/-- A request returned through `RESTORE` leaves the chip as its lines left it: the restoration step sends no frame (R246). -/
theorem State.request_returned_flash {s v t : State} {op : Op} {addr len : Word32} {k : Nat} (h : s.receptive)
    (hrun : State.run s.env.slice (s.accept op addr len) = State.run (k + 2) v)
    (hw : WriteOnly (s.accept op addr len) v) (hstep : v.seq.step = .restore)
    (ht : s.request op addr len = .next t) : t.flash = v.flash := by
  obtain ⟨-, hb, hcalm⟩ := h
  obtain ⟨-, -, hwait⟩ := State.busy_false hb
  obtain ⟨-, -, -, -, -, rfl, -⟩ := State.request_next ht
  rw [hrun, State.run_restore (by rw [hw.seq]; rfl) (by rw [hw.seq]; exact hwait) (hw.calm hcalm).1 hstep]
  rfl

/-- The end of an erase whose poll made `n` reads and ended with `r`, with the chip left as `fl`, the command `d` on the
wire (R262, R307). -/
def State.ErasedTo (s t : State) (d : Transaction) (n : Nat) (r : Result) (fl : Flash) : Prop :=
  s.Returned t r ∧ t.flash = fl
    ∧ ∃ bs : List Byte, bs.length = n
        ∧ t.frames = bs.map (statusFrame s.cfg) ++ launchedFrame s.cfg d s.cfg.omDefault .write
            :: launchedFrame s.cfg (Transaction.send .writeEnable) s.cfg.omDefault .write :: s.frames
        ∧ (r = .timeout → ∀ b ∈ bs, b.getLsbD s.cfg.busyBit.val = true)
        ∧ (r = .ok → (∀ b ∈ bs.tail, b.getLsbD s.cfg.busyBit.val = true)
            ∧ ∀ b ∈ bs.head?, b.getLsbD s.cfg.busyBit.val = false)

/-- How an erase stands before its WriteEnable: accepted, `j` lines on, at the label `l`, its operand inside the device
(R262, R270, R274). -/
structure State.ErasesFrom (s : State) (op : Op) (addr len : Word32) (l : Label) (j : Nat) : Prop where
  receptive : s.receptive
  ready     : s.chipReady
  mode      : op.modeAllowed s.fm = true
  range     : op.inRange s.cfg addr len = true
  data      : op.dataPresent s.host.buffer len = true
  label     : l = .m0 ∨ l = .s1
  fits      : ((s.accept op addr len).goto l).destructiveFits
  reaches   : ∀ k, State.run (k + j) (s.accept op addr len) = State.run k ((s.accept op addr len).goto l)
  slice     : j + 5 ≤ s.env.slice

section Erases

variable {s v : State} {op : Op} {addr len : Word32} {l : Label} {j n : Nat} {r : Result} {fl : Flash}

theorem State.ErasesFrom.waiting (h : s.ErasesFrom op addr len l j) : s.seq.waiting = none :=
  (State.busy_false h.receptive.2.1).2.2

theorem State.ErasesFrom.noData (h : s.ErasesFrom op addr len l j) :
    ((s.accept op addr len).goto l).destructive.2.1 = [] := by
  rcases h.label with rfl | rfl <;> rfl

theorem State.ErasesFrom.writeEnable (h : s.ErasesFrom op addr len l j) :
    ((s.accept op addr len).goto l).seq.step = .m0 ∨ ((s.accept op addr len).goto l).seq.step = .s1
      ∨ ((s.accept op addr len).goto l).seq.step = .w3 :=
  h.label.imp_right .inl

/-- An erase whose two commands and poll have led to `RESTORE` returns with the poll's result (R262, R307). -/
theorem State.ErasesFrom.returns (h : s.ErasesFrom op addr len l j)
    (hrun : ∀ k, ∃ v, State.run (k + 3) ((s.accept op addr len).goto l) = State.run k v ∧ v.seq.step = .restore
      ∧ Issued ((s.accept op addr len).goto l) v n r fl) :
    ∃ t, s.request op addr len = .next t
      ∧ s.ErasedTo t ((s.accept op addr len).goto l).destructive.1 n r fl := by
  obtain ⟨k, hk⟩ := Nat.exists_eq_add_of_le' h.slice
  obtain ⟨v, hgo, hstep, hv⟩ := hrun (k + 2)
  obtain ⟨hphase, -, -⟩ := h.receptive.2.2
  have hto : State.run s.env.slice (s.accept op addr len) = State.run (k + 2) v := by
    rw [hk, show k + (j + 5) = k + 2 + 3 + j by omega, h.reaches, hgo]
  have honly : WriteOnly (s.accept op addr len) v := (State.goto_only l _).trans (hv.writeOnly hphase)
  obtain ⟨t, ht, hret, htf⟩ := State.request_returned h.receptive h.mode h.range h.data hto honly hstep
  have hres : v.seq.r = r := by rw [hv.seq]
  obtain ⟨bs, hlen, hframes, hbusy, hready⟩ := hv.frames
  rw [h.noData] at hframes
  refine ⟨t, ht, hres ▸ hret, (State.request_returned_flash h.receptive hto honly hstep ht).trans hv.flash, bs, hlen,
    htf.trans hframes, hbusy, fun hok => ?_⟩
  obtain ⟨b, rest, rfl, hb, hrest⟩ := hready hok
  exact ⟨hrest, fun c hc => Option.mem_some.mp hc ▸ hb⟩

/-- An erase whose poll number `n + 1` sees the chip ready ends with `Ok`, its work done (R271, R275). -/
theorem State.ErasesFrom.completes (h : s.ErasesFrom op addr len l j) (hl : s.lets (4 + 2 * (n + 1)))
    (hmax : n + 1 ≤ s.cfg.maxAttempts.toNat) (hdone : s.env.done.take (n + 1) = List.replicate n false ++ [true]) :
    ∃ t, s.request op addr len = .next t
      ∧ s.ErasedTo t ((s.accept op addr len).goto l).destructive.1 (n + 1) .ok
          (s.flash.worked s.cfg ((s.accept op addr len).goto l).destructive.2.2) := by
  have hnext : ((s.accept op addr len).goto l).seq.step.next.next.next = .restore := by
    rcases h.label with rfl | rfl <;> rfl
  refine h.returns fun k => ?_
  rw [← hnext]
  exact State.run_skeleton_ok (s := (s.accept op addr len).goto l) h.receptive.1 rfl h.waiting h.receptive.2.2 h.ready
    h.fits h.writeEnable (by rw [h.noData]; exact hl) hmax hdone

/-- An erase whose chip is busy through the bound ends with `Timeout`, the chip at work (R224, R271, R275). -/
theorem State.ErasesFrom.timesOut (h : s.ErasesFrom op addr len l j) (hl : s.lets (4 + 2 * s.cfg.maxAttempts.toNat))
    (hdone : s.env.done.take s.cfg.maxAttempts.toNat = List.replicate s.cfg.maxAttempts.toNat false) :
    ∃ t, s.request op addr len = .next t
      ∧ s.ErasedTo t ((s.accept op addr len).goto l).destructive.1 s.cfg.maxAttempts.toNat .timeout
          (s.flash.working s.cfg ((s.accept op addr len).goto l).destructive.2.2) :=
  h.returns fun _ => State.run_skeleton_timeout (s := (s.accept op addr len).goto l) h.receptive.1 rfl h.waiting
    h.receptive.2.2 h.ready h.fits h.writeEnable (by rw [h.noData]; exact hl) hdone

end Erases

/-- `MERASE` sends its WriteEnable at its first line (R270). -/
theorem State.merase_erasesFrom {s : State} (h : s.receptive) (hfm : s.fm = .memoryMapped) (hready : s.chipReady)
    (hslice : 5 ≤ s.env.slice) : s.ErasesFrom .merase s.host.reqAddr s.host.reqLen .m0 0 :=
  ⟨h, hready, decide_eq_true hfm, rfl, rfl, .inl rfl, trivial, fun _ => rfl, by omega⟩

/-- An address inside the device is the one that goes on the wire (R130 a). -/
theorem flashAddress_toNat {c : Config} {addr : Word32} (hcw : c.wf = true) (hin : addr.toNat < c.flashSize) :
    (flashAddress addr).toNat = addr.toNat := by
  have := Config.flashSize_le hcw
  rw [flashAddress, BitVec.toNat_setWidth, Nat.mod_eq_of_lt (by omega)]

/-- `SERASE` of an aligned address inside the device sends its WriteEnable at its second line (R273, R274). -/
theorem State.serase_erasesFrom {s : State} {addr : Word32} (h : s.receptive) (hfm : s.fm = .memoryMapped)
    (hready : s.chipReady) (hslice : 6 ≤ s.env.slice) (hal : addr.toNat % s.cfg.sectorSize = 0)
    (hin : addr.toNat < s.cfg.flashSize) : s.ErasesFrom .serase addr s.host.reqLen .s1 1 where
  receptive := h
  ready := hready
  mode := decide_eq_true hfm
  range := Op.inRange_serase_iff.mpr (.inr hin)
  data := rfl
  label := .inr rfl
  fits := (flashAddress_toNat h.1 hin).trans_lt hin
  reaches := State.run_aligned h.2.1 hal
  slice := by omega

/-- Settles O28: `ErasesFrom.completes` for `MERASE`; an erased array lists no cell. -/
theorem massEraseCompletes : Obligations.MassEraseCompletes := by
  intro s j h hfm hready hslice hl hmax hdone
  obtain ⟨t, ht, hret, hflash, bs, hlen, hframes, -, hbits⟩ :=
    (State.merase_erasesFrom h hfm hready hslice).completes hl hmax hdone
  obtain ⟨htail, hhead⟩ := hbits rfl
  exact ⟨t, ht, hret, by rw [hflash]; rfl, by rw [hflash]; rfl, by rw [hflash]; rfl, fun a => by rw [hflash]; rfl,
    bs, hlen, htail, hhead, hframes⟩

/-- Settles O30: `ErasesFrom.completes` for `SERASE`; the array by `Memory.read_eraseRange`. -/
theorem eraseSectorCompletes : Obligations.EraseSectorCompletes := by
  intro s addr j h hfm hready hslice hal hin hl hmax hdone
  obtain ⟨t, ht, hret, hflash, bs, hlen, hframes, -, hbits⟩ :=
    (State.serase_erasesFrom h hfm hready hslice hal hin).completes hl hmax hdone
  obtain ⟨htail, hhead⟩ := hbits rfl
  refine ⟨t, ht, hret, by rw [hflash]; rfl, by rw [hflash]; rfl, by rw [hflash]; rfl, fun a => ?_,
    bs, hlen, htail, hhead, ?_⟩
  · have harray : t.flash.array = Memory.eraseRange s.flash.array ((flashAddress addr).toNat
        - (flashAddress addr).toNat % s.cfg.sectorSize) s.cfg.sectorSize := by rw [hflash]; rfl
    rw [harray, flashAddress_toNat h.1 hin, hal, Nat.sub_zero, Memory.read_eraseRange]
    rfl
  · rw [BitVec.ofNat_toNat]
    exact hframes

/-- Settles O29: `ErasesFrom.timesOut` for both erases; the chip works in the sector only, by `spares_sectorErase`. -/
theorem eraseTimesOut : Obligations.EraseTimesOut := by
  intro s addr h hfm hready hslice hl hdone
  refine ⟨?_, fun hal hin => ?_⟩
  · obtain ⟨t, ht, hret, hflash, bs, hlen, hframes, hbusy, -⟩ :=
      (State.merase_erasesFrom h hfm hready (by omega)).timesOut hl hdone
    exact ⟨t, ht, hret, by rw [hflash]; rfl, by rw [hflash]; rfl, bs, hlen, hbusy rfl, hframes⟩
  · obtain ⟨t, ht, hret, hflash, bs, hlen, hframes, hbusy, -⟩ :=
      (State.serase_erasesFrom h hfm hready hslice hal hin).timesOut hl hdone
    have hwork : t.flash = s.flash.working s.cfg (.sectorErase addr.toNat) := by
      rw [← flashAddress_toNat h.1 hin]; exact hflash
    obtain ⟨-, hspares, -⟩ : (Pending.sectorErase addr.toNat).spares s.cfg
        (fun a => a < addr.toNat ∨ addr.toNat + s.cfg.sectorSize ≤ a) := spares_sectorErase hal fun _ ha => ha
    refine ⟨t, ht, hret, by rw [hwork]; rfl, by rw [hwork]; rfl, fun a ha => ?_, bs, hlen, hbusy rfl, ?_⟩
    · rw [hwork]
      exact Memory.read_disturbed_other (hspares a ha)
    · rw [BitVec.ofNat_toNat]
      exact hframes

/-! ### The chunking rule (R279, R280) -/

/-- Induction over the chunks of a write, chunk by chunk (R277, R279). -/
theorem chunks_induction {p : Nat} (hp : 1 ≤ p) {P : Nat → Nat → List (Nat × Nat) → Prop} (zero : ∀ a, P a 0 [])
    (step : ∀ a n, 0 < n →
      P (a + chunkLength p a n) (n - chunkLength p a n) (chunks p (a + chunkLength p a n) (n - chunkLength p a n)) →
      P a n ((a, chunkLength p a n) :: chunks p (a + chunkLength p a n) (n - chunkLength p a n))) (a n : Nat) :
    P a n (chunks p a n) := by
  induction n using Nat.strongRecOn generalizing a with
  | ind n ih =>
    rcases Nat.eq_zero_or_pos n with rfl | hn
    · rw [chunks_zero]
      exact zero a
    · have hpos := chunkLength_pos (a := a) hp hn
      rw [chunks_cons hp hn]
      exact step a n hn (ih _ (by omega) _)

section Rule

variable {p : Nat} (hp : 1 ≤ p) (a n : Nat)
include hp

/-- A chunk has a byte, ends in the page it starts in, and lies in the range of the write (R88, R279). -/
theorem chunks_bounds : ∀ ch ∈ chunks p a n,
    1 ≤ ch.2 ∧ ch.2 ≤ p ∧ ch.1 % p + ch.2 ≤ p ∧ a ≤ ch.1 ∧ ch.1 + ch.2 ≤ a + n := by
  refine chunks_induction hp (P := fun a n l => ∀ ch ∈ l,
    1 ≤ ch.2 ∧ ch.2 ≤ p ∧ ch.1 % p + ch.2 ≤ p ∧ a ≤ ch.1 ∧ ch.1 + ch.2 ≤ a + n) (fun a ch hch => nomatch hch) ?_ a n
  intro a n hn ih
  have hpos := chunkLength_pos (a := a) hp hn
  have hle := chunkLength_le (p := p) (a := a) (m := n)
  have hpage := chunkLength_page (a := a) (m := n) hp
  refine List.forall_mem_cons.mpr ⟨by dsimp only; omega, fun ch hch => ?_⟩
  obtain ⟨h1, h2, h3, h4, h5⟩ := ih ch hch
  exact ⟨h1, h2, h3, by omega, by omega⟩

/-- The chunks add up to the length (R279). -/
theorem chunks_sum : ((chunks p a n).map Prod.snd).sum = n := by
  refine chunks_induction hp (P := fun _ n l => (l.map Prod.snd).sum = n) (fun _ => rfl) ?_ a n
  intro a n _ ih
  have hle := chunkLength_le (p := p) (a := a) (m := n)
  rw [List.map_cons, List.sum_cons, ih]
  dsimp only
  omega

/-- A write has at most as many chunks as bytes (R279). -/
theorem chunks_length_le : (chunks p a n).length ≤ n := by
  have hle := List.length_le_sum_of_one_le ((chunks p a n).map Prod.snd) fun m hm => by
    obtain ⟨ch, hch, rfl⟩ := List.mem_map.mp hm
    exact (chunks_bounds hp a n ch hch).1
  rwa [chunks_sum hp, List.length_map] at hle

/-- The first chunk starts at the destination (R279). -/
theorem chunks_head : (chunks p a n).head?.map Prod.fst = if n = 0 then none else some a := by
  rcases Nat.eq_zero_or_pos n with rfl | hn
  · rw [chunks_zero]; rfl
  · rw [chunks_cons hp hn, if_neg (by omega)]; rfl

/-- A chunk that is not the last one ends its page (R279). -/
theorem chunk_ends_page (h : chunkLength p a n < n) : (a + chunkLength p a n) % p = 0 := by
  have hlt := Nat.mod_lt a hp
  have hc : chunkLength p a n = p - a % p := by
    unfold chunkLength at h ⊢
    omega
  have hsum : a + (p - a % p) = p * (a / p + 1) := by
    have := Nat.div_add_mod a p
    rw [Nat.mul_succ]
    omega
  rw [hc, hsum, Nat.mul_mod_right]

/-- The chunks follow one another, each but the first from the start of a page (R279). -/
theorem chunks_isChain : List.IsChain (fun x y => y.1 = x.1 + x.2 ∧ y.1 % p = 0) (chunks p a n) := by
  refine chunks_induction hp (P := fun _ _ l => List.IsChain (fun x y => y.1 = x.1 + x.2 ∧ y.1 % p = 0) l)
    (fun _ => .nil) ?_ a n
  intro a n hn ih
  refine List.isChain_cons.mpr ⟨fun y hy => ?_, ih⟩
  have hhead := chunks_head hp (a + chunkLength p a n) (n - chunkLength p a n)
  rw [Option.mem_def.mp hy, Option.map_some] at hhead
  split at hhead
  · cases hhead
  · have hy := Option.some.inj hhead
    exact ⟨hy, hy ▸ chunk_ends_page hp a n (by omega)⟩

/-- The number of chunks is the number of pages the write touches (R279, R280). -/
theorem chunks_length : (chunks p a n).length = if n = 0 then 0 else (a % p + n + p - 1) / p := by
  refine chunks_induction hp (P := fun a n l => l.length = if n = 0 then 0 else (a % p + n + p - 1) / p) (fun _ => rfl)
    ?_ a n
  intro a n hn ih
  have hlt := Nat.mod_lt a hp
  rw [List.length_cons, ih, if_neg (by omega : n ≠ 0)]
  rcases Nat.lt_or_ge (chunkLength p a n) n with hmore | hlast
  · have hc : chunkLength p a n = p - a % p := by
      unfold chunkLength at hmore ⊢
      omega
    rw [if_neg (by omega), chunk_ends_page hp a n hmore, ← Nat.add_div_right _ hp, hc]
    congr 1
    omega
  · have hpage := chunkLength_page (a := a) (m := n) hp
    rw [if_pos (by omega)]
    exact (Nat.div_eq_of_lt_le (by omega) (by omega)).symm

end Rule

/-- Settles O40: a lemma of each kind; the number of chunks of two and a half pages from `chunks_length`. -/
theorem chunkingRule : Obligations.ChunkingRule := by
  refine ⟨fun p a n hp => ⟨chunks_bounds hp a n, fun l1 x y l2 heq => ?_, chunks_sum hp a n, chunks_head hp a n,
    chunks_length hp a n⟩, fun h a hh => ?_⟩
  · have hchain := chunks_isChain hp a n
    rw [heq, List.isChain_append_cons_cons] at hchain
    exact hchain.2.1
  · have hlt := Nat.mod_lt a (show 0 < 2 * h by omega)
    rw [chunks_length (show 1 ≤ 2 * h by omega), if_neg (by omega)]
    exact ⟨fun hlow => Nat.div_eq_of_lt_le (by omega) (by omega), fun hhigh => Nat.div_eq_of_lt_le (by omega) (by omega)⟩

/-! ### The write (R277, R279, R281) -/

/-- A write whose loop has come to `RESTORE` returns with the result it carries, the chip as the loop left it (R277,
R307). -/
theorem State.request_written {s v : State} {dest len : Word32} {j k : Nat} (h : s.receptive) (hfm : s.fm = .memoryMapped)
    (hrange : dest.toNat + len.toNat ≤ s.cfg.flashSize) (hbuf : len.toNat ≤ s.host.buffer.length)
    (hslice : s.env.slice = k + 2 + j + 1)
    (hgo : State.run (k + 2 + j) (s.writeBegun dest len) = State.run (k + 2) v)
    (hv : WriteOnly (s.writeBegun dest len) v) (hstep : v.seq.step = .restore) :
    ∃ t, exec (.write dest len) s = .next t ∧ s.Returned t v.seq.r ∧ t.flash = v.flash ∧ t.frames = v.frames := by
  have hrun : State.run s.env.slice (s.accept .write dest len) = State.run (k + 2) v := by
    rw [hslice, State.run_writeBegun h.2.1, hgo]
  have honly := (s.writeBegun_only dest len).trans hv
  obtain ⟨t, ht, hret, htf⟩ := State.request_returned (op := .write) h (decide_eq_true hfm) (decide_eq_true hrange)
    (decide_eq_true hbuf) hrun honly hstep
  exact ⟨t, ht, hret, State.request_returned_flash h hrun honly hstep ht, htf⟩

/-- The byte at `a` after a write to `dest` has programmed every offset below `top` from the lent buffer (R102): the form of
`Wrote.array` and `WroteUntil.array` for a whole write. -/
def programmed (m : Memory) (buffer : List Byte) (dest top a : Nat) : Byte :=
  match buffer[a - dest]? with
  | some d => if dest ≤ a ∧ a < top then Memory.read m a &&& d else Memory.read m a
  | none   => Memory.read m a

theorem programmed_inside {m : Memory} {buffer : List Byte} {dest top i : Nat} (h : i < buffer.length)
    (hi : dest + i < top) : programmed m buffer dest top (dest + i) = Memory.read m (dest + i) &&& buffer[i] := by
  simp [programmed, h, hi]

theorem programmed_outside {m : Memory} {buffer : List Byte} {dest top a : Nat} (ha : a < dest ∨ top ≤ a) :
    programmed m buffer dest top a = Memory.read m a := by
  unfold programmed
  split
  · exact if_neg (by omega)
  · rfl

/-- Settles O32: the loop by `run_writeLoop`, its return by `request_written`. -/
theorem writeMemoryCompletes : Obligations.WriteMemoryCompletes := by
  intro s dest len h hfm hready hwf hrange hbuf hwin hmax ⟨hl, hdone, hslice⟩
  have hcount := chunks_length_le (Config.wf_pageChunk h.1) dest.toNat len.toNat
  have hpos : 0 < len.toNat → 1 ≤ s.cfg.maxAttempts.toNat := fun h0 => hmax fun hz => by simp [hz] at h0
  obtain ⟨k, hk⟩ := Nat.exists_eq_add_of_le'
    (show 6 * (chunks s.cfg.pageChunk dest.toNat len.toNat).length + 4 ≤ s.env.slice by omega)
  obtain ⟨v, hgo, hv⟩ := State.run_writeLoop (k := k + 2) (State.writeBegun_ready h hready hrange hbuf) hwin hpos hwf
    (Nat.sub_zero _) (State.lets_mono hl (by omega)) (take_replicate_mono hdone (by omega))
  obtain ⟨t, ht, hret, hflash, hframes⟩ := State.request_written
    (j := 6 * (chunks s.cfg.pageChunk dest.toNat len.toNat).length + 1) h hfm hrange hbuf (by omega) hgo hv.only hv.step
  have harray a : Memory.read t.flash.array a
      = programmed s.flash.array s.host.buffer dest.toNat (dest.toNat + len.toNat) a := by
    rw [hflash]; exact hv.array a
  obtain ⟨bs, hlen, -, hwire⟩ := hv.frames
  refine ⟨t, ht, hv.r rfl ▸ hret, hflash ▸ hv.wip, hflash ▸ hv.frame, hflash ▸ hv.wf, fun i hi hlt => ?_, fun a ha => ?_,
    bs, hlen, hframes.trans hwire⟩
  · rw [harray, programmed_inside hi (by omega)]
  · rw [harray, programmed_outside ha]

/-- Settles O33: the loop by `run_writeTimeout`, its return by `request_written`. -/
theorem writeMemoryTimeout : Obligations.WriteMemoryTimeout := by
  intro s dest len j ch h hfm hready hwf hrange hbuf hwin hch hpos hl hdone hslice
  obtain ⟨k, hk⟩ := Nat.exists_eq_add_of_le' hslice
  obtain ⟨v, hgo, hv⟩ := State.run_writeTimeout (k := k + 2) (State.writeBegun_ready h hready hrange hbuf) hwin hpos hwf
    (Nat.sub_zero _) hch hl hdone
  obtain ⟨t, ht, hret, hflash, hframes⟩ :=
    State.request_written h hfm hrange hbuf (by omega) hgo hv.only hv.step
  have harray a (ha : a < ch.1 ∨ ch.1 + ch.2 ≤ a) : Memory.read t.flash.array a
      = programmed s.flash.array s.host.buffer dest.toNat ch.1 a := by
    rw [hflash]; exact hv.array a ha
  obtain ⟨-, -, -, hfrom, -⟩ := chunks_bounds (Config.wf_pageChunk h.1) _ _ ch (List.mem_of_getElem? hch)
  obtain ⟨bs, ps, hlen, -, hplen, hbusy, hwire⟩ := hv.frames
  refine ⟨t, ht, hv.r ▸ hret, hflash ▸ hv.wip, hflash ▸ hv.pending, fun i hi hlt => ?_, fun a ha => ?_,
    bs, ps, hlen, hplen, hbusy, hframes.trans hwire⟩
  · rw [harray _ (.inl hlt), programmed_inside hi hlt]
  · rw [harray a (by omega), programmed_outside (by omega)]

/-! ### The moves of `SEQ.step` (R282) -/

/-- The sequencer position with the assignments of its line made (R265, R277). -/
def State.assigned (s : State) : Seq :=
  match s.seq.step with
  | .i5 => { s.seq with r := .ok }
  | .w0 => { s.seq with off := 0, r := .ok }
  | .w2 => { s.seq with chunk := s.nextChunk }
  | .w6 => { s.seq with off := s.seq.off + s.seq.chunk }
  | _   => s.seq

/-- A line assigns the offset, the chunk and the result only (R277). -/
theorem State.assigned_frame (s : State) :
    s.assigned.state = s.seq.state ∧ s.assigned.step = s.seq.step ∧ s.assigned.op = s.seq.op
      ∧ s.assigned.addr = s.seq.addr ∧ s.assigned.len = s.seq.len := by
  unfold State.assigned
  split <;> exact ⟨rfl, rfl, rfl, rfl, rfl⟩

theorem State.assigned_off {s : State} (h0 : s.seq.step ≠ .w0) (h6 : s.seq.step ≠ .w6) : s.assigned.off = s.seq.off := by
  unfold State.assigned
  split <;> simp_all

theorem State.assigned_chunk {s : State} (h2 : s.seq.step ≠ .w2) : s.assigned.chunk = s.seq.chunk := by
  unfold State.assigned
  split <;> simp_all

/-- The state `c` after the assignments and the calls of the line at which `s` stands: the position but for the fields of a
call, whether it waits or has returned; the enable is kept at `I2`, which tests it, the result at the lines that return it. -/
structure State.LineCalled (s c : State) : Prop where
  cfg   : c.cfg = s.cfg
  seq   : c.seq = { s.assigned with phase := c.seq.phase, waiting := c.seq.waiting, status := c.seq.status
                                    attempts := c.seq.attempts, r := c.seq.r }
  en    : s.seq.step = .i2 → c.cr.en = s.cr.en
  r     : s.seq.step = .i5 ∨ s.seq.step = .ret → c.seq.r = s.assigned.r
  waits : c.held = true → s.assigned = s.seq

/-- The lines that call the builder or poll, and do nothing else (R265, R270, R274, R277). -/
def Label.calls : Label → Bool
  | .i3 | .i4 | .m0 | .m1 | .m2 | .s1 | .s2 | .s3 | .w3 | .w4 | .w5 | .restore => true
  | _ => false

theorem State.assigned_of_calls {s : State} (hl : s.seq.step.calls = true) : s.assigned = s.seq := by
  unfold State.assigned
  split
  next e => rw [e] at hl; cases hl
  next e => rw [e] at hl; cases hl
  next e => rw [e] at hl; cases hl
  next e => rw [e] at hl; cases hl
  next => rfl

/-- The line of a call, as far as the call has come. -/
theorem PollOnly.lineCalled {s c : State} (h : PollOnly s c) (hl : s.seq.step.calls = true) : s.LineCalled c where
  cfg := h.cfg
  seq := by rw [State.assigned_of_calls hl]; exact congrArg State.seq h.same
  en := fun _ => h.en
  r := by rintro (e | e) <;> rw [e] at hl <;> cases hl
  waits := fun _ => State.assigned_of_calls hl

/-- A line that makes no call leaves the position as its assignments have it. -/
theorem State.LineCalled.of_plain {s c : State} (hh : s.held = false) (hcfg : c.cfg = s.cfg) (hseq : c.seq = s.assigned)
    (hen : s.seq.step = .i2 → c.cr.en = s.cr.en) : s.LineCalled c where
  cfg := hcfg
  seq := by rw [hseq]
  en := hen
  r := fun _ => by rw [hseq]
  waits := fun hc => by
    obtain ⟨hp, hw⟩ := State.held_false hh
    have : c.held = false := by
      unfold State.held
      rw [hseq]
      unfold State.assigned
      split <;> simp [hp, hw]
    exact absurd (this.symm.trans hc) (by decide)

/-- The line at which an operation stands, from its start (R265, R270, R274, R277). -/
theorem State.startLine_called {s : State} (hh : s.held = false) : s.LineCalled s.startLine := by
  have hplain (hseq : s.startLine.seq = s.assigned) (hen : s.seq.step = .i2 → s.startLine.cr.en = s.cr.en) :
      s.LineCalled s.startLine := .of_plain hh s.startLine_cfg hseq hen
  have hwrite {t om} (hv : s.startLine = s.apply t .indirectWrite om) : PollOnly s s.startLine := by
    rw [hv]; exact (s.apply_only t .indirectWrite om (by decide)).poll
  have hmapped (hv : s.startLine = s.enterMapped) : PollOnly s s.startLine := by
    rw [hv]; exact (s.apply_only _ .memoryMapped _ (by decide)).poll
  have hpoll (hv : s.startLine = s.waitUntilReady s.cfg.maxAttempts) : PollOnly s s.startLine := by
    rw [hv]; exact s.waitUntilReady_only _
  cases hstep : s.seq.step with
  | i0 | i1 =>
    exact hplain (by simp only [State.startLine, State.assigned, hstep]; rfl)
      (fun e => absurd (hstep.symm.trans e) (by decide))
  | i2 =>
    exact hplain (by simp only [State.startLine, State.assigned, hstep, State.emit_seq])
      (fun _ => by simp only [State.startLine, hstep, State.emit_cr])
  | i5 | s0 | w0 | w1 | w2 | w6 | ret =>
    exact hplain (by simp only [State.startLine, State.assigned, hstep])
      (fun e => absurd (hstep.symm.trans e) (by decide))
  | i3 =>
    refine PollOnly.lineCalled ?_ (by rw [hstep]; rfl)
    cases hom : s.cfg.omDefault with
    | quad => exact hwrite (by simp only [State.startLine, hstep, hom]; rfl)
    | single | dual => rw [show s.startLine = s by simp only [State.startLine, hstep, hom]]; exact PollOnly.refl s
  | m0 | m1 | s1 | s2 | w3 | w4 =>
    exact (hwrite (by simp only [State.startLine, hstep]; rfl)).lineCalled (by rw [hstep]; rfl)
  | i4 | restore => exact (hmapped (by simp only [State.startLine, hstep])).lineCalled (by rw [hstep]; rfl)
  | m2 | s3 | w5 => exact (hpoll (by simp only [State.startLine, hstep])).lineCalled (by rw [hstep]; rfl)

/-- A running operation whose call waits stands at a line that calls (R185, R361). -/
theorem State.lineMode.calls {s : State} (hm : s.lineMode) (hr : s.seq.state = .running) (hh : s.held = true) :
    s.seq.step.calls = true := by
  have hline := hm hr
  cases hstep : s.seq.step <;> rw [hstep] at hline <;> simp_all [Label.calls]

/-- A line's move is a step to a label, a return, or the failure of its poll (R282, R307). -/
theorem State.finishLine_cases (c : State) :
    (∃ l, c.finishLine = c.goto l) ∨ (∃ r, c.finishLine = c.respond r) ∨ c.finishLine = c.raise .timeout := by
  unfold State.finishLine
  split
  · split
    · split
      · exact .inl ⟨_, rfl⟩
      · exact .inl ⟨_, rfl⟩
    · exact .inr (.inl ⟨_, rfl⟩)
  · exact .inr (.inl ⟨_, rfl⟩)
  · split
    · exact .inr (.inl ⟨_, rfl⟩)
    · exact .inl ⟨_, rfl⟩
  · split
    · exact .inr (.inr rfl)
    · exact .inl ⟨_, rfl⟩
  · split
    · exact .inr (.inr rfl)
    · exact .inl ⟨_, rfl⟩
  · split
    · exact .inr (.inr rfl)
    · exact .inl ⟨_, rfl⟩
  · split
    · exact .inl ⟨_, rfl⟩
    · exact .inl ⟨_, rfl⟩
  · exact .inr (.inl ⟨_, rfl⟩)
  · exact .inl ⟨_, rfl⟩

/-- A line's move leaves the position alone but for the state, the label and the results; a running operation that it ends
has its result for a response (R282, R307). -/
theorem State.finishLine_moves {c : State} (hr : c.seq.state = .running) :
    c.finishLine.seq = { c.seq with state := c.finishLine.seq.state, step := c.finishLine.seq.step
                                    result := c.finishLine.seq.result, r := c.finishLine.seq.r }
      ∧ (c.finishLine.seq.state = .idle → c.finishLine.host.response = some c.finishLine.seq.result) := by
  obtain ⟨l, h⟩ | ⟨r, h⟩ | h := c.finishLine_cases <;> rw [h]
  · exact ⟨rfl, fun hi => absurd (hr.symm.trans hi) (by decide)⟩
  · exact ⟨rfl, fun _ => rfl⟩
  · exact ⟨rfl, fun hi => absurd (hr.symm.trans hi) (by decide)⟩

/-- What the line keeps of the position, and what it assigns. -/
theorem State.LineCalled.position {s c : State} (h : s.LineCalled c) :
    c.seq.state = s.seq.state ∧ c.seq.step = s.seq.step ∧ c.seq.op = s.seq.op ∧ c.seq.addr = s.seq.addr
      ∧ c.seq.len = s.seq.len ∧ c.seq.off = s.assigned.off ∧ c.seq.chunk = s.assigned.chunk := by
  obtain ⟨hstate, hstep, hop, haddr, hlen⟩ := s.assigned_frame
  exact ⟨(congrArg Seq.state h.seq).trans hstate, (congrArg Seq.step h.seq).trans hstep,
    (congrArg Seq.op h.seq).trans hop, (congrArg Seq.addr h.seq).trans haddr, (congrArg Seq.len h.seq).trans hlen,
    (congrArg Seq.off h.seq :), (congrArg Seq.chunk h.seq :)⟩

/-! The branches of the listings (R282). -/

section Branches

variable {c : State}

theorem State.finishLine_i2 (h : c.seq.step = .i2) :
    c.finishLine = if c.cr.en then c.goto (if c.cfg.omDefault = .quad then .i3 else .i4) else c.respond .fatalError := by
  simp only [State.finishLine, h, State.nextLabel, Label.next]
  by_cases hen : c.cr.en = true
  · simp only [if_pos hen]
    split <;> rfl
  · simp only [if_neg hen]
    rfl

theorem State.finishLine_s0 (h : c.seq.step = .s0) :
    c.finishLine
      = if c.seq.addr.toNat % c.cfg.sectorSize = 0 then c.goto .s1 else c.respond .alignmentError := by
  simp only [State.finishLine, h, State.nextLabel, Label.next, ite_not]
  rfl

theorem State.finishLine_w1 (h : c.seq.step = .w1) :
    c.finishLine = c.goto (if c.seq.off = c.seq.len then .restore else .w2) := by
  simp only [State.finishLine, h, State.nextLabel, Label.next]
  split <;> rfl

theorem State.finishLine_polls (h : c.seq.step.polls = true) :
    c.finishLine = if c.seq.r = .timeout then c.raise .timeout else c.nextLabel := by
  cases hs : c.seq.step with
  | m2 | s3 | w5 => simp only [State.finishLine, hs]
  | _ => rw [hs] at h; cases h

theorem State.finishLine_returns (h : c.seq.step = .i5 ∨ c.seq.step = .ret) : c.finishLine = c.respond c.seq.r := by
  rcases h with h | h <;> simp only [State.finishLine, h] <;> rfl

end Branches

/-- A step of a block that takes one line at a step: the calls of its line, and, unless one of them waits, its move (R12,
R185, R282). -/
theorem State.resume_line {s : State} (hm : s.lineMode) (hr : s.seq.state = .running) (hslice : s.env.slice = 0) :
    ∃ c, s.LineCalled c ∧ s.resume = if c.held then c else c.finishLine := by
  cases hh : s.held with
  | true =>
    have hcall := s.resumeCall_only
    refine ⟨s.resumeCall, hcall.lineCalled (hm.calls hr hh), ?_⟩
    rw [State.resume_held hh, State.afterCall, if_pos (hcall.seqState.trans hr), hcall.slice, hslice]
    rfl
  | false =>
    refine ⟨s.startLine, State.startLine_called hh, ?_⟩
    rw [State.resume_free hh, hslice, State.run_succ hr hh]
    rfl

/-- Settles O39: the line's calls by `resume_line`, its move by the label it stands at; most labels lead to the next one. -/
theorem sequencerMoves : Obligations.SequencerMoves := by
  intro s t _ hm hr hport hslice hstep
  obtain rfl := step_running hr hport hstep
  obtain ⟨c, hcalled, hres⟩ := State.resume_line hm hr hslice
  rw [hres]
  cases hh : c.held with
  | true =>
    rw [if_pos rfl]
    refine .inl ⟨hh, ?_⟩
    have hseq := hcalled.seq
    rw [hcalled.waits hh] at hseq
    exact hseq
  | false =>
    rw [if_neg (by decide)]
    obtain ⟨hstate, hlabel, hop, haddr, hlen, hoff, hchunk⟩ := hcalled.position
    obtain ⟨hmoved, hresponse⟩ := State.finishLine_moves (c := c) (hstate.trans hr)
    have hrun : c.seq.state = .running := hstate.trans hr
    have hnext {l : Label} (hs : s.seq.step = l) (hl : l.straight = true) :
        c.finishLine.seq.state = .running ∧ c.finishLine.seq.step = l.next := by
      rw [State.finishLine_straight (hlabel.trans hs) hl]
      exact ⟨hrun, congrArg Label.next (hlabel.trans hs)⟩
    have hoffEnd : c.finishLine.seq.off = s.assigned.off := (congrArg Seq.off hmoved).trans hoff
    have hchunkEnd : c.finishLine.seq.chunk = s.assigned.chunk := (congrArg Seq.chunk hmoved).trans hchunk
    refine .inr ⟨c.finishLine_held.trans hh, hresponse, (congrArg Seq.op hmoved).trans hop,
      (congrArg Seq.addr hmoved).trans haddr, (congrArg Seq.len hmoved).trans hlen,
      fun h0 h6 => hoffEnd.trans (State.assigned_off h0 h6), fun h2 => hchunkEnd.trans (State.assigned_chunk h2), ?_⟩
    cases hs : s.seq.step with
    | i0 | i1 | i3 | i4 | m0 | m1 | s1 | s2 | w3 | w4 | restore => exact hnext hs rfl
    | w0 =>
      obtain ⟨hgoes, hto⟩ := hnext hs rfl
      exact ⟨hgoes, hto, hoffEnd.trans (by simp only [State.assigned, hs])⟩
    | w2 =>
      obtain ⟨hgoes, hto⟩ := hnext hs rfl
      exact ⟨hgoes, hto, hchunkEnd.trans (by simp only [State.assigned, hs]; rfl)⟩
    | w6 =>
      obtain ⟨hgoes, hto⟩ := hnext hs rfl
      exact ⟨hgoes, hto, hoffEnd.trans (by simp only [State.assigned, hs])⟩
    | i2 =>
      rw [State.finishLine_i2 (hlabel.trans hs), hcalled.en hs, hcalled.cfg]
      by_cases hen : s.cr.en = true
      · simp only [if_pos hen]; exact ⟨hrun, rfl⟩
      · simp only [if_neg hen]; exact ⟨rfl, rfl⟩
    | s0 =>
      rw [State.finishLine_s0 (hlabel.trans hs), haddr, hcalled.cfg]
      by_cases hal : s.seq.addr.toNat % s.cfg.sectorSize = 0
      · simp only [if_pos hal]; exact ⟨hrun, rfl⟩
      · simp only [if_neg hal]; exact ⟨rfl, rfl⟩
    | w1 =>
      rw [State.finishLine_w1 (hlabel.trans hs), hlen, hoff, State.assigned_off (by simp [hs]) (by simp [hs])]
      exact ⟨hrun, rfl⟩
    | i5 =>
      rw [State.finishLine_returns (.inl (hlabel.trans hs)), hcalled.r (.inl hs)]
      exact ⟨rfl, by simp [State.assigned, hs]⟩
    | ret =>
      rw [State.finishLine_returns (.inr (hlabel.trans hs)), hcalled.r (.inr hs)]
      exact ⟨rfl, by simp [State.assigned, hs]⟩
    | m2 | s3 =>
      rw [State.finishLine_polls (by rw [hlabel, hs]; rfl)]
      by_cases hto : c.seq.r = .timeout
      · simp only [if_pos hto]; exact ⟨hrun, rfl⟩
      · simp only [if_neg hto]; exact ⟨hrun, congrArg Label.next (hlabel.trans hs)⟩
    | w5 =>
      rw [State.finishLine_polls (by rw [hlabel, hs]; rfl)]
      by_cases hto : c.seq.r = .timeout
      · simp only [if_pos hto]; exact ⟨hrun, rfl⟩
      · simp only [if_neg hto]
        exact ⟨hrun, (congrArg Label.next (hlabel.trans hs)).trans (if_neg hto).symm⟩

end Sys2Proof.Machine

/-! SUPPORT. The statement of the exceptions: `INIT` with a peripheral that does not enable (R267, R301, R308). -/

namespace Sys2Proof.Machine

/-- Settles O27: the accepted request runs I0 to I2 by `run_init_fatal`, and `raise FatalError` returns from there: no call
of `apply` is reached, so the mode, the transaction, the chip and the wire are as they were. -/
theorem initFatalError : Obligations.InitFatalError := by
  intro s es h hfm hslice hen
  obtain ⟨hcw, hb, -⟩ := h
  obtain ⟨-, hphase, hwait⟩ := State.busy_false hb
  obtain ⟨k, hk⟩ := Nat.exists_eq_add_of_le' hslice
  rw [exec_init, State.request_runs (op := .init) hcw hb (decide_eq_true hfm) rfl rfl, hk,
    State.run_init_fatal (s := s.accept .init _ _) rfl hwait hphase rfl hen]
  exact ⟨_, State.outcome_clear (State.readsWindow_idle hphase), rfl, rfl, rfl, hfm, rfl, rfl, rfl, rfl, rfl, rfl,
    State.respond_frames _ _, rfl⟩

end Sys2Proof.Machine

/-! SUPPORT. The family `70_reset_and_hazards.md`: what a step is with nothing at the port (R11, R282, R341), and a reset of
the block at any moment (R340, R342, R343). -/

namespace Sys2Proof.Machine

/-! ### A step with nothing at the port (R11, R341) -/

/-- Nothing at the port, a block that is not occupied and an empty program: the step leads nowhere (R341). -/
theorem step_nothingToDo {s : State} (hcw : s.cfg.wf = true) (hport : s.host.port = none) (hb : s.busy = false)
    (hprog : s.host.program = []) : step s = .next s := by
  simp [step, hcw, hport, hb, hprog]

/-- Settles O42: `step_occupied` for the occupied block, whose lines change HOST in its response alone (`resume_only`), and
`step_nothingToDo` for the idle one. -/
theorem idleBlockWaits : Obligations.IdleBlockWaits := by
  intro s hcw hport
  refine ⟨step_occupied hcw hport, fun hb hwin => ?_, step_nothingToDo hcw hport⟩
  have hnext : step s = .next s.resume := (step_occupied hcw hport hb).trans (State.outcome_clear hwin)
  have hprogram : s.resume.host.program = s.host.program := by rw [s.resume_only.host]
  exact ⟨s.resume, hnext, rfl, s.resume_only.fixed.buffer, hprogram⟩

/-! ### A reset of the block (R340, R342, R343) -/

/-- No frame is cut short exactly where a frame in flight has been delivered (U9). -/
theorem Ctrl.cutShort_eq_false_iff {c : Ctrl} :
    c.cutShort = false ↔ ∀ fl, c.inflight = some fl → fl.delivered = true := by
  unfold Ctrl.cutShort
  cases c.inflight <;> simp

/-- A reset of the block sends nothing and takes nothing back: the log is as it was (log entry 26). -/
theorem State.resetBlock_log (s : State) : s.resetBlock.log = s.log := by
  unfold State.resetBlock
  dsimp only
  split <;> rfl

/-- A reset of the block leaves the chip as it is, but where it cuts a frame short (R342, U9). -/
theorem State.resetBlock_flash (s : State) :
    s.resetBlock.flash = if s.ctrl.cutShort then s.chipUnknown.flash else s.flash := by
  unfold State.resetBlock
  dsimp only
  split <;> rfl

/-- Settles O54: the step is the reset of the block, which writes the reset values of R59 whatever was under way;
`resetBlock_fixed`, `resetBlock_log` and `resetBlock_flash` say what it leaves. -/
theorem blockReset : Obligations.BlockReset := by
  intro s hcw hport
  have hfixed := s.takePort.resetBlock_fixed
  have hframes : s.takePort.resetBlock.frames = s.frames :=
    congrArg (List.filterMap Event.frameSent) s.takePort.resetBlock_log
  refine ⟨s.takePort.resetBlock, step_port hcw hport, rfl, rfl, rfl, rfl, rfl, rfl, rfl, rfl, rfl, hfixed.buffer, hfixed.cfg,
    hframes, fun hdelivered => ?_⟩
  have hcut : s.takePort.ctrl.cutShort = false := Ctrl.cutShort_eq_false_iff.mpr hdelivered
  rw [State.resetBlock_flash, hcut]
  rfl

end Sys2Proof.Machine
